-- ==== Sys2Proof/Word.lean ====
section
/-!
DEFINITION. Word.lean: the words of the Z16 (spec/00_scope.md R5) and the sparse table that State uses for
everything that is numbered. Byte order, bit fields and sign extension live in Machine/Ops.lean, where they can be mended.
-/
namespace Sys2Proof

/-- A byte of memory (R5). -/
abbrev Byte := BitVec 8
/-- A 32-bit word: one part of a 128-bit word (R5), a lane, a counter. -/
abbrev W32 := BitVec 32
/-- A 64-bit word: a packet word, a net register, a special register. -/
abbrev W64 := BitVec 64
/-- A 128-bit word: a slot word, an action word, a stage image word (R5, R67). -/
abbrev W128 := BitVec 128
/-- 256 bits: a data register, a token's DATA, a generator descriptor (R16, R69). -/
abbrev W256 := BitVec 256

/-- A sparse table from numbers to values: keys strictly rising; an unlisted key has the value its owner names. -/
abbrev Tab (α : Type) := List (Nat × α)

namespace Tab

/-- The entry of key `k`, if one is listed. -/
def find? {α : Type} : Tab α → Nat → Option α
  | [], _ => none
  | (j, v) :: t, k => if j = k then some v else find? t k

/-- The value of key `k`; `d` where none is listed. -/
def getD {α : Type} (t : Tab α) (k : Nat) (d : α) : α := (t.find? k).getD d

/-- The table with `v` at key `k`, its keys still rising. -/
def put {α : Type} : Tab α → Nat → α → Tab α
  | [], k, v => [(k, v)]
  | (j, u) :: t, k, v =>
    if k < j then (k, v) :: (j, u) :: t
    else if k = j then (k, v) :: t
    else (j, u) :: put t k v

/-- The table with no entry at key `k`. -/
def drop {α : Type} : Tab α → Nat → Tab α
  | [], _ => []
  | (j, u) :: t, k => if j = k then t else (j, u) :: drop t k

/-- The keys listed, in rising order. -/
def keys {α : Type} (t : Tab α) : List Nat := t.map Prod.fst

/-- The values listed, in the order of their keys. -/
def vals {α : Type} (t : Tab α) : List α := t.map Prod.snd

/-- Every key listed is above `k` and the keys rise. -/
def risesFrom {α : Type} : Option Nat → Tab α → Bool
  | _, [] => true
  | none, (j, _) :: t => risesFrom (some j) t
  | some k, (j, _) :: t => decide (k < j) && risesFrom (some j) t

end Tab
end Sys2Proof
end

