-- ==== Sys2Proof/Machine/Numeric.lean ====
section
/-!
DEFINITION. Numeric.lean: the number formats and the rounding of the Z16 (spec/05_formats_rules.md R52-R61). A finite value
is an exact dyadic (a sign, a Nat and a power of two), so that every operation is exact before RoundTo (R8, R64).
-/
namespace Sys2Proof.Machine

/-- A value: NaN, an infinity by its sign, or (-1)^neg * man * 2^exp exactly (R52). -/
inductive FVal where
  | nan
  | inf (neg : Bool)
  | fin (neg : Bool) (man : Nat) (exp : Int)
  deriving DecidableEq, Repr

/-- A format family (R56). -/
inductive Fam where
  | b8 | b8u | f16 | bf16 | f32 | i8 | i4 | i32
  deriving DecidableEq, Repr

/-- A descriptor byte taken apart (R56). -/
structure Fmt where
  mx  : Bool
  inf : Bool
  fam : Fam
  p   : Nat
  deriving DecidableEq, Repr

/-- A rounding mode (R58). -/
inductive RM where
  | rne | rtz | rup | rdn | sr
  deriving DecidableEq, Repr

/-- The mode of an RM code; 5 to 7 are reserved and never pass CFG (R58). -/
def RM.ofCode (c : Nat) : RM :=
  match c with
  | 0 => .rne | 1 => .rtz | 2 => .rup | 3 => .rdn | _ => .sr

/-- The family of a FAM code (R56). -/
def Fam.ofCode (c : Nat) : Fam :=
  match c with
  | 0 => .b8 | 1 => .b8u | 2 => .f16 | 3 => .bf16 | 4 => .f32 | 5 => .i8 | 6 => .i4 | _ => .i32

/-- The FAM code of a family (R56). -/
def Fam.code : Fam → Nat
  | .b8 => 0 | .b8u => 1 | .f16 => 2 | .bf16 => 3 | .f32 => 4 | .i8 => 5 | .i4 => 6 | .i32 => 7

/-- Families 0 to 4 are floating. -/
def Fam.isFloat (f : Fam) : Bool := decide (f.code < 5)

/-- Bits of one element of a family (R52). -/
def Fam.width : Fam → Nat
  | .b8 => 8 | .b8u => 8 | .f16 => 16 | .bf16 => 16 | .f32 => 32 | .i8 => 8 | .i4 => 4 | .i32 => 32

/-- The fields of a descriptor byte (R56). -/
def Fmt.ofByte (b : Byte) : Fmt :=
  let n := b.toNat
  { mx := decide (n / 128 = 1), inf := decide (n / 64 % 2 = 1), fam := Fam.ofCode (n / 8 % 8), p := n % 8 }

/-- A descriptor is valid (R56). -/
def Fmt.valid (f : Fmt) : Bool :=
  match f.fam with
  | .b8 | .b8u => f.p != 0
  | .i8 | .i4  => f.p == 0 && !f.inf
  | _          => f.p == 0 && !f.inf && !f.mx

/-- binary32. -/
def fmt32 : Fmt := { mx := false, inf := false, fam := .f32, p := 0 }

/-- Lanes of a format in a token (R54). -/
def Fmt.lanes (f : Fmt) : Nat := 256 / f.fam.width

/-- Significant digits of a floating format, the leading one counted (R52). -/
def Fmt.prec (f : Fmt) : Nat :=
  match f.fam with
  | .f16 => 11 | .bf16 => 8 | .f32 => 24 | _ => f.p

/-- Bits of the exponent field (R52). -/
def Fmt.expBits (f : Fmt) : Nat :=
  match f.fam with
  | .b8 => 8 - f.p | .b8u => 9 - f.p | .f16 => 5 | _ => 8

/-- The bias of a floating format (R52). -/
def Fmt.bias (f : Fmt) : Nat :=
  match f.fam with
  | .b8 | .b8u => 2 ^ (f.expBits - 1)
  | .f16 => 15
  | _ => 127

/-- A binary8 family. -/
def Fmt.isB8 (f : Fmt) : Bool :=
  match f.fam with
  | .b8 | .b8u => true
  | _ => false

/-- The format has infinities (R52). -/
def Fmt.hasInf (f : Fmt) : Bool := !f.isB8 || f.inf

/-- The canonical NaN (R55). -/
def Fmt.nanCode (f : Fmt) : Nat :=
  match f.fam with
  | .b8 => 0x80 | .b8u => 0xFF | .f16 => 0x7E00 | .bf16 => 0x7FC0 | .f32 => 0x7FC00000 | _ => 0

/-- The code of the largest finite value (R53). -/
def Fmt.maxCode (f : Fmt) : Nat :=
  match f.fam with
  | .b8  => if f.inf then 0x7E else 0x7F
  | .b8u => if f.inf then 0xFD else 0xFE
  | .f16 => 0x7BFF | .bf16 => 0x7F7F | .f32 => 0x7F7FFFFF | _ => 0

/-- The sign bit of a code, as a weight; 0 in the unsigned family (R52). -/
def Fmt.signWeight (f : Fmt) : Nat :=
  match f.fam with
  | .b8u => 0
  | _ => 2 ^ (f.fam.width - 1)

/-- The exponent of the least normal value: 1 - bias (R52). -/
def Fmt.emin (f : Fmt) : Int := 1 - (f.bias : Int)

/-- The value of the magnitude bits of a code that is neither NaN nor an infinity (R52). -/
def Fmt.magnitude (f : Fmt) (neg : Bool) (body : Nat) : FVal :=
  let t := f.prec - 1
  let e := body / 2 ^ t
  let m := body % 2 ^ t
  if e = 0 then .fin neg m (f.emin - t) else .fin neg (2 ^ t + m) ((e : Int) - f.bias - t)

/-- Decodes a code of a floating format (R52). -/
def Fmt.decodeF (f : Fmt) (code : Nat) : FVal :=
  match f.fam with
  | .b8u =>
    let c := code % 256
    if c = 0xFF then .nan
    else if f.inf && c == 0xFE then .inf false
    else f.magnitude false c
  | .b8 =>
    let c := code % 256
    if c = 0x80 then .nan
    else if f.inf && c == 0x7F then .inf false
    else if f.inf && c == 0xFF then .inf true
    else f.magnitude (c / 128 == 1) (c % 128)
  | _ =>
    let c := code % 2 ^ f.fam.width
    let neg := c / f.signWeight == 1
    let body := c % f.signWeight
    let t := f.prec - 1
    if body / 2 ^ t = 2 ^ f.expBits - 1 then
      if body % 2 ^ t = 0 then .inf neg else .nan
    else f.magnitude neg body

/-- A two's complement number of w bits. -/
def sext (w n : Nat) : Int :=
  let m := n % 2 ^ w
  if 2 * m < 2 ^ w then (m : Int) else (m : Int) - 2 ^ w

/-- The low w bits of an integer. -/
def wrap (w : Nat) (x : Int) : Nat := (x % (2 ^ w : Int)).toNat

/-- An integer held between two bounds. -/
def clampInt (lo hi x : Int) : Int := if x < lo then lo else if hi < x then hi else x

/-- An integer as an exact value. -/
def FVal.ofInt (x : Int) : FVal := .fin (decide (x < 0)) x.natAbs 0

/-- Decodes a code of any format: the value of a lane (R52). -/
def Fmt.decode (f : Fmt) (code : Nat) : FVal :=
  if f.fam.isFloat then f.decodeF code else .ofInt (sext f.fam.width code)

/-- The value is NaN. -/
def FVal.isNan : FVal → Bool
  | .nan => true
  | _ => false

/-- The value is an infinity. -/
def FVal.isInf : FVal → Bool
  | .inf _ => true
  | _ => false

/-- The value is a zero. -/
def FVal.isZero : FVal → Bool
  | .fin _ 0 _ => true
  | _ => false

/-- The value with the other sign. -/
def FVal.neg : FVal → FVal
  | .nan => .nan
  | .inf s => .inf (!s)
  | .fin s m e => .fin (!s) m e

/-- The sign bit of a value. -/
def FVal.sign : FVal → Bool
  | .nan => false
  | .inf s => s
  | .fin s _ _ => s

/-- The absolute value. -/
def FVal.abs : FVal → FVal
  | .nan => .nan
  | .inf _ => .inf false
  | .fin _ m e => .fin false m e

/-- A Nat shifted by an integer number of places; places lost below are dropped. -/
def shiftNat (m : Nat) (k : Int) : Nat := if 0 ≤ k then m <<< k.toNat else m >>> (-k).toNat

/-- The value as an integer multiple of 2^e, for e at most its own exponent. -/
def alignInt (neg : Bool) (m : Nat) (e e0 : Int) : Int :=
  let a := (m <<< (e - e0).toNat : Nat)
  if neg then -(a : Int) else (a : Int)

/-- The sign an exact zero sum takes: +0 but in RDN (R55). -/
def zeroSign (rm : RM) : Bool :=
  match rm with
  | .rdn => true
  | _ => false

/-- The exact sum; the sign of a zero sum follows R55 and IEEE 754. -/
def FVal.add (rm : RM) : FVal → FVal → FVal
  | .nan, _ => .nan
  | _, .nan => .nan
  | .inf s, .inf t => if s = t then .inf s else .nan
  | .inf s, _ => .inf s
  | _, .inf t => .inf t
  | .fin s m e, .fin t n k =>
    let e0 := if e ≤ k then e else k
    let x := alignInt s m e e0 + alignInt t n k e0
    if x = 0 then .fin (if m = 0 && n = 0 && s == t then s else zeroSign rm) 0 e0
    else .fin (decide (x < 0)) x.natAbs e0

/-- The exact product (R134: 0 times an infinity is NaN). -/
def FVal.mul : FVal → FVal → FVal
  | .nan, _ => .nan
  | _, .nan => .nan
  | .inf s, .inf t => .inf (s != t)
  | .inf s, .fin t m _ => if m = 0 then .nan else .inf (s != t)
  | .fin s m _, .inf t => if m = 0 then .nan else .inf (s != t)
  | .fin s m e, .fin t n k => .fin (s != t) (m * n) (e + k)

/-- The value times 2^n, exactly. -/
def FVal.scale (x : FVal) (n : Int) : FVal :=
  match x with
  | .fin s m e => .fin s m (e + n)
  | y => y

/-- -1, 0 or 1 as the first of two values is below, equal to or above the second; none when either is NaN (R127). -/
def FVal.cmp : FVal → FVal → Option Int
  | .nan, _ => none
  | _, .nan => none
  | .inf s, .inf t => some (if s = t then 0 else if s then -1 else 1)
  | .inf s, _ => some (if s then -1 else 1)
  | _, .inf t => some (if t then 1 else -1)
  | .fin s m e, .fin t n k =>
    let e0 := if e ≤ k then e else k
    let x := alignInt s m e e0 - alignInt t n k e0
    some (if x < 0 then -1 else if x = 0 then 0 else 1)

/-- The floor of the base-2 logarithm of m*2^e, for m above 0. -/
def floorLog2 (m : Nat) (e : Int) : Int := (Nat.log2 m : Int) + e

/-- One Galois step of SRNG (R61). -/
def srngStep (s : W32) : W32 := if s.getLsbD 0 then (s >>> 1) ^^^ 0x80200003#32 else s >>> 1

/-- n Galois steps. -/
def srngSteps : Nat → W32 → W32
  | 0, s => s
  | n + 1, s => srngSteps n (srngStep s)

/-- Draw: sixteen steps, then the low half (R61). -/
def draw (s : W32) : Nat × W32 :=
  let t := srngSteps 16 s
  (t.toNat % 65536, t)

/-- A magnitude m*2^e rounded to a multiple of 2^q under a mode: the multiple, and SRNG after a draw if one was made. An
exact magnitude draws nothing (R58, R60). `tieUp` says how RNE settles a tie on an even or odd multiple. -/
def roundMul (neg : Bool) (m : Nat) (e q : Int) (rm : RM) (tieUp : Nat → Bool) (s : W32) : Nat × W32 :=
  if q ≤ e then (m <<< (e - q).toNat, s)
  else
    let sh := (q - e).toNat
    let lo := m >>> sh
    let rem := m - (lo <<< sh)
    if rem = 0 then (lo, s)
    else match rm with
      | .rne =>
        let half := 2 ^ (sh - 1)
        (if half < rem || (rem == half && tieUp lo) then lo + 1 else lo, s)
      | .rtz => (lo, s)
      | .rup => (if neg then lo else lo + 1, s)
      | .rdn => (if neg then lo + 1 else lo, s)
      | .sr =>
        let (v, t) := draw s
        (if 65536 ≤ ((rem <<< 16) >>> sh) + v then lo + 1 else lo, t)

/-- A tie goes to the even multiple. -/
def tieEven (lo : Nat) : Bool := lo % 2 == 1

/-- A positive magnitude rounded to a format's precision and subnormal spacing, the exponent unbounded above (R58-R60):
the multiple, its power of two, and SRNG. In binary8p1 a tie goes to the even biased exponent. -/
def Fmt.roundMag (f : Fmt) (neg : Bool) (m : Nat) (e : Int) (rm : RM) (s : W32) : Nat × Int × W32 :=
  let k := floorLog2 m e
  let top := if k < f.emin then f.emin else k
  let q := top - ((f.prec : Int) - 1)
  let tie := if f.prec = 1 then (fun _ => decide (f.emin ≤ k) && decide ((q + f.bias) % 2 = 1)) else tieEven
  let (n, t) := roundMul neg m e q rm tie s
  (n, q, t)

/-- The magnitude bits of n*2^q, which the format represents (R52). -/
def Fmt.encodeMag (f : Fmt) (n : Nat) (q : Int) : Nat :=
  if n = 0 then 0
  else
    let k := floorLog2 n q
    let t := (f.prec : Int) - 1
    if k < f.emin then shiftNat n (q - (f.emin - t))
    else (k + f.bias).toNat * 2 ^ (f.prec - 1) + shiftNat n (q - (k - t)) - 2 ^ (f.prec - 1)

/-- The code of an infinity; of NaN where the format has none. -/
def Fmt.infCode (f : Fmt) (neg : Bool) : Nat :=
  match f.fam with
  | .b8  => if !f.inf then 0x80 else if neg then 0xFF else 0x7F
  | .b8u => if !f.inf || neg then 0xFF else 0xFE
  | _ => (if neg then f.signWeight else 0) + (2 ^ f.expBits - 1) * 2 ^ (f.prec - 1)

/-- The code of a signed magnitude; binary8 has one zero (R55). -/
def Fmt.signed (f : Fmt) (neg : Bool) (body : Nat) : Nat :=
  if body = 0 && f.isB8 then 0 else (if neg then f.signWeight else 0) + body

/-- What a rounding gives: the code, whether the value lay outside the finite range after rounding (R149), SRNG. -/
structure Rounded where
  code : Nat
  out  : Bool
  srng : W32
  deriving DecidableEq, Repr

/-- n*2^q is at most the largest finite magnitude. -/
def Fmt.inRange (f : Fmt) (n : Nat) (q : Int) : Bool :=
  match f.magnitude false f.maxCode with
  | .fin _ m e => FVal.cmp (.fin false n q) (.fin false m e) != some 1
  | _ => false

/-- RoundTo of a finite value other than a negative one into an unsigned format (R59, its last five lines). -/
def Fmt.roundFin (f : Fmt) (neg : Bool) (m : Nat) (e : Int) (rm : RM) (sat : Bool) (s : W32) : Rounded :=
  if m = 0 then ⟨f.signed neg 0, false, s⟩
  else
    let (n, q, t) := f.roundMag neg m e rm s
    if f.inRange n q then ⟨f.signed neg (f.encodeMag n q), false, t⟩
    else if sat then ⟨f.signed neg f.maxCode, true, t⟩
    else if !f.hasInf then ⟨f.nanCode, true, t⟩
    else match rm, neg with
      | .rtz, _ => ⟨f.signed neg f.maxCode, true, t⟩
      | .rup, true => ⟨f.signed neg f.maxCode, true, t⟩
      | .rdn, false => ⟨f.signed neg f.maxCode, true, t⟩
      | _, _ => ⟨f.infCode neg, true, t⟩

/-- RoundTo(x, fmt, mode, sat) into a floating format (R59). Where a negative value goes to an unsigned binary8 format under SR with a magnitude at or
above the least positive value, R59's text takes the spacing of that value and its pseudocode fmt's spacing; neither rounds to zero, and whether SR draws
follows fmt's own spacing here (log 75, DEDUCED). -/
def Fmt.roundTo (f : Fmt) (x : FVal) (rm : RM) (sat : Bool) (s : W32) : Rounded :=
  match x with
  | .nan => ⟨f.nanCode, false, s⟩
  | .inf neg =>
    if f.fam == .b8u && neg then ⟨if sat then 0 else f.nanCode, true, s⟩
    else if sat then ⟨f.signed neg f.maxCode, true, s⟩
    else ⟨f.infCode neg, true, s⟩
  | .fin neg m e =>
    if f.fam == .b8u && neg && m != 0 then
      let (n, _, t) := f.roundMag true m e rm s
      if n = 0 then ⟨0, false, t⟩ else ⟨if sat then 0 else f.nanCode, true, t⟩
    else f.roundFin neg m e rm sat s

/-- A finite value rounded to an integer under a mode (R59); a tie under RNE takes the even integer (R58). -/
def roundInt (neg : Bool) (m : Nat) (e : Int) (rm : RM) (s : W32) : Int × W32 :=
  let (n, t) := roundMul neg m e 0 rm tieEven s
  (if neg then -(n : Int) else (n : Int), t)

/-- The least and greatest values of a w-bit signed integer format. -/
def intMin (w : Nat) : Int := -(2 ^ (w - 1) : Int)
/-- The greatest value of a w-bit signed integer. -/
def intMax (w : Nat) : Int := 2 ^ (w - 1) - 1

/-- A floating value into a signed integer format: rounded under the mode, then saturated; NaN gives 0, which is none of the
results that R149 lists for RC (R59). -/
def Fmt.roundToInt (f : Fmt) (x : FVal) (rm : RM) (s : W32) : Rounded :=
  let w := f.fam.width
  match x with
  | .nan => ⟨0, false, s⟩
  | .inf neg => ⟨wrap w (if neg then intMin w else intMax w), true, s⟩
  | .fin neg m e =>
    let (v, t) := roundInt neg m e rm s
    ⟨wrap w (clampInt (intMin w) (intMax w) v), decide (v < intMin w) || decide (intMax w < v), t⟩

/-- Narrowing between integer formats: saturates under SAT, else keeps the low bits (R59). -/
def Fmt.narrowInt (f : Fmt) (v : Int) (sat : Bool) (s : W32) : Rounded :=
  let w := f.fam.width
  ⟨wrap w (if sat then clampInt (intMin w) (intMax w) v else v), decide (v < intMin w) || decide (intMax w < v), s⟩

/-- F32(x) = RoundTo(x, binary32, RNE, 0) as a value (R141). -/
def f32 (x : FVal) : FVal := fmt32.decode (fmt32.roundTo x .rne false 0).code

/-- The binary32 code of a value that is rounded RNE, with SAT 0. -/
def f32Code (x : FVal) : Nat := (fmt32.roundTo x .rne false 0).code

/-- Fma(a, b, c) = F32(a*b + c) (R141). -/
def fma32 (a b c : FVal) : FVal := f32 ((a.mul b).add .rne c)

/-- Lane l of a value at width w (R54). -/
def lane (w : Nat) (v : W256) (l : Nat) : Nat := (v.toNat >>> (w * l)) % 2 ^ w

/-- Lane l as a signed integer. -/
def laneS (w : Nat) (v : W256) (l : Nat) : Int := sext w (lane w v l)

/-- Lane l as Get reads it (R97): signed when U = 0, unsigned when U = 1. -/
def getLane (u : Bool) (w : Nat) (v : W256) (l : Nat) : Int := if u then (lane w v l : Int) else laneS w v l

/-- Lane values packed from bit 0 upward (R54). -/
def packNat (w : Nat) : List Nat → Nat
  | [] => 0
  | x :: t => x % 2 ^ w + 2 ^ w * packNat w t

/-- A 256-bit value of its lanes, lane 0 first. -/
def packLanes (w : Nat) (l : List Nat) : W256 := BitVec.ofNat 256 (packNat w l)

/-- A 256-bit value lane by lane: lane l is f l, for n lanes of w bits. -/
def ofLanes (w n : Nat) (f : Nat → Nat) : W256 := packLanes w ((List.range n).map f)

/-- One value in every lane of a token (R69). -/
def broadcast (w x : Nat) : W256 := ofLanes w (256 / w) (fun _ => x)

/-- One lane computed with SRNG in hand. -/
structure LaneOut where
  code : Nat
  /-- The lane's part of a result condition: NaN, or out of range. -/
  flag : Bool
  srng : W32
  deriving DecidableEq, Repr

/-- Lanes computed in ascending order, SRNG drawn in that order (R61). -/
def lanesM (f : Nat → W32 → LaneOut) : List Nat → W32 → List Nat × Bool × W32
  | [], s => ([], false, s)
  | l :: t, s =>
    let o := f l s
    let (cs, fl, s') := lanesM f t o.srng
    (o.code :: cs, o.flag || fl, s')

/-- n lanes of w bits, the or of their flags, and SRNG after them. -/
def mapLanes (w n : Nat) (f : Nat → W32 → LaneOut) (s : W32) : W256 × Bool × W32 :=
  let (cs, fl, s') := lanesM f (List.range n) s
  (packLanes w cs, fl, s')

/-- A rounded code as a lane whose flag is NaN-ness in the format. -/
def Rounded.nanLane (f : Fmt) (r : Rounded) : LaneOut := ⟨r.code, (f.decodeF r.code).isNan, r.srng⟩

end Sys2Proof.Machine
end

