-- ==== Sys2Proof/Syntax.lean ====
section
/-!
DEFINITION. Syntax.lean: what one whole step of the Z16 is, as data. An element instruction carries the fields of its
128-bit word (spec/07_encoding_rules.md R67), already taken apart; a micro-instruction those of R244; an action those of
R198; a packet those of R299.
-/
namespace Sys2Proof

/-- The element types that run guarded instructions (R76, R94). -/
inductive ElemType where
  | ce | mt | bn | gw
  deriving DecidableEq, Repr

/-- A token's control tag CT (R16). -/
inductive Tag where
  | data | head | tail | stop
  deriving DecidableEq, Repr

/-- A token (R16): control tag, format tag, data. -/
structure Token where
  ct   : Tag
  ft   : BitVec 3
  data : W256
  deriving DecidableEq, Repr

/-- An input condition of one port (R68); the code 011 is reserved and names none of these. -/
inductive PortCond where
  | any | present | empty | isData | isHead | isTail | isStop
  deriving DecidableEq, Repr

/-- An operand selector (R69). -/
inductive Sel where
  | d (n : Fin 8) | i (n : Fin 4) | imm | zero | k0 | k1
  deriving DecidableEq, Repr

/-- A destination (R70). -/
inductive Dst where
  | d (n : Fin 8) | o (n : Fin 4) | acc | srg | null | k
  deriving DecidableEq, Repr

/-- The fields of an element instruction word beside its opcode (R67). MOD and IMM are read by accessors of each class. -/
structure Slot where
  pval  : BitVec 8
  pcare : BitVec 8
  ic0   : PortCond
  ic1   : PortCond
  ic2   : PortCond
  ic3   : PortCond
  room  : BitVec 4
  pop   : BitVec 4
  dst   : Dst
  sa    : Sel
  sb    : Sel
  sc    : Sel
  outm  : BitVec 4
  pset  : BitVec 8
  pclr  : BitVec 8
  pres  : Option (Fin 8)
  mod   : BitVec 7
  tago  : Tag
  fto   : BitVec 3
  imm   : W32
  deriving DecidableEq, Repr

/-- The input condition of port `j`. -/
def Slot.ic (x : Slot) : Fin 4 → PortCond
  | 0 => x.ic0 | 1 => x.ic1 | 2 => x.ic2 | 3 => x.ic3

/-- A scope (R187, R227). -/
inductive Scope where
  | elem | sect | regn | die | mod | dom
  deriving DecidableEq, Repr

/-- A comparison of a signal word (R187, R198, R299). -/
inductive Cmp where
  | eq | ne | geu | ltu
  deriving DecidableEq, Repr

/-- A packet's header beside its code and unit count (R299). -/
structure PktHdr where
  cmpl : Bool
  irq  : Bool
  pre  : Bool
  dld  : Bool
  tag  : BitVec 16
  deriving DecidableEq, Repr

/-- One condition of a WAITALL or WAITANY (R299). -/
structure WaitCond where
  va    : BitVec 56
  op    : Cmp
  value : W64
  deriving DecidableEq, Repr

/-- A path by which DRAM cells are reached (R223). -/
inductive Aperture where
  | std | nbl | bar | remote
  deriving DecidableEq, Repr

/-- A place where accesses wait to perform, BQ(t) of R224. -/
inductive Target where
  | spad (mt bank : Nat)
  | pch (p : Nat)
  | ws (die bank : Nat)
  | remote (devid : Nat)
  deriving DecidableEq, Repr

/-- The Fjois versions a port's peer offers in training (R308), and the lanes that train. -/
structure LinkOffer where
  v2    : Bool
  v3    : Bool
  lanes : Fin 5
  deriving DecidableEq, Repr

/-- What the scrubber meets in one configuration slot (R292). -/
inductive ScrubFinding where
  /-- A SECDED error that is corrected, one that is not, or the CRC-64 signature that the scrubber has formed of a region; for the last two, whether a
  reload passes its checks. -/
  | clean | corrected | uncorrectable (reloads : Bool) | signature (formed : BitVec 64) (reloads : Bool)
  deriving DecidableEq, Repr

/-- A secured Fjois packet in clear (R312). -/
structure Packet where
  seq     : BitVec 48
  circ    : BitVec 16
  kgen    : BitVec 8
  type    : BitVec 4
  dst     : BitVec 10
  src     : BitVec 10
  ver     : BitVec 4
  payload : List Token
  /-- The request or control word in front of the payload: an address for TYPE 1 and 4, a control code for TYPE 5 (log 11). -/
  word    : W128
  deriving DecidableEq, Repr

/-- Whose barrier a BARRIER packet belongs to (R309, R314, R190). -/
inductive BarrierOf where
  | rekey (gen : Nat)
  | coll (id : Nat)
  deriving DecidableEq, Repr

/-- The switch's answer to a request for a reduction slot (R319). -/
inductive SwitchAnswer where
  | grant (lease : BitVec 16)
  | deny
  deriving DecidableEq, Repr

/-- A change of a domain's membership (R314). -/
inductive Membership where
  | joins (devid : BitVec 10)
  | leaves (devid : BitVec 10)
  /-- A domain forms at generation 1, this module among its members, or this module is admitted to one that has come to a generation (R311, R314). -/
  | formed (self : BitVec 10)
  | entered (self : BitVec 10) (gen : W32)
  deriving DecidableEq, Repr

/-- A host access through a BAR (R327): its requester, which BAR, byte offset, width in bytes, and the value of a write, little-endian. -/
structure HostAccess where
  req   : Nat
  bar   : Nat
  off   : Nat
  width : Nat
  write : Option Nat
  deriving DecidableEq, Repr


/-- What befalls one of the agents of the machine: an event of spec/opcode_table.json with the agent and what comes from
outside. -/
inductive Event where
  /-- The idle count of a TICK runs out and the picker may issue again (R109). -/
  | tickExpire (el : Nat)
  /-- An issued instruction completes, writing its result, tokens and result condition (R40). -/
  | instructionComplete (el firing : Nat)
  /-- The CSLOT length runs out, C2 stops and C0 is restored (R323). -/
  | cslotExpire (inst slot : Nat)
  /-- A TIMER's deadline passes and its firing completes (R207). -/
  | timerExpire (inst slot : Nat)
  /-- A WATCH's timeout passes without the compare holding and it completes with outcome 1 (R204). -/
  | watchTimeout (inst slot : Nat)
  /-- The NSQ starts one enabled transition: consumes tokens, reserves room, fills a firing slot and issues the action (R32). -/
  | transitionStart (inst t : Nat)
  /-- An action returns an outcome; output arcs deposit, reservations are released and the slot is freed (R32). -/
  | firingCompletion (inst slot : Nat)
  /-- The NSQ applies arrived completions, updates system places, evaluates transitions and starts at most one (R33). -/
  | nsqRound (inst : Nat)
  /-- A TIME quantum elapses and one token is added to the TIME place up to capacity (R35). -/
  | timeTick (inst : Nat)
  /-- A weight-store bank enters or leaves its refresh window in the rotation (R13). -/
  | wsRefresh (die : Nat)
  /-- A signal mirror re-reads its word after a change and updates its count (R340). -/
  | mirrorUpdate (inst place : Nat)
  /-- A WATCH re-reads its word after a change and completes when the compare holds (R204). -/
  | watchRecheck (inst slot : Nat)
  /-- The NSQ applies a posted FIN once no store is held and committed stores have performed (R103). -/
  | finApply (inst sid : Nat)
  /-- Once the section is drained, every tile installs its loaded image on the swap signal (R200). -/
  | swapInstall (inst slot : Nat)
  /-- After DONE, in-flight firings complete and held stores commit, and the instance retires (R25). -/
  | instanceRetire (inst : Nat)
  /-- The recorded child launches from the parent's queue after the parent retires (R45). -/
  | tailChildLaunch (inst : Nat)
  /-- The deadlock count reaches its interval and DEADLOCK is raised and the region killed (R50). -/
  | deadlock (inst : Nat)
  /-- A running generator puts its next access into its SQ (R226). -/
  | accessGenerate (el g : Nat)
  /-- A held store at the head of an EQ or SQ moves into the hold buffer (R226). -/
  | accessHold (el src idx : Nat)
  /-- An access leaves its EQ or SQ for an IB or BQ (R226). -/
  | accessLeave (el src idx : Nat)
  /-- The head of an ingress FIFO moves to the PCH command queue (R226). -/
  | accessIngress (pch : Nat) (ap : Aperture)
  /-- The head of a memory target's queue performs as a read, write or atomic (R226). -/
  | accessPerform (t : Target)
  /-- The head token of a circuit enters its input port when there is room (R226). -/
  | tokenDeliver (circuit : Nat)
  /-- A CRC error on a link causes the failing flit and later flits to be resent in order (R226). -/
  | linkReplay (port flit : Nat)
  /-- A Fjois port trains, choosing version 3 or 2, or stays down (R308). -/
  | linkTraining (port : Nat) (peer : LinkOffer)
  /-- A decoded Z-block's CRC is checked, raising DCXSUM on mismatch (R180). -/
  | dcxBlockCheck (el g : Nat)
  /-- The decompressor emits a token of a verified block when the port has room (R180). -/
  | dcxEmit (el g : Nat)
  /-- The die walker walks the table tree for a queued miss, ending in a translation or XLATE (R282). -/
  | pageWalk (die idx : Nat)
  /-- Markhor classifies a trap record and resolves, routes or holds it (R276). -/
  | trapClassify (inst : Nat)
  /-- With no must-drain firing in flight, the region is frozen, saved and replaced by C1 (R288). -/
  | preemptAccept (inst : Nat)
  /-- A saved region is restored on its tiles under the same bound (R289). -/
  | contextResume (inst : Nat)
  /-- The scrubber checks configuration slots and raises CFGECC on an error, reloading the region (R292). -/
  | scrub (el slot : Nat) (finding : ScrubFinding)
  /-- A run command at the head of a PCH queue starts when the stack's run limit allows (R253). -/
  | runStart (pch : Nat)
  /-- A suspended run resumes after the PCH has served refresh and waiting accesses (R254). -/
  | runResume (pch : Nat)
  /-- The emit buffer sends one token to the BN's input port (R248). -/
  | ebufDrain (pch : Nat)
  /-- A run ends: rows are precharged, EBUF drains and a TAIL with the error bitmap is placed (R251). -/
  | runEnd (pch : Nat)
  /-- A segment exceeds 640 fc and the run ends with NBERR code 3 (R250). -/
  | segmentTimeout (pch : Nat)
  /-- A due all-bank refresh is served at a PCH (R266). -/
  | refresh (pch : Nat)
  /-- A PCH's refresh falls due in the stack's refresh interval (R265). -/
  | refreshDue (pch : Nat)
  /-- A row-activation alert is served, refreshing neighbours and holding the PCH in back-off (R268). -/
  | alert (pch : Nat)
  /-- The back-off of an alert runs out and the PCH serves again (R268). -/
  | backoffEnd (pch : Nat)
  /-- A PCH idle for 512 fc enters power-down (R269). -/
  | powerDownEntry (pch : Nat)
  /-- A PCH idle for 64,000 fc enters self-refresh (R269). -/
  | selfRefreshEntry (pch : Nat)
  /-- A PCH leaves power-down or self-refresh after its exit latency (R270). -/
  | pchWake (pch : Nat)
  /-- A GW receives a secured packet and checks sequence, generation and tag (R313). -/
  | fjoisPacketReceive (gw : Nat) (bytes : List Byte)
  /-- A PAUSE arrives and the peer sets CSTAT.PAUSE and stops its step timer (R321). -/
  | pauseReceive (coll peer : Nat)
  /-- A RESUME arrives and the peer's timers continue (R321). -/
  | collResumeReceive (coll peer : Nat)
  /-- An ABORT arrives and the rank completes its COLL and marks the instance aborted (R343). -/
  | abortReceive (coll : Nat) (outcome : BitVec 2)
  /-- A BARRIER from a member arrives at the re-keying or barrier in progress (R314). -/
  | barrierReceive (peer : Nat) (what : BarrierOf)
  /-- The switch grants or denies a reduction slot to a binding instance (R319). -/
  | switchResponse (coll : Nat) (answer : SwitchAnswer)
  /-- A collective step is not done within TSTEP and the instance aborts (R318). -/
  | stepTimeout (coll : Nat)
  /-- A paused switch instance's lease runs out and the switch releases the slot and aborts it (R321). -/
  | leaseExpire (coll : Nat)
  /-- An RKEY timeout passes without every BARRIER and the module leaves the domain (R314). -/
  | rkeyTimeout (inst slot : Nat)
  /-- A member joins, leaves, is reset or loses its route, and firmware runs the re-keying image (R314). -/
  | membershipChange (change : Membership)
  /-- Markhor establishes an authenticated SPDM session with another member (R310). -/
  | spdmExchange (peer : Nat) (established : Bool) (secret : List Byte)
  /-- A write of a requester to a kick page announces a new tail for a queue (R297, R328). -/
  | kick (req page : Nat) (value : W64)
  /-- Markhor serves a PENDMAP bit by mapping the queue to a slot, evicting one if allowed (R298). -/
  | queueMap (die : Nat)
  /-- An ageing interval passes and a waiting queue's level rises (R298). -/
  | ageing (qcb : Nat)
  /-- A WAITALL or WAITANY timeout passes and it completes with status 1 (R299). -/
  | waitTimeout (slot : Nat)
  /-- A time-triggered entry's slot arrives and it launches, skips, queues or pre-empts (R301). -/
  | ttSlot (entry : Nat)
  /-- A 1PPS rising edge sets or disciplines the PTP clock (R302). -/
  | ppsEdge
  /-- No 1PPS edge arrives for 2 s and LOCK clears (R302). -/
  | ppsLoss
  /-- The host writes the PTP time of the next 1PPS edge (R302). -/
  | ptpset (value : W64)
  /-- Markhor's heartbeat check fails and scheduling freezes (R305). -/
  | heartbeatCheck (ok : Bool)
  /-- WDPET is not written within 10 ms; scheduling freezes and a WATCHDOG record is written (R305). -/
  | watchdog
  /-- A Markhor write to WDPET restarts the watchdog (R329). -/
  | wdpet (byMarkhor : Bool)
  /-- Starts an invalidation of matching TLB entries in every die (R284). -/
  | tlbinvGo (size : BitVec 2)
  /-- Accesses through dropped entries have performed and DONE becomes 1 (R284). -/
  | tlbinvDone
  /-- Submits the host's versions for negotiation, setting OK or ERR (R332). -/
  | hostnegGo (value : W64)
  /-- Copies the live values of selected MHUs into their read registers (R337). -/
  | mhuctlSnap (die : Nat) (mask : W64)
  /-- Together with SNAP, resets the live values of selected MHUs (R337). -/
  | mhuctlClr (die : Nat) (mask : W64)
  /-- A sample from an MHU's source updates its minimum, maximum, count and bin (R337). -/
  | mhuSample (die n : Nat) (v : Nat)
  /-- A write of LTIDX starts the fetch of a lifetime record (R338). -/
  | ltidxFetch (age : BitVec 13)
  /-- Markhor places the requested lifetime record in LTWIN and sets READY (R338). -/
  | ltwinReady
  /-- Each hour Markhor snapshots selected MHUs and writes a lifetime record to flash (R338). -/
  | lifetimeRecord
  /-- Every 100 µs the controller measures power and moves the throttle level (R335). -/
  | powerControl (watts : BitVec 13)
  /-- A read of KICKERR returns and clears the dropped-kick count (R329). -/
  | kickerrRead
  /-- A read of TTSTAT returns and clears MISS (R302). -/
  | ttstatRead
  /-- A read of STKRAM returns and clears ALERTS (R267). -/
  | stkramRead (stack : Nat)
  /-- A read of FPSTAT returns and clears RETRY (R308). -/
  | fpstatRead (port : Nat)
  /-- A written 1 clears PWRSTAT.OVER (R335). -/
  | pwrstatWrite (value : W32)
  /-- A host write to a device register with no behaviour of its own (R329). -/
  | registerWrite (off : Nat) (width : Nat) (value : BitVec 128)
  /-- A host access through a BAR reaches its range or completes as an unsupported request (R327). -/
  | hostBarAccess (a : HostAccess)
  /-- After reset the ROM tests, configures the strip, checks and starts firmware and forms the identity (R333). -/
  | boot (ok : Bool)
  /-- An accumulator bank becomes settled 63 fc after the last step into it, ending MSTAT.UNS and making ACCR, ACCZ, MDRN and similar slots ready (R157). -/
  | bankSettled (el bank : Nat)
  /-- A COLL.bind that has waited longer than TSTEP for every rank's announcement completes with outcome 1 (R319). -/
  | bindTimeout (coll : Nat)
  /-- A WAITALL or WAITANY condition word is re-read within 64 fc of a change, and the packet completes once its conditions hold (R299). -/
  | waitConditionReread (slot : Nat)
  /-- An all-bank refresh ends after tRFCab, PCHST.PWR leaves 3 and the PCH serves its queue again (R265). -/
  | refreshEnd (pch : Nat)
  /-- A die sensor crosses 105 °C, setting or clearing PWRSTAT.HOT and forcing throttle level 15 regardless of EN (R335). -/
  | dieTemperatureHot (hot : Bool)
  deriving DecidableEq, Repr

/-- One constructor for every row of spec/opcode_table.json: an element instruction with its slot word's fields, a
near-bank micro-instruction, a net action, a packet, a mailbox command, or the name of an event, whose arguments are an
`Event`. -/
inductive Instr where
  /-- Element no-operation; its guard and effect fields still pop ports and move predicates (R102). -/
  | nop (x : Slot)
  /-- Decrements RemainingTiles, or with FIN completes the oldest in-flight ARM of the section with an outcome (R103). -/
  | outc (x : Slot)
  /-- Raises SWTRAP with a code after its issue effects and freezes the element (R104). -/
  | trap (x : Slot)
  /-- Raises BKPT and freezes the element when DBGCTL.BKEN is 1, otherwise acts as NOP (R104). -/
  | bkpt (x : Slot)
  /-- Reads a special register into the destination, zero-extended (R105). -/
  | rdsr (x : Slot)
  /-- Writes bits [63:0] of opA into a special register (R105). -/
  | wrsr (x : Slot)
  /-- Sets counter K0 or K1 to opA[31:0] (R106). -/
  | kset (x : Slot)
  /-- Decrements counter K0 or K1 unless it is already zero (R106). -/
  | kdec (x : Slot)
  /-- Adds opA[31:0] to counter K0 or K1 modulo 2^32 (R106). -/
  | kadd (x : Slot)
  /-- Forms a result condition from two predicates through a 4-bit truth table (R107). -/
  | plog (x : Slot)
  /-- Counts an event counter and optionally offers a sample to the bound MHU when DBGCTL.EVEN is 1 (R111). -/
  | evnt (x : Slot)
  /-- Writes a descriptor into an FMTTAB slot, or raises FMTBAD for an invalid descriptor (R108). -/
  | fmtw (x : Slot)
  /-- Makes the picker issue nothing for n fc (R109). -/
  | tick (x : Slot)
  /-- Copies opA to the destination (R112). -/
  | mov (x : Slot)
  /-- Places IMM in one 32-bit part of an otherwise zero result (R112). -/
  | movi (x : Slot)
  /-- Extracts the lane of opA selected by opB into lane 0 (R112). -/
  | lane (x : Slot)
  /-- Inserts lane 0 of opB into opA at the lane selected by opC (R112). -/
  | insl (x : Slot)
  /-- Broadcasts the lane of opA selected by opB to every lane (R112). -/
  | bcst (x : Slot)
  /-- Permutes the lanes of opA by indices in opB, zeroing lanes whose index has the top bit set (R112). -/
  | perm (x : Slot)
  /-- Rotates the lanes of opA upward by a count from opB (R112). -/
  | rotl (x : Slot)
  /-- Interleaves lanes of one half of opA and opB (R112). -/
  | zipl (x : Slot)
  /-- De-interleaves even or odd lanes of opA and opB (R112). -/
  | unzl (x : Slot)
  /-- Reads the CT and FT of a port head into the result (R113). -/
  | tagr (x : Slot)
  /-- Emits a port head unchanged, with its tags, to output ports (R113). -/
  | fwd (x : Slot)
  /-- Emits opA on one of two output ports chosen by a control lane (R115). -/
  | steer (x : Slot)
  /-- Takes the operand chosen by a control lane and pops only the chosen and control ports (R116). -/
  | merge (x : Slot)
  /-- Retags the CT of a port head in place (R114). -/
  | ctag (x : Slot)
  /-- Retags the FT of a port head in place (R114). -/
  | ftag (x : Slot)
  /-- Lane-wise integer addition with optional saturation (R117). -/
  | add (x : Slot)
  /-- Lane-wise integer subtraction with optional saturation (R117). -/
  | sub (x : Slot)
  /-- Lane-wise integer multiplication (R117). -/
  | mul (x : Slot)
  /-- Lane-wise high half of an integer product (R117). -/
  | mulh (x : Slot)
  /-- Lane-wise integer multiply-add (R117). -/
  | mad (x : Slot)
  /-- Lane-wise integer division with defined results for division by zero (R118). -/
  | div (x : Slot)
  /-- Lane-wise integer remainder (R118). -/
  | rem (x : Slot)
  /-- Lane-wise integer minimum (R117). -/
  | min (x : Slot)
  /-- Lane-wise integer maximum (R117). -/
  | max (x : Slot)
  /-- Lane-wise integer absolute value (R117). -/
  | abs (x : Slot)
  /-- Lane-wise integer negation (R117). -/
  | neg (x : Slot)
  /-- Lane-wise addition scaled down by a per-lane rounding shift (R119). -/
  | adds (x : Slot)
  /-- Lane-wise subtraction scaled down by a per-lane rounding shift (R119). -/
  | subs (x : Slot)
  /-- Lane-wise clamp of opA between opB and opC (R117). -/
  | clmp (x : Slot)
  /-- Lane-wise product scaled down by a per-lane rounding shift (R119). -/
  | qmul (x : Slot)
  /-- Reduces the integer lanes of opA by a fixed tree into lane 0 (R120). -/
  | ired (x : Slot)
  /-- Bitwise AND (R121). -/
  | and (x : Slot)
  /-- Bitwise OR (R121). -/
  | or (x : Slot)
  /-- Bitwise exclusive OR (R121). -/
  | xor (x : Slot)
  /-- Bitwise AND of opA with the complement of opB (R121). -/
  | andn (x : Slot)
  /-- Lane-wise left shift (R122). -/
  | shl (x : Slot)
  /-- Lane-wise logical right shift (R122). -/
  | shr (x : Slot)
  /-- Lane-wise arithmetic right shift (R122). -/
  | sha (x : Slot)
  /-- Lane-wise bit rotation toward the high bit (R122). -/
  | rotb (x : Slot)
  /-- Lane-wise population count (R122). -/
  | popc (x : Slot)
  /-- Lane-wise count of leading zero bits (R122). -/
  | clz (x : Slot)
  /-- Bitwise select of opA or opB by the mask opC (R121). -/
  | bsel (x : Slot)
  /-- Extracts a bit field from each lane with sign or zero extension (R123). -/
  | bfx (x : Slot)
  /-- Inserts a bit field from opB into each lane of opA (R123). -/
  | bfi (x : Slot)
  /-- Performs one CRC-32C step over bytes of opB (R124). -/
  | crc (x : Slot)
  /-- Narrows the lanes of two operands into one result (R125). -/
  | pack (x : Slot)
  /-- Widens half the lanes of opA (R125). -/
  | unpk (x : Slot)
  /-- Lane-wise integer equality compare (R126). -/
  | cmpeq (x : Slot)
  /-- Lane-wise integer inequality compare (R126). -/
  | cmpne (x : Slot)
  /-- Lane-wise integer less-than compare (R126). -/
  | cmplt (x : Slot)
  /-- Lane-wise integer less-or-equal compare (R126). -/
  | cmple (x : Slot)
  /-- Lane-wise integer greater-than compare (R126). -/
  | cmpgt (x : Slot)
  /-- Lane-wise integer greater-or-equal compare (R126). -/
  | cmpge (x : Slot)
  /-- Lane-wise test that opA AND opB is zero (R126). -/
  | tstz (x : Slot)
  /-- Lane-wise test that opA AND opB is nonzero (R126). -/
  | tstnz (x : Slot)
  /-- Lane-wise floating-point equality compare (R127). -/
  | fcmeq (x : Slot)
  /-- Lane-wise floating-point less-than compare (R127). -/
  | fcmlt (x : Slot)
  /-- Lane-wise floating-point less-or-equal compare (R127). -/
  | fcmle (x : Slot)
  /-- Lane-wise unordered compare, true where either lane is NaN (R127). -/
  | fcmun (x : Slot)
  /-- Sets lane 0 to all ones if any lane of opA is nonzero (R129). -/
  | anyl (x : Slot)
  /-- Sets lane 0 to all ones if every lane of opA is nonzero (R129). -/
  | alll (x : Slot)
  /-- Lane-wise select of opA or opB by opC (R128). -/
  | sel (x : Slot)
  /-- Returns the index of the lowest nonzero lane (R129). -/
  | firstl (x : Slot)
  /-- Lane-wise floating-point addition rounded once (R134). -/
  | fadd (x : Slot)
  /-- Lane-wise floating-point subtraction rounded once (R134). -/
  | fsub (x : Slot)
  /-- Lane-wise floating-point multiplication rounded once (R134). -/
  | fmul (x : Slot)
  /-- Lane-wise fused multiply-add (R134). -/
  | fma (x : Slot)
  /-- Lane-wise fused multiply-subtract (R134). -/
  | fms (x : Slot)
  /-- Lane-wise fused negated multiply-add (R134). -/
  | fnma (x : Slot)
  /-- Lane-wise floating-point minimum (R135). -/
  | fmin (x : Slot)
  /-- Lane-wise floating-point maximum (R135). -/
  | fmax (x : Slot)
  /-- Lane-wise floating-point absolute value (R135). -/
  | fabs (x : Slot)
  /-- Lane-wise floating-point negation (R135). -/
  | fneg (x : Slot)
  /-- Reduces the floating-point lanes of opA by a fixed tree (R138). -/
  | fred (x : Slot)
  /-- Two-term 16-bit dot product accumulated into binary32 lanes (R139). -/
  | fdot2 (x : Slot)
  /-- Lane-wise scaling by a power of two (R136). -/
  | fscl (x : Slot)
  /-- Writes a class bit for each floating-point lane (R137). -/
  | fcls (x : Slot)
  /-- Rounds each lane to an integral value under RM (R136). -/
  | frnd (x : Slot)
  /-- Merges online-softmax states (OSM.m) or their accumulators (OSM.a) (R140). -/
  | osm (x : Slot)
  /-- Lane-wise reciprocal by the stated steps (R144). -/
  | frcp (x : Slot)
  /-- Lane-wise reciprocal square root (R145). -/
  | frsq (x : Slot)
  /-- Lane-wise square root (R145). -/
  | fsqrt (x : Slot)
  /-- Lane-wise base-2 exponential (R142). -/
  | fexp2 (x : Slot)
  /-- Lane-wise base-2 logarithm (R143). -/
  | flog2 (x : Slot)
  /-- Lane-wise sine (R146). -/
  | fsin (x : Slot)
  /-- Lane-wise cosine (R146). -/
  | fcos (x : Slot)
  /-- Lane-wise hyperbolic tangent (R147). -/
  | ftanh (x : Slot)
  /-- Lane-wise logistic sigmoid (R147). -/
  | fsigm (x : Slot)
  /-- Lane-wise error function (R147). -/
  | ferf (x : Slot)
  /-- Lane-wise natural exponential (R142). -/
  | fexp (x : Slot)
  /-- Lane-wise floating-point division (R144). -/
  | fdiv (x : Slot)
  /-- Converts floating lanes to another floating format (R150). -/
  | cvt (x : Slot)
  /-- Converts floating lanes to an integer format with saturation (R150). -/
  | cvti (x : Slot)
  /-- Converts integer lanes to a floating format (R150). -/
  | cvtf (x : Slot)
  /-- Quantises lanes under an E8M0 scale (R151). -/
  | qnt (x : Slot)
  /-- Dequantises lanes under an E8M0 scale (R151). -/
  | dqnt (x : Slot)
  /-- Computes a running absolute maximum and the shared MX scale for a target format (R152). -/
  | mxsc (x : Slot)
  /-- Rounds lanes to a target value set while keeping the source format (R150). -/
  | srnd (x : Slot)
  /-- Narrows two tokens into one at half the width (R153). -/
  | narw (x : Slot)
  /-- Widens lanes to exactly twice the width (R150). -/
  | widn (x : Slot)
  /-- Packs two 8-bit operands into paired INT4 nibbles (R154). -/
  | pk4 (x : Slot)
  /-- Unpacks INT4 nibbles into 8-bit lanes (R154). -/
  | upk4 (x : Slot)
  /-- Replaces the element's SRNG state (R155). -/
  | seed (x : Slot)
  /-- Applies one matrix k-step of two port heads to an accumulator bank (R159). -/
  | mma (x : Slot)
  /-- Zeroes an accumulator bank and applies one k-step (R159). -/
  | mmaz (x : Slot)
  /-- Applies a sparse k-step with per-value column coordinates (R161). -/
  | mmsp (x : Slot)
  /-- Accumulates one matrix-vector column into column 0 of a bank (R160). -/
  | mmv (x : Slot)
  /-- Loads MX scales of an operand from a HEAD token (R162). -/
  | mxb (x : Slot)
  /-- Emits the next part of the next unsent accumulator row converted to a format (R164). -/
  | accr (x : Slot)
  /-- Writes eight raw cells of an accumulator row (R165). -/
  | accw (x : Slot)
  /-- Zeroes an accumulator bank and its read state (R165). -/
  | accz (x : Slot)
  /-- Scales every cell of a bank by a power of two (R166). -/
  | accs (x : Slot)
  /-- Adds the other bank into the target bank cell by cell (R166). -/
  | acca (x : Slot)
  /-- Waits until both banks settle and reports their overflow flags (R167). -/
  | mdrn (x : Slot)
  /-- Reads a bank's MSTAT word, optionally clearing OVF (R167). -/
  | mstat (x : Slot)
  /-- Runs array test patterns and raises STFAIL on a failing sub-array (R168). -/
  | mtest (x : Slot)
  /-- Transposes an accumulator bank (R166). -/
  | trns (x : Slot)
  /-- Takes the section's next rasterisation entry (R169). -/
  | rast (x : Slot)
  /-- Loads a scratchpad token (R171). -/
  | lds (x : Slot)
  /-- Stores a token to the scratchpad (R171). -/
  | sts (x : Slot)
  /-- Gathers lane elements from scratchpad addresses (R171). -/
  | ldsx (x : Slot)
  /-- Scatters lane elements to scratchpad addresses (R171). -/
  | stsx (x : Slot)
  /-- Atomically combines a scratchpad token with opB and returns the old value (R172). -/
  | satm (x : Slot)
  /-- Loads a generator descriptor, raising PROT for an invalid one (R175). -/
  | gset (x : Slot)
  /-- Starts a generator from its first element (R175). -/
  | grun (x : Slot)
  /-- Suspends a generator at its next burst boundary (R175). -/
  | gsus (x : Slot)
  /-- Resumes a suspended or faulted generator from its saved state (R175). -/
  | gres (x : Slot)
  /-- Holds one set of generators until earlier accesses of another set have performed (R176). -/
  | sbar (x : Slot)
  /-- Opens a store-hold frame with an iteration vector (R177). -/
  | hold (x : Slot)
  /-- Hands the held stores to memory in order and closes the frame (R177). -/
  | cmit (x : Slot)
  /-- Drops every held store and closes the frame (R177). -/
  | disc (x : Slot)
  /-- Sets the decompressor's accepted version and FT source (R180). -/
  | dcxc (x : Slot)
  /-- Appends a token to an MT queue, raising QFULL on a full extensible queue (R181). -/
  | qapp (x : Slot)
  /-- Removes the oldest entry of an MT queue (R181). -/
  | qtak (x : Slot)
  /-- Loads 32 bytes from a virtual address (R185). -/
  | gld (x : Slot)
  /-- Stores 32 bytes to a virtual address, held in an MT frame (R185). -/
  | gst (x : Slot)
  /-- Performs a single-copy atomic on one lane in global memory (R185). -/
  | gatm (x : Slot)
  /-- Wakes the PCH holding a VA without transferring data (R186). -/
  | gprf (x : Slot)
  /-- Reads a token from the die's weight store within a weight image (R186). -/
  | wsld (x : Slot)
  /-- Releases by writing or adding a signal word at a scope (R187). -/
  | sigw (x : Slot)
  /-- Acquires by reading and comparing a signal word at a scope (R187). -/
  | sigr (x : Slot)
  /-- Fences the element's and its generators' earlier accesses at a scope (R187). -/
  | fnc (x : Slot)
  /-- Posts a write of a PCH query buffer (R188). -/
  | nbq (x : Slot)
  /-- Posts a near-bank run of a command token to the PCH (R188). -/
  | nbr (x : Slot)
  /-- Reads PCHST of the BN's PCH (R188). -/
  | nbst (x : Slot)
  /-- Packs the lanes of opA selected by opB (R189). -/
  | fltr (x : Slot)
  /-- Combines opA and opB lane by lane by add, max or min (R189). -/
  | rdce (x : Slot)
  /-- Sends one token on a bound collective circuit (R190). -/
  | csnd (x : Slot)
  /-- Takes the next token received on a circuit (R190). -/
  | crcv (x : Slot)
  /-- Combines the next received token with opA (R190). -/
  | cred (x : Slot)
  /-- Waits until every peer of the instance reaches its barrier or the instance aborts (R190). -/
  | cbar (x : Slot)
  /-- Opens a row in each participating bank (R245). -/
  | act (off : BitVec 14)
  /-- Closes the open row and advances ROW (R245). -/
  | pre (inc : BitVec 14)
  /-- Reads a column of the open row into the latch (R245). -/
  | rd (off : BitVec 2) (col : BitVec 5)
  /-- Writes the latch to a column of the open row (R245). -/
  | wr (off : BitVec 2) (col : BitVec 5)
  /-- Zeroes a vector register or resets S, M and Z (R246). -/
  | zv (a : BitVec 3)
  /-- Multiply-accumulates latch lanes by query lanes into a vector register (R246). -/
  | macq (a : BitVec 2) (b : BitVec 3) (bf : Bool)
  /-- Adds a scalar times the latch into a vector register (R246). -/
  | axpy (a : BitVec 2) (b : BitVec 3) (fromS : Bool) (k : BitVec 4) (bf : Bool)
  /-- Forms the dot product of latch and query into S, optionally accumulating (R246). -/
  | dotq (b : BitVec 3) (acc bf : Bool)
  /-- Folds the score into the running maximum, sum and selected vectors (R247). -/
  | smx (vmask : BitVec 4)
  /-- Scales a vector register by a scalar (R246). -/
  | scal (a : BitVec 2) (b : BitVec 3) (fromS : Bool) (k : BitVec 4) (bf : Bool)
  /-- Adds one vector register into another (R246). -/
  | addv (a b : BitVec 2)
  /-- Counts a loop counter down and branches, optionally reloading it (R248). -/
  | loop (reload second : Bool) (target : BitVec 6)
  /-- Places one token per participating bank in the emit buffer (R248). -/
  | emit (a : BitVec 3) (ft : BitVec 3) (hi : Bool)
  /-- Copies a query buffer into the latch (R246). -/
  | movq (b : BitVec 3)
  /-- Sets S to minus infinity for positions at or beyond LEN and advances POS (R247). -/
  | mask (str : BitVec 6) (inc : BitVec 14)
  /-- Converts a vector register to 16-bit lanes in the latch (R246). -/
  | cvtl (a : BitVec 2) (sat bf : Bool)
  /-- Stores S, M or Z into a lane of a vector register (R246). -/
  | stv (a : BitVec 2) (addLc0 : Bool) (src : BitVec 2) (k : BitVec 4)
  /-- Arms a section with a tile count (R199). -/
  | arm (tgt stg : BitVec 8) (reg : Option (Fin 16)) (n : BitVec 16) (scope : Scope)
  /-- Loads a stage image into the load buffers of a configuration slot of a section (R200). -/
  | cfg (tgt img : BitVec 8) (shadow : Bool)
  /-- Waits for the section to drain and installs the loaded image (R200). -/
  | swap (tgt : BitVec 8) (shadow : Bool)
  /-- Starts a stream on a generator from a descriptor (R201). -/
  | strm (tgt desc : BitVec 8) (reg : Option (Fin 16)) (scope : Scope)
  /-- Waits until earlier streams of named generators have performed at a scope (R201). -/
  | sbarAction (scope : Scope) (mask : W64)
  /-- Writes a microprogram into the instruction stores of a PCH set (R202). -/
  | nbld (tgt prog : BitVec 8)
  /-- Posts one near-bank run to every PCH of a set (R202). -/
  | nbrun (tgt prog : BitVec 8) (rport : BitVec 2) (scope : Scope) (lc0 lc1 : W32) (row0 : BitVec 14) (len : BitVec 16)
  /-- Copies bytes from a VA into the weight store (R203). -/
  | wsw (tgt : BitVec 8) (va : BitVec 56)
  /-- Releases by setting or adding a signal word at a scope (R204). -/
  | sign (tgt : BitVec 8) (add : Bool) (scope : Scope) (value : W64)
  /-- Acquires by waiting until a signal word satisfies a compare (R204). -/
  | watch (tgt : BitVec 8) (cmp : Cmp) (scope : Scope) (value : W64) (timeout : W32)
  /-- Sets a net register (R205). -/
  | nset (n : Fin 16) (value : W64)
  /-- Adds to a net register (R205). -/
  | nadd (n : Fin 16) (value : W64)
  /-- Compares a net register with a value into an outcome (R205). -/
  | ncmp (n : Fin 16) (unsigned : Bool) (value : W64)
  /-- Decrements a net register, with outcome 1 at zero (R205). -/
  | ndec (n : Fin 16)
  /-- Starts and binds a collective instance (R319). -/
  | collBind (tgt : BitVec 8)
  /-- Admits one step of tokens on every circuit of the rank (R318). -/
  | collStep (tgt : BitVec 8) (k : W32)
  /-- Releases a switch slot and unbinds the instance's circuits (R318). -/
  | collEnd (tgt : BitVec 8)
  /-- Swaps the collective shadow C2 in for a bounded time (R323). -/
  | cslot (tgt : BitVec 8) (length : W32)
  /-- Records a child net to launch after the parent retires (R45). -/
  | tail (tgt : BitVec 8)
  /-- Writes a completion record and raises an MSI-X vector (R207). -/
  | hosti (vec : BitVec 8) (reg : Option (Fin 16)) (value : W64)
  /-- Starts a firing that completes after a count of fc (R207). -/
  | timer (count : W32)
  /-- Reads a place count into a net register (R205). -/
  | nrdp (n : Fin 16) (place : BitVec 8)
  /-- Finishes the net instance with a status (R207). -/
  | done (status : BitVec 16)
  /-- Moves the module to the next key generation at a barrier (R314). -/
  | rkey (gen timeout : W32)
  /-- Firmware action that links a segment to an extensible channel (R208). -/
  | extend (tgt : BitVec 8) (a : BitVec 16) (b c d : W32)
  /-- NOP packet completes at dispatch (R299). -/
  | pktNop (h : PktHdr)
  /-- Launches a net instance on an allocated and placed region (R299). -/
  | launch (h : PktHdr) (image root : W64) (interval : W32) (dmask : BitVec 16) (ndm1 : BitVec 4)
  /-- Holds the queue until all its conditions hold at once or a timeout (R299). -/
  | waitall (h : PktHdr) (timeout : W32) (conds : List WaitCond)
  /-- Holds the queue until any of its conditions holds or a timeout (R299). -/
  | waitany (h : PktHdr) (timeout : W32) (conds : List WaitCond)
  /-- Writes or adds a signal word as a release at MOD scope (R299). -/
  | signal (h : PktHdr) (va : BitVec 56) (add : Bool) (value : W64)
  /-- Checks a net image and caches its placement (R299). -/
  | netload (h : PktHdr) (image : W64)
  /-- Waits until earlier instances of the queue and their TAIL children have retired (R299). -/
  | fence (h : PktHdr)
  /-- Writes a completion record carrying a value at dispatch (R299). -/
  | marker (h : PktHdr) (value : W64)
  /-- Writes or removes an entry of the time-triggered table (R301). -/
  | timed (h : PktHdr) (entry : BitVec 8) (rule : BitVec 2) (valid : Bool) (period start image root : W64)
  /-- Mailbox command mapping a queue to a strip slot (R306). -/
  | map (qcb die slot : W64)
  /-- Mailbox command unmapping a slot and saving its state to the QCB (R306). -/
  | unmap (die slot : W64)
  /-- Mailbox command clearing a queue error (R306). -/
  | qresume (qcb : W64)
  /-- Mailbox command killing the region of an ASID (R306). -/
  | kill (asid : W64)
  /-- Mailbox command resuming elements frozen by BKPT in a region (R306). -/
  | resume (asid : W64)
  /-- Mailbox command returning the next unclassified trap record (R306). -/
  | trapget (asid : W64)
  /-- Mailbox command resolving or declining a translation fault (R306). -/
  | faultdone (entry answer : W64)
  /-- Mailbox command setting a queue's FLAGS.SYS (R306). -/
  | setsys (qcb value : W64)
  /-- Mailbox command taking a port down and retraining it (R306). -/
  | linktrain (port : W64)
  /-- Micro-instruction with no effect (R248). -/
  | nbuNop
  /-- Sets M to the maximum of M and S (R247). -/
  | maxs
  /-- Sets S to 2 to the power S minus M (R247). -/
  | exps
  /-- Ends a segment and is a suspension point for accesses and refresh (R248). -/
  | sync
  /-- Ends the run (R248). -/
  | halt
  /-- Net action with no effect, completing with outcome 0 (R198). -/
  | netNop
  /-- Mailbox command returning mode, heartbeat age and watchdog state (R306). -/
  | status
  /-- Mailbox command entering direct mode (R306). -/
  | direct
  /-- Mailbox command returning the next fault FIFO entry (R306). -/
  | faultget
  /-- Mailbox command reloading firmware through the boot ROM (R306). -/
  | restart
  /-- The idle count of a TICK runs out and the picker may issue again (R109). -/
  | tickExpire
  /-- An issued instruction completes, writing its result, tokens and result condition (R40). -/
  | instructionComplete
  /-- The CSLOT length runs out, C2 stops and C0 is restored (R323). -/
  | cslotExpire
  /-- A TIMER's deadline passes and its firing completes (R207). -/
  | timerExpire
  /-- A WATCH's timeout passes without the compare holding and it completes with outcome 1 (R204). -/
  | watchTimeout
  /-- The NSQ starts one enabled transition: consumes tokens, reserves room, fills a firing slot and issues the action (R32). -/
  | transitionStart
  /-- An action returns an outcome; output arcs deposit, reservations are released and the slot is freed (R32). -/
  | firingCompletion
  /-- The NSQ applies arrived completions, updates system places, evaluates transitions and starts at most one (R33). -/
  | nsqRound
  /-- A TIME quantum elapses and one token is added to the TIME place up to capacity (R35). -/
  | timeTick
  /-- A weight-store bank enters or leaves its refresh window in the rotation (R13). -/
  | wsRefresh
  /-- A signal mirror re-reads its word after a change and updates its count (R340). -/
  | mirrorUpdate
  /-- A WATCH re-reads its word after a change and completes when the compare holds (R204). -/
  | watchRecheck
  /-- The NSQ applies a posted FIN once no store is held and committed stores have performed (R103). -/
  | finApply
  /-- Once the section is drained, every tile installs its loaded image on the swap signal (R200). -/
  | swapInstall
  /-- After DONE, in-flight firings complete and held stores commit, and the instance retires (R25). -/
  | instanceRetire
  /-- The recorded child launches from the parent's queue after the parent retires (R45). -/
  | tailChildLaunch
  /-- The deadlock count reaches its interval and DEADLOCK is raised and the region killed (R50). -/
  | deadlock
  /-- A running generator puts its next access into its SQ (R226). -/
  | accessGenerate
  /-- A held store at the head of an EQ or SQ moves into the hold buffer (R226). -/
  | accessHold
  /-- An access leaves its EQ or SQ for an IB or BQ (R226). -/
  | accessLeave
  /-- The head of an ingress FIFO moves to the PCH command queue (R226). -/
  | accessIngress
  /-- The head of a memory target's queue performs as a read, write or atomic (R226). -/
  | accessPerform
  /-- The head token of a circuit enters its input port when there is room (R226). -/
  | tokenDeliver
  /-- A CRC error on a link causes the failing flit and later flits to be resent in order (R226). -/
  | linkReplay
  /-- A Fjois port trains, choosing version 3 or 2, or stays down (R308). -/
  | linkTraining
  /-- A decoded Z-block's CRC is checked, raising DCXSUM on mismatch (R180). -/
  | dcxBlockCheck
  /-- The decompressor emits a token of a verified block when the port has room (R180). -/
  | dcxEmit
  /-- The die walker walks the table tree for a queued miss, ending in a translation or XLATE (R282). -/
  | pageWalk
  /-- Markhor classifies a trap record and resolves, routes or holds it (R276). -/
  | trapClassify
  /-- With no must-drain firing in flight, the region is frozen, saved and replaced by C1 (R288). -/
  | preemptAccept
  /-- A saved region is restored on its tiles under the same bound (R289). -/
  | contextResume
  /-- The scrubber checks configuration slots and raises CFGECC on an error, reloading the region (R292). -/
  | scrub
  /-- A run command at the head of a PCH queue starts when the stack's run limit allows (R253). -/
  | runStart
  /-- A suspended run resumes after the PCH has served refresh and waiting accesses (R254). -/
  | runResume
  /-- The emit buffer sends one token to the BN's input port (R248). -/
  | ebufDrain
  /-- A run ends: rows are precharged, EBUF drains and a TAIL with the error bitmap is placed (R251). -/
  | runEnd
  /-- A segment exceeds 640 fc and the run ends with NBERR code 3 (R250). -/
  | segmentTimeout
  /-- A due all-bank refresh is served at a PCH (R266). -/
  | refresh
  /-- A PCH's refresh falls due in the stack's refresh interval (R265). -/
  | refreshDue
  /-- A row-activation alert is served, refreshing neighbours and holding the PCH in back-off (R268). -/
  | alert
  /-- The back-off of an alert runs out and the PCH serves again (R268). -/
  | backoffEnd
  /-- A PCH idle for 512 fc enters power-down (R269). -/
  | powerDownEntry
  /-- A PCH idle for 64,000 fc enters self-refresh (R269). -/
  | selfRefreshEntry
  /-- A PCH leaves power-down or self-refresh after its exit latency (R270). -/
  | pchWake
  /-- A GW receives a secured packet and checks sequence, generation and tag (R313). -/
  | fjoisPacketReceive
  /-- A PAUSE arrives and the peer sets CSTAT.PAUSE and stops its step timer (R321). -/
  | pauseReceive
  /-- A RESUME arrives and the peer's timers continue (R321). -/
  | collResumeReceive
  /-- An ABORT arrives and the rank completes its COLL and marks the instance aborted (R343). -/
  | abortReceive
  /-- A BARRIER from a member arrives at the re-keying or barrier in progress (R314). -/
  | barrierReceive
  /-- The switch grants or denies a reduction slot to a binding instance (R319). -/
  | switchResponse
  /-- A collective step is not done within TSTEP and the instance aborts (R318). -/
  | stepTimeout
  /-- A paused switch instance's lease runs out and the switch releases the slot and aborts it (R321). -/
  | leaseExpire
  /-- An RKEY timeout passes without every BARRIER and the module leaves the domain (R314). -/
  | rkeyTimeout
  /-- A member joins, leaves, is reset or loses its route, and firmware runs the re-keying image (R314). -/
  | membershipChange
  /-- Markhor establishes an authenticated SPDM session with another member (R310). -/
  | spdmExchange
  /-- A write to a kick page announces a new tail for a queue (R297). -/
  | kick
  /-- Markhor serves a PENDMAP bit by mapping the queue to a slot, evicting one if allowed (R298). -/
  | queueMap
  /-- An ageing interval passes and a waiting queue's level rises (R298). -/
  | ageing
  /-- A WAITALL or WAITANY timeout passes and it completes with status 1 (R299). -/
  | waitTimeout
  /-- A time-triggered entry's slot arrives and it launches, skips, queues or pre-empts (R301). -/
  | ttSlot
  /-- A 1PPS rising edge sets or disciplines the PTP clock (R302). -/
  | ppsEdge
  /-- No 1PPS edge arrives for 2 s and LOCK clears (R302). -/
  | ppsLoss
  /-- The host writes the PTP time of the next 1PPS edge (R302). -/
  | ptpset
  /-- Markhor's heartbeat check fails and scheduling freezes (R305). -/
  | heartbeatCheck
  /-- WDPET is not written within 10 ms; scheduling freezes and a WATCHDOG record is written (R305). -/
  | watchdog
  /-- A Markhor write to WDPET restarts the watchdog (R329). -/
  | wdpet
  /-- Starts an invalidation of matching TLB entries in every die (R284). -/
  | tlbinvGo
  /-- Accesses through dropped entries have performed and DONE becomes 1 (R284). -/
  | tlbinvDone
  /-- Submits the host's versions for negotiation, setting OK or ERR (R332). -/
  | hostnegGo
  /-- Copies the live values of selected MHUs into their read registers (R337). -/
  | mhuctlSnap
  /-- Together with SNAP, resets the live values of selected MHUs (R337). -/
  | mhuctlClr
  /-- A sample from an MHU's source updates its minimum, maximum, count and bin (R337). -/
  | mhuSample
  /-- A write of LTIDX starts the fetch of a lifetime record (R338). -/
  | ltidxFetch
  /-- Markhor places the requested lifetime record in LTWIN and sets READY (R338). -/
  | ltwinReady
  /-- Each hour Markhor snapshots selected MHUs and writes a lifetime record to flash (R338). -/
  | lifetimeRecord
  /-- Every 100 µs the controller measures power and moves the throttle level (R335). -/
  | powerControl
  /-- A read of KICKERR returns and clears the dropped-kick count (R329). -/
  | kickerrRead
  /-- A read of TTSTAT returns and clears MISS (R302). -/
  | ttstatRead
  /-- A read of STKRAM returns and clears ALERTS (R267). -/
  | stkramRead
  /-- A read of FPSTAT returns and clears RETRY (R308). -/
  | fpstatRead
  /-- A written 1 clears PWRSTAT.OVER (R335). -/
  | pwrstatWrite
  /-- A host write to a device register with no behaviour of its own (R329). -/
  | registerWrite
  /-- A host access through a BAR reaches its range or completes as an unsupported request (R327). -/
  | hostBarAccess
  /-- After reset the ROM tests, configures the strip, checks and starts firmware and forms the identity (R333). -/
  | boot
  /-- An accumulator bank becomes settled 63 fc after the last step into it, ending MSTAT.UNS and making ACCR, ACCZ, MDRN and similar slots ready (R157). -/
  | bankSettled
  /-- A COLL.bind that has waited longer than TSTEP for every rank's announcement completes with outcome 1 (R319). -/
  | bindTimeout
  /-- A WAITALL or WAITANY condition word is re-read within 64 fc of a change, and the packet completes once its conditions hold (R299). -/
  | waitConditionReread
  /-- An all-bank refresh ends after tRFCab, PCHST.PWR leaves 3 and the PCH serves its queue again (R265). -/
  | refreshEnd
  /-- A die sensor crosses 105 °C, setting or clearing PWRSTAT.HOT and forcing throttle level 15 regardless of EN (R335). -/
  | dieTemperatureHot
  deriving DecidableEq, Repr

/-- The row of an event. -/
def Event.instr : Event → Instr
  | .tickExpire _ => .tickExpire
  | .instructionComplete _ _ => .instructionComplete
  | .cslotExpire _ _ => .cslotExpire
  | .timerExpire _ _ => .timerExpire
  | .watchTimeout _ _ => .watchTimeout
  | .transitionStart _ _ => .transitionStart
  | .firingCompletion _ _ => .firingCompletion
  | .nsqRound _ => .nsqRound
  | .timeTick _ => .timeTick
  | .wsRefresh _ => .wsRefresh
  | .mirrorUpdate _ _ => .mirrorUpdate
  | .watchRecheck _ _ => .watchRecheck
  | .finApply _ _ => .finApply
  | .swapInstall _ _ => .swapInstall
  | .instanceRetire _ => .instanceRetire
  | .tailChildLaunch _ => .tailChildLaunch
  | .deadlock _ => .deadlock
  | .accessGenerate _ _ => .accessGenerate
  | .accessHold _ _ _ => .accessHold
  | .accessLeave _ _ _ => .accessLeave
  | .accessIngress _ _ => .accessIngress
  | .accessPerform _ => .accessPerform
  | .tokenDeliver _ => .tokenDeliver
  | .linkReplay _ _ => .linkReplay
  | .linkTraining _ _ => .linkTraining
  | .dcxBlockCheck _ _ => .dcxBlockCheck
  | .dcxEmit _ _ => .dcxEmit
  | .pageWalk _ _ => .pageWalk
  | .trapClassify _ => .trapClassify
  | .preemptAccept _ => .preemptAccept
  | .contextResume _ => .contextResume
  | .scrub _ _ _ => .scrub
  | .runStart _ => .runStart
  | .runResume _ => .runResume
  | .ebufDrain _ => .ebufDrain
  | .runEnd _ => .runEnd
  | .segmentTimeout _ => .segmentTimeout
  | .refresh _ => .refresh
  | .refreshDue _ => .refreshDue
  | .alert _ => .alert
  | .backoffEnd _ => .backoffEnd
  | .powerDownEntry _ => .powerDownEntry
  | .selfRefreshEntry _ => .selfRefreshEntry
  | .pchWake _ => .pchWake
  | .fjoisPacketReceive _ _ => .fjoisPacketReceive
  | .pauseReceive _ _ => .pauseReceive
  | .collResumeReceive _ _ => .collResumeReceive
  | .abortReceive _ _ => .abortReceive
  | .barrierReceive _ _ => .barrierReceive
  | .switchResponse _ _ => .switchResponse
  | .stepTimeout _ => .stepTimeout
  | .leaseExpire _ => .leaseExpire
  | .rkeyTimeout _ _ => .rkeyTimeout
  | .membershipChange _ => .membershipChange
  | .spdmExchange _ _ _ => .spdmExchange
  | .kick _ _ _ => .kick
  | .queueMap _ => .queueMap
  | .ageing _ => .ageing
  | .waitTimeout _ => .waitTimeout
  | .ttSlot _ => .ttSlot
  | .ppsEdge => .ppsEdge
  | .ppsLoss => .ppsLoss
  | .ptpset _ => .ptpset
  | .heartbeatCheck _ => .heartbeatCheck
  | .watchdog => .watchdog
  | .wdpet _ => .wdpet
  | .tlbinvGo _ => .tlbinvGo
  | .tlbinvDone => .tlbinvDone
  | .hostnegGo _ => .hostnegGo
  | .mhuctlSnap _ _ => .mhuctlSnap
  | .mhuctlClr _ _ => .mhuctlClr
  | .mhuSample _ _ _ => .mhuSample
  | .ltidxFetch _ => .ltidxFetch
  | .ltwinReady => .ltwinReady
  | .lifetimeRecord => .lifetimeRecord
  | .powerControl _ => .powerControl
  | .kickerrRead => .kickerrRead
  | .ttstatRead => .ttstatRead
  | .stkramRead _ => .stkramRead
  | .fpstatRead _ => .fpstatRead
  | .pwrstatWrite _ => .pwrstatWrite
  | .registerWrite _ _ _ => .registerWrite
  | .hostBarAccess _ => .hostBarAccess
  | .boot _ => .boot
  | .bankSettled _ _ => .bankSettled
  | .bindTimeout _ => .bindTimeout
  | .waitConditionReread _ => .waitConditionReread
  | .refreshEnd _ => .refreshEnd
  | .dieTemperatureHot _ => .dieTemperatureHot

/-- The instructions that an element runs (R76), without their words. -/
inductive Op where
  | nop | outc | trap | bkpt | rdsr | wrsr | kset | kdec | kadd | plog | evnt | fmtw
  | tick | mov | movi | lane | insl | bcst | perm | rotl | zipl | unzl | tagr | fwd
  | steer | merge | ctag | ftag | add | sub | mul | mulh | mad | div | rem | min
  | max | abs | neg | adds | subs | clmp | qmul | ired | and | or | xor | andn
  | shl | shr | sha | rotb | popc | clz | bsel | bfx | bfi | crc | pack | unpk
  | cmpeq | cmpne | cmplt | cmple | cmpgt | cmpge | tstz | tstnz | fcmeq | fcmlt | fcmle | fcmun
  | anyl | alll | sel | firstl | fadd | fsub | fmul | fma | fms | fnma | fmin | fmax
  | fabs | fneg | fred | fdot2 | fscl | fcls | frnd | osm | frcp | frsq | fsqrt | fexp2
  | flog2 | fsin | fcos | ftanh | fsigm | ferf | fexp | fdiv | cvt | cvti | cvtf | qnt
  | dqnt | mxsc | srnd | narw | widn | pk4 | upk4 | seed | mma | mmaz | mmsp | mmv
  | mxb | accr | accw | accz | accs | acca | mdrn | mstat | mtest | trns | rast | lds
  | sts | ldsx | stsx | satm | gset | grun | gsus | gres | sbar | hold | cmit | disc
  | dcxc | qapp | qtak | gld | gst | gatm | gprf | wsld | sigw | sigr | fnc | nbq
  | nbr | nbst | fltr | rdce | csnd | crcv | cred | cbar
  deriving DecidableEq, Repr

/-- Every operation, in the order of its opcode. -/
def Op.all : List Op := [
  .nop, .outc, .trap, .bkpt, .rdsr, .wrsr, .kset, .kdec, .kadd, .plog, .evnt, .fmtw,
  .tick, .mov, .movi, .lane, .insl, .bcst, .perm, .rotl, .zipl, .unzl, .tagr, .fwd,
  .steer, .merge, .ctag, .ftag, .add, .sub, .mul, .mulh, .mad, .div, .rem, .min,
  .max, .abs, .neg, .adds, .subs, .clmp, .qmul, .ired, .and, .or, .xor, .andn,
  .shl, .shr, .sha, .rotb, .popc, .clz, .bsel, .bfx, .bfi, .crc, .pack, .unpk,
  .cmpeq, .cmpne, .cmplt, .cmple, .cmpgt, .cmpge, .tstz, .tstnz, .fcmeq, .fcmlt, .fcmle, .fcmun,
  .anyl, .alll, .sel, .firstl, .fadd, .fsub, .fmul, .fma, .fms, .fnma, .fmin, .fmax,
  .fabs, .fneg, .fred, .fdot2, .fscl, .fcls, .frnd, .osm, .frcp, .frsq, .fsqrt, .fexp2,
  .flog2, .fsin, .fcos, .ftanh, .fsigm, .ferf, .fexp, .fdiv, .cvt, .cvti, .cvtf, .qnt,
  .dqnt, .mxsc, .srnd, .narw, .widn, .pk4, .upk4, .seed, .mma, .mmaz, .mmsp, .mmv,
  .mxb, .accr, .accw, .accz, .accs, .acca, .mdrn, .mstat, .mtest, .trns, .rast, .lds,
  .sts, .ldsx, .stsx, .satm, .gset, .grun, .gsus, .gres, .sbar, .hold, .cmit, .disc,
  .dcxc, .qapp, .qtak, .gld, .gst, .gatm, .gprf, .wsld, .sigw, .sigr, .fnc, .nbq,
  .nbr, .nbst, .fltr, .rdce, .csnd, .crcv, .cred, .cbar]

/-- The element instruction of an operation and a word. -/
def Op.instr : Op → Slot → Instr
  | .nop, x => .nop x
  | .outc, x => .outc x
  | .trap, x => .trap x
  | .bkpt, x => .bkpt x
  | .rdsr, x => .rdsr x
  | .wrsr, x => .wrsr x
  | .kset, x => .kset x
  | .kdec, x => .kdec x
  | .kadd, x => .kadd x
  | .plog, x => .plog x
  | .evnt, x => .evnt x
  | .fmtw, x => .fmtw x
  | .tick, x => .tick x
  | .mov, x => .mov x
  | .movi, x => .movi x
  | .lane, x => .lane x
  | .insl, x => .insl x
  | .bcst, x => .bcst x
  | .perm, x => .perm x
  | .rotl, x => .rotl x
  | .zipl, x => .zipl x
  | .unzl, x => .unzl x
  | .tagr, x => .tagr x
  | .fwd, x => .fwd x
  | .steer, x => .steer x
  | .merge, x => .merge x
  | .ctag, x => .ctag x
  | .ftag, x => .ftag x
  | .add, x => .add x
  | .sub, x => .sub x
  | .mul, x => .mul x
  | .mulh, x => .mulh x
  | .mad, x => .mad x
  | .div, x => .div x
  | .rem, x => .rem x
  | .min, x => .min x
  | .max, x => .max x
  | .abs, x => .abs x
  | .neg, x => .neg x
  | .adds, x => .adds x
  | .subs, x => .subs x
  | .clmp, x => .clmp x
  | .qmul, x => .qmul x
  | .ired, x => .ired x
  | .and, x => .and x
  | .or, x => .or x
  | .xor, x => .xor x
  | .andn, x => .andn x
  | .shl, x => .shl x
  | .shr, x => .shr x
  | .sha, x => .sha x
  | .rotb, x => .rotb x
  | .popc, x => .popc x
  | .clz, x => .clz x
  | .bsel, x => .bsel x
  | .bfx, x => .bfx x
  | .bfi, x => .bfi x
  | .crc, x => .crc x
  | .pack, x => .pack x
  | .unpk, x => .unpk x
  | .cmpeq, x => .cmpeq x
  | .cmpne, x => .cmpne x
  | .cmplt, x => .cmplt x
  | .cmple, x => .cmple x
  | .cmpgt, x => .cmpgt x
  | .cmpge, x => .cmpge x
  | .tstz, x => .tstz x
  | .tstnz, x => .tstnz x
  | .fcmeq, x => .fcmeq x
  | .fcmlt, x => .fcmlt x
  | .fcmle, x => .fcmle x
  | .fcmun, x => .fcmun x
  | .anyl, x => .anyl x
  | .alll, x => .alll x
  | .sel, x => .sel x
  | .firstl, x => .firstl x
  | .fadd, x => .fadd x
  | .fsub, x => .fsub x
  | .fmul, x => .fmul x
  | .fma, x => .fma x
  | .fms, x => .fms x
  | .fnma, x => .fnma x
  | .fmin, x => .fmin x
  | .fmax, x => .fmax x
  | .fabs, x => .fabs x
  | .fneg, x => .fneg x
  | .fred, x => .fred x
  | .fdot2, x => .fdot2 x
  | .fscl, x => .fscl x
  | .fcls, x => .fcls x
  | .frnd, x => .frnd x
  | .osm, x => .osm x
  | .frcp, x => .frcp x
  | .frsq, x => .frsq x
  | .fsqrt, x => .fsqrt x
  | .fexp2, x => .fexp2 x
  | .flog2, x => .flog2 x
  | .fsin, x => .fsin x
  | .fcos, x => .fcos x
  | .ftanh, x => .ftanh x
  | .fsigm, x => .fsigm x
  | .ferf, x => .ferf x
  | .fexp, x => .fexp x
  | .fdiv, x => .fdiv x
  | .cvt, x => .cvt x
  | .cvti, x => .cvti x
  | .cvtf, x => .cvtf x
  | .qnt, x => .qnt x
  | .dqnt, x => .dqnt x
  | .mxsc, x => .mxsc x
  | .srnd, x => .srnd x
  | .narw, x => .narw x
  | .widn, x => .widn x
  | .pk4, x => .pk4 x
  | .upk4, x => .upk4 x
  | .seed, x => .seed x
  | .mma, x => .mma x
  | .mmaz, x => .mmaz x
  | .mmsp, x => .mmsp x
  | .mmv, x => .mmv x
  | .mxb, x => .mxb x
  | .accr, x => .accr x
  | .accw, x => .accw x
  | .accz, x => .accz x
  | .accs, x => .accs x
  | .acca, x => .acca x
  | .mdrn, x => .mdrn x
  | .mstat, x => .mstat x
  | .mtest, x => .mtest x
  | .trns, x => .trns x
  | .rast, x => .rast x
  | .lds, x => .lds x
  | .sts, x => .sts x
  | .ldsx, x => .ldsx x
  | .stsx, x => .stsx x
  | .satm, x => .satm x
  | .gset, x => .gset x
  | .grun, x => .grun x
  | .gsus, x => .gsus x
  | .gres, x => .gres x
  | .sbar, x => .sbar x
  | .hold, x => .hold x
  | .cmit, x => .cmit x
  | .disc, x => .disc x
  | .dcxc, x => .dcxc x
  | .qapp, x => .qapp x
  | .qtak, x => .qtak x
  | .gld, x => .gld x
  | .gst, x => .gst x
  | .gatm, x => .gatm x
  | .gprf, x => .gprf x
  | .wsld, x => .wsld x
  | .sigw, x => .sigw x
  | .sigr, x => .sigr x
  | .fnc, x => .fnc x
  | .nbq, x => .nbq x
  | .nbr, x => .nbr x
  | .nbst, x => .nbst x
  | .fltr, x => .fltr x
  | .rdce, x => .rdce x
  | .csnd, x => .csnd x
  | .crcv, x => .crcv x
  | .cred, x => .cred x
  | .cbar, x => .cbar x

/-- The operation and the word of an element instruction; none for every other step. -/
def Instr.elem? : Instr → Option (Op × Slot)
  | .nop x => some (.nop, x)
  | .outc x => some (.outc, x)
  | .trap x => some (.trap, x)
  | .bkpt x => some (.bkpt, x)
  | .rdsr x => some (.rdsr, x)
  | .wrsr x => some (.wrsr, x)
  | .kset x => some (.kset, x)
  | .kdec x => some (.kdec, x)
  | .kadd x => some (.kadd, x)
  | .plog x => some (.plog, x)
  | .evnt x => some (.evnt, x)
  | .fmtw x => some (.fmtw, x)
  | .tick x => some (.tick, x)
  | .mov x => some (.mov, x)
  | .movi x => some (.movi, x)
  | .lane x => some (.lane, x)
  | .insl x => some (.insl, x)
  | .bcst x => some (.bcst, x)
  | .perm x => some (.perm, x)
  | .rotl x => some (.rotl, x)
  | .zipl x => some (.zipl, x)
  | .unzl x => some (.unzl, x)
  | .tagr x => some (.tagr, x)
  | .fwd x => some (.fwd, x)
  | .steer x => some (.steer, x)
  | .merge x => some (.merge, x)
  | .ctag x => some (.ctag, x)
  | .ftag x => some (.ftag, x)
  | .add x => some (.add, x)
  | .sub x => some (.sub, x)
  | .mul x => some (.mul, x)
  | .mulh x => some (.mulh, x)
  | .mad x => some (.mad, x)
  | .div x => some (.div, x)
  | .rem x => some (.rem, x)
  | .min x => some (.min, x)
  | .max x => some (.max, x)
  | .abs x => some (.abs, x)
  | .neg x => some (.neg, x)
  | .adds x => some (.adds, x)
  | .subs x => some (.subs, x)
  | .clmp x => some (.clmp, x)
  | .qmul x => some (.qmul, x)
  | .ired x => some (.ired, x)
  | .and x => some (.and, x)
  | .or x => some (.or, x)
  | .xor x => some (.xor, x)
  | .andn x => some (.andn, x)
  | .shl x => some (.shl, x)
  | .shr x => some (.shr, x)
  | .sha x => some (.sha, x)
  | .rotb x => some (.rotb, x)
  | .popc x => some (.popc, x)
  | .clz x => some (.clz, x)
  | .bsel x => some (.bsel, x)
  | .bfx x => some (.bfx, x)
  | .bfi x => some (.bfi, x)
  | .crc x => some (.crc, x)
  | .pack x => some (.pack, x)
  | .unpk x => some (.unpk, x)
  | .cmpeq x => some (.cmpeq, x)
  | .cmpne x => some (.cmpne, x)
  | .cmplt x => some (.cmplt, x)
  | .cmple x => some (.cmple, x)
  | .cmpgt x => some (.cmpgt, x)
  | .cmpge x => some (.cmpge, x)
  | .tstz x => some (.tstz, x)
  | .tstnz x => some (.tstnz, x)
  | .fcmeq x => some (.fcmeq, x)
  | .fcmlt x => some (.fcmlt, x)
  | .fcmle x => some (.fcmle, x)
  | .fcmun x => some (.fcmun, x)
  | .anyl x => some (.anyl, x)
  | .alll x => some (.alll, x)
  | .sel x => some (.sel, x)
  | .firstl x => some (.firstl, x)
  | .fadd x => some (.fadd, x)
  | .fsub x => some (.fsub, x)
  | .fmul x => some (.fmul, x)
  | .fma x => some (.fma, x)
  | .fms x => some (.fms, x)
  | .fnma x => some (.fnma, x)
  | .fmin x => some (.fmin, x)
  | .fmax x => some (.fmax, x)
  | .fabs x => some (.fabs, x)
  | .fneg x => some (.fneg, x)
  | .fred x => some (.fred, x)
  | .fdot2 x => some (.fdot2, x)
  | .fscl x => some (.fscl, x)
  | .fcls x => some (.fcls, x)
  | .frnd x => some (.frnd, x)
  | .osm x => some (.osm, x)
  | .frcp x => some (.frcp, x)
  | .frsq x => some (.frsq, x)
  | .fsqrt x => some (.fsqrt, x)
  | .fexp2 x => some (.fexp2, x)
  | .flog2 x => some (.flog2, x)
  | .fsin x => some (.fsin, x)
  | .fcos x => some (.fcos, x)
  | .ftanh x => some (.ftanh, x)
  | .fsigm x => some (.fsigm, x)
  | .ferf x => some (.ferf, x)
  | .fexp x => some (.fexp, x)
  | .fdiv x => some (.fdiv, x)
  | .cvt x => some (.cvt, x)
  | .cvti x => some (.cvti, x)
  | .cvtf x => some (.cvtf, x)
  | .qnt x => some (.qnt, x)
  | .dqnt x => some (.dqnt, x)
  | .mxsc x => some (.mxsc, x)
  | .srnd x => some (.srnd, x)
  | .narw x => some (.narw, x)
  | .widn x => some (.widn, x)
  | .pk4 x => some (.pk4, x)
  | .upk4 x => some (.upk4, x)
  | .seed x => some (.seed, x)
  | .mma x => some (.mma, x)
  | .mmaz x => some (.mmaz, x)
  | .mmsp x => some (.mmsp, x)
  | .mmv x => some (.mmv, x)
  | .mxb x => some (.mxb, x)
  | .accr x => some (.accr, x)
  | .accw x => some (.accw, x)
  | .accz x => some (.accz, x)
  | .accs x => some (.accs, x)
  | .acca x => some (.acca, x)
  | .mdrn x => some (.mdrn, x)
  | .mstat x => some (.mstat, x)
  | .mtest x => some (.mtest, x)
  | .trns x => some (.trns, x)
  | .rast x => some (.rast, x)
  | .lds x => some (.lds, x)
  | .sts x => some (.sts, x)
  | .ldsx x => some (.ldsx, x)
  | .stsx x => some (.stsx, x)
  | .satm x => some (.satm, x)
  | .gset x => some (.gset, x)
  | .grun x => some (.grun, x)
  | .gsus x => some (.gsus, x)
  | .gres x => some (.gres, x)
  | .sbar x => some (.sbar, x)
  | .hold x => some (.hold, x)
  | .cmit x => some (.cmit, x)
  | .disc x => some (.disc, x)
  | .dcxc x => some (.dcxc, x)
  | .qapp x => some (.qapp, x)
  | .qtak x => some (.qtak, x)
  | .gld x => some (.gld, x)
  | .gst x => some (.gst, x)
  | .gatm x => some (.gatm, x)
  | .gprf x => some (.gprf, x)
  | .wsld x => some (.wsld, x)
  | .sigw x => some (.sigw, x)
  | .sigr x => some (.sigr, x)
  | .fnc x => some (.fnc, x)
  | .nbq x => some (.nbq, x)
  | .nbr x => some (.nbr, x)
  | .nbst x => some (.nbst, x)
  | .fltr x => some (.fltr, x)
  | .rdce x => some (.rdce, x)
  | .csnd x => some (.csnd, x)
  | .crcv x => some (.crcv, x)
  | .cred x => some (.cred, x)
  | .cbar x => some (.cbar, x)
  | _ => none

end Sys2Proof
end

