-- ==== Sys2Proof/Decode.lean ====
section
/-!
DEFINITION. Decode.lean: from words to instructions, total, each refusal by a name of its own, and back. The element word
is R67's, the micro-instruction R244's, the action word R197's, the packet R299's, the mailbox command R306's.
-/
namespace Sys2Proof

/-- Why a word is no instruction. -/
inductive DecodeError where
  /-- The opcode is in R76's list of reserved opcodes. -/
  | reservedOpcode
  /-- INVL: a legal word that is never ready and never issues (R76). -/
  | invl
  /-- An INVL word with a field other than OPC set (R76). -/
  | invlField
  /-- An input condition of 011 (R68). -/
  | reservedPortCond
  /-- PRES names a predicate without its enable bit (R71). -/
  | presWithoutEnable
  /-- A micro-instruction whose OP is reserved (R244). -/
  | reservedMicro
  /-- A field of a micro-instruction that is not used or out of range is not 0 (R244). -/
  | microField
  /-- An action code that is reserved (R197). -/
  | reservedAction
  /-- A reserved field of an action word is not 0, or a field holds a reserved value (R197, R198). -/
  | actionField
  /-- A packet code that is reserved, or a packet of a wrong length (R299). -/
  | reservedPacket
  /-- A reserved field of a packet is not 0 (R299). -/
  | packetField
  /-- A mailbox operation that is reserved (R306). -/
  | reservedMailbox
  /-- A length in bits that no kind of instruction has. -/
  | noSuchLength
  deriving DecidableEq, Repr

/-- Bits [lo+n-1:lo] of a word (R5). -/
def bits {w : Nat} (x : BitVec w) (lo n : Nat) : BitVec n := x.extractLsb' lo n

/-- The opcode of each operation (R76). -/
def Op.code : Op → Nat
  | .nop => 0x00
  | .outc => 0x01
  | .trap => 0x02
  | .bkpt => 0x03
  | .rdsr => 0x04
  | .wrsr => 0x05
  | .kset => 0x06
  | .kdec => 0x07
  | .kadd => 0x08
  | .plog => 0x09
  | .evnt => 0x0A
  | .fmtw => 0x0B
  | .tick => 0x0D
  | .mov => 0x10
  | .movi => 0x11
  | .lane => 0x12
  | .insl => 0x13
  | .bcst => 0x14
  | .perm => 0x15
  | .rotl => 0x16
  | .tagr => 0x17
  | .fwd => 0x18
  | .steer => 0x19
  | .merge => 0x1A
  | .ctag => 0x1B
  | .ftag => 0x1C
  | .zipl => 0x1D
  | .unzl => 0x1E
  | .add => 0x20
  | .sub => 0x21
  | .mul => 0x22
  | .mulh => 0x23
  | .mad => 0x24
  | .div => 0x25
  | .rem => 0x26
  | .min => 0x27
  | .max => 0x28
  | .abs => 0x29
  | .neg => 0x2A
  | .adds => 0x2B
  | .subs => 0x2C
  | .clmp => 0x2D
  | .qmul => 0x2E
  | .ired => 0x2F
  | .and => 0x30
  | .or => 0x31
  | .xor => 0x32
  | .andn => 0x33
  | .shl => 0x34
  | .shr => 0x35
  | .sha => 0x36
  | .rotb => 0x37
  | .popc => 0x38
  | .clz => 0x39
  | .bsel => 0x3A
  | .bfx => 0x3B
  | .bfi => 0x3C
  | .crc => 0x3D
  | .pack => 0x3E
  | .unpk => 0x3F
  | .cmpeq => 0x40
  | .cmpne => 0x41
  | .cmplt => 0x42
  | .cmple => 0x43
  | .cmpgt => 0x44
  | .cmpge => 0x45
  | .tstz => 0x46
  | .tstnz => 0x47
  | .fcmeq => 0x48
  | .fcmlt => 0x49
  | .fcmle => 0x4A
  | .fcmun => 0x4B
  | .anyl => 0x4C
  | .alll => 0x4D
  | .sel => 0x4E
  | .firstl => 0x4F
  | .fadd => 0x50
  | .fsub => 0x51
  | .fmul => 0x52
  | .fma => 0x53
  | .fms => 0x54
  | .fnma => 0x55
  | .fmin => 0x56
  | .fmax => 0x57
  | .fabs => 0x58
  | .fneg => 0x59
  | .fred => 0x5A
  | .fdot2 => 0x5B
  | .fscl => 0x5C
  | .fcls => 0x5D
  | .frnd => 0x5E
  | .osm => 0x5F
  | .frcp => 0x60
  | .frsq => 0x61
  | .fsqrt => 0x62
  | .fexp2 => 0x63
  | .flog2 => 0x64
  | .fsin => 0x65
  | .fcos => 0x66
  | .ftanh => 0x67
  | .fsigm => 0x68
  | .ferf => 0x69
  | .fexp => 0x6A
  | .fdiv => 0x6B
  | .cvt => 0x70
  | .cvti => 0x71
  | .cvtf => 0x72
  | .qnt => 0x73
  | .dqnt => 0x74
  | .mxsc => 0x75
  | .srnd => 0x76
  | .narw => 0x77
  | .widn => 0x78
  | .pk4 => 0x79
  | .upk4 => 0x7A
  | .seed => 0x7B
  | .mma => 0x80
  | .mmaz => 0x81
  | .mmsp => 0x82
  | .mmv => 0x83
  | .mxb => 0x84
  | .accr => 0x85
  | .accw => 0x86
  | .accz => 0x87
  | .accs => 0x88
  | .acca => 0x89
  | .mdrn => 0x8A
  | .mstat => 0x8B
  | .mtest => 0x8C
  | .trns => 0x8D
  | .rast => 0x8E
  | .lds => 0x90
  | .sts => 0x91
  | .ldsx => 0x92
  | .stsx => 0x93
  | .satm => 0x94
  | .gset => 0x95
  | .grun => 0x96
  | .gsus => 0x97
  | .gres => 0x98
  | .sbar => 0x99
  | .hold => 0x9A
  | .cmit => 0x9B
  | .disc => 0x9C
  | .dcxc => 0x9D
  | .qapp => 0x9E
  | .qtak => 0x9F
  | .gld => 0xA0
  | .gst => 0xA1
  | .gatm => 0xA2
  | .gprf => 0xA3
  | .wsld => 0xA4
  | .sigw => 0xA5
  | .sigr => 0xA6
  | .fnc => 0xA7
  | .nbq => 0xA8
  | .nbr => 0xA9
  | .nbst => 0xAA
  | .fltr => 0xAB
  | .rdce => 0xAC
  | .csnd => 0xB0
  | .crcv => 0xB1
  | .cred => 0xB2
  | .cbar => 0xB3

/-- The operation of an opcode (R76). -/
def Op.ofCode (c : Nat) : Option Op := Op.all.find? (fun o => o.code == c)

/-- CT of a tag (R16). -/
def Tag.code : Tag → BitVec 2
  | .data => 0 | .head => 1 | .tail => 2 | .stop => 3

/-- The tag of a CT (R16). -/
def Tag.ofCode (c : BitVec 2) : Tag :=
  match c.toNat with
  | 0 => .data | 1 => .head | 2 => .tail | _ => .stop

/-- The IC code of a port condition (R68). -/
def PortCond.code : PortCond → BitVec 3
  | .any => 0 | .present => 1 | .empty => 2 | .isData => 4 | .isHead => 5 | .isTail => 6 | .isStop => 7

/-- The port condition of an IC code; 011 is reserved (R68). -/
def PortCond.ofCode (c : BitVec 3) : Option PortCond :=
  match c.toNat with
  | 0 => some .any | 1 => some .present | 2 => some .empty | 3 => none
  | 4 => some .isData | 5 => some .isHead | 6 => some .isTail | _ => some .isStop

/-- The code of an operand selector (R69). -/
def Sel.code : Sel → BitVec 4
  | .d n => BitVec.ofNat 4 n.val
  | .i n => BitVec.ofNat 4 (8 + n.val)
  | .imm => 12 | .zero => 13 | .k0 => 14 | .k1 => 15

/-- The operand selector of a code (R69). -/
def Sel.ofCode (c : BitVec 4) : Sel :=
  match c.toNat with
  | 0 => .d 0 | 1 => .d 1 | 2 => .d 2 | 3 => .d 3 | 4 => .d 4 | 5 => .d 5 | 6 => .d 6 | 7 => .d 7
  | 8 => .i 0 | 9 => .i 1 | 10 => .i 2 | 11 => .i 3
  | 12 => .imm | 13 => .zero | 14 => .k0 | _ => .k1

/-- The code of a destination (R70). -/
def Dst.code : Dst → BitVec 4
  | .d n => BitVec.ofNat 4 n.val
  | .o n => BitVec.ofNat 4 (8 + n.val)
  | .acc => 12 | .srg => 13 | .null => 14 | .k => 15

/-- The destination of a code (R70). -/
def Dst.ofCode (c : BitVec 4) : Dst :=
  match c.toNat with
  | 0 => .d 0 | 1 => .d 1 | 2 => .d 2 | 3 => .d 3 | 4 => .d 4 | 5 => .d 5 | 6 => .d 6 | 7 => .d 7
  | 8 => .o 0 | 9 => .o 1 | 10 => .o 2 | 11 => .o 3
  | 12 => .acc | 13 => .srg | 14 => .null | _ => .k

/-- The PRES field: enable above the predicate that receives the result condition (R67). -/
def presCode : Option (Fin 8) → BitVec 4
  | none => 0
  | some n => BitVec.ofNat 4 (8 + n.val)

/-- The predicate a PRES field names; a predicate without the enable bit is refused (R71). -/
def presOfCode (c : BitVec 4) : Except DecodeError (Option (Fin 8)) :=
  match c.toNat with
  | 0 => .ok none
  | 8 => .ok (some 0) | 9 => .ok (some 1) | 10 => .ok (some 2) | 11 => .ok (some 3)
  | 12 => .ok (some 4) | 13 => .ok (some 5) | 14 => .ok (some 6) | 15 => .ok (some 7)
  | _ => .error .presWithoutEnable

/-- The 128-bit word of an element instruction, its fields from the high bits down (R67). -/
def encodeSlot (o : Op) (x : Slot) : W128 :=
  x.imm ++ x.fto ++ x.tago.code ++ x.mod ++ presCode x.pres ++ x.pclr ++ x.pset ++ x.outm
    ++ x.sc.code ++ x.sb.code ++ x.sa.code ++ x.dst.code ++ BitVec.ofNat 8 o.code ++ x.pop ++ x.room
    ++ x.ic3.code ++ x.ic2.code ++ x.ic1.code ++ x.ic0.code ++ x.pcare ++ x.pval

/-- A port condition of a word, or the refusal of R68. -/
def condAt (w : W128) (j : Nat) : Except DecodeError PortCond :=
  match PortCond.ofCode (bits w (16 + 3 * j) 3) with
  | some c => .ok c
  | none => .error .reservedPortCond

/-- The element instruction of a 128-bit word (R67). -/
def decodeSlot (w : W128) : Except DecodeError (Op × Slot) :=
  let opc := (bits w 36 8).toNat
  if opc = 0x0F then .error (if w = 0x0F#128 <<< 36 then .invl else .invlField)
  else match Op.ofCode opc with
    | none => .error .reservedOpcode
    | some o => do
      let ic0 ← condAt w 0
      let ic1 ← condAt w 1
      let ic2 ← condAt w 2
      let ic3 ← condAt w 3
      let pres ← presOfCode (bits w 80 4)
      .ok (o, { pval := bits w 0 8, pcare := bits w 8 8, ic0, ic1, ic2, ic3, room := bits w 28 4, pop := bits w 32 4,
                dst := Dst.ofCode (bits w 44 4), sa := Sel.ofCode (bits w 48 4), sb := Sel.ofCode (bits w 52 4),
                sc := Sel.ofCode (bits w 56 4), outm := bits w 60 4, pset := bits w 64 8, pclr := bits w 72 8, pres,
                mod := bits w 84 7, tago := Tag.ofCode (bits w 91 2), fto := bits w 93 3, imm := bits w 96 32 })

/-- A Bool as one bit. -/
def bit1 (b : Bool) : BitVec 1 := if b then 1 else 0

/-- OP, A, B and IMM of a micro-instruction as its word (R244). -/
def microWord (op a b : BitVec 6) (imm : BitVec 14) : W32 := op ++ a ++ b ++ imm

/-- The 32-bit word of a micro-instruction (R244-R248); none for every other step. -/
def encodeMicro : Instr → Option W32
  | .nbuNop => some (microWord 0x00 0 0 0)
  | .act off => some (microWord 0x01 0 0 off)
  | .pre inc => some (microWord 0x02 0 0 inc)
  | .rd off col => some (microWord 0x03 0 0 ((0 : BitVec 7) ++ off ++ col))
  | .wr off col => some (microWord 0x04 0 0 ((0 : BitVec 7) ++ off ++ col))
  | .zv a => some (microWord 0x05 ((0 : BitVec 3) ++ a) 0 0)
  | .macq a b bf => some (microWord 0x06 ((0 : BitVec 4) ++ a) ((0 : BitVec 3) ++ b) ((0 : BitVec 13) ++ bit1 bf))
  | .axpy a b fromS k bf =>
    some (microWord 0x07 ((0 : BitVec 4) ++ a) ((0 : BitVec 3) ++ b) ((0 : BitVec 8) ++ bit1 fromS ++ k ++ bit1 bf))
  | .dotq b acc bf =>
    some (microWord 0x08 0 ((0 : BitVec 3) ++ b) ((0 : BitVec 8) ++ bit1 acc ++ (0 : BitVec 4) ++ bit1 bf))
  | .smx v => some (microWord 0x09 ((0 : BitVec 2) ++ v) 0 0)
  | .maxs => some (microWord 0x0A 0 0 0)
  | .exps => some (microWord 0x0B 0 0 0)
  | .scal a b fromS k bf =>
    some (microWord 0x0C ((0 : BitVec 4) ++ a) ((0 : BitVec 3) ++ b) ((0 : BitVec 8) ++ bit1 fromS ++ k ++ bit1 bf))
  | .addv a b => some (microWord 0x0D ((0 : BitVec 4) ++ a) ((0 : BitVec 4) ++ b) 0)
  | .loop reload second target =>
    some (microWord 0x0E ((0 : BitVec 4) ++ bit1 reload ++ bit1 second) 0 ((0 : BitVec 8) ++ target))
  | .sync => some (microWord 0x0F 0 0 0)
  | .emit a ft hi => some (microWord 0x10 ((0 : BitVec 3) ++ a) 0 ((0 : BitVec 10) ++ ft ++ bit1 hi))
  | .halt => some (microWord 0x11 0 0 0)
  | .movq b => some (microWord 0x12 0 ((0 : BitVec 3) ++ b) 0)
  | .mask str inc => some (microWord 0x13 str 0 inc)
  | .cvtl a sat bf => some (microWord 0x14 ((0 : BitVec 4) ++ a) 0 ((0 : BitVec 12) ++ bit1 sat ++ bit1 bf))
  | .stv a addLc0 src k =>
    some (microWord 0x15 ((0 : BitVec 4) ++ a) 0 ((0 : BitVec 7) ++ bit1 addLc0 ++ src ++ k))
  | _ => none

/-- A micro-instruction holds no value its rule does not list (R244, R246-R248). -/
def microOk : Instr → Bool
  | .zv a => decide (a.toNat ≤ 4)
  | .axpy _ b fromS k _ => !fromS || (b == 0 && k == 0)
  | .scal _ b fromS k bf => !fromS || (b == 0 && k == 0 && !bf)
  | .emit a _ hi => decide (a.toNat ≤ 5) && (decide (a.toNat < 4) || !hi)
  | .stv _ _ src _ => src != 3
  | _ => true

/-- The micro-instruction whose fields a word holds, bits that its rule does not define left out. -/
def microFields (w : W32) : Option Instr :=
  match (bits w 26 6).toNat with
  | 0x00 => some .nbuNop
  | 0x01 => some (.act (bits w 0 14))
  | 0x02 => some (.pre (bits w 0 14))
  | 0x03 => some (.rd (bits w 5 2) (bits w 0 5))
  | 0x04 => some (.wr (bits w 5 2) (bits w 0 5))
  | 0x05 => some (.zv (bits w 20 3))
  | 0x06 => some (.macq (bits w 20 2) (bits w 14 3) (w.getLsbD 0))
  | 0x07 => some (.axpy (bits w 20 2) (bits w 14 3) (w.getLsbD 5) (bits w 1 4) (w.getLsbD 0))
  | 0x08 => some (.dotq (bits w 14 3) (w.getLsbD 5) (w.getLsbD 0))
  | 0x09 => some (.smx (bits w 20 4))
  | 0x0A => some .maxs
  | 0x0B => some .exps
  | 0x0C => some (.scal (bits w 20 2) (bits w 14 3) (w.getLsbD 5) (bits w 1 4) (w.getLsbD 0))
  | 0x0D => some (.addv (bits w 20 2) (bits w 14 2))
  | 0x0E => some (.loop (w.getLsbD 21) (w.getLsbD 20) (bits w 0 6))
  | 0x0F => some .sync
  | 0x10 => some (.emit (bits w 20 3) (bits w 1 3) (w.getLsbD 0))
  | 0x11 => some .halt
  | 0x12 => some (.movq (bits w 14 3))
  | 0x13 => some (.mask (bits w 20 6) (bits w 0 14))
  | 0x14 => some (.cvtl (bits w 20 2) (w.getLsbD 1) (w.getLsbD 0))
  | 0x15 => some (.stv (bits w 20 2) (w.getLsbD 6) (bits w 4 2) (bits w 0 4))
  | _ => none

/-- The micro-instruction of a word (R244): every bit its operation does not define must be 0. -/
def decodeMicro (w : W32) : Except DecodeError Instr :=
  match microFields w with
  | none => .error .reservedMicro
  | some i => if encodeMicro i = some w && microOk i then .ok i else .error .microField

/-- A scope's code (R187, R227). -/
def Scope.code : Scope → BitVec 3
  | .elem => 0 | .sect => 1 | .regn => 2 | .die => 3 | .mod => 4 | .dom => 5

/-- The scope of a code; 6 and 7 are reserved and read as DOM, which the checks never pass (R187). -/
def Scope.ofCode (c : Nat) : Scope :=
  match c with
  | 0 => .elem | 1 => .sect | 2 => .regn | 3 => .die | 4 => .mod | _ => .dom

/-- A compare's code (R187, R198, R299). -/
def Cmp.code : Cmp → BitVec 2
  | .eq => 0 | .ne => 1 | .geu => 2 | .ltu => 3

/-- The compare of a code. -/
def Cmp.ofCode (c : Nat) : Cmp :=
  match c with
  | 0 => .eq | 1 => .ne | 2 => .geu | _ => .ltu

/-- code, TGT, A, B, C and D of an action as its word (R197). -/
def actionWord (code tgt : BitVec 8) (a : BitVec 16) (b c d : W32) : W128 := d ++ c ++ b ++ a ++ tgt ++ code

/-- The register option of an action, at [12:8] of A (R198). -/
def regField : Option (Fin 16) → BitVec 5
  | none => 0
  | some n => BitVec.ofNat 4 n.val ++ (1 : BitVec 1)

/-- The register option of a field. -/
def regOf (f : BitVec 5) : Option (Fin 16) :=
  if f.getLsbD 0 then some ⟨f.toNat / 2 % 16, Nat.mod_lt _ (by decide)⟩ else none

/-- A net register's index. -/
def netReg (w : W128) : Fin 16 := ⟨(bits w 8 8).toNat % 16, Nat.mod_lt _ (by decide)⟩

/-- The low and the high half of a 64-bit value, which B and C carry (R197). -/
def lo32 (v : W64) : W32 := bits v 0 32
/-- The high half. -/
def hi32 (v : W64) : W32 := bits v 32 32

/-- The action word of a net action (R198); none for every other step. -/
def encodeAction : Instr → Option W128
  | .netNop => some (actionWord 0x00 0 0 0 0 0)
  | .arm tgt stg reg n scope =>
    some (actionWord 0x01 tgt ((0 : BitVec 3) ++ regField reg ++ stg) ((0 : BitVec 16) ++ n)
      ((0 : BitVec 29) ++ scope.code) 0)
  | .cfg tgt img shadow =>
    some (actionWord 0x02 tgt ((0 : BitVec 6) ++ (if shadow then (2 : BitVec 2) else 0) ++ img) 0 0 0)
  | .swap tgt shadow => some (actionWord 0x03 tgt (if shadow then 2 else 0) 0 0 0)
  | .strm tgt desc reg scope =>
    some (actionWord 0x04 tgt ((0 : BitVec 3) ++ regField reg ++ desc) 0 ((0 : BitVec 29) ++ scope.code) 0)
  | .sbarAction scope mask => some (actionWord 0x05 0 ((0 : BitVec 13) ++ scope.code) (lo32 mask) (hi32 mask) 0)
  | .nbld tgt prog => some (actionWord 0x06 tgt ((0 : BitVec 8) ++ prog) 0 0 0)
  | .nbrun tgt prog rport scope lc0 lc1 row0 len =>
    some (actionWord 0x07 tgt ((0 : BitVec 3) ++ scope.code ++ rport ++ prog) lc0 lc1
      (len ++ (0 : BitVec 2) ++ row0))
  | .wsw tgt va => some (actionWord 0x08 tgt 0 (bits va 0 32) ((0 : BitVec 8) ++ bits va 32 24) 0)
  | .sign tgt add scope value =>
    some (actionWord 0x09 tgt ((0 : BitVec 12) ++ scope.code ++ bit1 add) (lo32 value) (hi32 value) 0)
  | .watch tgt cmp scope value timeout =>
    some (actionWord 0x0A tgt ((0 : BitVec 11) ++ scope.code ++ cmp.code) (lo32 value) (hi32 value) timeout)
  | .nset n value => some (actionWord 0x0B (BitVec.ofNat 8 n.val) 0 (lo32 value) (hi32 value) 0)
  | .nadd n value => some (actionWord 0x0C (BitVec.ofNat 8 n.val) 0 (lo32 value) (hi32 value) 0)
  | .ncmp n uns value =>
    some (actionWord 0x0D (BitVec.ofNat 8 n.val) ((0 : BitVec 15) ++ bit1 uns) (lo32 value) (hi32 value) 0)
  | .ndec n => some (actionWord 0x0E (BitVec.ofNat 8 n.val) 0 0 0 0)
  | .collBind tgt => some (actionWord 0x0F tgt 0 0 0 0)
  | .collStep tgt k => some (actionWord 0x0F tgt 1 k 0 0)
  | .collEnd tgt => some (actionWord 0x0F tgt 2 0 0 0)
  | .cslot tgt length => some (actionWord 0x10 tgt 0 length 0 0)
  | .tail tgt => some (actionWord 0x11 tgt 0 0 0 0)
  | .hosti vec reg value =>
    some (actionWord 0x12 0 ((0 : BitVec 3) ++ regField reg ++ vec) (lo32 value) (hi32 value) 0)
  | .timer count => some (actionWord 0x13 0 0 count 0 0)
  | .nrdp n place => some (actionWord 0x14 (BitVec.ofNat 8 n.val) ((0 : BitVec 8) ++ place) 0 0 0)
  | .done status => some (actionWord 0x15 0 0 ((0 : BitVec 16) ++ status) 0 0)
  | .rkey gen timeout => some (actionWord 0x16 0 0 gen 0 timeout)
  | .extend tgt a b c d => some (actionWord 0x17 tgt a b c d)
  | _ => none

/-- The action whose fields a word holds, by its code (R198). -/
def actionFields (w : W128) : Option Instr :=
  let tgt := bits w 8 8
  let b := bits w 32 32
  let cb := bits w 32 64
  match (bits w 0 8).toNat with
  | 0x00 => some .netNop
  | 0x01 => some (.arm tgt (bits w 16 8) (regOf (bits w 24 5)) (bits w 32 16) (Scope.ofCode (bits w 64 3).toNat))
  | 0x02 => some (.cfg tgt (bits w 16 8) (w.getLsbD 25))
  | 0x03 => some (.swap tgt (w.getLsbD 17))
  | 0x04 => some (.strm tgt (bits w 16 8) (regOf (bits w 24 5)) (Scope.ofCode (bits w 64 3).toNat))
  | 0x05 => some (.sbarAction (Scope.ofCode (bits w 16 3).toNat) cb)
  | 0x06 => some (.nbld tgt (bits w 16 8))
  | 0x07 => some (.nbrun tgt (bits w 16 8) (bits w 24 2) (Scope.ofCode (bits w 26 3).toNat) b (bits w 64 32)
      (bits w 96 14) (bits w 112 16))
  | 0x08 => some (.wsw tgt (bits w 32 56))
  | 0x09 => some (.sign tgt (w.getLsbD 16) (Scope.ofCode (bits w 17 3).toNat) cb)
  | 0x0A => some (.watch tgt (Cmp.ofCode (bits w 16 2).toNat) (Scope.ofCode (bits w 18 3).toNat) cb (bits w 96 32))
  | 0x0B => some (.nset (netReg w) cb)
  | 0x0C => some (.nadd (netReg w) cb)
  | 0x0D => some (.ncmp (netReg w) (w.getLsbD 16) cb)
  | 0x0E => some (.ndec (netReg w))
  | 0x0F =>
    match (bits w 16 2).toNat with
    | 0 => some (.collBind tgt)
    | 1 => some (.collStep tgt b)
    | 2 => some (.collEnd tgt)
    | _ => none
  | 0x10 => some (.cslot tgt b)
  | 0x11 => some (.tail tgt)
  | 0x12 => some (.hosti (bits w 16 8) (regOf (bits w 24 5)) cb)
  | 0x13 => some (.timer b)
  | 0x14 => some (.nrdp (netReg w) (bits w 16 8))
  | 0x15 => some (.done (bits w 32 16))
  | 0x16 => some (.rkey b (bits w 96 32))
  | 0x17 => some (.extend tgt (bits w 16 16) b (bits w 64 32) (bits w 96 32))
  | _ => none

/-- The action of a word: a reserved code, or a bit its action does not use, is refused (R197, R209). -/
def decodeAction (w : W128) : Except DecodeError Instr :=
  match actionFields w with
  | none => .error .reservedAction
  | some i => if encodeAction i = some w then .ok i else .error .actionField

/-- A packet's header word: CODE, NU and the header's fields (R299). -/
def packetHdr (code : BitVec 8) (nu : BitVec 2) (h : PktHdr) : W64 :=
  (0 : BitVec 32) ++ h.tag ++ (0 : BitVec 2) ++ bit1 h.dld ++ bit1 h.pre ++ bit1 h.irq ++ bit1 h.cmpl ++ nu ++ code

/-- The header fields of a word (R299). -/
def hdrFields (w : W64) : PktHdr :=
  { cmpl := w.getLsbD 10, irq := w.getLsbD 11, pre := w.getLsbD 12, dld := w.getLsbD 13, tag := bits w 16 16 }

/-- Words of a packet, zeros added up to n. -/
def padWords (n : Nat) (l : List W64) : List W64 := l ++ List.replicate (n - l.length) 0

/-- The condition words of WAITALL and WAITANY (R299). -/
def condWords : List WaitCond → List W64
  | [] => []
  | c :: t => ((0 : BitVec 6) ++ c.op.code ++ c.va) :: c.value :: condWords t

/-- The conditions of n pairs of words. -/
def condsOf : Nat → List W64 → List WaitCond
  | 0, _ => []
  | n + 1, a :: v :: t => { va := bits a 0 56, op := Cmp.ofCode (bits a 56 2).toNat, value := v } :: condsOf n t
  | _ + 1, _ => []

/-- A waiting packet's words. -/
def waitWords (code : BitVec 8) (h : PktHdr) (timeout : W32) (cs : List WaitCond) : List W64 :=
  padWords 32 (packetHdr code 3 h :: (timeout ++ BitVec.ofNat 32 cs.length) :: condWords cs)

/-- The 64-bit words of a packet (R299); none for every other step. -/
def encodePacket : Instr → Option (List W64)
  | .pktNop h => some (padWords 8 [packetHdr 0x00 0 h])
  | .launch h image root interval dmask ndm1 =>
    some (padWords 16 [packetHdr 0x01 1 h, image, root, (0 : BitVec 12) ++ ndm1 ++ dmask ++ interval])
  | .waitall h timeout cs => some (waitWords 0x02 h timeout cs)
  | .waitany h timeout cs => some (waitWords 0x03 h timeout cs)
  | .signal h va add value =>
    some (padWords 8 [packetHdr 0x04 0 h, (0 : BitVec 7) ++ bit1 add ++ va, value])
  | .netload h image => some (padWords 16 [packetHdr 0x05 1 h, image])
  | .fence h => some (padWords 8 [packetHdr 0x06 0 h])
  | .marker h value => some (padWords 8 [packetHdr 0x07 0 h, value])
  | .timed h entry rule valid period start image root =>
    some (padWords 16 [packetHdr 0x08 1 h, (0 : BitVec 53) ++ bit1 valid ++ rule ++ entry, period, start, image, root])
  | _ => none

/-- The packet whose fields its words hold, by CODE (R299). -/
def packetFields (l : List W64) : Option Instr :=
  let w := fun n => l.getD n 0
  let h := hdrFields (w 0)
  match (bits (w 0) 0 8).toNat with
  | 0x00 => some (.pktNop h)
  | 0x01 => some (.launch h (w 1) (w 2) (bits (w 3) 0 32) (bits (w 3) 32 16) (bits (w 3) 48 4))
  | 0x02 => some (.waitall h (bits (w 1) 32 32) (condsOf (bits (w 1) 0 4).toNat (l.drop 2)))
  | 0x03 => some (.waitany h (bits (w 1) 32 32) (condsOf (bits (w 1) 0 4).toNat (l.drop 2)))
  | 0x04 => some (.signal h (bits (w 1) 0 56) ((w 1).getLsbD 56) (w 2))
  | 0x05 => some (.netload h (w 1))
  | 0x06 => some (.fence h)
  | 0x07 => some (.marker h (w 1))
  | 0x08 => some (.timed h (bits (w 1) 0 8) (bits (w 1) 8 2) ((w 1).getLsbD 10) (w 2) (w 3) (w 4) (w 5))
  | _ => none

/-- A packet holds only values R299 allows: NC 1-12, addresses 8-byte aligned, a rule of 0-2 (R301), a period in range. -/
def packetOk : Instr → Bool
  | .waitall _ _ cs => decide (1 ≤ cs.length) && decide (cs.length ≤ 12) && cs.all (fun c => decide (c.va.toNat % 8 = 0))
  | .waitany _ _ cs => decide (1 ≤ cs.length) && decide (cs.length ≤ 12) && cs.all (fun c => decide (c.va.toNat % 8 = 0))
  | .signal _ va _ _ => decide (va.toNat % 8 = 0)
  | .timed _ _ rule _ period _ _ _ => rule != 3 && decide (1000 ≤ period.toNat) && decide (period.toNat < 2 ^ 32)
  | _ => true

/-- The packet of its words: an unknown CODE, then a reserved bit, a wrong NU or a value out of range (R300 classes 1, 2). -/
def decodePacket (l : List W64) : Except DecodeError Instr :=
  match packetFields l with
  | none => .error .reservedPacket
  | some i => if encodePacket i = some l && packetOk i then .ok i else .error .packetField

/-- The command that MBCMD and MBARG0-2 hold (R306). -/
def decodeMailbox (cmd a0 a1 a2 : W64) : Except DecodeError Instr :=
  if bits cmd 8 56 != 0 then .error .reservedMailbox
  else match (bits cmd 0 8).toNat with
    | 0x01 => .ok .status
    | 0x02 => .ok .direct
    | 0x03 => .ok (.map a0 a1 a2)
    | 0x04 => .ok (.unmap a0 a1)
    | 0x05 => .ok (.qresume a0)
    | 0x06 => .ok (.kill a0)
    | 0x07 => .ok (.resume a0)
    | 0x08 => .ok (.trapget a0)
    | 0x09 => .ok .faultget
    | 0x0A => .ok (.faultdone a0 a1)
    | 0x0B => .ok (.setsys a0 a1)
    | 0x0C => .ok .restart
    | 0x0D => .ok (.linktrain a0)
    | _ => .error .reservedMailbox

/-- The element instruction of a 128-bit word. -/
def decodeElem (w : W128) : Except DecodeError Instr :=
  match decodeSlot w with
  | .ok (o, x) => .ok (o.instr x)
  | .error e => .error e

/-- The instruction the decoder reads from nbits bits w: 32 bits are a micro-instruction, 128 an element instruction. The
words of both are little-endian (R5), so bit 0 of w is bit 0 of the word. -/
def decodeTableWord (nbits w : Nat) : Option Instr :=
  if nbits = 32 then (match decodeMicro (BitVec.ofNat 32 w) with | .ok i => some i | .error _ => none)
  else if nbits = 128 then (match decodeElem (BitVec.ofNat 128 w) with | .ok i => some i | .error _ => none)
  else none

/-- The word of an element instruction or a micro-instruction, of 128 or 32 bits; none for every other step. -/
def encode (i : Instr) : Option (Nat × Nat) :=
  match i.elem? with
  | some (o, x) => some (128, (encodeSlot o x).toNat)
  | none => (encodeMicro i).map (fun w => (32, w.toNat))

end Sys2Proof
end

