-- ==== Sys2Proof/Machine/OpInfo.lean ====
section
/-!
DEFINITION. OpInfo.lean: what each element instruction reads, produces and occupies, from the entries of
spec/09, 11 and 13 (R97), and the fields of MOD and IMM by class (R74).
-/
namespace Sys2Proof.Machine

/-- A functional unit (R98, R132, R339). -/
inductive FUnit where
  | ctl | move | alu | mul | div | fpu | sfu | cvt | mxu | mem | coll
  deriving DecidableEq, Repr

/-- The number of a unit, its key in an element's table of busy units. -/
def FUnit.idx : FUnit → Nat
  | .ctl => 0 | .move => 1 | .alu => 2 | .mul => 3 | .div => 4 | .fpu => 5 | .sfu => 6 | .cvt => 7 | .mxu => 8 | .mem => 9
  | .coll => 10

/-- The class of an opcode, OPC[7:4] (R76). -/
def opClass (o : Op) : Nat := o.code / 16

/-- The unit of an instruction (R98, R132, R339). -/
def opUnit (o : Op) : FUnit :=
  match o with
  | .mul | .mulh | .mad | .qmul => .mul
  | .div | .rem => .div
  | .fltr => .alu
  | .rdce => .fpu
  | _ =>
    match opClass o with
    | 0 => .ctl | 1 => .move | 2 => .alu | 3 => .alu | 4 => .alu | 5 => .fpu | 6 => .sfu | 7 => .cvt | 8 => .mxu
    | 9 => .mem | 10 => .mem | _ => .coll

/-- The lane width in bits of MOD[1:0] (R74, R97). -/
def slotW (x : Slot) : Nat := 8 * 2 ^ (bits x.mod 0 2).toNat
/-- MOD.U (R74). -/
def slotU (x : Slot) : Bool := x.mod.getLsbD 2
/-- MOD.SAT (R74). -/
def slotSat (x : Slot) : Bool := x.mod.getLsbD 3
/-- MOD[5], the T, H and TOK of their instructions. -/
def slotM5 (x : Slot) : Bool := x.mod.getLsbD 5
/-- MOD[6]: KEEP in the movement class, the counter select in classes 0 and 2 (R70, R74). -/
def slotM6 (x : Slot) : Bool := x.mod.getLsbD 6
/-- MOD[5:4], the operation of IRED, SATM, SIGW and SIGR, the true port of STEER. -/
def slotM54 (x : Slot) : Nat := (bits x.mod 4 2).toNat
/-- Slot f, MOD[6:4] (R74). -/
def slotF (x : Slot) : Nat := (bits x.mod 4 3).toNat
/-- RM, MOD[2:0] (R58). -/
def slotRm (x : Slot) : Nat := (bits x.mod 0 3).toNat
/-- The low n bits of IMM from bit lo, as a number. -/
def immBits (x : Slot) (lo n : Nat) : Nat := (bits x.imm lo n).toNat

/-- The special-register index of a DST 13 or an RDSR (R100). -/
def slotSrg (x : Slot) : Nat := immBits x 0 8

/-- Which operands an instruction's description lists (R97): opA, opB, opC. -/
def opReads (o : Op) (x : Slot) : Bool × Bool × Bool :=
  match o with
  | .nop | .trap | .bkpt | .rdsr | .kdec | .plog | .tick | .movi => (false, false, false)
  | .outc | .wrsr | .kset | .kadd | .fmtw => (true, false, false)
  | .evnt => (x.mod.getLsbD 2, false, false)
  | .mov | .tagr | .fwd => (true, false, false)
  | .lane | .bcst | .perm | .rotl | .steer | .ctag | .ftag | .zipl | .unzl => (true, true, false)
  | .insl | .merge => (true, true, true)
  | .mad | .adds | .subs | .clmp | .qmul => (true, true, true)
  | .abs | .neg | .ired => (true, false, false)
  | .add | .sub | .mul | .mulh | .div | .rem | .min | .max => (true, true, false)
  | .bsel => (true, true, true)
  | .popc | .clz | .bfx | .unpk => (true, false, false)
  | .and | .or | .xor | .andn | .shl | .shr | .sha | .rotb | .bfi | .crc | .pack => (true, true, false)
  | .cmpeq | .cmpne | .cmplt | .cmple | .cmpgt | .cmpge | .tstz | .tstnz => (true, true, false)
  | .fcmeq | .fcmlt | .fcmle | .fcmun => (true, true, false)
  | .anyl | .alll | .firstl => (true, false, false)
  | .sel => (true, true, true)
  | .fadd | .fsub | .fmul | .fmin | .fmax | .fscl | .fdiv => (true, true, false)
  | .fma | .fms | .fnma | .fdot2 => (true, true, true)
  | .fabs | .fneg | .fred | .fcls | .frnd => (true, false, false)
  | .osm => (true, true, x.imm.getLsbD 0)
  | .frcp | .frsq | .fsqrt | .fexp2 | .flog2 | .fsin | .fcos | .ftanh | .fsigm | .ferf | .fexp => (true, false, false)
  | .cvt | .cvti | .cvtf | .srnd | .widn | .upk4 | .seed => (true, false, false)
  | .qnt | .dqnt | .mxsc | .narw | .pk4 => (true, true, false)
  | .mma | .mmaz => (true, true, false)
  | .mmsp | .mmv => (true, true, true)
  | .mxb | .accw => (true, false, false)
  | .accr | .accz | .accs | .acca | .mdrn | .mstat | .mtest | .trns | .rast => (false, false, false)
  | .lds | .gset | .hold | .dcxc | .qapp => (true, false, false)
  | .sts | .ldsx | .satm => (true, true, false)
  | .stsx => (true, true, true)
  | .grun | .gsus | .gres | .sbar | .cmit | .disc | .qtak => (false, false, false)
  | .gld | .gprf | .wsld | .nbq | .nbr => (true, false, false)
  | .gst | .sigw | .sigr | .fltr | .rdce => (true, true, false)
  | .gatm => (true, true, true)
  | .fnc | .nbst => (false, false, false)
  | .csnd | .cred => (true, false, false)
  | .crcv | .cbar => (false, false, false)

/-- The instruction reads opA. -/
def readsA (o : Op) (x : Slot) : Bool := (opReads o x).1
/-- The instruction reads opB. -/
def readsB (o : Op) (x : Slot) : Bool := (opReads o x).2.1
/-- The instruction reads opC. -/
def readsC (o : Op) (x : Slot) : Bool := (opReads o x).2.2

/-- The selectors an instruction reads, in the order opA, opB, opC. -/
def usedSels (o : Op) (x : Slot) : List Sel :=
  (if readsA o x then [x.sa] else []) ++ (if readsB o x then [x.sb] else []) ++ (if readsC o x then [x.sc] else [])

/-- The port a selector names. -/
def selPort : Sel → Option Nat
  | .i n => some n.val
  | _ => none

/-- The output port a destination names. -/
def dstPort : Dst → Option Nat
  | .o n => some n.val
  | _ => none

/-- How an instruction uses DST: no result, a matrix step into ACC, or a result. -/
inductive DstUse where
  | none | acc | result
  deriving DecidableEq, Repr

/-- The use of DST (R97, R157). -/
def opDst (o : Op) : DstUse :=
  match o with
  | .nop | .outc | .trap | .bkpt | .plog | .evnt | .fmtw | .tick | .ctag | .ftag | .seed => .none
  | .mxb | .mdrn | .mtest => .none
  | .sts | .stsx | .gset | .grun | .gsus | .gres | .sbar | .hold | .cmit | .disc | .dcxc | .qapp => .none
  | .gst | .gprf | .sigw | .fnc | .nbq | .nbr | .csnd | .cbar => .none
  | .mma | .mmaz | .mmsp | .mmv | .accw | .accz | .accs | .acca | .trns => .acc
  | _ => .result

/-- The instruction defines a result condition (R99). -/
def opRc (o : Op) : Bool :=
  match o with
  | .nop | .outc | .trap | .bkpt | .wrsr | .evnt | .fmtw | .tick | .fwd | .ctag | .ftag | .seed => false
  | .mma | .mmaz | .mmsp | .mmv | .mxb | .accw | .accz | .accs | .acca | .trns | .mtest => false
  | .sts | .stsx | .gset | .grun | .gres | .sbar | .hold | .cmit | .disc | .dcxc | .qapp => false
  | .gst | .gprf | .sigw | .fnc | .nbq | .nbr | .csnd | .crcv | .cred => false
  | _ => true

/-- The output ports that a slot writes: DST's port and those of OUTM; STEER's are DST's and its true port (R39, R115). -/
def writePorts (o : Op) (x : Slot) : List Nat :=
  match o, dstPort x.dst with
  | .steer, some p => [p, slotM54 x]
  | .steer, none => [slotM54 x]
  | _, d => (List.range 4).filter (fun j => d == some j || x.outm.getLsbD j)

/-- A slot emits a token: through DST or OUTM, or CSND on its circuit (R72). -/
def emitsToken (o : Op) (x : Slot) : Bool := (writePorts o x).length != 0 || o == .csnd

/-- The instruction is of the movement class and keeps tags (R72). -/
def keepsTags (o : Op) (x : Slot) : Bool := opClass o == 1 && o != .movi && slotM6 x

/-- The instructions whose port operands must carry the FT of slot f (R42, R127, R131, R189). -/
def opFormatted (o : Op) : Bool :=
  match o with
  | .fcmeq | .fcmlt | .fcmle | .fcmun | .rdce => true
  | _ => opClass o == 5 || opClass o == 6

/-- The instruction defines a lane width W in MOD[1:0] (R97). -/
def opHasW (o : Op) : Bool :=
  match o with
  | .mov | .lane | .insl | .bcst | .perm | .rotl | .steer | .merge | .zipl | .unzl => true
  | .fcmeq | .fcmlt | .fcmle | .fcmun => false
  | .ldsx | .stsx | .satm | .gatm | .fltr => true
  | _ => opClass o == 2 || opClass o == 3 || opClass o == 4

/-- The latency of an instruction whose latency is fixed (R98, R132, R142, R149, R157, R171). -/
def opLat (o : Op) (x : Slot) (lanes : Nat) : Nat :=
  match o with
  | .mul | .mulh | .mad | .qmul | .ired => 3
  | .div | .rem => match (bits x.mod 0 2).toNat with | 0 => 8 | 1 => 12 | 2 => 20 | _ => 36
  | .crc => if slotM5 x then 4 else 2
  | .fadd | .fsub | .fmul | .fma | .fms | .fnma | .fscl | .frnd => 4
  | .fmin | .fmax | .fabs | .fneg | .fcls => 2
  | .fred => if lanes = 8 then 8 else if lanes = 16 then 10 else 12
  | .fdot2 => 5
  | .osm => if x.imm.getLsbD 0 then 5 else 24
  | .frcp | .frsq | .fsqrt | .fexp2 | .flog2 => 16
  | .fexp | .fsin | .fcos | .fdiv => 20
  | .fsigm | .ftanh => 28
  | .ferf => 32
  | .mxsc => 3
  | .seed => 1
  | .accr => 2
  | .accs | .acca | .trns => 33
  | .mtest => 128
  | .rast => 8
  | .lds => 4
  | .sts => 2
  | .satm => 5
  | .wsld => 24
  | .rdce => 2
  | _ => if opClass o = 7 then 2 else 1

/-- The issue interval of an instruction whose interval is fixed (R98, R132, R157, R339). -/
def opBusy (o : Op) (x : Slot) (lanes : Nat) : Nat :=
  match o with
  | .div | .rem => opLat o x lanes
  | .osm => if x.imm.getLsbD 0 then 1 else 2
  | .accs | .acca | .trns => 32
  | .mtest => 128
  | .satm => 2
  | _ => if opClass o = 6 then lanes / 8 else 1

/-- The element types that carry an instruction (R76). -/
def opOn (o : Op) (t : ElemType) : Bool :=
  match opClass o, t with
  | 0, _ => true
  | 1, _ => true
  | 2, .gw => false | 2, _ => true
  | 3, .gw => false | 3, _ => true
  | 4, .gw => false | 4, _ => true
  | 5, .ce => true | 5, .bn => true | 5, _ => false
  | 6, .ce => true | 6, _ => false
  | 7, .gw => false | 7, _ => true
  | 8, .ce => true | 8, _ => false
  | 9, .mt => true | 9, _ => false
  | 10, .bn => true
  | 10, .mt => decide (o.code < 0xA8)
  | 10, _ => false
  | 11, .gw => true
  | _, _ => false

/-- The TYPE of an element (R94, R101). -/
def typeCode : ElemType → Nat
  | .ce => 0 | .mt => 1 | .bn => 2 | .gw => 3

end Sys2Proof.Machine
end

