-- ==== Sys2Proof/Machine/Check.lean ====
section
/-!
DEFINITION. Check.lean: the checks CFG makes of a valid slot: R68-R76 and R78, and the class tables R130, R156 and R191.
A check that needs only the word is `wordRow`; one that needs the node record or the stage image is `nodeRow`.
-/
namespace Sys2Proof.Machine

/-- What a slot check knows of its node (R77): the element type, COMPL, FMTTAB, the queues whose QCFG.BOUND is 1, the
circuits bound for the stage. -/
structure NodeCtx where
  ty     : ElemType
  compl  : Bool
  fmttab : W64
  bound  : BitVec 4
  circs  : W64
  deriving DecidableEq, Repr

/-- Descriptor byte f of a FMTTAB (R56). -/
def fmtByte (t : W64) (f : Nat) : Byte := bits t (8 * f) 8

/-- The format of slot f (R56). -/
def fmtAt (t : W64) (f : Nat) : Fmt := Fmt.ofByte (fmtByte t f)

/-- Every descriptor of a FMTTAB is valid (R56). -/
def fmttabOk (t : W64) : Bool := (List.range 8).all (fun f => (fmtAt t f).valid)

/-- The instruction fields of IMM that are no operand, as a mask; none where IMM holds no field (R104-R109, R123, R138,
R140, R149, R162-R168, R176, R188-R190). -/
def immField (o : Op) : Option Nat :=
  match o with
  | .trap | .bkpt | .tick | .bfx | .bfi => some 0xFFFF
  | .rdsr => some 0xFF
  | .plog => some 0x77F
  | .movi => some 0xFFFFFFFF
  | .fred | .osm | .mtest | .rdce => some 3
  | .cvt | .cvti | .cvtf | .qnt | .dqnt | .mxsc | .srnd | .narw | .widn | .pk4 | .upk4 => some 0x77
  | .accr => some 0xFF07
  | .accw => some 0x7F
  | .accs | .sbar => some 0xFF
  | .nbq => some 7
  | .cred => some 0x37
  | _ => none

/-- The instructions of whose selectors none may be IMM, because IMM is their field (R123, R138, R140, R149, R165). -/
def immBarred (o : Op) : Bool :=
  match o with
  | .bfx | .bfi | .fred | .osm | .accw => true
  | .cvt | .cvti | .cvtf | .qnt | .dqnt | .mxsc | .srnd | .narw | .widn | .pk4 | .upk4 => true
  | _ => false

/-- The bits of IMM that an operand of an integer or control instruction uses: the lane width, at most 32 (R69, R73). -/
def immOperandMask (o : Op) (x : Slot) : Nat :=
  if opHasW o then 2 ^ (min (slotW x) 32) - 1 else 2 ^ 32 - 1

/-- IMM bits that no operand, destination or instruction field uses are 0 (R73); a floating operand's width is checked
against the node's FMTTAB by `nodeRow`. -/
def immOk (o : Op) (x : Slot) : Bool :=
  let sel := (usedSels o x).contains .imm
  let allow :=
    match immField o with
    | some m => m
    | none =>
      if sel then (if o == .outc then 3 else if o == .fmtw then 0xFF else immOperandMask o x)
      else if x.dst == .srg then 0xFF
      else 0
  x.imm.toNat &&& (2 ^ 32 - 1 - allow) == 0

/-- The MOD bits an instruction defines, beside the counter select (R74, R103-R190). -/
def modMask (o : Op) (x : Slot) : Nat :=
  match o with
  | .nop | .trap | .bkpt | .rdsr | .wrsr | .kset | .kdec | .kadd | .plog | .tick => 0
  | .outc => 1
  | .evnt => 7
  | .fmtw => 0x38
  | .mov | .lane | .insl | .bcst | .perm | .rotl | .merge => 0x43
  | .movi => 0x1C
  | .zipl | .unzl => 0x63
  | .tagr | .ctag | .ftag => 0
  | .fwd => 0x40
  | .steer => 0x73
  | .add | .sub | .mul | .mad | .div => 0xF
  | .mulh | .rem | .min | .max | .clmp => 7
  | .abs | .neg => 0xB
  | .adds | .subs | .qmul => 0x2F
  | .ired => if slotM54 x = 0 then 0x3F else 0x37
  | .and | .or | .xor | .andn | .bsel | .shl | .shr | .sha | .rotb | .popc | .clz | .bfi => 3
  | .bfx => 7
  | .crc => 0x23
  | .pack => 0xF
  | .unpk => 0x27
  | .cmpeq | .cmpne | .cmplt | .cmple | .cmpgt | .cmpge => 7
  | .tstz | .tstnz | .anyl | .alll | .firstl | .sel => 3
  | .fcmeq | .fcmlt | .fcmle | .fcmun => 0x70
  | .fmin | .fmax | .fabs | .fneg | .fcls => 0x70
  | .frnd => 0x77
  | .fred => if immBits x 0 2 = 0 then 0x7F else 0x70
  | .fadd | .fsub | .fmul | .fma | .fms | .fnma | .fdot2 | .fscl | .osm => 0x7F
  | .frcp | .frsq | .fsqrt | .fexp2 | .flog2 | .fsin | .fcos | .ftanh | .fsigm | .ferf | .fexp | .fdiv => 0x7F
  | .cvt | .cvti | .cvtf | .qnt | .dqnt | .srnd | .narw | .pk4 | .upk4 => 0x7F
  | .widn | .mxsc => 0x70
  | .seed => 0
  | .mma | .mmaz => 0xF
  | .mmsp | .mmv | .accz | .accs | .acca | .trns => 1
  | .mxb => 2
  | .accr => 0x79
  | .accw | .mstat => 3
  | .mdrn | .mtest | .rast => 0
  | .lds | .sts | .sbar | .hold | .cmit | .disc | .dcxc => 0
  | .ldsx | .stsx => 7
  | .satm => 0x37
  | .gset | .grun | .gsus | .gres | .qapp | .qtak => 3
  | .gld | .gst | .gprf | .wsld | .nbq | .nbr | .nbst => 0
  | .gatm => 0x77
  | .sigw | .sigr => 0x37
  | .fnc => 7
  | .fltr => 3
  | .rdce => 0x70
  | .csnd | .crcv | .cred | .cbar => 0x3F

/-- The instruction takes a rounding mode in MOD[2:0] (R74). -/
def modHasRm (o : Op) (x : Slot) : Bool :=
  match o with
  | .fmin | .fmax | .fabs | .fneg | .fcls | .widn | .mxsc | .seed => false
  | .fred => immBits x 0 2 == 0
  | _ => opClass o == 5 || opClass o == 6 || opClass o == 7

/-- Every MOD bit set is defined and holds no reserved value (R74, R78). -/
def modOk (o : Op) (x : Slot) : Bool :=
  let m := x.mod.toNat
  let k := if (opClass o == 0 || opClass o == 2) && x.dst == .k then 0x40 else 0
  (m &&& (0x7F - (modMask o x ||| k)) == 0) && (!modHasRm o x || decide (slotRm x < 5))
  && (match o with
      | .crc => !slotM5 x || decide (slotW x = 8)
      | .pack => decide (slotW x ≠ 8)
      | .unpk => decide (slotW x ≠ 64)
      | .satm => decide (slotW x ≠ 64)
      | .gatm => decide (32 ≤ slotW x)
      | .sigw => decide (slotRm x < 6) && decide (slotM54 x < 2)
      | .sigr | .fnc => decide (slotRm x < 6)
      | .mma | .mmaz => x.mod.getLsbD 1 || decide ((bits x.mod 2 2).toNat = 0)
      | .fwd => slotM6 x
      | .plog => true
      | _ => true)

/-- DST 12 and 15 stand in their classes only (R70). -/
def dstInClass (o : Op) (x : Slot) : Bool :=
  match x.dst with
  | .acc => opClass o == 8
  | .k => opClass o == 0 || opClass o == 2
  | _ => true

/-- An instruction without a result names NULL (R73). -/
def dstUnused (o : Op) (x : Slot) : Bool := opDst o == .none && x.dst != .null

/-- DST is one that the instruction's own rule allows (R105, R106, R113, R115, R157, R181); NULL stands wherever a port or register
may (R70, R80). -/
def dstOk (o : Op) (x : Slot) : Bool :=
  match opDst o with
  | .none => true
  | .acc => x.dst == .acc
  | .result =>
    match o, x.dst with
    | _, .acc => false
    | .wrsr, d => d == .srg
    | .kset, d => d == .k
    | .kdec, d => d == .k
    | .kadd, d => d == .k
    | .fwd, d => (dstPort d).isSome
    | .steer, d => (dstPort d).isSome && dstPort d != some (slotM54 x)
    | .qtak, .srg => false
    | .rdsr, .srg => false
    | _, .srg => opClass o != 8
    | _, _ => true

/-- The special registers of R100 that every type has, and those of one type (R163, R182, R188, R190, R318). -/
def srgDefined (t : ElemType) (i : Nat) : Bool :=
  decide (i ≤ 8) || (decide (0x0C ≤ i) && decide (i ≤ 0x1C))
  || (match t with
      | .ce => decide (0x40 ≤ i) && decide (i ≤ 0x43)
      | .mt => (decide (0x40 ≤ i) && decide (i ≤ 0x45)) || (decide (0x48 ≤ i) && decide (i ≤ 0x51))
      | .bn => i == 0x40
      | .gw => i == 0x40 || i == 0x41)

/-- A special register that instructions may write: RW in R100 and R181. -/
def srgWritable (t : ElemType) (i : Nat) : Bool :=
  i == 5 || i == 8 || (decide (0x0C ≤ i) && decide (i ≤ 0x1C))
  || (t == .mt && decide (0x48 ≤ i) && decide (i ≤ 0x4B))

/-- An index below 0x40 that R100 defines. -/
def srgCommon (i : Nat) : Bool := decide (i ≤ 8) || (decide (0x0C ≤ i) && decide (i ≤ 0x1C))

/-- A special register that some type of element defines. -/
def srgSomewhere (i : Nat) : Bool := srgCommon i || (decide (0x40 ≤ i) && decide (i ≤ 0x51) && i != 0x46 && i != 0x47)

/-- The port condition of port j (R68). -/
def slotIc (x : Slot) (j : Nat) : PortCond :=
  match j with
  | 0 => x.ic0 | 1 => x.ic1 | 2 => x.ic2 | _ => x.ic3

/-- A selector is a port. -/
def isPort (s : Sel) : Bool := (selPort s).isSome

/-- The per-instruction rules of R130, R156 and R191 that the word alone decides. -/
def classWordOk (o : Op) (x : Slot) : Bool :=
  match o with
  | .fwd | .tagr => isPort x.sa
  | .ctag | .ftag => match selPort x.sa with | some p => !x.pop.getLsbD p | none => false
  | .steer => x.outm == 0
  | .merge =>
    (match selPort x.sa with | some p => slotIc x p == .any | none => true)
    && (match selPort x.sb with | some p => slotIc x p == .any | none => true)
    && (!slotM6 x || (isPort x.sa && isPort x.sb))
  | .bfx | .bfi => decide (0 < immBits x 8 8) && decide (immBits x 0 8 + immBits x 8 8 ≤ slotW x)
  | .fred => immBits x 0 2 != 3
  | .fdot2 => match x.sc with | .d _ => true | .zero => true | _ => false
  | .osm => decide (immBits x 0 2 < 2)
  | .mma | .mmaz | .mmv => isPort x.sa && isPort x.sb
  | .mmsp => isPort x.sa && isPort x.sb && (match x.sc with | .d _ => true | .i _ => true | _ => false)
  | .mxb => isPort x.sa
  | .accr => decide (immBits x 0 3 < 5)
  | .mtest => immBits x 0 2 != 3
  | .gset => match x.sa with | .d _ => true | .i _ => true | _ => false
  | .qtak => x.tago == .data && x.fto == 0
  | .rdce => immBits x 0 2 != 3
  | .cred => immBits x 4 2 != 3
  | .csnd => !isPort x.sa || (x.tago == .data && x.fto == 0)
  | .cvt | .cvti | .cvtf | .widn | .qnt | .dqnt => !isPort x.sa || immBits x 0 3 == 0
  | .srnd | .mxsc | .narw | .pk4 => (!isPort x.sa || immBits x 0 3 == 0) && immBits x 4 3 == 0
  | .upk4 => (!isPort x.sa || immBits x 0 3 == 0) && decide (immBits x 4 3 < 2)
  | _ => true

/-- The unused selectors hold ZERO (R73). -/
def selsOk (o : Op) (x : Slot) : Bool :=
  (readsA o x || x.sa == .zero) && (readsB o x || x.sb == .zero) && (readsC o x || x.sc == .zero)

/-- The first row of R78's table that a word breaks, counted from 1; 12 where a class rule breaks; none where none does.
Row 1 (the opcode) is decided by the decoder and by `nodeRow`, row 2 (IC 011) by the decoder. -/
def wordRow (o : Op) (x : Slot) : Option Nat :=
  if x.pval &&& ~~~x.pcare != 0 then some 3
  else if (List.range 4).any (fun j => slotIc x j == .empty
      && (x.pop.getLsbD j || (usedSels o x).any (fun s => selPort s == some j))) then some 4
  else if !dstInClass o x then some 5
  else if x.dst == .srg && ((usedSels o x).contains .imm || decide (255 < x.imm.toNat)) then some 5
  else if (match dstPort x.dst with | some p => x.outm.getLsbD p | none => false) then some 6
  else if x.pres.isSome && !opRc o then some 7
  else if keepsTags o x && (!isPort x.sa || x.tago != .data || x.fto != 0) then some 8
  else if !emitsToken o x && (x.tago != .data || x.fto != 0) then some 9
  else if !selsOk o x || !immOk o x || dstUnused o x then some 10
  else if !modOk o x then some 11
  else if (immBarred o && (usedSels o x).contains .imm) || !classWordOk o x || !dstOk o x then some 12
  else if (x.dst == .srg && !srgSomewhere (slotSrg x)) || (o == .rdsr && !srgSomewhere (slotSrg x)) then some 12
  else none

/-- The families an instruction of class 7 takes as its source (R150-R154). -/
def srcFamOk (o : Op) (f : Fam) : Bool :=
  match o with
  | .cvt | .cvti | .srnd | .qnt | .mxsc => f.isFloat
  | .cvtf => !f.isFloat
  | .dqnt => f == .b8 || f == .b8u || f == .i8 || f == .i4
  | .pk4 => f == .b8 || f == .b8u || f == .i8
  | .upk4 => f == .i4
  | _ => true

/-- The families an instruction of class 7 takes as its target (R150-R154). R150's table names none for SRND, whose target fixes only the
value set: the floating ones (log 57). R153 lists no target
families for NARW: with two port sources a slot whose target no source can be twice as wide as passes CFG and raises FMTBAD at issue (log 57, DEDUCED). -/
def dstFamOk (o : Op) (f : Fam) : Bool :=
  match o with
  | .cvt | .cvtf | .srnd | .dqnt => f.isFloat
  | .cvti => !f.isFloat
  | .qnt | .mxsc => f == .b8 || f == .b8u || f == .i8 || f == .i4
  | .pk4 => f == .i4
  | .upk4 => f == .b8 || f == .b8u || f == .i8
  | _ => true

/-- The source and target of a class 7 instruction go together: the width rules of WIDN and NARW (R150, R153). -/
def famPairOk (o : Op) (s t : Fam) : Bool :=
  match o with
  | .widn => t.width == 2 * s.width && s.isFloat == t.isFloat
  | .narw => s.width == 2 * t.width && s.isFloat == t.isFloat
  | _ => true

/-- The part Q is in range for a source and a target (R150, R154). SRND keeps its layout; NARW, PK4 and MXSC use no Q. -/
def partOk (o : Op) (q : Nat) (s t : Fmt) : Bool :=
  match o with
  | .srnd | .narw | .pk4 | .mxsc => q == 0
  | .upk4 => decide (q < 2)
  | _ =>
    let ns := s.lanes
    let nt := t.lanes
    if ns = nt then q == 0 else if nt < ns then decide (q < ns / nt) else decide (q < nt / ns)

/-- The instruction has two source operands of one slot: a register beside a port head is decoded by slot S, which is 0 (R149, R153, R154). -/
def pairsSources (o : Op) : Bool := o == .narw || o == .pk4

/-- The family rules of classes 4 to 8, 0xA and 0xB against the stage image (R127, R131, R139, R140, R156, R191). -/
def famOk (o : Op) (x : Slot) (t : W64) : Bool :=
  let f := fmtAt t (slotF x)
  match o with
  | .fcmeq | .fcmlt | .fcmle | .fcmun => f.fam.isFloat
  | .fdot2 => f.fam == .f16 || f.fam == .bf16
  | .osm => f.fam == .f32
  | .rdce => f.fam == .f16 || f.fam == .bf16 || f.fam == .f32 || f.fam == .i32
  | .cred =>
    let g := fmtAt t (immBits x 0 3)
    g.fam == .f16 || g.fam == .bf16 || g.fam == .f32 || g.fam == .i32
  | .seed => true
  | _ =>
    if opClass o = 5 || opClass o = 6 then f.fam.isFloat
    else if opClass o = 7 then
      dstFamOk o f.fam
      && ((isPort x.sa && (isPort x.sb || !pairsSources o))
          || (let s := fmtAt t (immBits x 0 3)
              srcFamOk o s.fam && famPairOk o s.fam f.fam && partOk o (immBits x 4 3) s f))
    else true

/-- A floating IMM operand sets no bit above its format's width (R69, R73). -/
def floatImmOk (o : Op) (x : Slot) (t : W64) : Bool :=
  !(opFormatted o && (usedSels o x).contains .imm && (immField o).isNone)
  || x.imm.toNat >>> (fmtAt t (slotF x)).fam.width == 0

/-- The checks that need the node: the first row broken, counted as in `wordRow` (R76, R100, R103, R181, R191). -/
def nodeRow (c : NodeCtx) (o : Op) (x : Slot) : Option Nat :=
  if !opOn o c.ty then some 1
  else if !floatImmOk o x c.fmttab then some 10
  else if x.dst == .srg && !srgWritable c.ty (slotSrg x) then some 12
  else if o == .rdsr && !srgDefined c.ty (slotSrg x) then some 12
  else if o == .outc && !c.compl then some 12
  else if (o == .qapp || o == .qtak) && c.bound.getLsbD (bits x.mod 0 2).toNat then some 12
  else if opClass o == 11 && !c.circs.getLsbD (bits x.mod 0 6).toNat then some 12
  else if !famOk o x c.fmttab then some 12
  else none

/-- The check of a slot in its node: none where it passes. -/
def slotRow (c : NodeCtx) (o : Op) (x : Slot) : Option Nat :=
  match wordRow o x with
  | some r => some r
  | none => nodeRow c o x

end Sys2Proof.Machine
end

