-- ==== Sys2Proof/Machine/Operands.lean ====
section
/-!
DEFINITION. Operands.lean: every operand form (R69) as a value, and what an instruction hands back to the picker: a result,
a result condition, the ports it emits on, or a trap at issue.
-/
namespace Sys2Proof.Machine

/-- A trap that an instruction raises: its code, CAUSE and INFO (R272). -/
structure TrapReq where
  code  : Nat
  cause : Nat
  info  : W64
  deriving DecidableEq, Repr

/-- The FMTBAD of a descriptor or slot (R272). -/
def fmtBad (info : Nat) : TrapReq := { code := 0x05, cause := 0, info := BitVec.ofNat 64 info }

/-- A PROT with its CAUSE and INFO (R272). -/
def protTrap (cause : Nat) (info : W64) : TrapReq := { code := 0x11, cause, info }

/-- An instruction's operands as read at issue (R40, R69). -/
structure Opnds where
  a : W256
  b : W256
  c : W256
  /-- The heads that opA, opB and opC name, where they are ports that hold one. -/
  ta : Option Token
  tb : Option Token
  tc : Option Token
  /-- P0-P7, FMTTAB and SRNG as they stand at issue. -/
  p : BitVec 8
  fmttab : W64
  srng : W32
  /-- The counter that a DST of 15 names. -/
  k : W32
  deriving DecidableEq, Repr

/-- What an instruction gives at issue. -/
structure PureOut where
  val : W256 := 0
  rc  : Bool := false
  /-- SRNG after the draws of this firing (R61); none where nothing was drawn. -/
  srng : Option W32 := none
  /-- The ports that take the result; none: every port the slot writes. -/
  ports : Option (List Nat) := none
  /-- The tags of the tokens emitted, where they are not TAGO and FTO (R72). -/
  tags : Option (Tag × BitVec 3) := none
  deriving DecidableEq, Repr

/-- An instruction's value over its operands, or the trap it raises at issue. -/
abbrev PureFn := Slot → Opnds → Except TrapReq PureOut

/-- A result with RC as given. -/
def okVal (v : W256) (rc : Bool) : Except TrapReq PureOut := .ok { val := v, rc }

/-- NZ(v) (R97). -/
def nz (v : W256) : Bool := v != 0

/-- A result whose RC is NZ(result). -/
def okNz (v : W256) : Except TrapReq PureOut := okVal v (nz v)

/-- The lane width at which IMM, K0 and K1 are read as operand n (0 opA, 1 opB, 2 opC) (R69, R97). A source of a conversion has that of its slot S
(log 57); a scale or a running maximum beside it has 32 bits. -/
def operandWidth (o : Op) (x : Slot) (t : W64) (n : Nat) : Nat :=
  if opFormatted o then (fmtAt t (slotF x)).fam.width
  else if o == .seed then 32
  else if o == .cred then (fmtAt t (immBits x 0 3)).fam.width
  else if opClass o = 7 then
    if n == 1 && !pairsSources o then 32 else (fmtAt t (immBits x 0 3)).fam.width
  else if opHasW o then slotW x
  else 32

/-- A 32-bit lane value applied to every lane of width w: low bits, or 64 bits extended by sign or by zeros (R69). -/
def laneValue (w : Nat) (uns : Bool) (v : W32) : W256 :=
  if w = 64 then
    let e : Nat := if uns || !v.getLsbD 31 then v.toNat else v.toNat + 0xFFFFFFFF00000000
    broadcast 64 e
  else broadcast w v.toNat

/-- MOD.U as R69 uses it for 64-bit lanes: signed where the instruction defines no U. -/
def operandUnsigned (o : Op) (x : Slot) : Bool := slotU x && (modMask o x).testBit 2

/-- Select a lane value, or a register's or head's 256 bits (R69). `d` reads a register, `h` a head's data. -/
def selectValue (s : Sel) (imm k0 k1 : W32) (w : Nat) (uns : Bool) (d : Nat → W256) (h : Nat → Option Token) : W256 :=
  match s with
  | .d n => d n.val
  | .i n => match h n.val with | some t => t.data | none => 0
  | .imm => laneValue w uns imm
  | .zero => 0
  | .k0 => laneValue w uns k0
  | .k1 => laneValue w uns k1

end Sys2Proof.Machine
end

