-- ==== Sys2Proof/Machine/Flags.lean ====
section
/-!
DEFINITION. Flags.lean: the result conditions (R97, R99, R126, R133, R149). The Z16 has no condition flags: an
instruction's one flag is the result condition that PRES delivers to a predicate.
-/
namespace Sys2Proof.Machine

/-- Some lane of n lanes of w bits is nonzero. -/
def anyLane (w n : Nat) (v : W256) : Bool := (List.range n).any (fun l => lane w v l != 0)

/-- Every lane of n lanes of w bits is nonzero. -/
def allLanes (w n : Nat) (v : W256) : Bool := (List.range n).all (fun l => lane w v l != 0)

/-- Some lane's code is NaN in a format (R133). -/
def anyNan (f : Fmt) (v : W256) : Bool :=
  (List.range f.lanes).any (fun l => (f.decodeF (lane f.fam.width v l)).isNan)

/-- All ones or zero in a lane of w bits, by a condition (R126). -/
def maskLane (w : Nat) (c : Bool) : Nat := if c then 2 ^ w - 1 else 0

/-- The RC of a CVT-class lane whose target is floating: NaN, an infinity, or out of range (R149). -/
def cvtFlag (f : Fmt) (r : Rounded) : Bool :=
  r.out || (let v := f.decodeF r.code; v.isNan || v.isInf)

end Sys2Proof.Machine
end

