-- ==== Sys2Proof/Config.lean ====
section
/-!
DEFINITION. Config.lean: what the spec leaves open. Each opaque constant is a free value: it has no body, so nothing can
be proved of it but what holds for every value (notes/assumptions/4.md and the entries named below).
-/
namespace Sys2Proof.Config

/-- A fresh 256-bit value, applied to the counter `free` of State (log 4). -/
opaque freeWord : Nat → W256

/-- The fc between the power-up of a die and the machine's reset: dies leave power-up at different fc (R13, R265, log 6). -/
opaque diePhase : Nat → Nat

/-- PHASE of the records of a completion ring's first pass; R299 says only that it flips on each pass (log 14). -/
opaque firstPhase : BitVec 1

/-- The 4 KiB segments in the spare pool of a memory tile (R51, log 12). -/
opaque sparePool : Nat → Nat

/-- The level-0 table by which the trust domain's binding translates a member's accesses: R237 leaves it to a statement that the spec does
not give (log 24). -/
opaque domainRoot : Nat → Nat

/-- The secret of the link to a device with which no session stands, as the switch: R310 gives sessions to members (log 79). -/
opaque linkSecret : Nat → List Byte

/-- The port that firmware routes a member by (R309, log 25). -/
opaque routeOf : Nat → Nat

/-- A placement of a net's stages (their words) on the dies that region allocation chose, apart from some elements and, unless the
last list is empty, within it: per SECT object the die, its corner tiles x0, y0, x1, y1, and per node of its stage the element's
ELEMID (R303). The model checks it before use (log 10). -/
opaque placer : List W128 → List Nat → List Nat → List Nat → Option (List (Nat × Nat × Nat × Nat × Nat × List Nat))

/-- A word that STATUS returns: which (0 mode, 1 heartbeat age in fc, 2 watchdog state) and its value; R306 gives them no encoding (log 26). -/
opaque mbStatus : Nat → Nat → W64

/-- A word that FAULTGET returns for an entry of the fault FIFO: which word, and the entry's number, page, ASID, kind and cause; R306 gives the
entry no layout (log 26). -/
opaque mbFault : Nat → Nat → Nat → Nat → Nat → Nat → W64

/-- A word that TRAPGET or FAULTGET returns when nothing is left to return (log 26). -/
opaque mbEmpty : Nat → W64

/-- A byte of the lifetime record in LTWIN, from its offset and the numbers that the record holds; R338 gives the 4 KiB record no layout
(log 27). -/
opaque ltwinByte : Nat → List Nat → Byte

end Sys2Proof.Config
end

