-- ==== Sys2Proof/Machine/ElemState.lean ====
section
/-!
DEFINITION. ElemState.lean: what an element holds (spec/03, 07, 09, 13): registers, ports, firings in flight, the matrix
unit, the memory tile's generators, hold buffer, decompressor and queues, the gateway's bound circuits, and its
configuration slots and suspended contexts (R285).
-/
namespace Sys2Proof.Machine

/-- An entry of output staging: reserved by a firing, then filled (R39, R40). -/
structure OutEntry where
  firing : Nat
  tok    : Option Token
  deriving DecidableEq, Repr

/-- What a completion does beside delivering its result (R108, R114, R155, R168). -/
inductive Finish where
  | plain
  | fmttab (f : Nat) (b : Byte)
  | seed (v : W32)
  | retagCt (port : Nat) (ct : Tag)
  | retagFt (port : Nat) (ft : BitVec 3)
  | mtest
  deriving DecidableEq, Repr

/-- A firing that has issued and not completed (R40). `due` is the fc at which it completes; none while it waits for
memory data or peers. -/
structure Flight where
  id    : Nat
  slot  : Nat
  fcnt  : BitVec 48
  op    : Op
  x     : Slot
  due   : Option Nat
  val   : W256
  rc    : Bool
  ports : List Nat
  tags  : Tag × BitVec 3
  fin   : Finish
  deriving DecidableEq, Repr

/-- The data, counter, predicate and special registers of an element (R100). Tables are sparse, 0 where unlisted. -/
structure Regs where
  d        : Tab W256
  k0       : W32
  k1       : W32
  p        : BitVec 8
  pend     : BitVec 8
  pendD    : BitVec 8
  pendK    : BitVec 2
  fmttab   : W64
  srng     : W32
  fcnt     : BitVec 48
  stage    : W32
  asid     : BitVec 16
  dbgctl   : W32
  evc      : Tab W32
  /-- The stall counters, keyed by their special-register index 0x10-0x1C (R46, R100). -/
  stall    : Tab W32
  /-- The latest stall reason, numbered from 0x10 as in R100 (R50, R274). -/
  reason   : Byte
  /-- The stall counters that writes have reached in this fc, which the hardware does not count up in it (R100). -/
  written  : List Nat
  /-- An ARM has loaded K0 in this fc: a counter write of the same fc does not change it (R106). -/
  armed    : Bool
  deriving DecidableEq, Repr

/-- The port queues of an element (R17, R39). Keys 0-3. -/
structure Ports where
  inq  : Tab (List Token)
  land : Tab (List Token)
  /-- Tokens that arrived while an index was on its way to this follower, which IC 010 does not see yet (R44). -/
  late : Tab Nat
  outq : Tab (List OutEntry)
  deriving DecidableEq, Repr

/-- The mode of an accumulator bank (R163). -/
inductive AccMode where
  | zeroed | float | integer
  deriving DecidableEq, Repr

/-- An accumulator bank: 32 x 32 cells keyed 32i + j, 0 where unlisted (R157, R163). `settles` is the fc at which an
unsettled bank settles. -/
structure AccBank where
  cells   : Tab W32
  mode    : AccMode
  ovf     : Bool
  part    : Nat
  rmask   : W32
  settles : Option Nat
  deriving DecidableEq, Repr

/-- The matrix unit of a CE (R157-R163). The scale tables hold 127 where unlisted. -/
structure Mxu where
  a0     : AccBank
  a1     : AccBank
  scaleA : Tab Byte
  scaleB : Tab Byte
  arem   : Nat
  brem   : Nat
  deriving DecidableEq, Repr

/-- Who issued an access (R224, R273). -/
inductive Issuer where
  /-- An element's instruction: the flight that waits for it, its slot and its FCNT. -/
  | elem (el flight slot : Nat) (fcnt : BitVec 48)
  | gen (el g : Nat)
  /-- A net action's firing. -/
  | nsq (inst slot : Nat)
  /-- A signal mirror's read (R340). -/
  | mirror (inst place : Nat)
  /-- A requester on the host through BAR2 or BAR4 (R221, R328). -/
  | host (req : Nat)
  /-- A remote module's access, with the number its gateway gives the reply (R237). -/
  | peer (devid tag : Nat)
  deriving DecidableEq, Repr

/-- What an access does when it performs (R185, R187, R188). -/
inductive AccKind where
  | read
  | write
  /-- A queue's oldest token, whose RC is QTAK's own (R181). -/
  | take
  /-- GATM: operation, width in bits, unsigned (R185). -/
  | atomic (op w : Nat) (uns : Bool)
  /-- A signal write or add of 64 bits (R187, R204). -/
  | sigw (add : Bool)
  /-- A signal read and its compare (R187). -/
  | sigr (cmp : Cmp)
  /-- Lanes of w bits read from their bytes in the token: lane and byte (R171, LDSX). -/
  | gather (w : Nat) (l : List (Nat × Nat))
  /-- Lanes of w bits of the data written at their bytes in the token, in this order (R171, STSX). -/
  | scatter (w : Nat) (l : List (Nat × Nat))
  /-- The token combined lane by lane with the data: operation, width in bits, unsigned (R172). -/
  | combine (op w : Nat) (uns : Bool)
  | nbq (n : Nat)
  | nbr
  deriving DecidableEq, Repr

/-- Where an access goes (R184). -/
inductive AccTarget where
  | spad | dram | ws | remote (devid : Nat) | nearBank
  deriving DecidableEq, Repr

/-- How the translation of an access stands (R222, R282, R283). -/
inductive Xlat where
  | untried | walking | faulted | done
  deriving DecidableEq, Repr

/-- An access (R224). `va` is a virtual address, a scratchpad or weight-store offset; `pch` and `off` are its cell once
translated (R221). -/
structure Access where
  id    : Nat
  by_   : Issuer
  kind  : AccKind
  tgt   : AccTarget
  inst  : Nat
  asid  : BitVec 16
  va    : Nat
  bytes : Nat
  data  : W256
  data2 : W256
  xlat  : Xlat
  ap    : Aperture
  pch   : Nat
  off   : Nat
  /-- The store passes through the store-hold buffer (R177). -/
  held  : Bool
  /-- A release or acquire's scope, the code of R187. -/
  scope : Nat
  /-- What it was issued for: the number of its stream, or of the ARM its section had in flight; 0 for neither (R201, R204). -/
  work  : Nat
  /-- The fc at which it left its EQ or SQ, and the back-off fc it has waited (R336). -/
  sent  : Nat
  waited : Nat
  /-- The page size code of the leaf that translated it (R284). -/
  leaf  : Nat
  /-- Its firing or stream has been abandoned: nobody is answered, and nobody traps for it (R278). -/
  gone  : Bool
  deriving DecidableEq, Repr

/-- A generator's STATE (R175). -/
inductive GenState where
  | idle | running | suspended | faulted | done
  deriving DecidableEq, Repr

/-- Who started a stream (R174, R201, R279). -/
inductive GenOwner where
  | elem
  | strm (inst slot : Nat)
  deriving DecidableEq, Repr

/-- A read of a stream on its way or landed, in stream order (R228). -/
structure StreamRead where
  id   : Nat
  data : Option W256
  deriving DecidableEq, Repr

/-- A generator (R173-R175). `pos` is the next element to generate, `done` the elements performed or emitted. -/
structure Gen where
  desc   : W256
  dv     : Bool
  state  : GenState
  owner  : GenOwner
  pos    : Nat
  done   : Nat
  sq     : List Access
  /-- Reads in stream order: the landing area holds those whose data has come (R175). -/
  reads  : List StreamRead
  /-- Bytes packed for the next token of a read stream. -/
  pack   : List Byte
  /-- The TAIL of FRM has been emitted. -/
  tailed : Bool
  /-- A suspension waits for the burst's end (R175). -/
  susp   : Bool
  /-- The stream has ended faulted and its fault is not resolved (R201). -/
  failed : Bool
  /-- The fc of the last token this generator moved (R175). -/
  moved  : Option Nat
  /-- The fc of the last access it generated. -/
  made   : Option Nat
  /-- The number of the stream: a fresh one for a STRM, that of the section's ARM for a GRUN (R201, R204). -/
  stream : Nat
  /-- The stream was started in the frame that is open (R177). -/
  framed : Bool
  /-- A DCX stream is inside a burst: the fetch of a Z-block has begun and its check has not ended (R180). -/
  inBlock : Bool
  deriving DecidableEq, Repr

/-- An SBAR's hold: the generators held and the accesses they wait for (R176). -/
structure SbarHold where
  held  : BitVec 4
  waits : List Nat
  deriving DecidableEq, Repr

/-- The store-hold frame (R177). -/
structure Frame where
  opened : Bool
  ivec   : BitVec 48
  held   : List Access
  /-- The held stores, by number, whose granules in the buffer's SRAM hold an uncorrectable error (R293). -/
  bad    : List Nat
  /-- A CMIT handing over stores: its flight. -/
  cmit   : Option Nat
  /-- That CMIT was saved while it handed over, and goes on before its element issues again (R286). -/
  resumed : Bool
  deriving DecidableEq, Repr

/-- A block buffer of the decompressor: its tokens not yet emitted and their FT (R180). -/
structure DcxBuf where
  toks : List W256
  ft   : BitVec 3
  /-- The stream offset in bytes of the block. -/
  at_  : Nat
  deriving DecidableEq, Repr

/-- The decompressor (R180). `bytes` holds what has been fetched of the block being read, by generator. -/
structure Dcx where
  ver    : Byte
  ftsrc  : Bool
  blks   : BitVec 16
  bytes  : Tab (List Byte)
  bufs   : List (Nat × DcxBuf)
  /-- The fc of the last token emitted: one per 4 fc. -/
  last   : Option Nat
  /-- The fc at which the first bytes of the block being read came, by generator, and that at which the last block was decoded: the decoder takes one
  block at a time, at most 8 raw bytes per fc. -/
  began  : Tab Nat
  idleAt : Nat
  deriving DecidableEq, Repr

/-- A memory-tile queue beside its QCFG (R181). The ring's tokens are scratchpad contents; their tags are kept here by
ring position. `extra` holds the tokens of the linked 4 KiB segments, which follow the ring's (R51). -/
structure MtQueue where
  cfg   : W64
  segs  : Nat
  count : Nat
  head  : Nat
  tags  : Tab (Tag × BitVec 3)
  extra : List Token
  deriving DecidableEq, Repr

/-- A SIGR or FNC in flight, which holds back later accesses (R187). -/
structure Fence where
  flight : Nat
  scope  : Nat
  /-- The earlier accesses an FNC waits for. -/
  waits  : List Nat
  deriving DecidableEq, Repr

/-- The parts of a memory tile (R173-R186); a BN uses its generators (R241). -/
structure MtPart where
  gens   : Tab Gen
  sbars  : List SbarHold
  frame  : Frame
  dcx    : Dcx
  queues : Tab MtQueue
  spbase : W32
  spsize : W32
  /-- The fc of the last weight-store draw (R186). -/
  wsDraw : Option Nat
  fences : List Fence
  deriving DecidableEq, Repr

/-- A circuit of a gateway (R190, R317-R319). -/
structure GwCircuit where
  recv    : Bool
  peerOff : Nat
  coll    : Nat
  perStep : Nat
  /-- The collective instance bound, by its key in the collective table. -/
  bound   : Option Nat
  peer    : Nat
  circ    : Nat
  credits : Nat
  got     : List Token
  /-- Tokens sent, received and acknowledged since the binding, and the tokens of each packet whose acknowledgement is held back while the region is
  frozen or set aside (R325). -/
  sent    : Nat
  total   : Nat
  acks    : Nat
  owed    : List Nat
  deriving DecidableEq, Repr

/-- A gateway's circuits and the CBARs that wait (R190): flight and circuit. -/
structure GwPart where
  circs : Tab GwCircuit
  cbars : List (Nat × Nat)
  deriving DecidableEq, Repr

/-- A node record as CFG loads it (R94): header, counter word, D values, slot words, an MT's extension words. -/
structure NodeRec where
  hdr   : W128
  ctr   : W128
  dvals : Tab W256
  slots : Tab W128
  ext   : List W128
  /-- The circuits of a GW node (R95): records by N. -/
  circs : Tab W128
  deriving DecidableEq, Repr

/-- Everything of an element that belongs to one context and is saved with it (R285). -/
structure Ctx where
  regs    : Regs
  ports   : Ports
  flights : List Flight
  /-- The fc from which each unit is free, by FUnit.idx. -/
  busy    : Tab Nat
  /-- The fc from which the picker issues again after a TICK; 0 where none holds it (R109). A save keeps the fc still owed. -/
  tick    : Nat
  mxu     : Mxu
  mt      : MtPart
  gw      : GwPart
  /-- Indices on their way to this follower, with the fc each fires in (R44). -/
  coming  : List (Nat × Nat)
  /-- The instance the context serves. -/
  inst    : Option Nat
  /-- A suspended context's unresolved traps and the records that wait for its firings (R275, R287). -/
  heldTraps : Nat
  heldRecs  : List W256
  deriving DecidableEq, Repr

/-- The indices on their way to a follower whose chain is frozen at an fc: what has not fired by then is owed, and fires first on resumption (R44). -/
def Ctx.owed (c : Ctx) (now : Nat) : List (Nat × Nat) := c.coming.map (fun i => (i.1, min i.2 now))

/-- A context is set aside at an fc: a TICK keeps the fc that it owes, its units are free, and what held for this fc alone is over (R44, R100, R285). -/
def Ctx.setDown (c : Ctx) (now : Nat) : Ctx :=
  { c with tick := c.tick - now, busy := [], regs := { c.regs with written := [], armed := false }, coming := c.owed now }

/-- A context that was set aside comes back at an fc: a TICK goes on. -/
def Ctx.takeUp (c : Ctx) (now : Nat) : Ctx := { c with tick := if c.tick = 0 then 0 else c.tick + now }

/-- Why an element is frozen by itself (R276): the traps of its running context that are not resolved. -/
structure Freeze where
  trap    : Nat
  deriving DecidableEq, Repr

/-- A translation held by a TLB (R282): page number at 64 KiB, page size code 0-2, entry. -/
structure TlbEntry where
  asid : BitVec 16
  page : Nat
  size : Nat
  pte  : W64
  deriving DecidableEq, Repr

/-- An element: its running context, its configuration slots C0-C2 and load buffers (R200, R285), the contexts suspended
(keyed by configuration slot), and what belongs to no context. -/
structure Elem where
  ctx    : Ctx
  cfg    : Tab NodeRec
  buf    : Tab NodeRec
  /-- The scratchpad partition of each configuration slot (2 and 3: C2 of the context in C0 and in C1): first byte, capacity, and the instance it is
  kept for until that retires (R95, R217). -/
  parts  : Tab (Nat × Nat × Nat)
  /-- The configuration slot of the running context. -/
  run    : Nat
  saved  : Tab Ctx
  frozen : Freeze
  /-- Trap records that wait for the firings before them (R275). -/
  traps  : List W256
  /-- The last fc in which the picker had its turn. -/
  turn   : Option Nat
  tlb    : List TlbEntry
  /-- EQ(e, t) for every t: accesses in issue order (R224). -/
  eq     : List Access
  /-- The context slots whose save area of a BN or GW holds an uncorrectable error (R285, R293). -/
  saveErr : List Nat
  /-- The circuits of a gateway's C2, by instance, while no CSLOT has it in force: they keep their binding and state from slot to slot (R323). -/
  shadowGw : Tab (Tab GwCircuit)
  deriving DecidableEq, Repr

/-- FMTTAB's reset value: R57's slots 7 down to 0. -/
def fmttabReset : W64 := 0x3003042838181020#64

/-- The registers of an element no configuration has reached (R100). -/
def Regs.reset : Regs :=
  { d := [], k0 := 0, k1 := 0, p := 0, pend := 0, pendD := 0, pendK := 0, fmttab := fmttabReset, srng := 1, fcnt := 0,
    stage := 0, asid := 0, dbgctl := 0, evc := [], stall := [], reason := 0x1C, written := [], armed := false }

/-- Empty ports. -/
def Ports.reset : Ports := { inq := [], land := [], late := [], outq := [] }

/-- A zeroed bank. -/
def AccBank.reset : AccBank := { cells := [], mode := .zeroed, ovf := false, part := 0, rmask := 0, settles := none }

/-- A matrix unit at reset. -/
def Mxu.reset : Mxu :=
  { a0 := .reset, a1 := .reset, scaleA := [], scaleB := [], arem := 0, brem := 0 }

/-- A generator at reset (R175). -/
def Gen.reset : Gen :=
  { desc := 0, dv := false, state := .idle, owner := .elem, pos := 0, done := 0, sq := [], reads := [], pack := [],
    tailed := false, susp := false, failed := false, moved := none, made := none, stream := 0, framed := false, inBlock := false }

/-- A queue that no queue configuration has reached. -/
def MtQueue.reset : MtQueue := { cfg := 0, segs := 0, count := 0, head := 0, tags := [], extra := [] }

/-- A memory tile's parts at reset: DCXST.VER is 1 (R180). -/
def MtPart.reset : MtPart :=
  { gens := [], sbars := [], frame := { opened := false, ivec := 0, held := [], bad := [], cmit := none, resumed := false },
    dcx := { ver := 1, ftsrc := false, blks := 0, bytes := [], bufs := [], last := none, began := [], idleAt := 0 },
    queues := [], spbase := 0, spsize := 0, wsDraw := none, fences := [] }

/-- A context at reset. -/
def Ctx.reset : Ctx :=
  { regs := .reset, ports := .reset, flights := [], busy := [], tick := 0, mxu := .reset, mt := .reset,
    gw := { circs := [], cbars := [] }, coming := [], inst := none, heldTraps := 0, heldRecs := [] }

/-- An element at reset: no slot valid. -/
def Elem.reset : Elem :=
  { ctx := .reset, cfg := [], buf := [], parts := [], run := 0, saved := [], frozen := { trap := 0 },
    traps := [], turn := none, tlb := [], eq := [], saveErr := [], shadowGw := [] }

end Sys2Proof.Machine
end

