-- ==== Sys2Proof/Machine/PchState.lean ====
section
/-!
DEFINITION. PchState.lean: a pseudo-channel, its command queue, its near-bank engine and its refresh, alert and power
management (spec/19, 21). Times are in fifths of an fc (0.125 ns), so that every time of R252 is a whole number.
-/
namespace Sys2Proof.Machine

/-- A near-bank unit's registers (R242). V0-V3 hold 16 lanes of 32 bits. -/
structure NbBank where
  l    : W256
  v0   : BitVec 512
  v1   : BitVec 512
  v2   : BitVec 512
  v3   : BitVec 512
  s    : W32
  m    : W32
  z    : W32
  eb   : Bool
  /-- S belongs to a position that MASK has masked (R260, log 58). -/
  masked : Bool
  open_ : Option (BitVec 14)
  /-- When the ACT began and when the last WR ended: tRCD, tRAS and tWR count from them (R252). -/
  actAt : Nat
  wrEnd : Nat
  deriving DecidableEq, Repr

/-- Who a run belongs to (R251): an NBR of an element's slot, or an NBRUN's firing. -/
inductive RunOwner where
  | elem (el slot : Nat)
  | nsq (inst slot : Nat)
  deriving DecidableEq, Repr

/-- A run of a microprogram (R243). Banks are sparse; an unlisted bank is as at run start. -/
structure NbRun where
  mpc   : Nat
  lc0   : W32
  lc1   : W32
  lr0   : W32
  lr1   : W32
  row   : BitVec 14
  pos   : W32
  len   : BitVec 16
  wcnt  : Nat
  bmask : W64
  rport : BitVec 2
  ebuf  : List Token
  banks : Tab NbBank
  asid  : BitVec 16
  inst  : Nat
  owner : RunOwner
  /-- When the present segment began, less the waits R250 excludes. -/
  segAt : Nat
  /-- The run has ended and drains: its fault code (R251). -/
  ended : Option Nat
  /-- Since when an EMIT waits for EBUF room with no row open, a wait that R250 excludes. -/
  waitAt : Option Nat
  deriving DecidableEq, Repr

/-- The engine's activity (R239, R254). -/
inductive NbPhase where
  /-- No run. -/
  | none
  | running
  /-- Suspended by arbitration; this many of the chosen ordinary accesses are still owed, and a due refresh or alert may
  come first (R254, R266). `atEmit` keeps WCNT. -/
  | suspended (owed : Nat) (atEmit : Bool)
  deriving DecidableEq, Repr

/-- An entry of the command queue (R239). -/
inductive CqEntry where
  | access (a : Access)
  | nbq (n : Nat) (v : W256) (inst : Nat)
  | run (r : NbRun)
  /-- A saved run that resumes: its context slot (R257). -/
  | saved (k : Nat)
  deriving DecidableEq, Repr

/-- A saved run: its fields and the query buffer (R243, R257). -/
structure SavedRun where
  run : NbRun
  q   : Tab W256
  deriving DecidableEq, Repr

/-- A pseudo-channel. Keys: IS0-IS63 (HALT where unlisted), Q0-Q7, activation counts by bank * 16384 + row. -/
structure Pch where
  is     : Tab W32
  q      : Tab W256
  /-- What NBLD loaded: start entry to length (R202). -/
  progs  : Tab Nat
  run    : Option NbRun
  /-- What the engine's registers and the banks' hold while no run stands (R242, R243): as the last run left them. -/
  rest   : NbRun
  phase  : NbPhase
  saved  : Tab SavedRun
  cq     : List CqEntry
  ibStd  : List Access
  ibNbl  : List Access
  ibBar  : List Access
  ibRem  : List Access
  /-- The eight row grants (R249). -/
  grants : Tab W64
  /-- The instance each grant was formed for. -/
  owners : Tab Nat
  /-- The PCH serves nothing new before this time: a step, a service, a refresh or a back-off holds it. -/
  freeAt : Nat
  /-- Until when the access or NBQ that performed last holds the head of the queue (R239, R342). -/
  closing : Nat
  /-- An ordinary access is in service: when its ACT began (R342). -/
  serving : Option Nat
  /-- The fc of the last token EBUF sent (R248). -/
  drained : Option Nat
  /-- A refresh in service: the time at which it ends (R265). -/
  refEnd : Option Nat
  /-- A refresh is due and not yet served (R266). -/
  refDue : Bool
  /-- The fc at which the last refresh fell due (R265). -/
  lastDue : Option Nat
  /-- The refresh took the PCH from power-down, to which it returns (R269). -/
  fromPd : Bool
  /-- The next row pair to refresh, 0-8191 (R265). -/
  refRow : Nat
  acts   : Tab Nat
  /-- Alerts raised and not yet served, oldest first: bank * 16384 + row (R268). -/
  alerts : List Nat
  /-- The back-off in force: the time at which it ends. -/
  backoff : Option Nat
  /-- PWR of R269 beside refreshing: 0, 1, 2. -/
  pwr    : Nat
  /-- The fc since which the PCH is idle (R269). -/
  idleAt : Nat
  /-- The fc at which a wake from power-down or self-refresh ends (R269, R270). -/
  wakeAt : Option Nat
  /-- The fc since which a run waits at the queue's head on the 32-PCH limit (R253). -/
  limit  : Option Nat
  deriving DecidableEq, Repr

/-- The registers of one stack (R254, R267, R269). -/
structure StackRegs where
  arb : BitVec 3
  alerts : BitVec 16
  thr : BitVec 13
  sren : Bool
  pden : Bool
  deriving DecidableEq, Repr

/-- A bank at run start (R242). -/
def NbBank.start : NbBank :=
  { l := 0, v0 := 0, v1 := 0, v2 := 0, v3 := 0, s := 0, m := 0xFF800000#32, z := 0, eb := false, masked := false, open_ := none, actAt := 0,
    wrEnd := 0 }

/-- The engine's registers before any run (R242, R243, log 8): every number 0, every bank as at run start. -/
def NbRun.reset : NbRun :=
  { mpc := 0, lc0 := 0, lc1 := 0, lr0 := 0, lr1 := 0, row := 0, pos := 0, len := 0, wcnt := 0, bmask := 0, rport := 0, ebuf := [],
    banks := [], asid := 0, inst := 0, owner := .elem 0 0, segAt := 0, ended := none, waitAt := none }

/-- A pseudo-channel at reset. -/
def Pch.reset : Pch :=
  { is := [], q := [], progs := [], run := none, rest := .reset, phase := .none, saved := [], cq := [], ibStd := [], ibNbl := [],
    ibBar := [], ibRem := [], grants := [], owners := [], freeAt := 0, closing := 0, serving := none, drained := none, refEnd := none, refDue := false,
    lastDue := none, fromPd := false, refRow := 0, acts := [], alerts := [], backoff := none, pwr := 0, idleAt := 0,
    wakeAt := none, limit := none }

/-- A stack's registers at reset: W = 4, THR = 512, both enables set (R254, R267, R269). -/
def StackRegs.reset : StackRegs := { arb := 3, alerts := 0, thr := 512, sren := true, pden := true }

end Sys2Proof.Machine
end

