-- ==== Sys2Proof/Machine/NetState.lean ====
section
/-!
DEFINITION. NetState.lean: a net instance: its image, marking, firing slots and registers (spec/03 R29-R38, spec/15), and
its region: sections, trap queue and detector (R23-R27, R50, R274, R277).
-/
namespace Sys2Proof.Machine

/-- A net image taken apart into its tables (R192). -/
structure NetImg where
  /-- The VA at which it lies, from which the OFF of its objects counts (log 21). -/
  base   : Nat
  hdr0   : W128
  hdr1   : W128
  places : List W64
  trans  : List W256
  acts   : List W128
  objs   : List W256
  regs   : Tab W64
  data   : List W256
  deriving DecidableEq, Repr

/-- How far an action's firing has come. -/
inductive FiringStage where
  /-- Started, its action not yet run. -/
  | issued
  /-- Its action runs: what it waits for is in the slot's fields. -/
  | going
  /-- Its outcome has arrived and the next round applies it (R33). -/
  | arrived (outcome : Nat)
  deriving DecidableEq, Repr

/-- A firing slot: the entry of R38 and what the action keeps. -/
structure FSlot where
  trans    : Nat
  cls      : Nat
  rst      : Bool
  round    : W32
  stage    : FiringStage
  act      : W128
  /-- The tiles an ARM still owes (R103). -/
  remaining : Nat
  /-- A deadline in fc of a TIMER, WATCH, RKEY, CSLOT or COLL step. -/
  deadline : Option Nat
  /-- Accesses, streams or runs waited for, by number. -/
  waits    : List Nat
  /-- PCHs to which an NBRUN has still to post its run. -/
  todo     : List Nat
  /-- A register operand read at start (R197); a WATCH's word as last read; the VA at which a fetch faulted. -/
  operand  : W64
  /-- The PCH and offset of a SIGN's or WATCH's word once translated. -/
  cell     : Option (Nat × Nat)
  /-- The write of a SIGN or HOSTI has left (R37); a STRM has started its stream; one of an SBAR's streams has ended faulted (R201). -/
  left     : Bool
  /-- Its word's translation waits for a walk (R280). -/
  asked    : Bool
  /-- A fault of one of its accesses stands unresolved (R280). -/
  faulted  : Bool
  deriving DecidableEq, Repr

/-- An ARM at a section (R26). -/
structure ArmRec where
  slot : Nat
  n    : Nat
  scope : Nat
  deriving DecidableEq, Repr

/-- A signal mirror as its place sees it (R340). -/
structure Mirror where
  /-- The word as last read; none before the first reading. -/
  seen  : Option W64
  /-- The last reading succeeded. -/
  good  : Bool
  cell  : Option (Nat × Nat)
  /-- A reading is on its way. -/
  busy  : Bool
  /-- Its word's translation waits for a walk (R340). -/
  asked : Bool
  /-- A fault stands: 0 none, 1 an XLATE that waits for the host, 2 one that is final. -/
  fault : Nat
  deriving DecidableEq, Repr

/-- A circuit: tokens from one output port to one input port, or a discarding sink (R89, R224, R229). -/
structure Circuit where
  src  : Nat
  srcPort : Nat
  dst  : Option Nat
  dstPort : Nat
  /-- The MT and queue that back a channel (R90, R181). -/
  via  : Option (Nat × Nat)
  /-- Tokens on their way to the input port, or to the MT that backs the channel, with the fc each was sent in (R341). -/
  flying : List (Nat × Token)
  /-- Tokens on their way from that MT to the input port. -/
  passed : List (Nat × Token)
  inst : Nat
  sid  : Nat
  deriving DecidableEq, Repr

/-- A section of a region (R23). -/
structure Section where
  die   : Nat
  x0    : Nat
  y0    : Nat
  x1    : Nat
  y1    : Nat
  /-- The element of each node index, by ELEMID (R95). -/
  nodes : Tab Nat
  /-- The stage image in force in C0, its words; none before a load (R199). -/
  img   : Option (List W128)
  /-- The images behind configuration slots 0 and 2 that CFG has loaded (R200), and the C2 image in force. -/
  bufs  : Tab (List W128)
  c2    : Option (List W128)
  /-- ARMs, the first in flight (R26). -/
  arms  : List ArmRec
  /-- The tiles the ARM in flight owes (R103). -/
  remaining : Nat
  /-- The number of the ARM in flight, a fresh one for each that begins (R204). -/
  armNo : Nat
  /-- FIN's outcome, posted and not yet applied (R103). -/
  fin   : Option Nat
  ivec  : BitVec 48
  rast  : List W64
  cur   : Nat
  /-- The table and cursor of the configuration that a CSLOT has set aside (R169, R323). -/
  kept  : Option (List W64 × Nat)
  /-- The fc of the section's last SWAP install (R290). -/
  swapped : Option Nat
  /-- A CE of the section is fenced: later ARMs complete with 3 (R278). -/
  fenced : Bool
  /-- The circuits of C0, set aside while another configuration runs on the section's tiles (R288, R323). -/
  parked : Tab Circuit
  deriving DecidableEq, Repr

/-- A net instance and its region. -/
structure Inst where
  /-- The NSQ, as die * 8 + n, and the context slot it stands in when saved. -/
  nsq   : Nat
  asid  : BitVec 16
  root  : Nat
  img   : NetImg
  count : Tab Nat
  rsv   : Tab Nat
  ptr   : Tab Nat
  n     : Tab W64
  slots : Tab FSlot
  rounds : W32
  /-- Fc since the last TIME quantum (R35). -/
  time  : Nat
  tail  : Option W64
  /-- DONE has completed: its status (R25). -/
  done  : Option (BitVec 16)
  /-- FAULT deposits that step 2 of the next round makes: place * 256 + the trap's code (R36, R278). -/
  deposits : List Nat
  /-- The signal mirrors, by place (R340). -/
  mirrors : Tab Mirror
  /-- The fc of the NSQ's last round, and of the last firing it started. -/
  turn  : Option Nat
  start : Option Nat
  deriving DecidableEq, Repr

/-- A region's fixed data and its runtime beside the net (R23, R274, R287). -/
structure Region where
  /-- The dies of the region, region-relative order (R195). -/
  dies  : List Nat
  sects : Tab Section
  /-- GEN objects resolved: object to (element, generator) (R195). -/
  gens  : Tab (Nat × Nat)
  interval : Nat
  /-- Consecutive fc the detector has counted (R50). -/
  idle  : Nat
  /-- Something the detector looks at moved in this fc. -/
  moved : Bool
  traps : List W256
  dump  : Nat
  /-- Traps that hold the NSQ's starts until they are handled (R276). -/
  holds : Nat
  /-- Elements held for the host by BKPT; the records of `traps` that TRAPGET has returned (R272, R306). -/
  bkpts : List Nat
  given : Nat
  /-- CFGECC or DEADLOCK has frozen the region (R272, R292). -/
  frozen : Bool
  /-- The reload that a CFGECC asks for fails its checks (R292). -/
  badLoad : Bool
  /-- The fc at which a pre-emption was accepted (R288). -/
  accepted : Option Nat
  /-- A pre-emption request stands: the instance that replaces it and the fc of the request (R287). -/
  preempt : Option Nat
  saved  : Bool
  /-- The region that this C1 context pre-empts (R288). -/
  preempts : Option Nat
  /-- Routed traps whose faults the host has declined while the region is set aside: element, code, generator (R283, R287). -/
  later  : List (Nat × Nat × Option Nat)
  level  : Nat
  /-- Launched by this queue: QCB number, ring index, flags CMPL IRQ PRE DLD, TAG, and the LAUNCH's parameters (R45, R299). -/
  qcb   : Nat
  ring  : W32
  hdr   : PktHdr
  dmask : BitVec 16
  ndm1  : BitVec 4
  /-- The instance that a packet launched and from which this one descends by TAIL (R299, FENCE). -/
  origin : Nat
  deriving DecidableEq, Repr

/-- An empty image. -/
def NetImg.empty : NetImg :=
  { base := 0, hdr0 := 0, hdr1 := 0, places := [], trans := [], acts := [], objs := [], regs := [], data := [] }

/-- A section with nothing loaded. -/
def Section.empty : Section :=
  { die := 0, x0 := 0, y0 := 0, x1 := 0, y1 := 0, nodes := [], img := none, bufs := [], c2 := none, arms := [],
    remaining := 0, armNo := 0, fin := none, ivec := 0, rast := [], cur := 0, kept := none, swapped := none, fenced := false, parked := [] }

/-- A new instance (R34: every pointer at 255). -/
def Inst.new (nsq : Nat) (asid : BitVec 16) (root : Nat) (img : NetImg) : Inst :=
  { nsq, asid, root, img, count := [], rsv := [], ptr := [], n := [], slots := [], rounds := 0, time := 0, tail := none,
    done := none, deposits := [], mirrors := [], turn := none, start := none }

end Sys2Proof.Machine
end

