-- ==== Sys2Proof/Machine/HostState.lean ====
section
/-!
DEFINITION. HostState.lean: command processing, the register BAR, boot, power and monitoring (spec/25, 29), translation per
die (spec/23 R282-R284), Fjois ports, trust domain and collectives (spec/27).
-/
namespace Sys2Proof.Machine

/-- A walk in flight or queued (R282): one per ASID and 64 KiB page. -/
structure Walk where
  asid : BitVec 16
  page : Nat
  root : Nat
  deriving DecidableEq, Repr

/-- The kind of access a fault serves (R283). -/
inductive FaultKind where
  | read | write | atomic
  deriving DecidableEq, Repr

/-- An entry of a die's fault FIFO (R283). `given` marks one that FAULTGET has handed out. -/
structure FaultEntry where
  num   : Nat
  asid  : BitVec 16
  page  : Nat
  kind  : FaultKind
  cause : Nat
  given : Bool
  deriving DecidableEq, Repr

/-- A die: second-level TLB, walk queue, fault FIFO (R282, R283), weight-store queues and the phase of R13 (log 6). -/
structure Die where
  tlb2   : List TlbEntry
  walks  : List Walk
  faults : List FaultEntry
  /-- BQ of each weight-store bank (R224). -/
  wsq    : Tab (List Access)
  wsErr  : List Nat
  /-- The 4 fc in which the weight store last served, the tokens it served in them, and the MT it last served (R12). -/
  wsSpan : Nat
  wsGot  : Nat
  wsLast : Nat
  /-- Fc between the power-up of the die and reset (R13, R265). -/
  phase  : Nat
  /-- The slot from which the strip's rotation searches (R294). -/
  rot    : Nat
  deriving DecidableEq, Repr

/-- The stage of a hardware slot (R294). -/
inductive SlotStage where
  | fetch
  /-- The packet's dependency check has not begun, or goes on (WAITALL, WAITANY, FENCE). -/
  | depend | waiting
  | dispatch
  /-- A SIGNAL whose write has to perform, a LAUNCH whose pre-emption has to be accepted. -/
  | launch
  /-- A queue error holds it until QRESUME (R300). -/
  | stopped
  deriving DecidableEq, Repr

/-- A translation fault of the strip that waits for the host: its VA and the kind of access (R283, R295). -/
abbrev Miss := Nat × FaultKind

/-- A hardware queue slot (R294, R298): the QCB mapped and what the strip keeps of it. -/
structure HwSlot where
  qcb    : Nat
  head   : W32
  tail   : W32
  cur    : Nat
  stage  : SlotStage
  pkt    : List W64
  /-- The QCB's words as firmware read them when it mapped the queue (R295). -/
  rw     : List W64
  /-- Mapped by the mailbox command MAP (R306). -/
  byMap  : Bool
  /-- The fc at which the dependency check began, from which timeouts count (R299), or of the last dispatch that had to wait. -/
  since  : Nat
  /-- The number before which a FENCE's instances were launched; the instance of a LAUNCH in its launch stage. -/
  mark   : Nat
  /-- The translation fault whose answer the slot waits for (R295). -/
  miss   : Option Miss
  /-- A WAITALL or WAITANY's conditions that hold, by the last reading. -/
  held   : BitVec 16
  deriving DecidableEq, Repr

/-- What a slot of the time-triggered table launches: as a LAUNCH from its queue (R301). -/
structure TtJob where
  image  : W64
  root   : W64
  qcb    : Nat
  hdr    : PktHdr
  ring   : W32
  deriving DecidableEq, Repr

/-- An entry of the time-triggered table (R301). `queued` is the launch of a past slot that waits, which a rewrite of the entry leaves as it is. -/
structure TtEntry where
  rule   : Nat
  period : Nat
  start  : Nat
  next   : Nat
  job    : TtJob
  skips  : Nat
  queued : Option TtJob
  inst   : Option Nat
  miss   : Option Miss
  deriving DecidableEq, Repr

/-- What the launch stage of a completed NETLOAD or placement miss has put into the placement cache (R303): where each
section of a net lies, and the net's own image. Keyed by the net, the graphs of its stages, the region's dies, the defect map and the firmware
version. -/
structure Placement where
  net    : NetImg
  img    : List W128
  dies   : List Nat
  defects : List Nat
  fw     : W32
  sects  : Tab Section
  deriving DecidableEq, Repr

/-- A completion record that waits for its slot in the completion ring to be translated (R295, R299). -/
structure RecWait where
  qcb    : Nat
  value  : W64
  status : BitVec 16
  kind   : Nat
  tag    : BitVec 16
  ring   : W32
  /-- The vector to raise after the record, as an offset from VB (R299). -/
  irq    : Option Nat
  /-- The HOSTI firing that completes once the record is written (R207). -/
  firing : Option (Nat × Nat)
  miss   : Option Miss
  deriving DecidableEq, Repr

/-- A TAIL child that waits for its launch, with its parent's parameters (R45). -/
structure Child where
  va       : W64
  qcb      : Nat
  ring     : W32
  hdr      : PktHdr
  interval : Nat
  root     : Nat
  dmask    : BitVec 16
  ndm1     : BitVec 4
  level    : Nat
  /-- The region table of the parent, through which the child's VA is translated (R295). -/
  asid     : BitVec 16
  /-- The instance from which the chain of TAILs descends, and a fault of the child's VA that waits for the host. -/
  origin   : Nat
  miss     : Option Miss
  deriving DecidableEq, Repr

/-- The mode of command processing (R305, R306). -/
inductive Mode where
  | normal | frozen | direct
  deriving DecidableEq, Repr

/-- The strip, Markhor and the mailbox (R294-R307). -/
structure Cmd where
  slots    : Tab HwSlot
  pendmap  : List Nat
  /-- Kicks that wait for their requester's earlier writes: requester, page and value (R328). -/
  kicks    : List (Nat × Nat × W64)
  kickerr  : W32
  /-- Fc at which a queue's ageing interval last began, by QCB (R298). -/
  ages     : Tab Nat
  tt       : Tab TtEntry
  cache    : List Placement
  mode     : Mode
  heart    : Nat
  dog      : Nat
  dogFired : Bool
  mbcmd    : W64
  mbarg    : Tab W64
  busy     : Bool
  result   : Byte
  /-- A queue waits for a QRESUME after an error: QCB to the ring index (R300). -/
  errs     : Tab Nat
  records  : List RecWait
  /-- Children of retired parents, by the parent's instance (R45). -/
  children : Tab Child
  /-- Changes of QCBs under way, by queue: whether the fields are written, and the words that change; SEQ is odd meanwhile (R296). -/
  qcbs     : Tab (Bool × List (Nat × W64))
  fwver    : W32
  deriving DecidableEq, Repr

/-- The PTP clock (R302). `base` is its value at fc `at_`. -/
structure Ptp where
  setv   : W64
  setp   : Bool
  valid  : Bool
  lock   : Bool
  miss   : BitVec 16
  base   : Nat
  at_    : Nat
  /-- The PTP second of the last edge (R302). -/
  sec    : Nat
  /-- The ns by which the clock slews in a second. -/
  slew   : Int
  /-- The fc of the last edge and whether it was good. -/
  edge   : Option Nat
  good   : Bool
  deriving DecidableEq, Repr

/-- An MHU (R336, R337): its configuration, live and latched values; bins keyed 0-31. `fresh` are the samples of this fc, which a SNAP of it leaves to
the new period. -/
structure Mhu where
  cfg  : W64
  min  : W32
  max  : W32
  cnt  : W64
  bins : Tab W32
  lmin : W32
  lmax : W32
  lcnt : W64
  lbins : Tab W32
  fresh : List Nat
  deriving DecidableEq, Repr

/-- A selected MHU's lifetime values (R338). -/
structure LifeVals where
  mhu  : BitVec 16
  min  : W32
  max  : W32
  cnt  : W64
  bins : Tab W64
  deriving DecidableEq, Repr

/-- The numbers of a selected MHU's lifetime values, in order. -/
def LifeVals.nums (v : LifeVals) : List Nat :=
  [v.mhu.toNat, v.min.toNat, v.max.toNat, v.cnt.toNat] ++ (List.range 32).map (fun b => (v.bins.getD b 0).toNat)

/-- A lifetime record (R338). -/
structure LifeRec where
  hour  : Nat
  fwver : W32
  ltsel : Tab (BitVec 16)
  vals  : List LifeVals
  fixed : Tab W64
  /-- Its CRC in flash fails (R338). -/
  bad   : Bool
  deriving DecidableEq, Repr

/-- What a record holds, number by number: the bytes of LTWIN follow from it (log 27). -/
def LifeRec.nums (r : LifeRec) : List Nat :=
  [r.hour, r.fwver.toNat] ++ (List.range 16).map (fun m => (r.ltsel.getD m 0).toNat) ++ r.vals.flatMap LifeVals.nums
    ++ (List.range 11).map (fun k => (r.fixed.getD k 0).toNat)

/-- Monitoring and lifetime records (R330, R336-R338). MHUs are keyed die * 64 + n; fixed counters by their order in
R338. -/
structure Mon where
  mhus   : Tab Mhu
  ltsel  : Tab (BitVec 16)
  inForce : Tab (BitVec 16)
  age    : BitVec 13
  ready  : Bool
  bad    : Bool
  fetching : Bool
  window : Option LifeRec
  recs   : List LifeRec
  life   : Tab LifeVals
  fixed  : Tab W64
  hour   : Nat
  /-- The fc of each element's last issue (R336, SRC 3). -/
  lastIssue : Tab Nat
  deriving DecidableEq, Repr

/-- The register BAR beside the mailbox (R329-R335), boot and power. -/
structure Bar where
  wsdie   : BitVec 4
  hostneg : W64
  okNeg   : Bool
  errNeg  : Bool
  /-- The versions in force: what the last accepted GO submitted. -/
  inForce : W64
  phase   : Nat
  fail    : Nat
  capEn   : Bool
  cap     : BitVec 13
  level   : Nat
  /-- The level in force within the present 16 fc window (R335). -/
  levelIn : Nat
  overCap : Bool
  /-- Consecutive 100 us periods above the cap at level 15 (R335). -/
  overFor : Nat
  hot     : Bool
  /-- The last ten 100 us samples of input power (R335). -/
  watts   : List Nat
  /-- The fc of the last measurement of input power. -/
  measured : Nat
  /-- TLBINV's fields, and those of the request in progress (R284). -/
  tlbVa   : BitVec 56
  tlbAsid : BitVec 16
  tlbSize : BitVec 2
  reqVa   : BitVec 56
  reqAsid : BitVec 16
  reqSize : BitVec 2
  tlbDone : Bool
  /-- The accesses a TLBINV request still waits for, and its pending walks. -/
  tlbWait : List Nat
  msixTab : Tab W128
  msix    : List Nat
  /-- What the last host read returned, little-endian; none for an unsupported request (log 5). -/
  reply   : Option Nat
  /-- The number of the host read whose parts still join `reply`; 0 for none. -/
  readNo  : Nat
  deriving DecidableEq, Repr

/-- A Fjois port (R308). `rb` are the flits not acknowledged (R224). -/
structure Port where
  retry : BitVec 16
  ver   : BitVec 4
  lanes : BitVec 3
  state : BitVec 2
  tries : Nat
  /-- Flit replays since the last millisecond began (R336). -/
  replays : Nat
  rb    : List Nat
  deriving DecidableEq, Repr

/-- An access to a remote module that waits for its answer (R237): the access and its destination circuit. -/
structure RemoteWait where
  acc  : Access
  dev  : Nat
  circ : Nat
  deriving DecidableEq, Repr

/-- A request from a peer being served, for the reply (R237). -/
structure PeerReq where
  dev  : Nat
  circ : Nat
  acc  : Nat
  deriving DecidableEq, Repr

/-- An announcement of a rank to the domain: its device, GID, rank and rank count, and its circuits in order: receiving, peer offset,
tokens a step (R319). -/
structure Announce where
  dev   : Nat
  gid   : W64
  rank  : Nat
  ranks : Nat
  circs : List (Bool × Nat × Nat)
  /-- The circuits that the rank declares: more than eight tokens tell come in further packets (R312). -/
  total : Nat
  deriving DecidableEq, Repr

/-- A packet that waits for the next generation, or for the end of a re-keying (R313, R314). -/
structure HeldPacket where
  dev     : Nat
  circ    : Nat
  type    : Nat
  payload : List Token
  word    : W128
  deriving DecidableEq, Repr

/-- A packet that has been sent: what it says, and its bytes on the link (R312). -/
structure Sent where
  pkt   : Packet
  bytes : List Byte
  deriving DecidableEq, Repr

/-- The trust domain (R309-R315). Sequence numbers are keyed by dev * 65536 + circ. -/
structure Domain where
  members : List Nat
  self    : BitVec 10
  routes  : Tab W32
  gen     : Nat
  pairs   : List Nat
  /-- The session secrets P of the pairs, from which the traffic keys come (R310, R311). -/
  secrets : Tab (List Byte)
  sendSeq : Tab Nat
  recvSeq : Tab Nat
  closed  : List Nat
  /-- The RKEY in progress: instance, slot; and the members whose BARRIER has come, with its generation. -/
  rkey    : Option (Nat × Nat)
  sentBar : Bool
  bars    : List (Nat × Nat)
  out     : List Sent
  unacked : List RemoteWait
  serving : List PeerReq
  /-- RKEY requests the gateways have raised (R313, exhaustion). -/
  asked   : Bool
  /-- Announcements heard and not yet used (R319). -/
  heard   : List Announce
  /-- What a re-keying holds back, or a circuit whose SEQ is used up (R313, R314). -/
  later   : List HeldPacket
  deriving DecidableEq, Repr

/-- How far a collective instance has come (R318, R319). -/
inductive CollStage where
  | binding | bound | aborted (outcome : Nat)
  deriving DecidableEq, Repr

/-- A collective instance of this module (R318-R322). -/
structure Coll where
  inst   : Nat
  obj    : Nat
  num    : Nat
  gid    : W64
  rank   : Nat
  ranks  : Nat
  alg    : Nat
  bound  : Nat
  stage  : CollStage
  /-- The COLL firing in flight at this rank. -/
  slot   : Option Nat
  step   : Nat
  /-- COLL.steps begun since the binding. -/
  steps  : Nat
  tstep  : Nat
  /-- The fc left to the step or bind timer (R318, R319). -/
  timer  : Option Nat
  /-- The ranks that have announced: rank to device id; their rank counts agree. -/
  ranksAt : Tab Nat
  paused : Bool
  /-- Peers that have paused the instance (R321). -/
  pausedBy : List Nat
  lease  : BitVec 16
  held   : Bool
  /-- Ranks that have reached CBAR (R190). -/
  atBar  : List Nat
  /-- Every rank has announced, and the switch's answer is awaited (R319). -/
  asked  : Bool
  /-- Fc of the lease used, counted while paused (R321). -/
  used   : Nat
  deriving DecidableEq, Repr

/-- A die at reset. -/
def Die.reset : Die := { tlb2 := [], walks := [], faults := [], wsq := [], wsErr := [], wsSpan := 0, wsGot := 0, wsLast := 0, phase := 0, rot := 0 }

/-- Command processing at reset. -/
def Cmd.reset : Cmd :=
  { slots := [], pendmap := [], kicks := [], kickerr := 0, ages := [], tt := [], cache := [], mode := .normal, heart := 0, dog := 0,
    dogFired := false, mbcmd := 0, mbarg := [], busy := false, result := 0, errs := [], records := [], children := [], qcbs := [], fwver := 0 }

/-- The PTP clock at reset: ns since reset (R302). -/
def Ptp.reset : Ptp :=
  { setv := 0, setp := false, valid := false, lock := false, miss := 0, base := 0, at_ := 0, sec := 0, slew := 0, edge := none, good := false }

/-- An MHU at reset: live values as a CLR leaves them (R337, log 8). -/
def Mhu.reset : Mhu :=
  { cfg := 0, min := 0, max := 0, cnt := 0, bins := [], lmin := 0xFFFFFFFF#32, lmax := 0, lcnt := 0, lbins := [], fresh := [] }

/-- Monitoring at reset. -/
def Mon.reset : Mon :=
  { mhus := [], ltsel := [], inForce := [], age := 0, ready := false, bad := false, fetching := false, window := none,
    recs := [], life := [], fixed := [], hour := 0, lastIssue := [] }

/-- The register BAR at reset: LIMIT 5,600, TLBINV.DONE 1 (R284, R335). -/
def Bar.reset : Bar :=
  { wsdie := 0, hostneg := 0, okNeg := false, errNeg := false, inForce := 0, phase := 0, fail := 0, capEn := false,
    cap := 5600, level := 0, levelIn := 0, overCap := false, overFor := 0, hot := false, watts := [], measured := 0, tlbVa := 0, tlbAsid := 0,
    tlbSize := 0, reqVa := 0, reqAsid := 0, reqSize := 0, tlbDone := true, tlbWait := [], msixTab := [], msix := [], reply := none, readNo := 0 }

/-- A port at reset: down (R308). -/
def Port.reset : Port := { retry := 0, ver := 0, lanes := 0, state := 0, tries := 0, replays := 0, rb := [] }

/-- No domain (R311). -/
def Domain.reset : Domain :=
  { members := [], self := 0, routes := [], gen := 0, pairs := [], secrets := [], sendSeq := [], recvSeq := [], closed := [], rkey := none,
    sentBar := false, bars := [], out := [], unacked := [], serving := [], asked := false, heard := [], later := [] }

end Sys2Proof.Machine
end

