-- ==== Sys2Proof/Machine/State.lean ====
section
/-!
DEFINITION. State.lean: the whole machine as plain data, its reset, and the reasons a step can stop. Every part's registers
stand in ElemState, PchState, NetState and HostState.
-/
namespace Sys2Proof.Machine

/-- Why the machine stops with a fault. -/
inductive Fault where
  /-- A walk was given a root table whose physical address lies beyond the terabyte of DRAM that R18 gives the module. Raised by PAGE_WALK
  alone; safe. -/
  | noSuchAddress
  deriving DecidableEq, Repr

/-- Why a step is refused. -/
inductive Refusal where
  /-- An instruction that has no meaning yet; safe. -/
  | notModelled (mnemonic : String)
  deriving DecidableEq, Repr

/-- What the instruction being run belongs to (log 3). -/
inductive Focus where
  | none
  /-- A slot of an element. -/
  | elem (el slot : Nat)
  /-- The run of a pseudo-channel. -/
  | pch (p : Nat)
  /-- A firing slot of an instance. -/
  | nsq (inst slot : Nat)
  /-- A hardware queue slot, die * 64 + n. -/
  | strip (slot : Nat)
  | mailbox
  /-- An event with its arguments. -/
  | event (e : Event)
  deriving DecidableEq, Repr

/-- What befalls the machine from outside that no instruction or event of the table stands for (log 54). -/
inductive Outside where
  /-- An uncorrectable error arises in a DRAM token, a scratchpad granule, a weight-store granule or a held store of an MT (R293). -/
  | dramError (token : Nat)
  | spadError (granule : Nat)
  | wsError (die granule : Nat)
  | holdError (el n : Nat)
  /-- One arises in a BN's or a GW's save area, of a context slot (R285, R293). -/
  | saveError (el slot : Nat)
  /-- A corrected error of a storage class: 0 DRAM, 1 SRAM, 2 weight store (R293, R338). -/
  | corrected (cls : Nat)
  /-- A lifetime record in flash, by its age, comes to fail its CRC (R338). -/
  | flashError (age : Nat)
  /-- A flit of a circuit fails its CRC on a tile link or a die crossing: it and those behind it are sent again (R224, R226). -/
  | linkError (circuit n : Nat)
  /-- Markhor writes DBGCTL of an element whose region is frozen (R101). -/
  | dbgctl (el : Nat) (v : W32)
  deriving DecidableEq, Repr

/-- What moves next (log 2): an agent takes its turn, an event befalls one, or an fc passes. -/
inductive Move where
  /-- The element picker's turn in this fc (R40). -/
  | issue (el : Nat)
  /-- The next micro-instruction of a PCH's run (R239). -/
  | micro (pch : Nat)
  /-- The action of a firing that a round has started (R32). -/
  | action (inst slot : Nat)
  /-- The packet that stands in a hardware slot (R294). -/
  | packet (slot : Nat)
  /-- The mailbox command written to MBCMD (R306). -/
  | mailbox
  /-- An event befalls an agent. -/
  | event (e : Event)
  | env (o : Outside)
  /-- One fc passes. -/
  | tick
  deriving DecidableEq, Repr

/-- Memory: bytes by address, canonical (Host.Cell): addresses rising, no entry 0, which an unlisted address reads as. -/
abbrev Memory := List Host.Cell

/-- Memory contents: DRAM by cell, stack * 2^36 + PCH * 2^30 + offset (R18, R221), the weight stores by die * 2^30 + offset (R12), the scratchpads by
tile * 2^19 + offset (R11), and the granules whose check bits hold an uncorrectable error (R293): DRAM tokens by cell / 32,
scratchpad granules by address / 8. -/
structure Mem where
  dram   : Memory
  ws     : Memory
  spad   : Memory
  dramErr : List Nat
  spadErr : List Nat
  deriving DecidableEq, Repr

/-- The machine. -/
structure State where
  /-- Fc since reset. -/
  now    : Nat
  elems  : Tab Elem
  pchs   : Tab Pch
  stkRegs : Tab StackRegs
  dies   : Tab Die
  mem    : Mem
  insts  : Tab Inst
  regions : Tab Region
  circs  : Tab Circuit
  cmd    : Cmd
  ptp    : Ptp
  bar    : Bar
  mon    : Mon
  ports  : Tab Port
  dom    : Domain
  colls  : Tab Coll
  /-- Tiles fenced in the defect map, by ELEMID (R9, R168). -/
  defects : List Nat
  /-- Scratchpad accesses of generators waiting at a bank, by tile * 4 + bank (R170, R224). -/
  spadq  : Tab (List Access)
  /-- By scratchpad bank: the fc in which it last performed an access, and the generator it last served (R170). -/
  spadTurn : Tab (Nat × Nat)
  /-- The moves that come next, and the model's counters (logs 2-4). -/
  sched  : List Move
  focus  : Focus
  nextId : Nat
  free   : Nat
  deriving DecidableEq, Repr

/-- The machine right after reset. -/
def State.reset : State :=
  { now := 0, elems := [], pchs := [], stkRegs := [], dies := [],
    mem := { dram := [], ws := [], spad := [], dramErr := [], spadErr := [] },
    insts := [], regions := [], circs := [], cmd := .reset, ptp := .reset, bar := .reset, mon := .reset, ports := [],
    dom := .reset, colls := [], defects := [], spadq := [], spadTurn := [], sched := [], focus := .none, nextId := 1, free := 0 }

end Sys2Proof.Machine
end

