-- ==== Sys2Proof/Machine/Access.lean ====
section
/-!
DEFINITION. Access.lean: reading and writing the parts of State, one accessor for each table.
-/
namespace Sys2Proof.Machine

/-- An element by its ELEMID (R101). -/
def State.elem (s : State) (el : Nat) : Elem := s.elems.getD el .reset
/-- The state with an element replaced. -/
def State.setElem (s : State) (el : Nat) (e : Elem) : State := { s with elems := s.elems.put el e }
/-- The state with an element changed. -/
def State.modElem (s : State) (el : Nat) (f : Elem → Elem) : State := s.setElem el (f (s.elem el))
/-- The state with an element's running context changed. -/
def State.modCtx (s : State) (el : Nat) (f : Ctx → Ctx) : State :=
  s.modElem el (fun e => { e with ctx := f e.ctx })
/-- The context of an element that serves an instance changed: the running one, or a suspended one (R285). -/
def State.modCtxOf (s : State) (el i : Nat) (f : Ctx → Ctx) : State :=
  s.modElem el (fun e =>
    if e.ctx.inst = some i then { e with ctx := f e.ctx }
    else { e with saved := e.saved.map (fun (x : Nat × Ctx) => if x.2.inst = some i then (x.1, f x.2) else x) })
/-- The context of an element that serves an instance: a suspended one where the running one serves another. -/
def State.ctxOf (s : State) (el i : Nat) : Ctx :=
  let e := s.elem el
  if e.ctx.inst = some i then e.ctx
  else match List.find? (fun (x : Nat × Ctx) => x.2.inst == some i) e.saved with | some (_, c) => c | none => e.ctx
/-- Every context of an element changed, running or suspended. -/
def Elem.mapCtxs (e : Elem) (f : Ctx → Ctx) : Elem := { e with ctx := f e.ctx, saved := e.saved.map (fun (x : Nat × Ctx) => (x.1, f x.2)) }

/-- The state with an element's registers changed. -/
def State.modRegs (s : State) (el : Nat) (f : Regs → Regs) : State :=
  s.modCtx el (fun c => { c with regs := f c.regs })
/-- The state with an element's ports changed. -/
def State.modPorts (s : State) (el : Nat) (f : Ports → Ports) : State :=
  s.modCtx el (fun c => { c with ports := f c.ports })
/-- The state with an element's memory-tile parts changed. -/
def State.modMt (s : State) (el : Nat) (f : MtPart → MtPart) : State := s.modCtx el (fun c => { c with mt := f c.mt })
/-- The state with an element's matrix unit changed. -/
def State.modMxu (s : State) (el : Nat) (f : Mxu → Mxu) : State := s.modCtx el (fun c => { c with mxu := f c.mxu })
/-- The state with an element's gateway parts changed. -/
def State.modGw (s : State) (el : Nat) (f : GwPart → GwPart) : State := s.modCtx el (fun c => { c with gw := f c.gw })

/-- Generator g of a memory tile. -/
def MtPart.gen (m : MtPart) (g : Nat) : Gen := m.gens.getD g .reset
/-- Generator g of an element. -/
def State.gen (s : State) (el g : Nat) : Gen := (s.elem el).ctx.mt.gen g
/-- The state with a generator changed. -/
def State.modGen (s : State) (el g : Nat) (f : Gen → Gen) : State :=
  s.modMt el (fun m => { m with gens := m.gens.put g (f (m.gen g)) })

/-- A pseudo-channel, stack * 64 + c. -/
def State.pch (s : State) (p : Nat) : Pch := s.pchs.getD p .reset
/-- The state with a pseudo-channel replaced. -/
def State.setPch (s : State) (p : Nat) (c : Pch) : State := { s with pchs := s.pchs.put p c }
/-- The state with a pseudo-channel changed. -/
def State.modPch (s : State) (p : Nat) (f : Pch → Pch) : State := s.setPch p (f (s.pch p))
/-- A stack's registers. -/
def State.stk (s : State) (d : Nat) : StackRegs := s.stkRegs.getD d .reset

/-- A die; one that nothing has changed is as at reset, with its own phase (R13, log 6). -/
def State.die (s : State) (d : Nat) : Die := s.dies.getD d { Die.reset with phase := Config.diePhase d }
/-- The state with a die changed. -/
def State.modDie (s : State) (d : Nat) (f : Die → Die) : State := { s with dies := s.dies.put d (f (s.die d)) }

/-- A net instance. -/
def State.inst (s : State) (i : Nat) : Option Inst := s.insts.find? i
/-- The state with an instance changed, if it is there. -/
def State.modInst (s : State) (i : Nat) (f : Inst → Inst) : State :=
  match s.insts.find? i with
  | some v => { s with insts := s.insts.put i (f v) }
  | none => s
/-- The state with a firing slot changed, if it is filled. -/
def State.modSlot (s : State) (i k : Nat) (f : FSlot → FSlot) : State :=
  s.modInst i (fun v => match v.slots.find? k with
    | some x => { v with slots := v.slots.put k (f x) }
    | none => v)
/-- A firing slot. -/
def State.slot (s : State) (i k : Nat) : Option FSlot := (s.insts.find? i).bind (fun v => v.slots.find? k)
/-- The code of a firing's action (R196). -/
def FSlot.code (f : FSlot) : Nat := (bits f.act 0 8).toNat
/-- TGT of a firing's action. -/
def FSlot.tgt (f : FSlot) : Nat := (bits f.act 8 8).toNat
/-- An outcome arrives for a firing; the next round applies it (R32, R33). -/
def State.arrive (s : State) (i k outcome : Nat) : State := s.modSlot i k (fun x => { x with stage := .arrived outcome })

/-- A region. -/
def State.region (s : State) (i : Nat) : Option Region := s.regions.find? i
/-- The state with a region changed, if it is there. -/
def State.modRegion (s : State) (i : Nat) (f : Region → Region) : State :=
  match s.regions.find? i with
  | some v => { s with regions := s.regions.put i (f v) }
  | none => s
/-- A section of a region. -/
def State.sect (s : State) (i sid : Nat) : Option Section := (s.regions.find? i).bind (fun r => r.sects.find? sid)
/-- The state with a section changed, if it is there. -/
def State.modSect (s : State) (i sid : Nat) (f : Section → Section) : State :=
  s.modRegion i (fun r => match r.sects.find? sid with
    | some x => { r with sects := r.sects.put sid (f x) }
    | none => r)

/-- The state with the strip's part changed. -/
def State.modCmd (s : State) (f : Cmd → Cmd) : State := { s with cmd := f s.cmd }
/-- The state with the register BAR changed. -/
def State.modBar (s : State) (f : Bar → Bar) : State := { s with bar := f s.bar }
/-- The state with monitoring changed. -/
def State.modMon (s : State) (f : Mon → Mon) : State := { s with mon := f s.mon }
/-- The state with the domain changed. -/
def State.modDom (s : State) (f : Domain → Domain) : State := { s with dom := f s.dom }
/-- The state with a collective instance changed, if it is there. -/
def State.modColl (s : State) (c : Nat) (f : Coll → Coll) : State :=
  match s.colls.find? c with
  | some v => { s with colls := s.colls.put c (f v) }
  | none => s
/-- A Fjois port. -/
def State.port (s : State) (n : Nat) : Port := s.ports.getD n .reset
/-- The state with a Fjois port changed. -/
def State.modPort (s : State) (n : Nat) (f : Port → Port) : State := { s with ports := s.ports.put n (f (s.port n)) }

/-- A fresh number, and the state that has given it out. -/
def State.fresh (s : State) : Nat × State := (s.nextId, { s with nextId := s.nextId + 1 })
/-- A fresh free value (log 4). -/
def State.freeVal (s : State) : W256 × State := (Config.freeWord s.free, { s with free := s.free + 1 })

/-- The state with moves put before all others. -/
def State.push (s : State) (m : List Move) : State := { s with sched := m ++ s.sched }

/-- TYPE of an ELEMID (R101). -/
def elType (el : Nat) : ElemType :=
  match el / 2 ^ 29 % 8 with
  | 0 => .ce | 1 => .mt | 2 => .bn | _ => .gw
/-- DIE of an ELEMID. -/
def elDie (el : Nat) : Nat := el / 2 ^ 25 % 16
/-- X of an ELEMID. -/
def elX (el : Nat) : Nat := el / 256 % 256
/-- Y of an ELEMID. -/
def elY (el : Nat) : Nat := el % 256
/-- The ELEMID of a type, die, x and y (R101). -/
def elemId (t : ElemType) (die x y : Nat) : Nat := typeCode t * 2 ^ 29 + die * 2 ^ 25 + x * 256 + y
/-- The ELEMID of the tile d.x.y: a CE when x + y is even, an MT when odd (R2). -/
def tileId (die x y : Nat) : Nat := elemId (if (x + y) % 2 = 0 then .ce else .mt) die x y
/-- The home MT of a CE (R11). -/
def homeMt (el : Nat) : Nat := tileId (elDie el) (if elX el = 0 then 63 else elX el - 1) (elY el)
/-- The base of an MT's scratchpad in Mem.spad: tile number times 512 KiB (R11). -/
def spadBase (el : Nat) : Nat := (elDie el * 2048 + elY el * 64 + elX el) * 2 ^ 19
/-- The PCH in front of which a BN stands (R19). -/
def bnPch (el : Nat) : Nat := elDie el * 64 + elX el

end Sys2Proof.Machine
end

