-- ==== Sys2Proof/Machine/Crypto.lean ====
section
/-!
DEFINITION. Crypto.lean: what secures the packets of a trust domain: SHAKE256, which derives a traffic key (R311), AES-256-GCM, and the wire form of a
packet (R312). The two algorithms are those of FIPS 202, FIPS 197 and SP 800-38D, which the rules name (log 79).
-/
namespace Sys2Proof.Machine

/-! ## SHAKE256 -/

/-- A lane of 64 bits rotated left. -/
def rotLane (x n : Nat) : Nat := ((x <<< n) ||| (x >>> (64 - n))) % 2 ^ 64

/-- The rotation of each lane x + 5 y of Keccak. -/
def keccakRot : List Nat := [0, 1, 62, 28, 27, 36, 44, 6, 55, 20, 3, 10, 43, 25, 39, 41, 45, 15, 21, 8, 18, 2, 61, 56, 14]

/-- The constants of Keccak's 24 rounds. -/
def keccakConst : List Nat :=
  [0x0000000000000001, 0x0000000000008082, 0x800000000000808A, 0x8000000080008000, 0x000000000000808B, 0x0000000080000001, 0x8000000080008081, 0x8000000000008009, 0x000000000000008A, 0x0000000000000088, 0x0000000080008009, 0x000000008000000A] ++
  [0x000000008000808B, 0x800000000000008B, 0x8000000000008089, 0x8000000000008003, 0x8000000000008002, 0x8000000000000080, 0x000000000000800A, 0x800000008000000A, 0x8000000080008081, 0x8000000000008080, 0x0000000080000001, 0x8000000080008008]

/-- A round of Keccak on its 25 lanes. -/
def keccakRound (a : List Nat) (k : Nat) : List Nat :=
  let at_ := fun (l : List Nat) (n : Nat) => l.getD n 0
  let c := (List.range 5).map (fun x => at_ a x ^^^ at_ a (x + 5) ^^^ at_ a (x + 10) ^^^ at_ a (x + 15) ^^^ at_ a (x + 20))
  let d := (List.range 5).map (fun x => at_ c ((x + 4) % 5) ^^^ rotLane (at_ c ((x + 1) % 5)) 1)
  let b := (List.range 25).map (fun j =>
    let n := (j % 5 + 3 * (j / 5)) % 5 + 5 * (j % 5)
    rotLane (at_ a n ^^^ at_ d (n % 5)) (at_ keccakRot n))
  (List.range 25).map (fun j =>
    let r := j / 5 * 5
    at_ b j ^^^ ((2 ^ 64 - 1 - at_ b (r + (j + 1 - r) % 5)) &&& at_ b (r + (j + 2 - r) % 5)) ^^^ (if j = 0 then k else 0))

/-- Little-endian number of bytes. -/
def leNat : List Byte → Nat
  | [] => 0
  | b :: l => b.toNat + 256 * leNat l

/-- The n lowest bytes of a number, the lowest first. -/
def leBytes (v : Nat) : Nat → List Byte
  | 0 => []
  | n + 1 => BitVec.ofNat 8 v :: leBytes (v / 256) n

/-- A list cut into pieces of at most n. -/
def pieces {α : Type} (n : Nat) (l : List α) : List (List α) := (List.range ((l.length + n - 1) / n)).map (fun j => (l.drop (n * j)).take n)

/-- A block of 136 bytes absorbed. -/
def keccakAbsorb (a : List Nat) (b : List Byte) : List Nat :=
  keccakConst.foldl keccakRound (a.zipIdx.map (fun x => x.1 ^^^ leNat ((b.drop (8 * x.2)).take 8)))

/-- A message padded for SHAKE256: 0x1F, zeros, and the top bit of the last byte of a block. -/
def shakePad (l : List Byte) : List Byte :=
  let z := 135 - l.length % 136
  l ++ (if z = 0 then [0x9F#8] else 0x1F#8 :: (List.replicate (z - 1) 0 ++ [0x80#8]))

/-- The first 32 bytes of SHAKE256. -/
def shake256 (l : List Byte) : List Byte :=
  (((pieces 136 (shakePad l)).foldl keccakAbsorb (List.replicate 25 0)).take 4).flatMap (fun x => leBytes x 8)

/-! ## AES-256 -/

/-- The S-box, byte by byte from the lowest. -/
def sboxAll : Nat :=
  (((0x16bb54b00f2d99416842e6bf0d89a18cdf2855cee9871e9b948ed9691198f8e19e1dc186b95735610ef6034866b53e708a8bbd4b1f74dde8c6b4a61c2e2578ba <<< 512)
    + 0x08ae7a65eaf4566ca94ed58d6d37c8e779e4959162acd3c25c2406490a3a32e0db0b5ede14b8ee4688902a22dc4f816073195d643d7ea7c41744975fec130ccd) <<< 1024)
  + ((0xd2f3ff1021dab6bcf5389d928f40a351a89f3c507f02f94585334d43fbaaefd0cf584c4a39becb6a5bb1fc20ed00d153842fe329b3d63b52a05a6e1b1a2c8309 <<< 512)
    + 0x75b227ebe28012079a059618c323c7041531d871f1e5a534ccf73f362693fdb7c072a49cafa2d4adf04759fa7dc982ca76abd7fe2b670130c56f6bf27b777c63)

/-- A byte through the S-box. -/
def sbox (b : Nat) : Nat := (sboxAll >>> (8 * b)) % 256

/-- A byte of GF(2^8) times x. -/
def xtime (b : Nat) : Nat := if b < 128 then 2 * b else (2 * b) ^^^ 0x11B

/-- One more word of the key schedule of AES-256, of words of four bytes; `w` holds those before it, the last first. -/
def keyWord (w : List (List Nat)) (rcon : Nat) : List (List Nat) :=
  let n := w.length
  let p := w.headD []
  let q := w.getD 7 []
  let t := if n % 8 = 0 then ((p.drop 1 ++ p.take 1).map sbox).zipIdx.map (fun x => if x.2 = 0 then x.1 ^^^ rcon else x.1)
    else if n % 8 = 4 then p.map sbox else p
  (List.zipWith (· ^^^ ·) t q) :: w

/-- The round constant of the n-th word of the key schedule. -/
def roundConst (n : Nat) : Nat := 2 ^ (n / 8 - 1)

/-- The 60 words of the key schedule of AES-256, as the bytes of 15 round keys. -/
def keySchedule (key : List Nat) : List (List Nat) :=
  let w0 := (List.range 8).map (fun j => (key.drop (4 * j)).take 4)
  let w := ((List.range 52).foldl (fun w j => keyWord w (roundConst (8 + j))) w0.reverse).reverse
  (List.range 15).map (fun j => ((w.drop (4 * j)).take 4).flatten)

/-- SubBytes and ShiftRows: byte r + 4 c comes from column c + r. -/
def aesShift (s : List Nat) : List Nat := (List.range 16).map (fun j => sbox (s.getD (j % 4 + 4 * ((j / 4 + j % 4) % 4)) 0))

/-- MixColumns. -/
def aesMix (s : List Nat) : List Nat :=
  (List.range 16).map (fun j =>
    let at_ := fun k => s.getD (j / 4 * 4 + (j + k) % 4) 0
    xtime (at_ 0) ^^^ xtime (at_ 1) ^^^ at_ 1 ^^^ at_ 2 ^^^ at_ 3)

/-- AES-256 of a block, with the round keys of its key. -/
def aesBlock (ks : List (List Nat)) (b : List Nat) : List Nat :=
  let add := List.zipWith (fun (x y : Nat) => x ^^^ y)
  let s := ((ks.drop 1).take 13).foldl (fun s k => add (aesMix (aesShift s)) k) (add b (ks.headD []))
  add (aesShift s) (ks.getD 14 [])

/-! ## GCM -/

/-- A number in n bytes, the highest first. -/
def beBytes (v n : Nat) : List Nat := ((List.range n).map (fun j => v / 256 ^ j % 256)).reverse

/-- The number of bytes, the first the highest. -/
def beNat (l : List Nat) : Nat := l.foldl (fun n b => 256 * n + b) 0

/-- The product of two blocks in GF(2^128), the first bit of a block its highest: the bits of x from the last on by Horner's rule. -/
def gmul (x y : Nat) : Nat :=
  (List.range 128).foldl (fun z j =>
    let z := if z.testBit 0 then (z >>> 1) ^^^ 0xE1000000000000000000000000000000 else z >>> 1
    if x.testBit j then z ^^^ y else z) 0

/-- GHASH of blocks of 16 bytes at most, each filled with zeros. -/
def ghash (h : Nat) (l : List (List Nat)) : Nat := l.foldl (fun z b => gmul (z ^^^ (beNat b * 256 ^ (16 - b.length))) h) 0

/-- Bytes under a block of a key stream. -/
def xorStream (l : List Byte) (k : List Nat) : List Byte := l.zipIdx.map (fun x => x.1 ^^^ BitVec.ofNat 8 (k.getD x.2 0))

/-- At most n blocks of a message under the counter blocks from one on. -/
def ctrCrypt (ks : List (List Nat)) (ctr : Nat) : Nat → List Byte → List Byte
  | 0, l => l
  | n + 1, l => xorStream (l.take 16) (aesBlock ks (beBytes ctr 16)) ++ ctrCrypt ks (ctr + 1) n (l.drop 16)

/-- A message encrypted, or decrypted, under a 96-bit IV (GCM). -/
def gcmCrypt (ks : List (List Nat)) (iv : Nat) (l : List Byte) : List Byte := ctrCrypt ks (iv * 2 ^ 32 + 2) ((l.length + 15) / 16) l

/-- The tag of a ciphertext with its additional data (GCM). -/
def gcmTag (ks : List (List Nat)) (iv : Nat) (aad ct : List Byte) : List Byte :=
  let h := beNat (aesBlock ks (List.replicate 16 0))
  let g := ghash h (pieces 16 (aad.map BitVec.toNat) ++ pieces 16 (ct.map BitVec.toNat) ++ [beBytes (8 * aad.length * 2 ^ 64 + 8 * ct.length) 16])
  (beBytes (g ^^^ beNat (aesBlock ks (beBytes (iv * 2 ^ 32 + 1) 16))) 16).map (BitVec.ofNat 8)

/-! ## The wire form of a packet -/

/-- The traffic key of a direction of a pair under a generation, from the pair's session secret (R311). -/
def trafficKey (secret : List Byte) (src dst : BitVec 10) (gen : Nat) : List Byte :=
  shake256 (secret ++ [0x46#8, 0x4A#8, 0x4F#8, 0x49#8, 0x53#8, 0x2D#8, 0x54#8, 0x4B#8] ++ leBytes src.toNat 2 ++ leBytes dst.toNat 2 ++ leBytes gen 4)

/-- A packet carries a word of this module's layout in its first payload token: every one but the data of a collective circuit (log 11). -/
def worded (circ : BitVec 16) (type : BitVec 4) : Bool := !(decide (0x0100 ≤ circ.toNat) && decide (circ.toNat ≤ 0x113F) && type == 0)

/-- The payload tokens of a packet on the wire. -/
def wireToks (p : Packet) : List Token :=
  if worded p.circ p.type then { ct := .data, ft := 0, data := p.word.setWidth 256 } :: p.payload else p.payload

/-- The security header of a packet (R312). -/
def packetHeader (p : Packet) : W128 :=
  p.seq ++ p.circ ++ p.kgen ++ p.type ++ BitVec.ofNat 4 (wireToks p).length ++ 0#6 ++ p.dst ++ 0#10 ++ p.src ++ p.ver ++ 0x46#8

/-- The 96-bit IV of a packet (R312). -/
def packetIv (seq : BitVec 48) (circ : BitVec 16) (src dst : BitVec 10) : BitVec 96 := seq ++ circ ++ src ++ dst ++ 0#12

/-- What is encrypted: the payload tokens and the tag word, whose byte n has token n's CT in [4:3] and its FT in [2:0] (R312). -/
def packetBody (l : List Token) : List Byte :=
  l.flatMap (fun t => leBytes t.data.toNat 32)
    ++ (List.range 8).map (fun n => match l[n]? with | some t => 0#3 ++ t.ct.code ++ t.ft | none => 0)

/-- A packet as it goes out under a key: header, ciphertext, GCM tag, and zeros to whole flits of 64 bytes (R308, R312). -/
def sealPacket (key : List Byte) (p : Packet) : List Byte :=
  let ks := keySchedule (key.map BitVec.toNat)
  let iv := (packetIv p.seq p.circ p.src p.dst).toNat
  let hdr := leBytes (packetHeader p).toNat 16
  let ct := gcmCrypt ks iv (packetBody (wireToks p))
  let l := hdr ++ ct ++ gcmTag ks iv hdr ct
  l ++ List.replicate ((64 - l.length % 64) % 64) 0

/-- The token of 32 payload bytes and its byte of the tag word (R312). -/
def tokenOf (b : List Byte) (t : Byte) : Token := { ct := Tag.ofCode (bits t 3 2), ft := bits t 0 3, data := BitVec.ofNat 256 (leNat b) }

/-- The fields of a packet with a header and payload tokens (R312, log 11). -/
def packetOf (h : W128) (toks : List Token) : Packet :=
  let wd := worded (bits h 64 16) (bits h 52 4)
  { seq := bits h 80 48, circ := bits h 64 16, kgen := bits h 56 8, type := bits h 52 4, dst := bits h 32 10, src := bits h 12 10, ver := bits h 8 4,
    payload := if wd then toks.tail else toks, word := if wd then (match toks with | t :: _ => t.data.setWidth 128 | [] => 0) else 0 }

/-- A packet as it comes in under a key, and whether it is whole, has MAGIC, NTOK in its range and a tag that verifies (R312, R313). -/
def openPacket (key : List Byte) (w : List Byte) : Packet × Bool :=
  let hdr := w.take 16
  let h := BitVec.ofNat 128 (leNat hdr)
  let n := (bits h 48 4).toNat
  let ks := keySchedule (key.map BitVec.toNat)
  let iv := (packetIv (bits h 80 48) (bits h 64 16) (bits h 12 10) (bits h 32 10)).toNat
  let ct := (w.drop 16).take (32 * n + 8)
  let tag := (w.drop (24 + 32 * n)).take 16
  let pt := gcmCrypt ks iv ct
  (packetOf h ((List.range n).map (fun j => tokenOf ((pt.drop (32 * j)).take 32) (pt.getD (32 * n + j) 0))),
   bits h 0 8 == 0x46 && decide (n ≤ 8) && tag == gcmTag ks iv hdr ct)

end Sys2Proof.Machine
end

