-- ==== Sys2Proof/Machine/Ops.lean ====
section
/-!
DEFINITION. Ops.lean: the named operations over memory, cells, translations and regions, and taking a trap: one operation
for every element's trap (R273, R275, R276), one for a record that freezes nothing, and the return from a trap.
-/
namespace Sys2Proof.Machine

/-- The byte at an address; an unlisted address reads as 0 (log 1). -/
def Memory.read : Memory → Nat → Byte
  | [], _ => 0
  | (b, v) :: t, a => if a = b then v else Memory.read t a

/-- A byte written, the canonical form kept: writing 0 removes the entry. -/
def Memory.write : Memory → Nat → Byte → Memory
  | [], a, v => if v = 0 then [] else [(a, v)]
  | (b, u) :: t, a, v =>
    if a < b then (if v = 0 then (b, u) :: t else (a, v) :: (b, u) :: t)
    else if a = b then (if v = 0 then t else (a, v) :: t)
    else (b, u) :: Memory.write t a v

/-- Addresses rise above `lo` and no entry is 0. -/
def Memory.wfFrom : Nat → Memory → Bool
  | _, [] => true
  | lo, (a, v) :: t => decide (lo ≤ a) && decide (v ≠ 0) && Memory.wfFrom (a + 1) t

/-- The canonical form. -/
def Memory.wf (m : Memory) : Bool := Memory.wfFrom 0 m

/-- n bytes from an address as one little-endian number (R5). -/
def Memory.readN (m : Memory) (a : Nat) : Nat → Nat
  | 0 => 0
  | n + 1 => (Memory.read m a).toNat + 256 * Memory.readN m (a + 1) n

/-- The n low bytes of a number written from an address, little-endian (R5). -/
def Memory.writeN (m : Memory) (a : Nat) : Nat → Nat → Memory
  | 0, _ => m
  | n + 1, v => Memory.writeN (Memory.write m a (BitVec.ofNat 8 v)) (a + 1) n (v / 256)

/-- The token at an address whose bits [4:0] are ignored. -/
def Memory.token (m : Memory) (a : Nat) : W256 := BitVec.ofNat 256 (m.readN (a / 32 * 32) 32)

/-- The token at an address replaced. -/
def Memory.setToken (m : Memory) (a : Nat) (v : W256) : Memory := m.writeN (a / 32 * 32) 32 v.toNat

/-- The PCH (stack * 64 + c) and offset of a PA under the STD layout (R221). -/
def stdCell (pa : Nat) : Nat × Nat :=
  (pa / 2 ^ 36 % 16 * 64 + pa / 2 ^ 12 % 64, pa / 2 ^ 18 % 2 ^ 18 * 2 ^ 12 + pa % 2 ^ 12)

/-- The PCH and offset of a PA under the NBL layout (R221). -/
def nblCell (pa : Nat) : Nat × Nat :=
  (pa / 2 ^ 36 % 16 * 64 + pa / 2 ^ 16 % 64, pa / 2 ^ 22 % 2 ^ 14 * 2 ^ 16 + pa % 2 ^ 16)

/-- The address of a cell in Mem.dram. -/
def cellAt (c : Nat × Nat) : Nat := c.1 * 2 ^ 30 + c.2

/-- The bytes of a PA that is reached without a leaf: the STD mapping, block by block (R221). -/
def State.paRead (s : State) (pa : Nat) : Nat → Nat
  | 0 => 0
  | n + 1 => (s.mem.dram.read (cellAt (stdCell pa))).toNat + 256 * s.paRead (pa + 1) n

/-- Bytes written at a PA that is reached without a leaf. -/
def Memory.paWrite (m : Memory) (pa : Nat) : Nat → Nat → Memory
  | 0, _ => m
  | n + 1, v => Memory.paWrite (m.write (cellAt (stdCell pa)) (BitVec.ofNat 8 v)) (pa + 1) n (v / 256)

/-- The state with bytes written at a PA that is reached without a leaf. -/
def State.paWrite (s : State) (pa n v : Nat) : State := { s with mem := { s.mem with dram := s.mem.dram.paWrite pa n v } }

/-- A page table entry breaks R220 at its level. -/
def pteMalformed (level : Nat) (e : W64) : Bool :=
  let leaf := e.getLsbD 4
  (bits e 52 12 != 0) || (bits e 8 5 != 0) || e.getLsbD 6
  || (leaf && level == 0) || (!leaf && level == 3)
  || (leaf && (bits e 13 3 != 0))
  || (leaf && level == 1 && (bits e 16 20 != 0)) || (leaf && level == 2 && (bits e 16 10 != 0))
  || (leaf && e.getLsbD 5 && level != 3)
  || (!leaf && (e.getLsbD 1 || e.getLsbD 2 || e.getLsbD 3 || e.getLsbD 7 || e.getLsbD 5))
  || (bits e 40 12 != 0)

/-- How a walk ends (R220): a leaf with its page size code (0 64 KiB, 1 64 MiB, 2 64 GiB), or XLATE with its CAUSE. -/
inductive WalkEnd where
  | leaf (size : Nat) (e : W64)
  | fault (cause : Nat)
  deriving DecidableEq, Repr

/-- A walk from the table at PA `table` of a level; `left` levels remain (R218, R220). -/
def State.walk (s : State) (va : Nat) (level table : Nat) : Nat → WalkEnd
  | 0 => .fault 2
  | left + 1 =>
    let e := BitVec.ofNat 64 (s.paRead (table + 8 * (va / 2 ^ (46 - 10 * level) % 1024)) 8)
    if !e.getLsbD 0 then .fault 1
    else if pteMalformed level e then .fault 2
    else if e.getLsbD 4 then .leaf (3 - level) e
    else s.walk va (level + 1) ((bits e 13 39).toNat * 8192) left

/-- The VA bits within a page of a size code. -/
def pageBits (size : Nat) : Nat := 16 + 10 * size

/-- The PA of a VA under a leaf (R219). -/
def leafPa (size : Nat) (e : W64) (va : Nat) : Nat := (bits e 16 36).toNat * 65536 + va % 2 ^ pageBits size

/-- A translation as a PCH, an offset and the aperture (R221, R223). -/
def leafCell (size : Nat) (e : W64) (va : Nat) : Aperture × Nat × Nat :=
  if e.getLsbD 5 then (.nbl, nblCell (leafPa size e va)) else (.std, stdCell (leafPa size e va))

/-- A TLB entry serves a VA of an ASID (R282). -/
def TlbEntry.serves (t : TlbEntry) (asid : BitVec 16) (va : Nat) : Bool :=
  t.asid == asid && va / 2 ^ pageBits t.size == t.page * 65536 / 2 ^ pageBits t.size

/-- The first entry of a TLB that serves a VA. -/
def tlbLookup (l : List TlbEntry) (asid : BitVec 16) (va : Nat) : Option TlbEntry := l.find? (fun t => t.serves asid va)

/-- An access's permissions under R220: RD, WR, AT. -/
def AccKind.allowed (k : AccKind) (e : W64) : Bool :=
  match k with
  | .read | .take | .sigr _ | .gather _ _ => e.getLsbD 1
  | .write | .scatter _ _ => e.getLsbD 2
  | .atomic _ _ _ | .sigw _ | .combine _ _ _ => e.getLsbD 2 && e.getLsbD 3
  | .nbq _ | .nbr => true

/-- An access only takes a value. -/
def AccKind.isRead : AccKind → Bool
  | .read | .take | .sigr _ | .gather _ _ => true
  | _ => false

/-- An access takes a value, so that it has performed only once it has taken it (R227). -/
def AccKind.takes : AccKind → Bool
  | .read | .take | .sigr _ | .gather _ _ | .atomic _ _ _ | .combine _ _ _ => true
  | _ => false

/-- A PA in the placement cache or the command area, where no region's access may land (R295). -/
def reservedPa (pa : Nat) : Bool := decide (0xFF8000000 ≤ pa) && decide (pa < 0x1000000000)

/-- The record of R273. -/
def trapRecord (t : TrapReq) (asid : BitVec 16) (ivec fcnt : BitVec 48) (src gen slot nfs elemid : Nat) : W256 :=
  BitVec.ofNat 256 (t.info.toNat * 2 ^ 192 + t.cause % 256 * 2 ^ 184 + asid.toNat * 2 ^ 160 + ivec.toNat * 2 ^ 112
    + fcnt.toNat * 2 ^ 64 + t.code % 256 * 2 ^ 56 + src % 8 * 2 ^ 53 + gen % 4 * 2 ^ 51 + slot % 256 * 2 ^ 40
    + nfs % 256 * 2 ^ 32 + elemid % 2 ^ 32)

/-- The fields of a record that its handling reads (R273). -/
def recCode (r : W256) : Nat := (bits r 56 8).toNat
/-- FCNT of a record. -/
def recFcnt (r : W256) : BitVec 48 := bits r 64 48
/-- SRC of a record. -/
def recSrc (r : W256) : Nat := (bits r 53 3).toNat
/-- GEN of a record. -/
def recGen (r : W256) : Nat := (bits r 51 2).toNat
/-- ELEMID of a record. -/
def recElem (r : W256) : Nat := (bits r 0 32).toNat
/-- INFO of a record. -/
def recInfo (r : W256) : W64 := bits r 192 64

/-- The elements of a region: the nodes of its sections (R23, R95). -/
def Region.elems (r : Region) : List Nat := r.sects.vals.flatMap (fun x => x.nodes.vals)

/-- The configuration slot in which a context's C2 partition stands: a pre-empting context in C1 has one of its own (R217, R285). -/
def shadowSlot (base : Nat) : Nat := if base = 1 then 3 else 2

/-- The section of a region that holds an element. -/
def Region.sectOf (r : Region) (el : Nat) : Option Nat :=
  (List.find? (fun x => x.2.nodes.vals.contains el) r.sects).map Prod.fst

/-- The instance and section an element's running context serves. -/
def State.sectOf (s : State) (el : Nat) : Option (Nat × Nat) := do
  let i ← (s.elem el).ctx.inst
  let r ← s.region i
  let sid ← r.sectOf el
  return (i, sid)

/-- The record word of an element's running configuration. -/
def Elem.rec? (e : Elem) : Option NodeRec := e.cfg.find? e.run

/-- The neighbour of R43 in a direction (0 west, 1 north, 2 east, 3 south). R43 names a west, north, east or south neighbour and asks for one
element type; the tiles next to a CE are MTs and the other way round (R2), so the model's choice is the next element of its own type in that
direction: two tiles away for CE and MT, the next PCH or port for BN and GW, which have no north and south (log 15). -/
def nextOf (el dir : Nat) : Option Nat :=
  let t := elType el
  let x := elX el
  let y := elY el
  let d := if t = .ce ∨ t = .mt then 2 else 1
  match dir with
  | 0 => if d ≤ x then some (elemId t (elDie el) (x - d) y) else none
  | 2 => if x + d < 64 then some (elemId t (elDie el) (x + d) y) else none
  | 1 => if d = 2 ∧ d ≤ y then some (elemId t (elDie el) x (y - d)) else none
  | _ => if d = 2 ∧ y + d < 32 then some (elemId t (elDie el) x (y + d)) else none

/-- The leader that a node record names for an element (R43, R94). -/
def recLeader (el : Nat) (n : NodeRec) : Option Nat :=
  if n.hdr.getLsbD 11 then nextOf el (bits n.hdr 9 2).toNat else none

/-- The leader of an element. -/
def State.leader (s : State) (el : Nat) : Option Nat := (s.elem el).rec?.bind (recLeader el)

/-- The element that follows an element (R43: at most one). -/
def State.follower (s : State) (el : Nat) : Option Nat :=
  ((List.range 4).filterMap (nextOf el)).find? (fun f => s.leader f == some el)

/-- A fenced CE has left its chain: a CFG has reached its section since (R168, R278). -/
def State.leftChain (s : State) (el : Nat) : Bool :=
  s.defects.contains el && !(match s.sectOf el with
    | some (i, sid) => (match s.sect i sid with | some x => x.fenced | none => false)
    | none => false)

/-- The members of a chain before an element, nearest first, at most n. -/
def State.leaders (s : State) (el : Nat) : Nat → List Nat
  | 0 => []
  | n + 1 => match s.leader el with
    | some l => l :: s.leaders l n
    | none => []

/-- The members of a chain behind an element, nearest first, at most n. -/
def State.followers (s : State) (el : Nat) : Nat → List Nat
  | 0 => []
  | n + 1 => match s.follower el with
    | some f => f :: s.followers f n
    | none => []

/-- The members that an element leads, with their distances from it: a fenced CE that has left the chain fires nothing (R44, R168). -/
def State.led (s : State) (el : Nat) : List (Nat × Nat) := ((s.followers el 15).zipIdx 1).filter (fun f => !s.leftChain f.1)

/-- Every member of an element's chain, itself among them (R43, R44). -/
def State.chain (s : State) (el : Nat) : List Nat := s.leaders el 15 ++ el :: s.followers el 15

/-- What an element's accesses are issued for: the ARM in flight at its section; 0 where none is (R204). -/
def State.workOf (s : State) (el : Nat) : Nat :=
  match s.sectOf el with
  | some (i, sid) => (match s.sect i sid with | some x => if x.arms.isEmpty then 0 else x.armNo | none => 0)
  | none => 0

/-- An element is frozen: itself, a member of its chain, or its region (R44, R276, R278, R288, R292). -/
def State.isFrozen (s : State) (el : Nat) : Bool :=
  (s.chain el).any (fun m => (m == el || !s.leftChain m) && decide (0 < (s.elem m).frozen.trap))
  || (match (s.elem el).ctx.inst with
      | some i => (match s.region i with | some r => r.frozen || r.accepted.isSome | none => false)
      | none => false)

/-- A saturating increment of a counter of w bits. -/
def satInc {w : Nat} (x : BitVec w) : BitVec w := if x = BitVec.allOnes w then x else x + 1

/-- One more in a fixed counter of the lifetime records, in the order of R338: 0 hours; 1-6 corrected and uncorrected errors of
DRAM, SRAM and weight store; 7 STFAIL, 8 LINKAUTH, 9 HOT; 10 resets. -/
def State.bump (s : State) (k : Nat) : State := s.modMon (fun m => { m with fixed := m.fixed.put k (satInc (m.fixed.getD k 0)) })

/-- An uncorrectable error of a target is counted; one at a remote module is counted there (R338). -/
def State.countError (s : State) : AccTarget → State
  | .spad => s.bump 4 | .ws => s.bump 6 | .remote _ => s | _ => s.bump 2

/-- The samples of a source that the MHUs of a die take: one for each whose configuration a predicate picks (R336). -/
def State.samples (s : State) (die src : Nat) (p : W64 → Bool) (v : Nat) : List Move :=
  s.mon.mhus.filterMap (fun (m : Nat × Mhu) =>
    if m.1 / 64 == die && m.2.cfg.getLsbD 63 && bits m.2.cfg 40 8 == BitVec.ofNat 8 src && p m.2.cfg
    then some (.event (.mhuSample die (m.1 % 64) v)) else none)

/-- The samples of a source that a target names by itself, in the MHUs of every die (R336). -/
def State.samplesAny (s : State) (src : Nat) (p : W64 → Bool) (v : Nat) : List Move := (List.range 16).flatMap (fun d => s.samples d src p v)

/-- A completion record joins those that wait for their place in a completion ring (R299). -/
def State.addRecord (s : State) (r : RecWait) : State := s.modCmd (fun c => { c with records := c.records ++ [r] })

/-- The KIND 2 record of an instance that retires (R299). -/
def State.retireRecord (s : State) (i : Nat) (status : BitVec 16) : State :=
  match s.region i with
  | some r => s.addRecord { qcb := r.qcb, value := 0, status, kind := 2, tag := r.hdr.tag, ring := r.ring, irq := none,
                            firing := none, miss := none }
  | none => s

/-- A context of an instance gives up its element: the running one is reset and its configuration dropped, a suspended one is
forgotten (R25, R281). -/
def Elem.release (e : Elem) (i : Nat) : Elem :=
  let gone := (List.filter (fun (x : Nat × Ctx) => x.2.inst == some i) e.saved).map Prod.fst
  let e := { e with saved := e.saved.filter (fun x => x.2.inst != some i), eq := e.eq.filter (fun a => a.inst != i),
                    cfg := gone.foldl Tab.drop e.cfg, parts := e.parts.filter (fun x => x.2.2.2 != i), shadowGw := e.shadowGw.drop i }
  if e.ctx.inst = some i then
    { e with ctx := .reset, cfg := (e.cfg.drop e.run).drop 2, buf := [], run := 0, frozen := { trap := 0 }, traps := [] }
  else e

/-- The banks that take part in a run, ascending. -/
def NbRun.part (r : NbRun) : List Nat := (List.range 64).filter (fun b => r.bmask.getLsbD b)

/-- The registers of a bank in a run. -/
def NbRun.bank (r : NbRun) (b : Nat) : NbBank := r.banks.getD b .start

/-- Each participating bank does something to its own registers (R244). -/
def NbRun.each (r : NbRun) (f : Nat → NbBank → NbBank) : NbRun :=
  { r with banks := r.part.foldl (fun t b => t.put b (f b (t.getD b .start))) r.banks }

/-- A row is open in some bank. -/
def NbRun.anyOpen (r : NbRun) : Bool := r.part.any (fun b => (r.bank b).open_.isSome)

/-- The earliest time of a PRE: tRAS after each ACT and tWR after each WR (R252). -/
def NbRun.preAt (r : NbRun) : Nat :=
  (r.part.map (fun b => if (r.bank b).open_.isSome then max ((r.bank b).actAt + 224) ((r.bank b).wrEnd + 128) else 0)).foldl max 0

/-- Every row of a run closed. -/
def NbRun.closed (r : NbRun) : NbRun := r.each (fun _ b => { b with open_ := none })

/-- When the precharge of a run's open rows is over, if it ends at a time (R251, R252). -/
def NbRun.closeAt (r : NbRun) (t : Nat) : Nat := if r.anyOpen then max t r.preAt + 112 else t

/-- No run, no saved run and no grant of an instance left at a pseudo-channel, the open rows of its run precharged (R249, R281). -/
def Pch.release (p : Pch) (i now5 : Nat) : Pch :=
  let gone := (List.filter (fun (x : Nat × Nat) => x.2 == i) p.owners).map Prod.fst
  let p := { p with grants := gone.foldl Tab.drop p.grants, owners := gone.foldl Tab.drop p.owners }
  let stays := fun (c : CqEntry) => match c with
    | .run r => r.inst != i
    | .saved k => (match p.saved.find? k with | some v => v.run.inst != i | none => false)
    | _ => true
  let p := { p with saved := p.saved.filter (fun x => x.2.run.inst != i), cq := p.cq.filter stays,
                    limit := if p.cq.head?.any stays then p.limit else none }
  match p.run with
  | some r => if r.inst = i then { p with run := none, rest := r.closed, phase := .none, freeAt := r.closeAt (max now5 p.freeAt) } else p
  | none => p

/-- The port that carries all traffic to a device: by its route, or, for a switch, which has no route that the spec names, one that firmware chooses
(R309, log 25). -/
def State.portOf (s : State) (dev : Nat) : Nat :=
  match s.dom.routes.find? dev with
  | some w => w.toNat % 32
  | none => Config.routeOf dev % 24

/-- A packet joins those that wait to be sent (R313, R314). -/
def State.holdPacket (s : State) (p : HeldPacket) : State := s.modDom (fun d => { d with later := d.later ++ [p] })

/-- The traffic key of a direction between this module and a device, under the generation in force (R311). -/
def State.linkKey (s : State) (dev : Nat) (src dst : BitVec 10) : List Byte :=
  trafficKey ((s.dom.secrets.find? dev).getD (Config.linkSecret dev)) src dst s.dom.gen

/-- A secured packet goes to a member, encrypted under the key of its direction: SEQ counts per destination and circuit, and nearing its end asks for a re-keying; a circuit whose SEQ is used up
holds it until the new generation is in force, and a module outside any domain sends none (R310-R313). -/
def State.sendPacket (s : State) (dev circ type : Nat) (payload : List Token) (word : W128) : State :=
  if s.dom.members.isEmpty then s
  else
    let key := dev * 65536 + circ
    let n := s.dom.sendSeq.getD key 0
    if 2 ^ 48 - 1 ≤ n then s.holdPacket { dev, circ, type, payload, word }
    else
    let pkt : Packet :=
      { seq := BitVec.ofNat 48 n, circ := BitVec.ofNat 16 circ, kgen := BitVec.ofNat 8 s.dom.gen, type := BitVec.ofNat 4 type,
        dst := BitVec.ofNat 10 dev, src := s.dom.self, ver := (s.port (s.portOf dev)).ver, payload, word }
    let ask := decide (2 ^ 48 - 2 ^ 20 ≤ n + 1)
    s.modDom (fun d => { d with out := d.out ++ [{ pkt, bytes := sealPacket (s.linkKey dev pkt.src pkt.dst) pkt }], sendSeq := d.sendSeq.put key (n + 1), asked := d.asked || ask })

/-- A circuit to a member may send: no re-keying holds it and its SEQ is not used up (R313, R314). -/
def State.maySend (s : State) (dev circ : Nat) : Bool :=
  s.dom.rkey.isNone && decide (s.dom.sendSeq.getD (dev * 65536 + circ) 0 < 2 ^ 48 - 1)

/-- Instance control (R309), the code in [7:0] and its arguments above; the spec gives no layout (log 11). -/
inductive Control where
  | bind | pause | resume | abort | barrier
  deriving DecidableEq, Repr

/-- The code of a control word. -/
def Control.code : Control → Nat
  | .bind => 0 | .pause => 1 | .resume => 2 | .abort => 3 | .barrier => 4

/-- An instance-control packet's word. -/
def ctlWord (c : Control) (a b : Nat) : W128 := BitVec.ofNat 128 (c.code + 256 * a + 2 ^ 24 * b)

/-- An instance-control packet to a member on CIRC 0xFFFF; a re-keying holds it (R309, R314). -/
def State.post (s : State) (dev : Nat) (payload : List Token) (word : W128) : State :=
  if s.dom.rkey.isSome then s.holdPacket { dev, circ := 0xFFFF, type := 5, payload, word } else s.sendPacket dev 0xFFFF 5 payload word

/-- One to each of some members. -/
def State.sendControl (s : State) (c : Control) (a b : Nat) (devs : List Nat) : State := devs.foldl (fun s dev => s.post dev [] (ctlWord c a b)) s

/-- What has been held back is sent (R313, R314). -/
def State.flushLater (s : State) : State :=
  s.dom.later.foldl (fun s p => s.sendPacket p.dev p.circ p.type p.payload p.word) (s.modDom (fun d => { d with later := [] }))

/-- The re-keying of an instance that goes ends without a new generation, and what it held back is sent (R281, R314). -/
def State.dropRkey (s : State) (i : Nat) : State :=
  if s.dom.rkey.any (fun x => x.1 == i) then (s.modDom (fun d => { d with rkey := none, sentBar := false })).flushLater else s

/-- The whole announcements of a group that members have made (R319). -/
def State.heardOf (s : State) (gid : W64) : List Announce :=
  s.dom.heard.filter (fun a => a.gid == gid && a.circs.length == a.total && s.dom.members.contains a.dev)

/-- The members that hold the other ranks of a collective instance: of one that still binds, those that have announced theirs. -/
def State.collPeers (s : State) (v : Coll) : List Nat :=
  (if v.ranksAt.isEmpty then (s.heardOf v.gid).map (fun a => a.dev) else v.ranksAt.vals).filter (fun d => d != s.dom.self.toNat)

/-- A collective instance aborts with an outcome (R343): its COLL in flight completes with it, and ABORT goes to every other
rank; the announcements for one that still binds are void. An instance that has aborted stays as it is. -/
def State.abortColl (s : State) (c outcome : Nat) (tell : Bool) : State :=
  match s.colls.find? c with
  | none => s
  | some v =>
    match v.stage with
    | .aborted _ => s
    | _ =>
      let peers := s.collPeers v
      let s := match v.slot with
        | some k => s.arrive v.inst k outcome
        | none => s
      let s := s.modColl c (fun v => { v with stage := .aborted outcome, slot := none, timer := none, held := false })
      let s := if v.stage = .binding then s.modDom (fun d => { d with heard := d.heard.filter (fun a => a.gid != v.gid) }) else s
      if tell then s.sendControl .abort outcome v.gid.toNat peers else s

/-- Abort every collective instance of an instance. -/
def State.abortColls (s : State) (i : Nat) : State :=
  s.colls.foldl (fun s x => if x.2.inst = i then s.abortColl x.1 1 true else s) s

/-- The translations of an ASID leave a die, and its walks where no other instance uses it (R281). -/
def Die.forget (d : Die) (asid : BitVec 16) (others : Bool) : Die :=
  { d with tlb2 := d.tlb2.filter (fun t => t.asid != asid), walks := d.walks.filter (fun w => others || w.asid != asid) }

/-- An instance and its region are gone: its elements, its circuits, its runs and its entries (R25, R281). -/
def State.release (s : State) (i : Nat) : State :=
  let els : List Nat := match s.region i with | some r => r.elems | none => []
  let asid : BitVec 16 := match s.inst i with | some v => v.asid | none => 0
  let s : State := els.foldl (fun s el => s.modElem el (fun e => e.release i)) s
  let others := s.insts.any (fun (x : Nat × Inst) => x.1 != i && x.2.asid == asid)
  let s := { s with pchs := s.pchs.map (fun (x : Nat × Pch) => (x.1, x.2.release i (5 * s.now))),
                    circs := s.circs.filter (fun x => x.2.inst != i),
                    elems := s.elems.map (fun (x : Nat × Elem) => (x.1, { x.2 with tlb := x.2.tlb.filter (fun t => t.asid != asid) })),
                    dies := s.dies.map (fun (x : Nat × Die) => (x.1, x.2.forget asid others)) }
  ({ s with insts := s.insts.drop i, regions := s.regions.drop i, colls := s.colls.filter (fun x => x.2.inst != i) } : State).dropRkey i

/-- A kill ends a region at once with an error status (R281). -/
def State.kill (s : State) (i : Nat) (status : BitVec 16) : State :=
  let s := (s.abortColls i).retireRecord i status
  let s := s.modCmd (fun c => { c with children := c.children.drop i })
  s.release i

/-- A record enters a region's trap queue; one that finds 256 there kills the region (R274). -/
def State.putTrap (s : State) (i : Nat) (r : W256) : State :=
  match s.region i with
  | none => s
  | some v =>
    let s := if recCode r = 0x06 then s.bump 7 else if recCode r = 0x18 then s.bump 8 else s
    if 256 ≤ v.traps.length then s.kill i 0 else s.modRegion i (fun v => { v with traps := v.traps ++ [r] })

/-- The IVEC that a record of an instance's element carries: its section's (R277). -/
def State.ivecAt (s : State) (i el : Nat) : BitVec 48 :=
  match (s.region i).bind (fun r => r.sectOf el) with
  | some sid => (match s.sect i sid with | some x => x.ivec | none => 0)
  | none => 0

/-- The IVEC of the section that an element's running context serves. -/
def State.ivecOf (s : State) (el : Nat) : BitVec 48 := match (s.elem el).ctx.inst with | some i => s.ivecAt i el | none => 0

/-- Records of an element that need wait for no firing enter the queue (R275). -/
def State.settleTraps (s : State) (el : Nat) : State :=
  let e := s.elem el
  match e.ctx.inst with
  | none => s
  | some i =>
    let ripe := fun r => !e.ctx.flights.any (fun f => f.fcnt < recFcnt r)
    let out := e.traps.filter ripe
    out.foldl (fun s r => s.putTrap i r) (s.modElem el (fun e => { e with traps := e.traps.filter (fun r => !ripe r) }))

/-- TAKING A TRAP: an element's trap of a slot at its precise point. The element freezes, its region's NSQ stops starting
firings, and the record enters the trap queue once every firing before it has completed (R273, R275, R276). -/
def State.trapElem (s : State) (el slot : Nat) (fcnt : BitVec 48) (t : TrapReq) : State :=
  let r := trapRecord t (s.elem el).ctx.regs.asid (s.ivecOf el) fcnt 0 0 slot 0 el
  let s := s.modElem el (fun e => { e with frozen := { e.frozen with trap := e.frozen.trap + 1 }, traps := e.traps ++ [r] })
  let s := match (s.elem el).ctx.inst with
    | some i => s.modRegion i (fun v => { v with holds := v.holds + 1 })
    | none => s
  s.settleTraps el

/-- A record that freezes no element: a stream's, an action's, a run's, a gateway's or the region's (R272, R275). -/
def State.trapNote (s : State) (i : Nat) (t : TrapReq) (src gen slot nfs elemid : Nat) (ivec : BitVec 48) : State :=
  let asid := match s.inst i with | some v => v.asid | none => 0
  s.putTrap i (trapRecord t asid ivec 0 src gen slot nfs elemid)

/-- Records of an instance's suspended context enter the queue once the data of every firing before them has come (R275, R286). -/
def State.settleHeld (s : State) (el i : Nat) : State :=
  if (s.elem el).ctx.inst = some i then s
  else
    let c := s.ctxOf el i
    let ripe := fun r => !c.flights.any (fun f => f.due.isNone && decide (f.fcnt < recFcnt r))
    let out := c.heldRecs.filter ripe
    if out.isEmpty then s
    else out.foldl (fun s r => s.putTrap i r) (s.modCtxOf el i (fun c => { c with heldRecs := c.heldRecs.filter (fun r => !ripe r) }))

/-- One more trap holds an instance's context at an element, and its region's NSQ (R276). -/
def State.freezeCtx (s : State) (el i : Nat) : State :=
  (s.modElem el (fun e =>
    if e.ctx.inst = some i then { e with frozen := { e.frozen with trap := e.frozen.trap + 1 } }
    else { e with saved := e.saved.map (fun (x : Nat × Ctx) => if x.2.inst = some i then (x.1, { x.2 with heldTraps := x.2.heldTraps + 1 }) else x) })).modRegion i
    (fun v => { v with holds := v.holds + 1 })

/-- An access's trap after its issue: its element's, or where its context is suspended, kept with that (R275, R286). What the element has issued behind the
access by then stands: R183 lets it issue on, up to four misses, and replays nothing, though R275 says that no later firing has issued (log 73). -/
def State.trapLate (s : State) (i el slot : Nat) (asid : BitVec 16) (fcnt : BitVec 48) (t : TrapReq) : State :=
  if (s.elem el).ctx.inst = some i then s.trapElem el slot fcnt t
  else
    let r := trapRecord t asid (s.ivecAt i el) fcnt 0 0 slot 0 el
    ((s.freezeCtx el i).modCtxOf el i (fun c => { c with heldRecs := c.heldRecs ++ [r] })).settleHeld el i

/-- RETURN FROM A TRAP: one of the traps of an element's context is resolved; it runs again once none is left (R276, R306). -/
def State.resumeElem (s : State) (el i : Nat) : State :=
  s.modElem el (fun e =>
    if e.ctx.inst = some i then { e with frozen := { e.frozen with trap := e.frozen.trap - 1 } }
    else { e with saved := e.saved.map (fun (x : Nat × Ctx) => if x.2.inst = some i then (x.1, { x.2 with heldTraps := x.2.heldTraps - 1 }) else x) })

/-- One of the traps that hold a region's NSQ is handled (R276). -/
def State.unhold (s : State) (i : Nat) : State := s.modRegion i (fun v => { v with holds := v.holds - 1 })

/-- The ELEMID of a record of SRC 2 or 5: the NSQ's die alone (R273). -/
def State.nsqElem (s : State) (i : Nat) : Nat := match s.inst i with | some v => v.nsq / 8 * 2 ^ 25 | none => 0

end Sys2Proof.Machine
end

