-- ==== Sys2Proof/Machine/Observe.lean ====
section
/-!
DEFINITION. Observe.lean: where the accesses of the ordering machine stand and when they have performed at a scope (R224,
R226, R227).
-/
namespace Sys2Proof.Machine

/-- Every context of an element: the running one and the suspended ones. -/
def Elem.ctxs (e : Elem) : List Ctx := e.ctx :: e.saved.vals

/-- The accesses of a stream that are to leave its SQ: none while the stream is ended by a trap, until a resumption (R201, R278, R279, log 35). -/
def Gen.pending (g : Gen) : List Access := if g.failed then [] else g.sq

/-- The accesses in an element's EQs and SQs that are to leave them (R224). -/
def Elem.issued (e : Elem) : List Access := e.eq ++ e.ctxs.flatMap (fun c => c.mt.gens.vals.flatMap Gen.pending)

/-- The accesses kept in the SQs of streams that a trap has ended, until a resumption (R176, R279). -/
def Elem.kept (e : Elem) : List Access := e.ctxs.flatMap (fun c => c.mt.gens.vals.flatMap (fun g => if g.failed then g.sq else []))

/-- The stores an element's hold buffers keep (R177). -/
def Elem.heldStores (e : Elem) : List Access := e.ctxs.flatMap (fun c => c.mt.frame.held)

/-- The accesses in the IBs of a pseudo-channel (R224). -/
def Pch.ingress (p : Pch) : List Access := p.ibStd ++ p.ibNbl ++ p.ibBar ++ p.ibRem

/-- The ordinary accesses in a command queue (R239). -/
def Pch.queued (p : Pch) : List Access := p.cq.filterMap (fun c => match c with | .access a => some a | _ => none)

/-! ## Circuits -/

/-- The die of a Fjois port (R14). -/
def portDie (n : Nat) : Nat := [0, 1, 1, 2, 2, 3, 3, 7, 7, 11, 11, 15, 15, 14, 14, 13, 13, 12, 12, 8, 8, 4, 4, 0].getD n 16

/-- The MT to which a port's gateway links: on its module edge, the second attachment where the port before it is on the same die and edge (R14). -/
def attachMt (n : Nat) : Nat :=
  let edge := n / 6
  let second := n % 6 != 0 && portDie (n - 1) == portDie n
  let at_ := ([((31, 0), (33, 0)), ((63, 14), (63, 16)), ((32, 31), (30, 31)), ((0, 15), (0, 17))] : List ((Nat × Nat) × (Nat × Nat))).getD edge ((0, 15), (0, 17))
  let xy := if second then at_.2 else at_.1
  elemId .mt (portDie n) xy.1 xy.2

/-- Where an element's tile, or its gateway's attachment, lies in the module's grid of user tiles, with the links between the two (R2, R14); none for a
BN, which no tile link reaches (R19). -/
def elemAt (el : Nat) : Option (Nat × Nat × Nat) :=
  let tile := fun (e k : Nat) => (elDie e % 4 * 64 + elX e, elDie e / 4 * 32 + elY e, k)
  match elType el with
  | .bn => none
  | .gw => some (tile (attachMt (elX el)) 1)
  | _ => some (tile el 0)

/-- The distance between two numbers. -/
def gap (a b : Nat) : Nat := (a - b) + (b - a)

/-- The fewest tile links between two elements: a token takes at least one fc for each link it crosses (R341). -/
def hops (a b : Nat) : Nat :=
  match elemAt a, elemAt b with
  | some (x, y, j), some (u, v, k) => gap x u + gap y v + j + k
  | _, _ => 0

/-- The first leg of a circuit: to its input port, or to the MT that backs the channel. -/
def Circuit.firstHops (c : Circuit) : Nat :=
  match c.via, c.dst with
  | some (mt, _), _ => hops c.src mt
  | none, some d => hops c.src d
  | none, none => 0

/-- The head of a circuit's first leg is at its end (R226, R341). -/
def State.arrived (s : State) (c : Circuit) : Bool := c.flying.head?.any (fun t => decide (t.1 + c.firstHops ≤ s.now))

/-- The head of a channel's second leg is at the input port. -/
def State.passedOn (s : State) (c : Circuit) : Bool :=
  match c.via, c.dst with
  | some (mt, _), some d => c.passed.head?.any (fun t => decide (t.1 + hops mt d ≤ s.now))
  | _, _ => false

/-- Room for one more token on its way to an input port: its queue beside what the landing entries hold, and the landing entries of a frozen element
(R17). -/
def State.portRoom (s : State) (el j flying : Nat) : Bool :=
  let p := (s.elem el).ctx.ports
  let room := (4 - (p.inq.getD j []).length) + (if s.isFrozen el then 4 else 0) - (p.land.getD j []).length
  decide (flying < room)

/-- No link of a region that is frozen as a whole moves (R292). -/
def State.linksStopped (s : State) (i : Nat) : Bool := match s.region i with | some r => r.frozen | none => false

/-- Accesses that have left their issuer and not performed. -/
def State.travelling (s : State) : List Access :=
  s.pchs.vals.flatMap (fun p => p.ingress ++ p.queued) ++ s.spadq.vals.flatten ++ s.dies.vals.flatMap (fun d => d.wsq.vals.flatten)

/-- The 64-bit word at a cell. -/
def State.wordAt (s : State) (c : Nat × Nat) : W64 := BitVec.ofNat 64 (s.mem.dram.readN (cellAt c) 8)

/-- A WATCH has not yet read its word's present value (R204). -/
def FSlot.stale (s : State) (f : FSlot) : Bool :=
  match f.cell, f.stage with
  | some c, .going => bits f.act 0 8 == 0x0A && !f.faulted && s.wordAt c != f.operand
  | _, _ => false

/-- A mirror has not yet read its word's present value (R340). -/
def Mirror.stale (s : State) (m : Mirror) : Bool :=
  match m.cell with
  | some c => m.fault == 0 && m.seen != some (s.wordAt c)
  | none => false

/-- Some WATCH or mirror of the module has still to be offered a new value (R227, MOD). -/
def State.unoffered (s : State) : Bool :=
  s.insts.vals.any (fun v => v.slots.vals.any (FSlot.stale s) || v.mirrors.vals.any (Mirror.stale s))

/-- A write counts as scratchpad or signal write in R227's last column. -/
def Access.atBank (a : Access) : Bool :=
  a.tgt == .spad || (match a.kind with | .sigw _ => true | _ => false)

/-- An access that has left its issuer counts as pending at a scope until it has performed there: one that takes a value at every scope, a
scratchpad or signal write from SECT on, a DRAM write from DIE on (R227). -/
def Access.pendsAt (a : Access) (sc : Nat) : Bool := a.kind.takes || (decide (1 ≤ sc) && (decide (3 ≤ sc) || a.atBank))

/-- Some access that `p` picks has not performed at scope `sc`; stores in hold buffers count when `held` (R227). A remote access has performed at
every scope but DOM once it has entered its gateway circuit. -/
def State.pendingAt (s : State) (sc : Nat) (held : Bool) (p : Access → Bool) : Bool :=
  s.elems.vals.any (fun e => e.issued.any p || (held && decide (1 ≤ sc) && e.heldStores.any p))
  || s.travelling.any (fun a => p a && a.pendsAt sc)
  || (decide (4 ≤ sc) && s.unoffered)
  || (decide (5 ≤ sc) && s.dom.unacked.any (fun w => p w.acc))

/-- Some access that `p` picks waits in the SQ of a stream that a trap has ended: a SIGW, FNC or SBAR of the element waits for it (R176, R187). -/
def State.keptAt (s : State) (p : Access → Bool) : Bool := s.elems.vals.any (fun e => e.kept.any p)

/-- An access belongs to an element's instructions. -/
def Access.ofElem (el : Nat) (a : Access) : Bool :=
  match a.by_ with
  | .elem e _ _ _ => e == el
  | _ => false

/-- An access belongs to a generator of an element. -/
def Access.ofGens (el : Nat) (a : Access) : Bool :=
  match a.by_ with
  | .gen e _ => e == el
  | _ => false

/-- The outstanding accesses of an element and its generators, held stores excepted (R187). -/
def State.outstanding (s : State) (el : Nat) : List Nat :=
  let p := fun (a : Access) => a.ofElem el || a.ofGens el
  ((s.elems.vals.flatMap (fun e => (e.issued ++ e.kept).filter (fun a => p a && !a.held))) ++ s.travelling.filter p
    ++ (s.dom.unacked.map (fun w => w.acc)).filter p).map (fun a => a.id)

/-- A first-level lookup for a VA (R282). -/
def State.tlbHit (s : State) (el : Nat) (asid : BitVec 16) (va : Nat) : Bool := (tlbLookup (s.elem el).tlb asid va).isSome

/-- The root table of an instance. -/
def State.rootOf (s : State) (i : Nat) : Nat := match s.inst i with | some v => v.root | none => 0

/-- The PCH that holds a VA for an element: by its first-level TLB, else by the tables; none where they map nothing (R221). -/
def State.vaPch (s : State) (el : Nat) (asid : BitVec 16) (i va : Nat) : Option Nat :=
  match tlbLookup (s.elem el).tlb asid va with
  | some t => some (leafCell t.size t.pte va).2.1
  | none => (match s.walk va 0 (s.rootOf i) 4 with
    | .leaf size e => some (leafCell size e va).2.1
    | .fault _ => none)

/-- An access occupies a miss entry of its stream: it waits for a walk or a fault, or will miss when it leaves (R282). -/
def State.missing (s : State) (el : Nat) (a : Access) : Bool :=
  a.tgt == .dram && (match a.xlat with
    | .walking | .faulted => true
    | .untried => !s.tlbHit el a.asid a.va
    | .done => false)

/-- The miss entries in use of an element's own instructions (R183, R282). -/
def State.elemMisses (s : State) (el : Nat) : Nat := ((s.elem el).eq.filter (s.missing el)).length

/-- The miss entries in use of a generator (R175, R282). -/
def State.genMisses (s : State) (el g : Nat) : Nat := ((s.gen el g).pending.filter (s.missing el)).length

end Sys2Proof.Machine
end

