-- ==== Sys2Proof/Machine/Srg.lean ====
section
/-!
DEFINITION. Srg.lean: generator descriptors (R173, R174, R241) and the special registers of every element type (R100, R101,
R163, R175, R177, R180-R182, R188, R190).
-/
namespace Sys2Proof.Machine

/-- BASE of a descriptor. -/
def dBase (d : W256) : Nat := (bits d 0 56).toNat
/-- STRn of a descriptor, signed bytes. -/
def dStr (d : W256) (n : Nat) : Int := (bits d (56 + 40 * n) 24).toInt
/-- EXTn of a descriptor. -/
def dExt (d : W256) (n : Nat) : Nat := (bits d (80 + 40 * n) 16).toNat
/-- ESZ in bytes. -/
def dEsz (d : W256) : Nat := 4 * 2 ^ (bits d 216 2).toNat
/-- DIR: a write stream. -/
def dWrite (d : W256) : Bool := d.getLsbD 218
/-- TGT. -/
def dTgt (d : W256) : Nat := (bits d 219 3).toNat
/-- BURST, in tokens. -/
def dBurst (d : W256) : Nat := 2 ^ (bits d 222 4).toNat
/-- DCX. -/
def dDcx (d : W256) : Bool := d.getLsbD 226
/-- HOLD. -/
def dHold (d : W256) : Bool := d.getLsbD 227
/-- PORT. -/
def dPort (d : W256) : Nat := (bits d 228 2).toNat
/-- FTR. -/
def dFtr (d : W256) : BitVec 3 := bits d 230 3
/-- FRM. -/
def dFrm (d : W256) : Bool := d.getLsbD 234
/-- DEVID. -/
def dDev (d : W256) : Nat := (bits d 235 10).toNat

/-- The number of elements of a stream. -/
def dCount (d : W256) : Nat := dExt d 0 * dExt d 1 * dExt d 2 * dExt d 3

/-- The byte address of a stream's n-th element, modulo 2^56 (R174). -/
def dAddr (d : W256) (n : Nat) : Nat :=
  let i0 := n % dExt d 0
  let n := n / dExt d 0
  let i1 := n % dExt d 1
  let n := n / dExt d 1
  let i2 := n % dExt d 2
  let i3 := n / dExt d 2
  (((dBase d : Int) + i0 * dStr d 0 + i1 * dStr d 1 + i2 * dStr d 2 + i3 * dStr d 3) % (2 ^ 56 : Int)).toNat

/-- A descriptor is valid for an element type (R174, R241). -/
def descOk (t : ElemType) (d : W256) : Bool :=
  let esz : Int := dEsz d
  (bits d 245 11 == 0) && !d.getLsbD 233
  && (List.range 4).all (fun n => dExt d n != 0 && dStr d n % esz == 0)
  && ((dBase d : Int) % esz == 0) && decide (dTgt d < 4) && decide ((bits d 222 4).toNat ≤ 6)
  && (if t = .bn then dTgt d == 1 && !dHold d && !dDcx d
      else (!(dWrite d && (dTgt d == 1 || dTgt d == 3)) || dHold d)
        && !(dHold d && (!dWrite d || dTgt d == 0 || dTgt d == 2))
        && !(dDcx d && (dWrite d || dEsz d != 32))
        && !(dTgt d == 2 && dWrite d))

/-- STATE of GSTAT (R175). -/
def GenState.code : GenState → Nat
  | .idle => 0 | .running => 1 | .suspended => 2 | .faulted => 3 | .done => 4

/-- GSTATg (R175). -/
def State.gstat (s : State) (el g : Nat) : Nat :=
  let v := s.gen el g
  (if v.dv then (dCount v.desc - v.done) % 2 ^ 48 else 0) * 2 ^ 16 + s.genMisses el g * 256 + (if v.dv then 8 else 0) + v.state.code

/-- MODE of MSTAT (R163). -/
def AccMode.code : AccMode → Nat
  | .zeroed => 0 | .float => 1 | .integer => 2

/-- A bank is unsettled (R157). -/
def AccBank.unsettled (b : AccBank) : Bool := b.settles.isSome

/-- The MSTAT word of a bank (R163). -/
def AccBank.mstat (b : AccBank) : Nat :=
  b.mode.code * 2 ^ 38 + (if b.ovf then 2 ^ 37 else 0) + (if b.unsettled then 2 ^ 36 else 0) + b.part % 4 * 2 ^ 34 + b.rmask.toNat

/-- HSTAT (R177): IVEC [63:16], CNT, OPEN. -/
def Frame.hstat (f : Frame) : Nat := f.ivec.toNat * 2 ^ 16 + f.held.length * 2 + (if f.opened then 1 else 0)

/-- A DCX stream is running (R180). -/
def MtPart.dcxBusy (m : MtPart) : Bool := m.gens.vals.any (fun g => dDcx g.desc && g.state == .running)

/-- DCXST (R180). -/
def MtPart.dcxst (m : MtPart) : Nat :=
  m.dcx.blks.toNat * 2 ^ 16 + (if m.dcxBusy then 512 else 0) + (if m.dcx.ftsrc then 256 else 0) + m.dcx.ver.toNat

/-- A queue of a memory tile. -/
def MtPart.queue (m : MtPart) (q : Nat) : MtQueue := m.queues.getD q .reset

/-- QPTRq (R181). -/
def MtQueue.qptr (q : MtQueue) : Nat := q.segs % 256 * 2 ^ 32 + q.count % 2 ^ 16 * 2 ^ 16 + q.head

/-- The fc that remain of a pseudo-channel's back-off, saturating. -/
def State.backoffLeft (s : State) (p : Nat) : Nat :=
  match (s.pch p).backoff with
  | some t => min ((t + 4) / 5 - s.now) 65535
  | none => 0

/-- The offset of the present fc within a stack's refresh interval (R265). -/
def State.refPhase (s : State) (die : Nat) : Nat := (s.now + (s.die die).phase) % 6240

/-- A run holds a pseudo-channel. -/
def Pch.active (p : Pch) : Bool := p.run.isSome

/-- The occupied entries of a command queue: those that wait, the run or the closing access that holds its head, and a refresh that is due or in
service (R239, R342). -/
def State.depth (s : State) (p : Nat) : Nat :=
  let c := s.pch p
  c.cq.length + (match c.run with | some r => if r.ended.isNone then 1 else 0 | none => 0) + (if c.refDue || c.refEnd.isSome then 1 else 0)
    + (if 5 * s.now < c.closing then 1 else 0)

/-- PCHST.PWR (R188): refreshing, or the power state. -/
def Pch.pwrCode (p : Pch) : Nat := if p.refEnd.isSome then 3 else p.pwr

/-- PCHST (R188). -/
def State.pchst (s : State) (p : Nat) : Nat :=
  let c := s.pch p
  s.refPhase (p / 64) * 2 ^ 33 + (if c.limit.isSome then 2 ^ 32 else 0) + s.backoffLeft p * 2 ^ 16 + s.depth p % 256 * 256
    + c.saved.length % 4 * 8 + (if c.active then 4 else 0) + c.pwrCode

/-- CSTAT of a gateway (R190). -/
def State.cstat (s : State) (el : Nat) : Nat :=
  let bound := (s.elem el).ctx.gw.circs.vals.filterMap (fun c => c.bound)
  let cs := bound.filterMap (fun c => s.colls.find? c)
  let abrt := cs.any (fun c => match c.stage with | .aborted _ => true | _ => false)
  let paused := cs.any (fun c => c.paused || !c.pausedBy.isEmpty)
  (if s.dom.members.isEmpty then 0 else s.dom.gen % 256 * 256) + (if abrt then 2 else 0) + (if paused then 1 else 0)

/-- COLLST of a gateway (R318). -/
def State.collst (s : State) (el : Nat) : Nat :=
  match ((s.elem el).ctx.gw.circs.vals.filterMap (fun c => c.bound.bind (fun k => s.colls.find? k))).find? (fun c => c.stage == .bound) with
  | some c => c.num % 2 ^ 16 * 2 ^ 48 + c.step % 2 ^ 16 * 2 ^ 32 + c.lease.toNat * 2 ^ 16 + c.bound % 4 * 256 + 1
  | none => 0

/-- DBGCTL's readable bits. -/
def dbgMask : W32 := 3

/-- A special register as RDSR reads it (R100, R105). CYCLE counts from the reset of the element's own die (log 6). -/
def State.readSrg (s : State) (el i : Nat) : Nat :=
  let c := (s.elem el).ctx
  let r := c.regs
  match i with
  | 0 => el
  | 1 => r.stage.toNat
  | 2 => r.asid.toNat
  | 3 => r.fcnt.toNat
  | 4 => (s.now + (s.die (elDie el)).phase) % 2 ^ 64
  | 5 => r.p.toNat
  | 6 => r.fmttab.toNat
  | 7 => r.srng.toNat
  | 8 => r.dbgctl.toNat
  | _ =>
    if 0x0C ≤ i ∧ i ≤ 0x0F then (r.evc.getD (i - 0x0C) 0).toNat
    else if 0x10 ≤ i ∧ i ≤ 0x1C then (r.stall.getD i 0).toNat
    else match elType el with
    | .ce =>
      if i = 0x40 then c.mxu.a0.mstat
      else if i = 0x41 then c.mxu.a1.mstat
      else if i = 0x42 then c.mxu.brem * 256 + c.mxu.arem
      else if i = 0x43 then (match s.sectOf el with
        | some (n, sid) => (match s.sect n sid with | some x => x.cur | none => 0)
        | none => 0)
      else 0
    | .mt =>
      if 0x40 ≤ i ∧ i ≤ 0x43 then s.gstat el (i - 0x40)
      else if i = 0x44 then c.mt.frame.hstat
      else if i = 0x45 then c.mt.dcxst
      else if 0x48 ≤ i ∧ i ≤ 0x4B then (c.mt.queue (i - 0x48)).cfg.toNat
      else if 0x4C ≤ i ∧ i ≤ 0x4F then (c.mt.queue (i - 0x4C)).qptr
      else if i = 0x50 then c.mt.spbase.toNat
      else if i = 0x51 then c.mt.spsize.toNat
      else 0
    | .bn => if i = 0x40 then s.pchst (bnPch el) else 0
    | .gw => if i = 0x40 then s.cstat el else if i = 0x41 then s.collst el else 0

/-- A write of a special register at completion (R99, R100, R181). An accepted write of QCFGq leaves QPTRq.HEAD at the new BASE: the ring is empty, and
R181 gives HEAD an image value only (log 59). -/
def State.writeSrg (s : State) (el i : Nat) (v : W256) : State :=
  if i = 5 then s.modRegs el (fun r => { r with p := bits v 0 8 })
  else if i = 8 then s.modRegs el (fun r => { r with dbgctl := bits v 0 32 &&& dbgMask })
  else if 0x0C ≤ i ∧ i ≤ 0x0F then s.modRegs el (fun r => { r with evc := r.evc.put (i - 0x0C) (bits v 0 32) })
  else if 0x10 ≤ i ∧ i ≤ 0x1C then s.modRegs el (fun r => { r with stall := r.stall.put i (bits v 0 32), written := i :: r.written })
  else if elType el = .mt ∧ 0x48 ≤ i ∧ i ≤ 0x4B then
    s.modMt el (fun m =>
      let q := m.queue (i - 0x48)
      if q.count ≠ 0 ∨ q.cfg.getLsbD 37 = true then m
      else
        let q := { q with cfg := (q.cfg >>> 28 <<< 28) ||| (bits v 0 28).setWidth 64, head := (bits v 0 14).toNat }
        { m with queues := m.queues.put (i - 0x48) q })
  else s

end Sys2Proof.Machine
end

