-- ==== Sys2Proof/Machine/Ready.lean ====
section
/-!
DEFINITION. Ready.lean: the readiness of a slot (R39, R42, R44, R98) as the first condition that fails, in the order of
R46 and under its counter's index (R100); none when the slot is ready.
-/
namespace Sys2Proof.Machine

/-- The head of an input port's queue. -/
def Ports.head (p : Ports) (j : Nat) : Option Token := (p.inq.getD j []).head?

/-- The head of an input port as IC 010 sees it: tokens that came while an index was on its way are not seen (R44). -/
def Ports.seesHead (p : Ports) (j : Nat) : Bool := decide (p.late.getD j 0 < (p.inq.getD j []).length)

/-- The value an operand selector reads (R69); n is 0, 1, 2 for opA, opB, opC. -/
def Ctx.selValue (c : Ctx) (o : Op) (x : Slot) (n : Nat) (l : Sel) : W256 :=
  selectValue l x.imm c.regs.k0 c.regs.k1 (operandWidth o x c.regs.fmttab n) (operandUnsigned o x)
    (fun d => c.regs.d.getD d 0) c.ports.head

/-- The head a selector names. -/
def Ctx.selHead (c : Ctx) (l : Sel) : Option Token := (selPort l).bind c.ports.head

/-- The operands of a slot as they stand (R40). -/
def Ctx.opnds (c : Ctx) (o : Op) (x : Slot) : Opnds :=
  { a := if readsA o x then c.selValue o x 0 x.sa else 0
    b := if readsB o x then c.selValue o x 1 x.sb else 0
    c := if readsC o x then c.selValue o x 2 x.sc else 0
    ta := c.selHead x.sa, tb := c.selHead x.sb, tc := c.selHead x.sc
    p := c.regs.p, fmttab := c.regs.fmttab, srng := c.regs.srng
    k := if slotM6 x then c.regs.k1 else c.regs.k0 }

/-- A control lane is nonzero (R97). -/
def control (x : Slot) (v : W256) : Bool := lane (slotW x) v 0 != 0

/-- The ports a slot reads at issue: all it names, for MERGE the control's and the chosen one's (R116). -/
def Ctx.portsRead (c : Ctx) (o : Op) (x : Slot) : List Nat :=
  if o = .merge then
    [if control x (c.selValue o x 2 x.sc) then x.sb else x.sa, x.sc].filterMap selPort
  else (usedSels o x).filterMap selPort

/-- The ports a slot pops at issue (R40, R116). -/
def Ctx.portsPopped (c : Ctx) (o : Op) (x : Slot) : List Nat :=
  let l := (List.range 4).filter (fun j => x.pop.getLsbD j)
  if o = .merge then l.filter (fun j => (c.portsRead o x).contains j) else l

/-- An input condition holds (R39). -/
def icHolds (p : Ports) (j : Nat) (i : PortCond) : Bool :=
  match i with
  | .any => true
  | .present => (p.head j).isSome
  | .empty => !p.seesHead j
  | .isData => (p.head j).any (fun t => t.ct == .data)
  | .isHead => (p.head j).any (fun t => t.ct == .head)
  | .isTail => (p.head j).any (fun t => t.ct == .tail)
  | .isStop => (p.head j).any (fun t => t.ct == .stop)

/-- The head of a formatted operand's port carries another format (R42). An empty port is no mismatch. -/
def ftMismatch (c : Ctx) (o : Op) (x : Slot) (j : Nat) : Bool :=
  opFormatted o && (usedSels o x).any (fun l => selPort l == some j)
  && (c.ports.head j).any (fun t => t.ft.toNat != slotF x)

/-- A generator owns a port: it is running, suspended or faulted with that port (R175). -/
def genOwns (m : MtPart) (write : Bool) (j : Nat) : Bool :=
  m.gens.vals.any (fun g => (g.state == .running || g.state == .suspended || g.state == .faulted)
    && dWrite g.desc == write && dPort g.desc == j)

/-- MERGE's control or chosen port holds no head (R116). -/
def mergeLacks (c : Ctx) (o : Op) (x : Slot) (j : Nat) : Bool :=
  o == .merge && (c.ports.head j).isNone
  && (selPort x.sc == some j
      || ((selPort x.sc).all (fun q => (c.ports.head q).isSome) && (c.portsRead o x).contains j))

/-- Input port j holds the slot back. -/
def portWaits (c : Ctx) (o : Op) (x : Slot) (j : Nat) : Bool :=
  !icHolds c.ports j (slotIc x j) || ftMismatch c o x j || mergeLacks c o x j
  || (((c.portsPopped o x).contains j || (c.portsRead o x).contains j) && genOwns c.mt true j)

/-- The free entries of an output port's staging (R39). -/
def freeEntries (p : Ports) (j : Nat) : Nat := 2 - (p.outq.getD j []).length

/-- Output port j holds the slot back. -/
def roomWaits (c : Ctx) (o : Op) (x : Slot) (j : Nat) : Bool :=
  (((writePorts o x).contains j || x.room.getLsbD j) && decide (freeEntries c.ports j = 0))
  || ((writePorts o x).contains j && genOwns c.mt false j)

/-- The predicates whose pending delivery holds a slot back (R39, R107). -/
def pendMask (o : Op) (x : Slot) : BitVec 8 :=
  x.pcare ||| x.pset ||| x.pclr
  ||| (match x.pres with | some n => 1#8 <<< n.val | none => 0)
  ||| (if o = .plog then (1#8 <<< immBits x 4 3) ||| (1#8 <<< immBits x 8 3) else 0)
  ||| (if x.dst = .srg ∧ slotSrg x = 5 then 0xFF else 0)

/-- A register or counter that the slot reads or writes is pending (R39, R98). -/
def regPending (r : Regs) (o : Op) (x : Slot) : Bool :=
  (usedSels o x).any (fun l => match l with
    | .d n => r.pendD.getLsbD n.val
    | .k0 => r.pendK.getLsbD 0
    | .k1 => r.pendK.getLsbD 1
    | _ => false)
  || (match x.dst with
      | .d n => r.pendD.getLsbD n.val
      | .k => r.pendK.getLsbD (if slotM6 x then 1 else 0)
      | _ => false)

/-- The matrix steps (R157). -/
def isStep (o : Op) : Bool := o == .mma || o == .mmaz || o == .mmsp || o == .mmv

/-- The bank that MOD[0] names. -/
def Mxu.bank (m : Mxu) (b : Bool) : AccBank := if b then m.a1 else m.a0

/-- A matrix instruction waits for a bank to settle, or a step for the throttle window (R157, R335). -/
def matrixWaits (s : State) (m : Mxu) (o : Op) (x : Slot) : Bool :=
  match o with
  | .accr | .accw | .accz | .accs | .trns | .mstat => (m.bank (x.mod.getLsbD 0)).unsettled
  | .acca | .mdrn | .mtest => m.a0.unsettled || m.a1.unsettled
  | _ => isStep o && decide (s.now % 16 < s.bar.levelIn)

/-- The queue that QAPP or QTAK names. -/
def slotQueue (c : Ctx) (x : Slot) : MtQueue := c.mt.queue (bits x.mod 0 2).toNat
/-- SIZE of a queue. -/
def MtQueue.size (q : MtQueue) : Nat := (bits q.cfg 14 14).toNat
/-- EXT of a queue. -/
def MtQueue.ext (q : MtQueue) : Bool := q.cfg.getLsbD 36
/-- A queue holds as many tokens as its ring and its linked segments, of 128 tokens each, can (R51, R181). -/
def MtQueue.full (q : MtQueue) : Bool := decide (q.size + 128 * q.segs ≤ q.count)

/-- The generator a generator instruction names. -/
def slotGen (x : Slot) : Nat := (bits x.mod 0 2).toNat

/-- A generator is running or suspended. -/
def Gen.busy (g : Gen) : Bool := g.state == .running || g.state == .suspended

/-- An access of this address would take a fifth miss entry (R183, R282). -/
def missWaits (s : State) (el : Nat) (c : Ctx) (a : W256) : Bool :=
  !a.getLsbD 95 && !s.tlbHit el c.regs.asid (bits a 0 56).toNat && decide (4 ≤ s.elemMisses el)

/-- A BN's access to its own PCH finds the command queue full, and a slot is not ready (R239). The PCH of an access is that of its VA's leaf. -/
def queueWaits (s : State) (el : Nat) (c : Ctx) (a : W256) : Bool :=
  elType el == .bn && !a.getLsbD 95 && s.vaPch el c.regs.asid (c.inst.getD 0) (bits a 0 56).toNat == some (bnPch el) && decide (64 ≤ s.depth (bnPch el))

/-- What an instruction of classes 0x9 and 0xA waits for beside its unit (R171-R187). -/
def memoryWaits (s : State) (el : Nat) (c : Ctx) (o : Op) (x : Slot) : Bool :=
  let a := c.selValue o x 0 x.sa
  (!c.mt.fences.isEmpty) ||
  (match o with
   | .gset | .grun => (c.mt.gen (slotGen x)).busy || (o == .grun && !c.coming.isEmpty)
   | .cmit => (c.mt.frame.opened && c.mt.gens.vals.any (fun g => g.framed && dHold g.desc && dWrite g.desc && g.busy))
              || (s.elem el).eq.any (fun v => v.held)
   | .dcxc => c.mt.dcxBusy
   | .qapp => (slotQueue c x).full && !(slotQueue c x).ext
   | .qtak => decide ((slotQueue c x).count = 0)
   | .gld | .gst | .gatm => missWaits s el c a || queueWaits s el c a
   | .sigr => missWaits s el c a
   | .nbq | .nbr => decide (64 ≤ s.depth (bnPch el))
   | .wsld => (match c.mt.wsDraw with | some t => decide (s.now < t + 6) | none => false)
   | .sigw => missWaits s el c a || !c.mt.frame.held.isEmpty
              || s.pendingAt (bits x.mod 0 3).toNat false (fun v => v.ofElem el || v.ofGens el) || s.keptAt (Access.ofGens el)
   | _ => false)

/-- The collective instance bound on the circuit a gateway instruction names. -/
def slotCirc (c : Ctx) (x : Slot) : Option GwCircuit := c.gw.circs.find? (bits x.mod 0 6).toNat

/-- A collective instance has aborted (R343). -/
def Coll.isAborted (c : Coll) : Bool := match c.stage with | .aborted _ => true | _ => false
/-- A collective instance is paused, by itself or by a peer (R321). -/
def Coll.isPaused (c : Coll) : Bool := c.paused || !c.pausedBy.isEmpty

/-- What a gateway instruction waits for (R190). -/
def gatewayWaits (s : State) (c : Ctx) (o : Op) (x : Slot) : Bool :=
  match slotCirc c x with
  | none => true
  | some g =>
    match g.bound with
    | none => true
    | some k =>
      match s.colls.find? k with
      | none => o != .cbar
      | some v =>
        if o = .cbar ∨ v.isAborted = true then false
        else if o = .csnd then v.isPaused || decide (g.credits = 0) || !s.maySend g.peer g.circ
        else v.isPaused || g.got.isEmpty

/-- Everything counted SCFU: the unit, and the waits that an instruction's own rule names (R46, R98). -/
def unitWaits (s : State) (el : Nat) (c : Ctx) (o : Op) (x : Slot) : Bool :=
  decide (s.now < c.busy.getD (opUnit o).idx 0)
  || (match opClass o with
      | 8 => matrixWaits s c.mxu o x
      | 9 => memoryWaits s el c o x
      | 10 => memoryWaits s el c o x
      | 11 => gatewayWaits s c o x
      | _ => false)

/-- The first condition of R46 that fails for a slot on a context, the chain left out. -/
def slotWait (s : State) (el : Nat) (c : Ctx) (o : Op) (x : Slot) : Option Nat :=
  if (c.regs.p ^^^ x.pval) &&& x.pcare != 0 then some 0x10
  else if c.regs.pend &&& pendMask o x != 0 || regPending c.regs o x then some 0x11
  else match (List.range 4).find? (portWaits c o x) with
  | some j => some (0x12 + j)
  | none =>
    match (List.range 4).find? (roomWaits c o x) with
    | some j => some (0x16 + j)
    | none => if unitWaits s el c o x then some 0x1A else none

/-- The valid slot n of an element's running configuration, decoded. INVL is none: it is never ready (R76). -/
def Elem.slotAt (e : Elem) (n : Nat) : Option (Op × Slot) :=
  match e.rec? with
  | none => none
  | some r =>
    if r.hdr.getLsbD (96 + n) then
      match r.slots.find? n with
      | some w => (match decodeSlot w with | .ok d => some d | .error _ => none)
      | none => none
    else none

/-- Ports with the heads of some ports taken off (R40). -/
def Ports.pops (p : Ports) (l : List Nat) : Ports :=
  { p with inq := l.foldl (fun q j => q.put j (q.getD j []).tail) p.inq,
           late := l.foldl (fun q j => q.put j (min (q.getD j 0) ((p.inq.getD j []).length - 1))) p.late }

/-- Ports with one entry reserved in each of some output ports (R40). -/
def Ports.reserve (p : Ports) (l : List Nat) (f : Nat) : Ports :=
  { p with outq := l.foldl (fun q j => q.put j (q.getD j [] ++ [{ firing := f, tok := none }])) p.outq }

/-- The issue effects of R40 on a context, the firing numbered `f`; FCNT is counted apart. -/
def Ctx.issueEffects (c : Ctx) (o : Op) (x : Slot) (f : Nat) : Ctx :=
  let r := c.regs
  { c with
    ports := (c.ports.pops (c.portsPopped o x)).reserve (writePorts o x) f
    regs := { r with
      p := (r.p &&& ~~~x.pclr) ||| x.pset
      pend := (match x.pres with | some n => r.pend ||| (1#8 <<< n.val) | none => r.pend)
      pendD := (match x.dst with | .d n => r.pendD ||| (1#8 <<< n.val) | _ => r.pendD)
      pendK := (match x.dst with | .k => r.pendK ||| (1#2 <<< (if slotM6 x then 1 else 0)) | _ => r.pendK) } }

/-- A follower's context with the indices on its way applied (R44). -/
def Elem.projected (e : Elem) : Ctx :=
  e.ctx.coming.foldl (fun c i => match e.slotAt i.1 with | some (o, x) => c.issueEffects o x 0 | none => c) e.ctx

/-- A TICK, an MTEST in flight, or a CMIT that goes on after a restoration keeps the picker from issuing (R109, R168, R286). -/
def Ctx.idled (c : Ctx) : Bool := c.tick != 0 || c.flights.any (fun f => f.op == .mtest) || c.mt.frame.resumed

/-- A GRUN is on its way to a follower: until it has fired, no other index is sent there, so that it takes its port with none on its way (R44). -/
def Elem.grunComing (e : Elem) : Bool :=
  e.ctx.coming.any (fun i => match e.slotAt i.1 with | some (o, _) => o == .grun | none => false)

/-- A follower shows a slot ready, and nothing that should have fired there is owed: indices that a freeze has held fire before the head issues again
(R44). -/
def State.showsReady (s : State) (el n : Nat) : Bool :=
  let e := s.elem el
  !s.isFrozen el && e.ctx.coming.all (fun i => decide (s.now ≤ i.2)) && !e.ctx.idled && !e.grunComing
  && (match e.slotAt n with | some (o, x) => (slotWait s el e.projected o x).isNone | none => false)

/-- The first condition of R46 that fails for slot n of an element; none when it is ready (R39). -/
def State.waits (s : State) (el n : Nat) (o : Op) (x : Slot) : Option Nat :=
  match slotWait s el (s.elem el).ctx o x with
  | some r => some r
  | none => if (s.led el).all (fun f => s.showsReady f.1 n) then none else some 0x1B

end Sys2Proof.Machine
end

