-- ==== Sys2Proof/Machine/Fire.lean ====
section
/-!
DEFINITION. Fire.lean: issuing a slot and completing its firing (R40, R41, R44), once for every element instruction: an
instruction supplies what it computes and what it does beside the effects of R40.
-/
namespace Sys2Proof.Machine

/-- A firing as its instruction sees it at issue. -/
structure Firing where
  el   : Nat
  slot : Nat
  id   : Nat
  fcnt : BitVec 48
  deriving DecidableEq, Repr

/-- What an instruction does at issue beside R40: its outcome, its latency (none while it waits for memory or peers), its
unit's issue interval, what its completion does, its own effects, and a trap that follows the issue effects (R275). -/
structure Act where
  out   : PureOut := {}
  lat   : Option Nat := some 1
  busy  : Nat := 1
  fin   : Finish := .plain
  eff   : State → State := id
  after : Option TrapReq := none

/-- An instruction at issue: the trap it raises, or what it does. -/
abbrev ActFn := State → Firing → Opnds → Except TrapReq Act

/-- The lowest-numbered input port that a slot reads or pops and that holds no token (R41, log 29). -/
def Ctx.emptyPort (c : Ctx) (o : Op) (x : Slot) : Option Nat :=
  (List.range 4).find? (fun j => (c.ports.head j).isNone && ((c.portsRead o x).contains j || (c.portsPopped o x).contains j))

/-- The entry element of a section notes the invocation that a HEAD it consumes begins (R27, R277). -/
def State.noteHead (s : State) (el : Nat) (l : List Nat) : State :=
  let e := s.elem el
  match e.rec?, s.sectOf el, l.find? (fun j => (e.ctx.ports.head j).any (fun t => t.ct == .head)) with
  | some r, some (i, sid), some j =>
    if r.hdr.getLsbD 7 then
      match e.ctx.ports.head j with
      | some t => s.modSect i sid (fun v => { v with ivec := bits t.data 0 48 })
      | none => s
    else s
  | _, _, _ => s

/-- The head of a chain sends the index it issues to its followers (R44). -/
def State.sendIndex (s : State) (el k : Nat) : State :=
  match s.leader el with
  | some _ => s.modCtx el (fun c => { c with coming := c.coming.tail })
  | none => (s.led el).foldl
      (fun s f => s.modCtx f.1 (fun c => { c with coming := c.coming ++ [(k, s.now + f.2)] })) s

/-- The result a firing carries: the instruction's, or a free value where an instruction without a result emits a token
through OUTM (log 16). -/
def State.resultOf (s : State) (o : Op) (x : Slot) (v : W256) : W256 × State :=
  if opDst o = .result ∨ writePorts o x = [] then (v, s) else s.freeVal

/-- The effects of R40 and the instruction's own, in that order; the firing is in flight. -/
def State.issueFiring (s : State) (o : Op) (x : Slot) (f : Firing) (a : Act) : State :=
  let c := (s.elem f.el).ctx
  let r := s.resultOf o x a.out.val
  let v := r.1
  let s := r.2
  let s := s.noteHead f.el (c.portsPopped o x)
  let s := s.sendIndex f.el f.slot
  let s := { s with nextId := f.id + 1 }
  let s := s.modCtx f.el (fun c =>
    let c := c.issueEffects o x f.id
    { c with
      regs := { c.regs with fcnt := f.fcnt, srng := a.out.srng.getD c.regs.srng }
      busy := c.busy.put (opUnit o).idx (s.now + a.busy)
      flights := c.flights ++ [{ id := f.id, slot := f.slot, fcnt := f.fcnt, op := o, x, due := a.lat.map (s.now + ·), val := v,
                                 rc := a.out.rc, ports := a.out.ports.getD (writePorts o x),
                                 tags := a.out.tags.getD (x.tago, x.fto), fin := a.fin }] })
  let s := a.eff s
  match a.after with
  | some t => (if t.code = 0x12 then s.bump 4 else s).trapElem f.el f.slot f.fcnt t
  | none => s

/-- Issue a slot: PORTEMPTY and the instruction's own traps at issue leave every issue effect undone (R41, R275). -/
def State.issue (s : State) (o : Op) (x : Slot) (el k : Nat) (g : ActFn) : State :=
  let c := (s.elem el).ctx
  let f : Firing := { el, slot := k, id := s.nextId, fcnt := c.regs.fcnt + 1 }
  match c.emptyPort o x with
  | some j => s.trapElem el k f.fcnt { code := 0x02, cause := 0, info := BitVec.ofNat 64 j }
  | none =>
    match g s f (c.opnds o x) with
    | .error t => s.trapElem el k f.fcnt t
    | .ok a => s.issueFiring o x f a

/-- The B fc that a CSLOT gives the collective shadow which an element runs are over: it issues no more (R206, R323). -/
def State.shadowOver (s : State) (el : Nat) : Bool :=
  (s.elem el).run == 2 && (match s.sectOf el with
    | some (i, sid) => (match s.inst i with
      | some v => v.slots.vals.any (fun f => f.code == 0x10 && f.tgt == sid && f.deadline.any (fun t => decide (t ≤ s.now)))
      | none => false)
    | none => false)

/-- Slot k of an element may issue now: it is ready, and the element is neither frozen nor idled nor past its CSLOT; a follower fires only the
index that has arrived, with those behind it still on their way (R39, R44). -/
def State.mayIssue (s : State) (el k : Nat) (o : Op) (x : Slot) : Bool :=
  let c := (s.elem el).ctx
  !s.isFrozen el && !c.idled && !(c.coming.isEmpty && s.shadowOver el)
  && (match s.leader el with
      | some _ => c.coming.head?.any (fun i => i.1 == k && decide (i.2 ≤ s.now)) && (slotWait s el { c with coming := c.coming.tail } o x).isNone
      | none => (s.waits el k o x).isNone)

/-- An element instruction: it issues where the focus is its slot and it is ready; otherwise nothing happens. -/
def fire (o : Op) (x : Slot) (s : State) (g : ActFn) : Host.Outcome State Fault Refusal :=
  match s.focus with
  | .elem el k => if s.mayIssue el k o x then .next (s.issue o x el k g) else .next s
  | _ => .next s

/-- The lanes an instruction of classes 5 and 6 works on (R132). -/
def slotLanes (o : Op) (x : Slot) (t : W64) : Nat := if opClass o = 5 ∨ opClass o = 6 then (fmtAt t (slotF x)).lanes else 8

/-- The tags under KEEP: those of the head opA reads, where the instruction gives none itself (R72). -/
def keptTags (o : Op) (x : Slot) (v : Opnds) (r : PureOut) : PureOut :=
  if keepsTags o x && r.tags.isNone then { r with tags := v.ta.map (fun t => (t.ct, t.ft)) } else r

/-- An instruction that is a value of its operands, with the latency and interval of its class. -/
def pureAct (o : Op) (x : Slot) (f : PureFn) : ActFn := fun _ _ v =>
  match f x v with
  | .error t => .error t
  | .ok r => .ok { out := keptTags o x v r, lat := some (opLat o x (slotLanes o x v.fmttab)), busy := opBusy o x (slotLanes o x v.fmttab) }

/-- Issue such an instruction. -/
def firePure (o : Op) (x : Slot) (s : State) (f : PureFn) : Host.Outcome State Fault Refusal := fire o x s (pureAct o x f)

/-- Fill a firing's reserved entry with a token, or release it (R40). -/
def fillEntry (q : List OutEntry) (f : Nat) (t : Option Token) : List OutEntry :=
  match q with
  | [] => []
  | e :: q => if e.firing = f ∧ e.tok = none then
      (match t with | some t => { e with tok := some t } :: q | none => q)
    else e :: fillEntry q f t

/-- The ports after a firing's tokens have been placed and its unused reservations released. -/
def Ports.fill (p : Ports) (f : Flight) : Ports :=
  let t : Token := { ct := f.tags.1, ft := f.tags.2, data := f.val }
  let step := fun (q : Tab (List OutEntry)) j =>
    q.put j (fillEntry (q.getD j []) f.id (if f.ports.contains j then some t else none))
  { p with outq := (writePorts f.op f.x).foldl step p.outq }

/-- A head retagged in place (R114). -/
def Ports.retag (p : Ports) (j : Nat) (g : Token → Token) : Ports :=
  { p with inq := p.inq.put j (match p.inq.getD j [] with | t :: l => g t :: l | [] => []) }

/-- What a completion does beside its result (R57, R61, R114). -/
def Ctx.finish (c : Ctx) : Finish → Ctx
  | .plain => c
  | .mtest => c
  | .fmttab f b => { c with regs := { c.regs with fmttab := (c.regs.fmttab &&& ~~~((0xFF#64) <<< (8 * f))) ||| ((b.setWidth 64) <<< (8 * f)) } }
  | .seed v => { c with regs := { c.regs with srng := if v = 0 then 1 else v } }
  | .retagCt j t => { c with ports := c.ports.retag j (fun h => { h with ct := t }) }
  | .retagFt j t => { c with ports := c.ports.retag j (fun h => { h with ft := t }) }

/-- A firing's result reaches its register or counter, and its pending state clears (R40, R99); an ARM's load of K0 in the same fc stands (R106). -/
def Regs.land (r : Regs) (f : Flight) : Regs :=
  match f.x.dst with
  | .d n => { r with d := r.d.put n.val f.val, pendD := r.pendD &&& ~~~(1#8 <<< n.val) }
  | .k => if slotM6 f.x then { r with k1 := bits f.val 0 32, pendK := r.pendK &&& 1 }
          else { r with k0 := if r.armed then r.k0 else bits f.val 0 32, pendK := r.pendK &&& 2 }
  | _ => r

/-- The predicate named by PRES takes the result condition (R40, R71). -/
def Regs.takeRc (r : Regs) (f : Flight) : Regs :=
  match f.x.pres with
  | some n => { r with p := (r.p &&& ~~~(1#8 <<< n.val)) ||| (if f.rc then 1#8 <<< n.val else 0), pend := r.pend &&& ~~~(1#8 <<< n.val) }
  | none => r

/-- A firing completes in its context (R40). -/
def Ctx.land (c : Ctx) (f : Flight) : Ctx :=
  let c := { c with ports := c.ports.fill f, regs := c.regs.land f, flights := c.flights.filter (fun g => g.id != f.id),
                    mt := { c.mt with fences := c.mt.fences.filter (fun g => g.flight != f.id) },
                    gw := { c.gw with cbars := c.gw.cbars.filter (fun g => g.1 != f.id) } }
  c.finish f.fin

/-- MTEST is judged; whether and which sub-array fails is the hardware's, a free value (R168, log 17). -/
def State.judge (s : State) (el : Nat) (f : Flight) : State :=
  let r := s.freeVal
  let s := r.2
  if r.1.getLsbD 0 then
    let s := { s with defects := if s.defects.contains el then s.defects else el :: s.defects }
    let s := s.trapElem el f.slot f.fcnt { code := 0x06, cause := 0, info := (bits r.1 1 4).setWidth 64 }
    match s.sectOf el with
    | some (i, sid) => s.modSect i sid (fun v => { v with fenced := true })
    | none => s
  else s

/-- A firing completes: its result, its tokens, its result condition and its own ending (R40, R100). -/
def State.landFlight (s : State) (el : Nat) (f : Flight) : State :=
  let s := s.modCtx el (fun c => c.land f)
  let s := if f.x.dst = .srg then s.writeSrg el (slotSrg f.x) f.val else s
  let s := s.modRegs el (fun r => r.takeRc f)
  let s := if f.fin = .mtest then s.judge el f else s
  s.settleTraps el

/-- An access of a firing has still to perform at the scratchpad, whose latencies are fixed (R170). -/
def State.atSpad (s : State) (el id : Nat) : Bool :=
  let mine := fun (a : Access) => a.tgt == .spad && (match a.by_ with | .elem e g _ _ => e == el && g == id | _ => false)
  (s.elem el).eq.any mine || s.spadq.vals.any (fun l => l.any mine)

/-- A firing has all it waits for (R98, R177, R187, R190). A CBAR is over once every rank has come to the barrier that it waits at; `atBar` keeps
the ranks that have come, and the spec gives an instance one barrier: a later CBAR of it finds every rank there (log 61). -/
def State.flightDone (s : State) (el : Nat) (f : Flight) : Bool :=
  let c := (s.elem el).ctx
  match f.due with
  | some t => decide (t ≤ s.now) && !s.atSpad el f.id && c.mt.frame.cmit != some f.id
  | none =>
    match f.op with
    | .sigw => !s.pendingAt (bits f.x.mod 0 3).toNat false (fun a => match a.by_ with
        | .elem e g _ _ => e == el && g == f.id
        | _ => false)
    | .fnc => c.mt.fences.all (fun g => g.flight != f.id
        || (!s.pendingAt g.scope false (fun a => g.waits.contains a.id) && !s.keptAt (fun a => g.waits.contains a.id)))
    | .cbar => c.gw.cbars.all (fun b => b.1 != f.id
        || (match (c.gw.circs.find? b.2).bind (fun g => g.bound) with
            | none => true
            | some k => (match s.colls.find? k with
              | none => true
              | some v => v.isAborted || decide (v.ranks ≤ v.atBar.length))))
    | _ => false

/-- CBAR's result condition as it completes (R190). -/
def State.cbarRc (s : State) (el : Nat) (f : Flight) : Bool :=
  let c := (s.elem el).ctx
  match (slotCirc c f.x).bind (fun g => g.bound) with
  | none => true
  | some k => (match s.colls.find? k with
    | none => true
    | some v => v.isAborted)

/-- Complete a firing of an element by its number, if it has all it waits for. -/
def State.completeFlight (s : State) (el id : Nat) : State :=
  match (s.elem el).ctx.flights.find? (fun f => f.id == id) with
  | none => s
  | some f =>
    if s.flightDone el f then
      s.landFlight el (if f.op = .cbar then { f with rc := s.cbarRc el f } else f)
    else s

end Sys2Proof.Machine
end

