-- ==== Sys2Proof/Machine/Sfu.lean ====
section
/-!
DEFINITION. Sfu.lean: the special functions step by step (spec/11_instr_numeric_rules.md R141-R147). The tables whose
entries are quotients or square roots are computed; those of 2^(j/64) and of the base-2 logarithm are listed as the
binary32 values that R142 and R143 define.
-/
namespace Sys2Proof.Machine

/-- The binary32 value nearest num/den, through 61 bits and a sticky bit. -/
def ratF32 (num den : Nat) : FVal :=
  let n := num * 2 ^ 60
  f32 (.fin false (2 * (n / den) + (if n % den = 0 then 0 else 1)) (-61))

/-- The integer square root, from bit b - 1 of the root down. -/
def isqrtFrom : Nat → Nat → Nat → Nat
  | 0, _, r => r
  | b + 1, n, r => isqrtFrom b n (if (r + 2 ^ b) * (r + 2 ^ b) ≤ n then r + 2 ^ b else r)

/-- EXT[j] = F32(2^(j/64)) for j = -32 to 32, as binary32 codes; entry 0 is j = -32 (R142). -/
def extCodes : List Nat :=
  [0x3F3504F3, 0x3F36FD92, 0x3F38FBAF, 0x3F3AFF5B, 0x3F3D08A4, 0x3F3F179A, 0x3F412C4D, 0x3F4346CD]
  ++ [0x3F45672A, 0x3F478D75, 0x3F49B9BE, 0x3F4BEC15, 0x3F4E248C, 0x3F506334, 0x3F52A81E, 0x3F54F35B]
  ++ [0x3F5744FD, 0x3F599D16, 0x3F5BFBB8, 0x3F5E60F5, 0x3F60CCDF, 0x3F633F89, 0x3F65B907, 0x3F68396A]
  ++ [0x3F6AC0C7, 0x3F6D4F30, 0x3F6FE4BA, 0x3F728177, 0x3F75257D, 0x3F77D0DF, 0x3F7A83B3, 0x3F7D3E0C]
  ++ [0x3F800000, 0x3F8164D2, 0x3F82CD87, 0x3F843A29, 0x3F85AAC3, 0x3F871F62, 0x3F88980F, 0x3F8A14D5]
  ++ [0x3F8B95C2, 0x3F8D1ADF, 0x3F8EA43A, 0x3F9031DC, 0x3F91C3D3, 0x3F935A2B, 0x3F94F4F0, 0x3F96942D]
  ++ [0x3F9837F0, 0x3F99E046, 0x3F9B8D3A, 0x3F9D3EDA, 0x3F9EF532, 0x3FA0B051, 0x3FA27043, 0x3FA43516]
  ++ [0x3FA5FED7, 0x3FA7CD94, 0x3FA9A15B, 0x3FAB7A3A, 0x3FAD583F, 0x3FAF3B79, 0x3FB123F6, 0x3FB311C4]
  ++ [0x3FB504F3]

/-- LGH[i] = F32(-log2 LGC[i]) for i = 0 to 95, as binary32 codes (R143). -/
def lghCodes : List Nat :=
  [0xBED0A977, 0xBEC90C02, 0xBEC1826C, 0xBEBA0C56, 0xBEB2A959, 0xBEAB5916, 0xBEA41B2F, 0xBE9CEF46]
  ++ [0xBE95D504, 0xBE8ECC18, 0xBE87D425, 0xBE80ECDE, 0xBE742BEA, 0xBE669E35, 0xBE593016, 0xBE4BE0EA]
  ++ [0xBE3EB027, 0xBE319D42, 0xBE24A7C5, 0xBE17CF19, 0xBE0B12C9, 0xBDFCE4A9, 0xBDE3DA8B, 0xBDCB0653]
  ++ [0xBDB2671E, 0xBD99FBE1, 0xBD81C3EF, 0xBD537CEB, 0xBD23D4F5, 0xBCE91D95, 0xBC8B512E, 0x00000000]
  ++ [0x00000000, 0x3C89B197, 0x3CE49B30, 0x3D1F6988, 0x3D4C2DF8, 0x3D789C48, 0x3D925ADE, 0x3DA83DBF]
  ++ [0x3DBDF774, 0x3DD3888E, 0x3DE8F1A8, 0x3DFE3351, 0x3E09A70E, 0x3E14214A, 0x3E1E88A1, 0x3E28DD5C]
  ++ [0x3E331FB5, 0x3E3D4FF5, 0x3E476E5A, 0x3E517B1A, 0x3E5B767B, 0x3E6560B3, 0x3E6F3A01, 0x3E790297]
  ++ [0x3E815D5D, 0x3E86314D, 0x3E8AFD32, 0x3E8FC131, 0x3E947D5B, 0x3E9931CA, 0x3E9DDE9C, 0x3EA283E9]
  ++ [0x3EA721C6, 0x3EABB84A, 0x3EB0478E, 0x3EB4CFA8, 0x3EB950B1, 0x3EBDCABD, 0x3EC23DE0, 0x3EC6AA33]
  ++ [0x3ECB0FC8, 0x3ECF6EB4, 0x3ED3C70A, 0x3ED818DE, 0x3EDC6445, 0x3EE0A955, 0x3EE4E816, 0x3EE920A6]
  ++ [0x3EED5312, 0x3EF17F6C, 0x3EF5A5C1, 0x3EF9C62C, 0x3EFDE0B7, 0x3F00FAB9, 0x3F030238, 0x3F0506E2]
  ++ [0x3F0708BB, 0x3F0907CF, 0x3F0B0421, 0x3F0CFDBE, 0x3F0EF4A9, 0x3F10E8EA, 0x3F12DA8B, 0x3F14C98F]

/-- The binary32 value nearest 0.69314718056. -/
def sfuX1 : FVal := fmt32.decodeF 0x3F317218
/-- The binary32 value nearest 0.24022650696. -/
def sfuX2 : FVal := fmt32.decodeF 0x3E75FDF0
/-- The binary32 value nearest 0.055504108665. -/
def sfuX3 : FVal := fmt32.decodeF 0x3D635847
/-- The binary32 value nearest 1.44269502163. -/
def sfuLgeh : FVal := fmt32.decodeF 0x3FB8AA3B
/-- The binary32 value nearest 1.9259629911e-8. -/
def sfuLgel : FVal := fmt32.decodeF 0x32A57060
/-- The binary32 value nearest 1.44269504089. -/
def sfuL1 : FVal := fmt32.decodeF 0x3FB8AA3B
/-- The binary32 value nearest -0.72134752044. -/
def sfuL2 : FVal := fmt32.decodeF 0xBF38AA3B
/-- The binary32 value nearest 0.48089834696. -/
def sfuL3 : FVal := fmt32.decodeF 0x3EF6384F
/-- The binary32 value nearest -0.36067376022. -/
def sfuL4 : FVal := fmt32.decodeF 0xBEB8AA3B
/-- The binary32 value nearest 0.636619772368. -/
def sfuIvpi : FVal := fmt32.decodeF 0x3F22F983
/-- The binary32 value nearest 1.5703125. -/
def sfuPh : FVal := fmt32.decodeF 0x3FC90000
/-- The binary32 value nearest 4.8375129699707031e-4. -/
def sfuPm : FVal := fmt32.decodeF 0x39FDA000
/-- The binary32 value nearest 7.5497899548918822e-8. -/
def sfuPl : FVal := fmt32.decodeF 0x33A22169
/-- The binary32 value nearest -0.16666654611. -/
def sfuSn1 : FVal := fmt32.decodeF 0xBE2AAAA3
/-- The binary32 value nearest 8.3321608736e-3. -/
def sfuSn2 : FVal := fmt32.decodeF 0x3C08839E
/-- The binary32 value nearest -1.9515295891e-4. -/
def sfuSn3 : FVal := fmt32.decodeF 0xB94CA1F9
/-- The binary32 value nearest 0.041666645683. -/
def sfuCs1 : FVal := fmt32.decodeF 0x3D2AAAA5
/-- The binary32 value nearest -1.3887316255e-3. -/
def sfuCs2 : FVal := fmt32.decodeF 0xBAB6061A
/-- The binary32 value nearest 2.4433157118e-5. -/
def sfuCs3 : FVal := fmt32.decodeF 0x37CCF5CE
/-- The binary32 value nearest -0.333333333333. -/
def sfuT3 : FVal := fmt32.decodeF 0xBEAAAAAB
/-- The binary32 value nearest 0.133333333333. -/
def sfuT5 : FVal := fmt32.decodeF 0x3E088889
/-- The binary32 value nearest -0.0539682539683. -/
def sfuT7 : FVal := fmt32.decodeF 0xBD5D0DD1
/-- The binary32 value nearest 1.12837916710. -/
def sfuB1 : FVal := fmt32.decodeF 0x3F906EBB
/-- The binary32 value nearest -0.376126389031. -/
def sfuB3 : FVal := fmt32.decodeF 0xBEC093A3
/-- The binary32 value nearest 0.112837916710. -/
def sfuB5 : FVal := fmt32.decodeF 0x3DE71791
/-- The binary32 value nearest -0.0268661706452. -/
def sfuB7 : FVal := fmt32.decodeF 0xBCDC1672
/-- The binary32 value nearest 0.00522397762551. -/
def sfuB9 : FVal := fmt32.decodeF 0x3BAB2DE7
/-- The binary32 value nearest 0.3275911. -/
def sfuQp : FVal := fmt32.decodeF 0x3EA7BA05
/-- The binary32 value nearest 0.254829592. -/
def sfuQ1 : FVal := fmt32.decodeF 0x3E827906
/-- The binary32 value nearest -0.284496736. -/
def sfuQ2 : FVal := fmt32.decodeF 0xBE91A98E
/-- The binary32 value nearest 1.421413741. -/
def sfuQ3 : FVal := fmt32.decodeF 0x3FB5F0E3
/-- The binary32 value nearest -1.453152027. -/
def sfuQ4 : FVal := fmt32.decodeF 0xBFBA00E3
/-- The binary32 value nearest 1.061405429. -/
def sfuQ5 : FVal := fmt32.decodeF 0x3F87DC22

/-- EXT[j] (R142). -/
def sfuExt (j : Int) : FVal := fmt32.decodeF (extCodes.getD (j + 32).toNat 0)

/-- LGC[i] = F32(1/c_i) with c_31 = c_32 = 1 (R143). -/
def sfuLgc (i : Nat) : FVal := if i = 31 ∨ i = 32 then .fin false 1 0 else ratF32 256 (193 + 2 * i)

/-- LGH[i] (R143). -/
def sfuLgh (i : Nat) : FVal := fmt32.decodeF (lghCodes.getD i 0)

/-- RCT[i] = F32(1/(1 + (i + 0.5)/128)) (R144). -/
def sfuRct (i : Nat) : FVal := ratF32 256 (257 + 2 * i)

/-- RST[i] = F32(1/sqrt(1 + (i + 0.5)/64)): the root of 128/(129 + 2i), which is never a dyadic (R145). -/
def sfuRst (i : Nat) : FVal := f32 (.fin false (2 * isqrtFrom 61 (128 * 2 ^ 120 / (129 + 2 * i)) 0 + 1) (-61))

/-- The value 1. -/
def fOne : FVal := .fin false 1 0

/-- An integer as a value. -/
def fInt (n : Int) : FVal := .ofInt n

/-- RoundInt: to the nearest integer, ties to even (R142). -/
def sfuRoundInt (x : FVal) : Int :=
  match x with
  | .fin s m e => (roundInt s m e .rne 0).1
  | _ => 0

/-- Exact difference of two values. -/
def fSub (a b : FVal) : FVal := a.add .rne b.neg

/-- a < b. -/
def fLt (a b : FVal) : Bool := a.cmp b == some (-1)

/-- The floor of 2^k times a value that is not negative. -/
def floorScaled (x : FVal) (k : Int) : Nat :=
  match x with
  | .fin _ m e => shiftNat m (e + k)
  | _ => 0

/-- x = m*2^e with m in [1, 2): the significand and the exponent of a positive magnitude (R143-R145). -/
def splitMag (m : Nat) (e : Int) : FVal × Int :=
  let k := floorLog2 m e
  (.fin false m (e - k), k)

/-- Exp2Tail(n, f) (R142). -/
def exp2Tail (n : Int) (f : FVal) : FVal :=
  let j := sfuRoundInt (f.scale 6)
  let g := fSub f ((fInt j).scale (-6))
  let t := fma32 sfuX3 g sfuX2
  let t := fma32 t g sfuX1
  let t := f32 (t.mul g)
  f32 ((fma32 (sfuExt j) t (sfuExt j)).scale n)

/-- The steps of FEXP2 (R142). -/
def exp2Steps (x : FVal) : FVal :=
  if !fLt x (fInt 128) then .inf false
  else if fLt x (fInt (-151)) then .fin false 0 0
  else let n := sfuRoundInt x; exp2Tail n (fSub x (fInt n))

/-- The steps of FEXP (R142). -/
def expSteps (x : FVal) : FVal :=
  let v := f32 (x.mul sfuLgeh)
  if !fLt v (fInt 128) then .inf false
  else if fLt v (fInt (-151)) then .fin false 0 0
  else
    let n := sfuRoundInt v
    let h := fma32 x sfuLgeh (fInt (-n))
    let h := fma32 x sfuLgel h
    exp2Tail n h

/-- The steps of FLOG2 (R143). -/
def log2Steps (man : Nat) (exp : Int) : FVal :=
  let (m, e) := splitMag man exp
  let big := !fLt m (.fin false 3 (-1))
  let m := if big then m.scale (-1) else m
  let e := if big then e + 1 else e
  let i := floorScaled (fSub m (.fin false 3 (-2))) 7
  let u := fma32 m (sfuLgc i) fOne.neg
  let q := fma32 sfuL4 u sfuL3
  let q := fma32 q u sfuL2
  let q := fma32 q u sfuL1
  fma32 u q (f32 ((fInt e).add .rne (sfuLgh i)))

/-- Recip(m) for m in [1, 2) (R144). -/
def recipSteps (m : FVal) : FVal :=
  let y := sfuRct (floorScaled (fSub m fOne) 7)
  let y := fma32 y (fma32 m.neg y fOne) y
  fma32 y (fma32 m.neg y fOne) y

/-- The steps of FRCP (R144). -/
def rcpSteps (neg : Bool) (man : Nat) (exp : Int) : FVal :=
  let (m, e) := splitMag man exp
  let y := f32 ((recipSteps m).scale (-e))
  if neg then y.neg else y

/-- The steps of FDIV on two finite nonzero operands (R144). -/
def divSteps (na : Bool) (a : Nat) (ea : Int) (nb : Bool) (b : Nat) (eb : Int) : FVal :=
  let (ma, xa) := splitMag a ea
  let (mb, xb) := splitMag b eb
  let w := recipSteps mb
  let q := f32 (ma.mul w)
  let d := fma32 mb.neg q ma
  let q := fma32 d w q
  let y := f32 (q.scale (xa - xb))
  if na != nb then y.neg else y

/-- FDIV with IEEE 754's special cases (R141). -/
def divVal : FVal → FVal → FVal
  | .nan, _ => .nan
  | _, .nan => .nan
  | .inf _, .inf _ => .nan
  | .inf s, .fin t _ _ => .inf (s != t)
  | .fin s _ _, .inf t => .fin (s != t) 0 0
  | .fin s a ea, .fin t b eb =>
    if a = 0 then (if b = 0 then .nan else .fin (s != t) 0 0)
    else if b = 0 then .inf (s != t)
    else divSteps s a ea t b eb

/-- m in [1, 4) and the even exponent of a positive magnitude, and the refined reciprocal root y (R145). -/
def rsqCore (man : Nat) (exp : Int) : FVal × Int × FVal :=
  let (m, e) := splitMag man exp
  let odd := e % 2 = 1
  let m := if odd then m.scale 1 else m
  let e := if odd then e - 1 else e
  let y := sfuRst (floorScaled (fSub m fOne) 6)
  let refine := fun (y : FVal) =>
    let h := f32 (m.mul y)
    let d := fma32 h.neg y fOne
    fma32 (f32 (y.scale (-1))) d y
  (m, e, refine (refine y))

/-- The steps of FRSQ (R145). -/
def rsqSteps (man : Nat) (exp : Int) : FVal :=
  let (_, e, y) := rsqCore man exp
  f32 (y.scale (-(e / 2)))

/-- The steps of FSQRT (R145). -/
def sqrtSteps (man : Nat) (exp : Int) : FVal :=
  let (m, e, y) := rsqCore man exp
  let s := f32 (m.mul y)
  let d := fma32 s.neg s m
  let s := fma32 d (f32 (y.scale (-1))) s
  f32 (s.scale (e / 2))

/-- The steps of FSIN (`shift` 0) and FCOS (`shift` 1) (R146). -/
def trigSteps (shift : Int) (x : FVal) : FVal :=
  let n := sfuRoundInt (f32 (x.mul sfuIvpi))
  let nn := fInt (-n)
  let v := fma32 nn sfuPh x
  let v := fma32 nn sfuPm v
  let v := fma32 nn sfuPl v
  let z := f32 (v.mul v)
  let p := fma32 (fma32 sfuSn3 z sfuSn2) z sfuSn1
  let s := fma32 p (f32 (z.mul v)) v
  let p := fma32 (fma32 sfuCs3 z sfuCs2) z sfuCs1
  let c := fma32 p (f32 (z.mul z)) (fma32 (.fin true 1 (-1)) z fOne)
  match ((n + shift) % 4).toNat with
  | 0 => s | 1 => c | 2 => s.neg | _ => c.neg

/-- A special function of one operand (R141). -/
inductive Sfn where
  | rcp | rsq | sqrt | exp2 | log2 | sin | cos | tanh | sigm | erf | exp
  deriving DecidableEq, Repr

/-- Exp(x) as FSIGM, FTANH and FERF use it: FEXP with its table of special values (R141, R142, R147). -/
def expVal : FVal → FVal
  | .nan => .nan
  | .inf true => .fin false 0 0
  | .inf false => .inf false
  | .fin s m e => if m = 0 then fOne else expSteps (.fin s m e)

/-- Rcp(x) with its table of special values (R141, R144). -/
def rcpVal : FVal → FVal
  | .nan => .nan
  | .inf s => .fin s 0 0
  | .fin s m e => if m = 0 then .inf s else rcpSteps s m e

/-- FEXP2 with its table of special values (R141, R142). -/
def exp2Val : FVal → FVal
  | .nan => .nan
  | .inf true => .fin false 0 0
  | .inf false => .inf false
  | .fin s m e => if m = 0 then fOne else exp2Steps (.fin s m e)

/-- The steps of FTANH on a = |x| (R147). -/
def tanhSteps (a : FVal) : FVal :=
  if fLt a (.fin false 1 (-3)) then
    let z := f32 (a.mul a)
    let p := fma32 (fma32 sfuT7 z sfuT5) z sfuT3
    fma32 p (f32 (z.mul a)) a
  else if fLt a (fInt 9) then
    fma32 (fInt (-2)) (rcpVal (f32 (fOne.add .rne (expVal (a.scale 1))))) fOne
  else fOne

/-- The steps of FERF on a = |x| (R147). -/
def erfSteps (a : FVal) : FVal :=
  if fLt a (.fin false 1 (-2)) then
    let z := f32 (a.mul a)
    let p := fma32 (fma32 (fma32 sfuB9 z sfuB7) z sfuB5) z sfuB3
    fma32 p (f32 (z.mul a)) (f32 (sfuB1.mul a))
  else if fLt a (fInt 4) then
    let t := rcpVal (fma32 sfuQp a fOne)
    let p := fma32 (fma32 (fma32 (fma32 sfuQ5 t sfuQ4) t sfuQ3) t sfuQ2) t sfuQ1
    fma32 (f32 (p.mul t)).neg (expVal (f32 (a.mul a)).neg) fOne
  else fOne

/-- The steps of a special function on a finite nonzero value (R142-R147). -/
def Sfn.steps : Sfn → Bool → Nat → Int → FVal
  | .rcp, s, m, e => rcpSteps s m e
  | .rsq, s, m, e => if s then .nan else rsqSteps m e
  | .sqrt, s, m, e => if s then .nan else sqrtSteps m e
  | .exp2, s, m, e => exp2Steps (.fin s m e)
  | .exp, s, m, e => expSteps (.fin s m e)
  | .log2, s, m, e =>
    if s then .nan
    else if (FVal.fin false m e).cmp fOne == some 0 then .fin false 0 0
    else log2Steps m e
  | .sin, s, m, e => trigSteps 0 (.fin s m e)
  | .cos, s, m, e => trigSteps 1 (.fin s m e)
  | .sigm, s, m, e => rcpVal (f32 (fOne.add .rne (expVal (.fin (!s) m e))))
  | .tanh, s, m, e => let w := tanhSteps (.fin false m e); if s then w.neg else w
  | .erf, s, m, e => let w := erfSteps (.fin false m e); if s then w.neg else w

/-- A special function at a zero (R141's table). -/
def Sfn.atZero : Sfn → Bool → FVal
  | .rcp, s => .inf s
  | .rsq, s => .inf s
  | .sqrt, s => .fin s 0 0
  | .exp2, _ => fOne
  | .exp, _ => fOne
  | .log2, _ => .inf true
  | .sin, s => .fin s 0 0
  | .cos, _ => fOne
  | .tanh, s => .fin s 0 0
  | .sigm, _ => .fin false 1 (-1)
  | .erf, s => .fin s 0 0

/-- A special function at an infinity (R141's table). -/
def Sfn.atInf : Sfn → Bool → FVal
  | .rcp, s => .fin s 0 0
  | .rsq, s => if s then .nan else .fin false 0 0
  | .sqrt, s => if s then .nan else .inf false
  | .exp2, s => if s then .fin false 0 0 else .inf false
  | .exp, s => if s then .fin false 0 0 else .inf false
  | .log2, s => if s then .nan else .inf false
  | .sin, _ => .nan
  | .cos, _ => .nan
  | .tanh, s => .fin s 1 0
  | .sigm, s => if s then .fin false 0 0 else fOne
  | .erf, s => .fin s 1 0

/-- A special function of a value: its table, else its steps (R141). -/
def Sfn.val (f : Sfn) : FVal → FVal
  | .nan => .nan
  | .inf s => f.atInf s
  | .fin s m e => if m = 0 then f.atZero s else f.steps s m e

/-- Exp2Of(d) of OSM: 0 at minus infinity, else the FEXP2 steps on F32(d) (R140). -/
def exp2Of (d : FVal) : FVal :=
  match d with
  | .inf true => .fin false 0 0
  | d => exp2Val (f32 d)

end Sys2Proof.Machine
end

