-- ==== Sys2Proof/Machine/Move.lean ====
section
/-!
DEFINITION. Move.lean: movement and tokens (R112-R116).
-/
namespace Sys2Proof.Machine

/-- Lane l of a value at the slot's width. -/
def xl (x : Slot) (v : W256) (l : Nat) : Nat := lane (slotW x) v l

/-- Lanes at the slot's width. -/
def nl (x : Slot) : Nat := 256 / slotW x

/-- A lane index taken from lane 0 of an operand, modulo Nl (R112). -/
def lane0Index (x : Slot) (v : W256) : Nat := xl x v 0 % nl x

/-- MOV (R112). -/
def valMov : PureFn := fun _ i => okNz i.a

/-- MOVI: IMM at lane Q of 32 bits (R112). -/
def valMovi : PureFn := fun x _ =>
  okNz (BitVec.ofNat 256 (x.imm.toNat <<< (32 * (bits x.mod 2 3).toNat)))

/-- LANE (R112). -/
def valLane : PureFn := fun x i => okNz (BitVec.ofNat 256 (xl x i.a (lane0Index x i.b)))

/-- INSL (R112). -/
def valInsl : PureFn := fun x i =>
  let q := lane0Index x i.c
  okNz (ofLanes (slotW x) (nl x) (fun l => if l = q then xl x i.b 0 else xl x i.a l))

/-- BCST (R112). -/
def valBcst : PureFn := fun x i => okNz (broadcast (slotW x) (xl x i.a (lane0Index x i.b)))

/-- PERM (R112). -/
def valPerm : PureFn := fun x i =>
  okNz (ofLanes (slotW x) (nl x) (fun l =>
    let m := xl x i.b l
    if m / 2 ^ (slotW x - 1) = 1 then 0 else xl x i.a (m % nl x)))

/-- ROTL (R112). -/
def valRotl : PureFn := fun x i =>
  let c := lane0Index x i.b
  okNz (ofLanes (slotW x) (nl x) (fun l => xl x i.a ((l + nl x - c) % nl x)))

/-- ZIPL (R112). -/
def valZipl : PureFn := fun x i =>
  let h := if slotM5 x then nl x / 2 else 0
  okNz (ofLanes (slotW x) (nl x) (fun l => xl x (if l % 2 = 0 then i.a else i.b) (l / 2 + h)))

/-- UNZL (R112). -/
def valUnzl : PureFn := fun x i =>
  let h := if slotM5 x then 1 else 0
  okNz (ofLanes (slotW x) (nl x) (fun l =>
    if l < nl x / 2 then xl x i.a (2 * l + h) else xl x i.b (2 * (l - nl x / 2) + h)))

/-- FWD: the head unchanged (R113). -/
def valFwd : PureFn := fun _ i => okVal i.a false

/-- TAGR: CT in r[4:3], FT in r[2:0] (R113). -/
def valTagr : PureFn := fun _ i =>
  match i.ta with
  | some t => okNz (BitVec.ofNat 256 (8 * t.ct.code.toNat + t.ft.toNat))
  | none => okNz 0

/-- STEER: to DST's port when c = 0, to O[J] when c = 1 (R115). -/
def valSteer : PureFn := fun x i =>
  let c := control x i.b
  let port := if c then slotM54 x else (dstPort x.dst).getD 0
  .ok { val := i.a, rc := c, ports := some [port] }

/-- MERGE: opA when c = 0, opB when c = 1; under KEEP the tags are the chosen head's (R116). -/
def valMerge : PureFn := fun x i =>
  let c := control x i.c
  let t := if c then i.tb else i.ta
  .ok { val := if c then i.b else i.a, rc := c,
        tags := if slotM6 x then t.map (fun t => (t.ct, t.ft)) else none }

/-- MOV: copies opA to the destination (R112). -/
def execMov (x : Slot) (s : State) : Host.Outcome State Fault Refusal := firePure .mov x s valMov
/-- MOVI: places IMM in one 32-bit part of an otherwise zero result (R112). -/
def execMovi (x : Slot) (s : State) : Host.Outcome State Fault Refusal := firePure .movi x s valMovi
/-- LANE: extracts the lane of opA selected by opB into lane 0 (R112). -/
def execLane (x : Slot) (s : State) : Host.Outcome State Fault Refusal := firePure .lane x s valLane
/-- INSL: inserts lane 0 of opB into opA at the lane selected by opC (R112). -/
def execInsl (x : Slot) (s : State) : Host.Outcome State Fault Refusal := firePure .insl x s valInsl
/-- BCST: broadcasts the lane of opA selected by opB to every lane (R112). -/
def execBcst (x : Slot) (s : State) : Host.Outcome State Fault Refusal := firePure .bcst x s valBcst
/-- PERM: permutes the lanes of opA by indices in opB, zeroing lanes whose index has the top bit set (R112). -/
def execPerm (x : Slot) (s : State) : Host.Outcome State Fault Refusal := firePure .perm x s valPerm
/-- ROTL: rotates the lanes of opA upward by a count from opB (R112). -/
def execRotl (x : Slot) (s : State) : Host.Outcome State Fault Refusal := firePure .rotl x s valRotl
/-- ZIPL: interleaves lanes of one half of opA and opB (R112). -/
def execZipl (x : Slot) (s : State) : Host.Outcome State Fault Refusal := firePure .zipl x s valZipl
/-- UNZL: de-interleaves even or odd lanes of opA and opB (R112). -/
def execUnzl (x : Slot) (s : State) : Host.Outcome State Fault Refusal := firePure .unzl x s valUnzl
/-- FWD: emits a port head unchanged, with its tags, to output ports (R113). -/
def execFwd (x : Slot) (s : State) : Host.Outcome State Fault Refusal := firePure .fwd x s valFwd
/-- TAGR: reads the CT and FT of a port head into the result (R113). -/
def execTagr (x : Slot) (s : State) : Host.Outcome State Fault Refusal := firePure .tagr x s valTagr
/-- STEER: emits opA on one of two output ports chosen by a control lane (R115). -/
def execSteer (x : Slot) (s : State) : Host.Outcome State Fault Refusal := firePure .steer x s valSteer
/-- MERGE: takes the operand chosen by a control lane and pops only the chosen and control ports (R116). -/
def execMerge (x : Slot) (s : State) : Host.Outcome State Fault Refusal := firePure .merge x s valMerge

/-- The retag of the head of opA's port at completion (R114). -/
def retagAct (f : Slot → Opnds → Nat → Finish) : Slot → ActFn := fun x _ _ v =>
  .ok { fin := f x v ((selPort x.sa).getD 0) }

/-- CTAG: CT of the head of opA's port becomes opB[1:0] (R114). -/
def execCtag (x : Slot) (s : State) : Host.Outcome State Fault Refusal :=
  fire .ctag x s (retagAct (fun _ v j => .retagCt j (Tag.ofCode (bits v.b 0 2))) x)
/-- FTAG: FT of the head of opA's port becomes opB[2:0] (R114). -/
def execFtag (x : Slot) (s : State) : Host.Outcome State Fault Refusal :=
  fire .ftag x s (retagAct (fun _ v j => .retagFt j (bits v.b 0 3)) x)

end Sys2Proof.Machine
end

