-- ==== Sys2Proof/Machine/IntAlu.lean ====
section
/-!
DEFINITION. IntAlu.lean: class 0x2, integer arithmetic (R117-R120).
-/
namespace Sys2Proof.Machine

/-- Sat(x) (R97). -/
def satInt (w : Nat) (u : Bool) (x : Int) : Int :=
  if u then clampInt 0 (2 ^ w - 1) x else clampInt (intMin w) (intMax w) x

/-- Put(x): saturated when SAT = 1, else wrapped (R97). -/
def putInt (x : Slot) (v : Int) : Nat :=
  let w := slotW x
  wrap w (if slotSat x then satInt w (slotU x) v else v)

/-- Get(v, l) at the slot's width and signedness (R97). -/
def getX (x : Slot) (v : W256) (l : Nat) : Int := getLane (slotU x) (slotW x) v l

/-- A lane-wise result of up to three operands (R117). -/
def lanewise (x : Slot) (i : Opnds) (f : Int → Int → Int → Nat) : Except TrapReq PureOut :=
  okNz (ofLanes (slotW x) (256 / slotW x) (fun l => f (getX x i.a l) (getX x i.b l) (getX x i.c l)))

/-- ADD (R117). -/
def valAdd : PureFn := fun x i => lanewise x i (fun a b _ => putInt x (a + b))
/-- SUB (R117). -/
def valSub : PureFn := fun x i => lanewise x i (fun a b _ => putInt x (a - b))
/-- MUL (R117). -/
def valMul : PureFn := fun x i => lanewise x i (fun a b _ => putInt x (a * b))
/-- MULH: the floor of a*b/2^Wb (R117). -/
def valMulh : PureFn := fun x i => lanewise x i (fun a b _ => wrap (slotW x) (Int.fdiv (a * b) (2 ^ slotW x)))
/-- MAD (R117). -/
def valMad : PureFn := fun x i => lanewise x i (fun a b c => putInt x (a * b + c))
/-- MIN (R117). -/
def valMin : PureFn := fun x i => lanewise x i (fun a b _ => wrap (slotW x) (if a ≤ b then a else b))
/-- MAX (R117). -/
def valMax : PureFn := fun x i => lanewise x i (fun a b _ => wrap (slotW x) (if a ≤ b then b else a))
/-- ABS, whose lanes are signed (R117). -/
def valAbs : PureFn := fun x i => lanewise x i (fun a _ _ => putInt x (if a < 0 then -a else a))
/-- NEG (R117). -/
def valNeg : PureFn := fun x i => lanewise x i (fun a _ _ => putInt x (-a))
/-- CLMP: min(max(a, b), c) (R117). -/
def valClmp : PureFn := fun x i => lanewise x i (fun a b c =>
  let m := if a ≤ b then b else a
  wrap (slotW x) (if m ≤ c then m else c))

/-- The quotient of DIV (R118). -/
def divLane (x : Slot) (a b : Int) : Int :=
  let w := slotW x
  if b = 0 then
    if slotU x then 2 ^ w - 1
    else if slotSat x then (if 0 ≤ a then intMax w else intMin w)
    else -1
  else if !slotU x && a == intMin w && b == -1 then (if slotSat x then intMax w else intMin w)
  else Int.tdiv a b

/-- The remainder of REM (R118). -/
def remLane (x : Slot) (a b : Int) : Int :=
  if b = 0 then a
  else if !slotU x && a == intMin (slotW x) && b == -1 then 0
  else a - b * Int.tdiv a b

/-- Some lane of opB is 0: the RC of DIV and REM (R118). -/
def anyZeroB (x : Slot) (i : Opnds) : Bool := (List.range (256 / slotW x)).any (fun l => getX x i.b l == 0)

/-- DIV (R118). -/
def valDiv : PureFn := fun x i =>
  okVal (ofLanes (slotW x) (256 / slotW x) (fun l => wrap (slotW x) (divLane x (getX x i.a l) (getX x i.b l))))
    (anyZeroB x i)
/-- REM (R118). -/
def valRem : PureFn := fun x i =>
  okVal (ofLanes (slotW x) (256 / slotW x) (fun l => wrap (slotW x) (remLane x (getX x i.a l) (getX x i.b l))))
    (anyZeroB x i)

/-- RoundShift(x, c), rounding half toward plus infinity or truncating (R119). Any c beyond 2*Wb + 1 gives what 2*Wb + 1
gives, since the magnitude shifted is below 2^(2*Wb + 1). At c = 2*Wb an unsigned product of 2^(2*Wb - 1) or more gives 1 by the pseudocode, where R119's text says
0 from there on: the pseudocode is followed (log 38, DEDUCED). -/
def roundShift (x : Slot) (v : Int) (c : Nat) : Int :=
  let c := if 2 * slotW x + 1 < c then 2 * slotW x + 1 else c
  if c = 0 then v
  else if slotM5 x then Int.fdiv v (2 ^ c)
  else Int.fdiv (v + 2 ^ (c - 1)) (2 ^ c)

/-- A scaled result: Put of RoundShift of a combination, the shift read unsigned (R119). -/
def scaled (x : Slot) (i : Opnds) (f : Int → Int → Int) : Except TrapReq PureOut :=
  okNz (ofLanes (slotW x) (256 / slotW x) (fun l =>
    putInt x (roundShift x (f (getX x i.a l) (getX x i.b l)) (lane (slotW x) i.c l))))

/-- ADDS (R119). -/
def valAdds : PureFn := fun x i => scaled x i (fun a b => a + b)
/-- SUBS (R119). -/
def valSubs : PureFn := fun x i => scaled x i (fun a b => a - b)
/-- QMUL (R119). -/
def valQmul : PureFn := fun x i => scaled x i (fun a b => a * b)

/-- One level of the tree of R65: neighbours combined. -/
def pairUp {α : Type} (f : α → α → α) : List α → List α
  | a :: b :: t => f a b :: pairUp f t
  | t => t

/-- The tree of R65 over n levels. -/
def treeReduce {α : Type} (f : α → α → α) : Nat → List α → List α
  | 0, l => l
  | n + 1, l => treeReduce f n (pairUp f l)

/-- The operation of IRED on lane codes (R120). -/
def iredOp (x : Slot) (a b : Nat) : Nat :=
  let w := slotW x
  let ga := if slotU x then (a : Int) else sext w a
  let gb := if slotU x then (b : Int) else sext w b
  match slotM54 x with
  | 0 => putInt x (ga + gb)
  | 1 => if ga ≤ gb then a else b
  | 2 => if ga ≤ gb then b else a
  | _ => a ^^^ b

/-- IRED: the tree over Nl lanes, the result in lane 0 (R120). -/
def valIred : PureFn := fun x i =>
  let n := 256 / slotW x
  let l := (List.range n).map (fun l => lane (slotW x) i.a l)
  okNz (BitVec.ofNat 256 ((treeReduce (iredOp x) 5 l).headD 0))

/-- ADD: lane-wise integer addition with optional saturation (R117). -/
def execAdd (x : Slot) (s : State) : Host.Outcome State Fault Refusal := firePure .add x s valAdd
/-- SUB: lane-wise integer subtraction with optional saturation (R117). -/
def execSub (x : Slot) (s : State) : Host.Outcome State Fault Refusal := firePure .sub x s valSub
/-- MUL: lane-wise integer multiplication (R117). -/
def execMul (x : Slot) (s : State) : Host.Outcome State Fault Refusal := firePure .mul x s valMul
/-- MULH: lane-wise high half of an integer product (R117). -/
def execMulh (x : Slot) (s : State) : Host.Outcome State Fault Refusal := firePure .mulh x s valMulh
/-- MAD: lane-wise integer multiply-add (R117). -/
def execMad (x : Slot) (s : State) : Host.Outcome State Fault Refusal := firePure .mad x s valMad
/-- MIN: lane-wise integer minimum (R117). -/
def execMin (x : Slot) (s : State) : Host.Outcome State Fault Refusal := firePure .min x s valMin
/-- MAX: lane-wise integer maximum (R117). -/
def execMax (x : Slot) (s : State) : Host.Outcome State Fault Refusal := firePure .max x s valMax
/-- ABS: lane-wise integer absolute value (R117). -/
def execAbs (x : Slot) (s : State) : Host.Outcome State Fault Refusal := firePure .abs x s valAbs
/-- NEG: lane-wise integer negation (R117). -/
def execNeg (x : Slot) (s : State) : Host.Outcome State Fault Refusal := firePure .neg x s valNeg
/-- CLMP: lane-wise clamp of opA between opB and opC (R117). -/
def execClmp (x : Slot) (s : State) : Host.Outcome State Fault Refusal := firePure .clmp x s valClmp
/-- DIV: lane-wise integer division with defined results for division by zero (R118). -/
def execDiv (x : Slot) (s : State) : Host.Outcome State Fault Refusal := firePure .div x s valDiv
/-- REM: lane-wise integer remainder (R118). -/
def execRem (x : Slot) (s : State) : Host.Outcome State Fault Refusal := firePure .rem x s valRem
/-- ADDS: lane-wise addition scaled down by a per-lane rounding shift (R119). -/
def execAdds (x : Slot) (s : State) : Host.Outcome State Fault Refusal := firePure .adds x s valAdds
/-- SUBS: lane-wise subtraction scaled down by a per-lane rounding shift (R119). -/
def execSubs (x : Slot) (s : State) : Host.Outcome State Fault Refusal := firePure .subs x s valSubs
/-- QMUL: lane-wise product scaled down by a per-lane rounding shift (R119). -/
def execQmul (x : Slot) (s : State) : Host.Outcome State Fault Refusal := firePure .qmul x s valQmul
/-- IRED: reduces the integer lanes of opA by a fixed tree into lane 0 (R120). -/
def execIred (x : Slot) (s : State) : Host.Outcome State Fault Refusal := firePure .ired x s valIred

end Sys2Proof.Machine
end

