-- ==== Sys2Proof/Machine/Logic.lean ====
section
/-!
DEFINITION. Logic.lean: class 0x3, logic, shifts, bit fields, CRC, packing (R121-R125).
-/
namespace Sys2Proof.Machine

/-- AND (R121). -/
def valAnd : PureFn := fun _ i => okNz (i.a &&& i.b)
/-- OR (R121). -/
def valOr : PureFn := fun _ i => okNz (i.a ||| i.b)
/-- XOR (R121). -/
def valXor : PureFn := fun _ i => okNz (i.a ^^^ i.b)
/-- ANDN (R121). -/
def valAndn : PureFn := fun _ i => okNz (i.a &&& ~~~i.b)
/-- BSEL (R121). -/
def valBsel : PureFn := fun _ i => okNz ((i.a &&& i.c) ||| (i.b &&& ~~~i.c))

/-- Lane-wise on codes: f of lane l of opA and of opB (R122). -/
def codewise (x : Slot) (i : Opnds) (f : Nat → Nat → Nat) : Except TrapReq PureOut :=
  okNz (ofLanes (slotW x) (256 / slotW x) (fun l => f (lane (slotW x) i.a l) (lane (slotW x) i.b l)))

/-- SHL (R122). -/
def valShl : PureFn := fun x i => codewise x i (fun a c => if slotW x ≤ c then 0 else (a <<< c) % 2 ^ slotW x)
/-- SHR (R122). -/
def valShr : PureFn := fun x i => codewise x i (fun a c => if slotW x ≤ c then 0 else a >>> c)
/-- SHA: the floor of a signed x over 2^c (R122). -/
def valSha : PureFn := fun x i => codewise x i (fun a c =>
  let v := sext (slotW x) a
  if slotW x ≤ c then (if v < 0 then 2 ^ slotW x - 1 else 0) else wrap (slotW x) (Int.fdiv v (2 ^ c)))
/-- ROTB: toward the high bit by c mod Wb (R122). -/
def valRotb : PureFn := fun x i => codewise x i (fun a c =>
  let k := c % slotW x
  (a <<< k) % 2 ^ slotW x + a >>> (slotW x - k))

/-- The 1 bits among the low n bits. -/
def popCount : Nat → Nat → Nat
  | 0, _ => 0
  | n + 1, v => v % 2 + popCount n (v / 2)

/-- POPC (R122). -/
def valPopc : PureFn := fun x i => codewise x i (fun a _ => popCount (slotW x) a)
/-- CLZ; Wb when x = 0 (R122). -/
def valClz : PureFn := fun x i => codewise x i (fun a _ => if a = 0 then slotW x else slotW x - 1 - Nat.log2 a)

/-- BFX: a field of each lane, extended (R123). -/
def valBfx : PureFn := fun x i =>
  let pos := immBits x 0 8
  let len := immBits x 8 8
  codewise x i (fun a _ =>
    let f := (a >>> pos) % 2 ^ len
    if slotU x then f else wrap (slotW x) (sext len f))
/-- BFI: a field of each lane replaced (R123). -/
def valBfi : PureFn := fun x i =>
  let pos := immBits x 0 8
  let len := immBits x 8 8
  codewise x i (fun a b => a % 2 ^ pos + (b % 2 ^ len) <<< pos + (a >>> (pos + len)) <<< (pos + len))

/-- n bit steps of CRC-32C (R124). -/
def crcBits : Nat → Nat → Nat
  | 0, c => c
  | n + 1, c => crcBits n (if c % 2 = 1 then (c >>> 1) ^^^ 0x82F63B78 else c >>> 1)

/-- One byte into a CRC-32C (R124). -/
def crcByte (c b : Nat) : Nat := crcBits 8 (c ^^^ b)

/-- Bytes into a CRC-32C, the first byte first. -/
def crcBytes (c : Nat) (l : List Nat) : Nat := l.foldl crcByte c

/-- CRC: one step over 2^W bytes of opB, or over 32 with .tok (R124). -/
def valCrc : PureFn := fun x i =>
  let n := if slotM5 x then 32 else slotW x / 8
  okNz (BitVec.ofNat 256 (crcBytes (i.a.toNat % 2 ^ 32) ((List.range n).map (fun k => lane 8 i.b k))))

/-- Narrow(x) of PACK, to Wb/2 bits (R125). -/
def narrowHalf (x : Slot) (v : Int) : Nat :=
  let h := slotW x / 2
  wrap h (if slotSat x then satInt h (slotU x) v else v)

/-- PACK (R125). -/
def valPack : PureFn := fun x i =>
  let n := 256 / slotW x
  okNz (ofLanes (slotW x / 2) (2 * n) (fun l =>
    if l < n then narrowHalf x (getX x i.a l) else narrowHalf x (getX x i.b (l - n))))
/-- UNPK (R125). -/
def valUnpk : PureFn := fun x i =>
  let n := 256 / slotW x
  let h := if slotM5 x then n / 2 else 0
  okNz (ofLanes (2 * slotW x) (n / 2) (fun l => wrap (2 * slotW x) (getX x i.a (l + h))))

/-- AND: bitwise AND (R121). -/
def execAnd (x : Slot) (s : State) : Host.Outcome State Fault Refusal := firePure .and x s valAnd
/-- OR: bitwise OR (R121). -/
def execOr (x : Slot) (s : State) : Host.Outcome State Fault Refusal := firePure .or x s valOr
/-- XOR: bitwise exclusive OR (R121). -/
def execXor (x : Slot) (s : State) : Host.Outcome State Fault Refusal := firePure .xor x s valXor
/-- ANDN: bitwise AND of opA with the complement of opB (R121). -/
def execAndn (x : Slot) (s : State) : Host.Outcome State Fault Refusal := firePure .andn x s valAndn
/-- BSEL: bitwise select of opA or opB by the mask opC (R121). -/
def execBsel (x : Slot) (s : State) : Host.Outcome State Fault Refusal := firePure .bsel x s valBsel
/-- SHL: lane-wise left shift (R122). -/
def execShl (x : Slot) (s : State) : Host.Outcome State Fault Refusal := firePure .shl x s valShl
/-- SHR: lane-wise logical right shift (R122). -/
def execShr (x : Slot) (s : State) : Host.Outcome State Fault Refusal := firePure .shr x s valShr
/-- SHA: lane-wise arithmetic right shift (R122). -/
def execSha (x : Slot) (s : State) : Host.Outcome State Fault Refusal := firePure .sha x s valSha
/-- ROTB: lane-wise bit rotation toward the high bit (R122). -/
def execRotb (x : Slot) (s : State) : Host.Outcome State Fault Refusal := firePure .rotb x s valRotb
/-- POPC: lane-wise population count (R122). -/
def execPopc (x : Slot) (s : State) : Host.Outcome State Fault Refusal := firePure .popc x s valPopc
/-- CLZ: lane-wise count of leading zero bits (R122). -/
def execClz (x : Slot) (s : State) : Host.Outcome State Fault Refusal := firePure .clz x s valClz
/-- BFX: extracts a bit field from each lane with sign or zero extension (R123). -/
def execBfx (x : Slot) (s : State) : Host.Outcome State Fault Refusal := firePure .bfx x s valBfx
/-- BFI: inserts a bit field from opB into each lane of opA (R123). -/
def execBfi (x : Slot) (s : State) : Host.Outcome State Fault Refusal := firePure .bfi x s valBfi
/-- CRC: performs one CRC-32C step over bytes of opB (R124). -/
def execCrc (x : Slot) (s : State) : Host.Outcome State Fault Refusal := firePure .crc x s valCrc
/-- PACK: narrows the lanes of two operands into one result (R125). -/
def execPack (x : Slot) (s : State) : Host.Outcome State Fault Refusal := firePure .pack x s valPack
/-- UNPK: widens half the lanes of opA (R125). -/
def execUnpk (x : Slot) (s : State) : Host.Outcome State Fault Refusal := firePure .unpk x s valUnpk

end Sys2Proof.Machine
end

