-- ==== Sys2Proof/Machine/Compare.lean ====
section
/-!
DEFINITION. Compare.lean: class 0x4, compares, selects and lane masks (R126-R129).
-/
namespace Sys2Proof.Machine

/-- A lane-wise compare: all ones where the condition holds; RC when any lane is true (R126). -/
def compareLanes (w : Nat) (c : Nat → Bool) : Except TrapReq PureOut :=
  let n := 256 / w
  okVal (ofLanes w n (fun l => maskLane w (c l))) ((List.range n).any c)

/-- An integer compare at the slot's width and signedness (R126). -/
def intCompare (x : Slot) (i : Opnds) (f : Int → Int → Bool) : Except TrapReq PureOut :=
  compareLanes (slotW x) (fun l => f (getX x i.a l) (getX x i.b l))

/-- CMPEQ (R126). -/
def valCmpeq : PureFn := fun x i => intCompare x i (fun a b => decide (a = b))
/-- CMPNE (R126). -/
def valCmpne : PureFn := fun x i => intCompare x i (fun a b => decide (a ≠ b))
/-- CMPLT (R126). -/
def valCmplt : PureFn := fun x i => intCompare x i (fun a b => decide (a < b))
/-- CMPLE (R126). -/
def valCmple : PureFn := fun x i => intCompare x i (fun a b => decide (a ≤ b))
/-- CMPGT (R126). -/
def valCmpgt : PureFn := fun x i => intCompare x i (fun a b => decide (b < a))
/-- CMPGE (R126). -/
def valCmpge : PureFn := fun x i => intCompare x i (fun a b => decide (b ≤ a))
/-- TSTZ (R126). -/
def valTstz : PureFn := fun x i => compareLanes (slotW x) (fun l => lane (slotW x) (i.a &&& i.b) l == 0)
/-- TSTNZ (R126). -/
def valTstnz : PureFn := fun x i => compareLanes (slotW x) (fun l => lane (slotW x) (i.a &&& i.b) l != 0)

/-- A float compare in slot f; an integer family placed there by FMTW raises FMTBAD (R127). -/
def floatCompare (x : Slot) (i : Opnds) (f : Option Int → Bool) : Except TrapReq PureOut :=
  let m := fmtAt i.fmttab (slotF x)
  if m.fam.isFloat then
    let w := m.fam.width
    compareLanes w (fun l => f ((m.decodeF (lane w i.a l)).cmp (m.decodeF (lane w i.b l))))
  else .error (fmtBad (slotF x))

/-- FCMEQ (R127). -/
def valFcmeq : PureFn := fun x i => floatCompare x i (fun c => c == some 0)
/-- FCMLT (R127). -/
def valFcmlt : PureFn := fun x i => floatCompare x i (fun c => c == some (-1))
/-- FCMLE (R127). -/
def valFcmle : PureFn := fun x i => floatCompare x i (fun c => c == some (-1) || c == some 0)
/-- FCMUN (R127). -/
def valFcmun : PureFn := fun x i => floatCompare x i (fun c => c == none)

/-- SEL (R128). -/
def valSel : PureFn := fun x i =>
  let w := slotW x
  okNz (ofLanes w (256 / w) (fun l => if lane w i.c l != 0 then lane w i.a l else lane w i.b l))

/-- ANYL (R129). -/
def valAnyl : PureFn := fun x i =>
  let c := anyLane (slotW x) (256 / slotW x) i.a
  okVal (BitVec.ofNat 256 (maskLane (slotW x) c)) c
/-- ALLL (R129). -/
def valAlll : PureFn := fun x i =>
  let c := allLanes (slotW x) (256 / slotW x) i.a
  okVal (BitVec.ofNat 256 (maskLane (slotW x) c)) c
/-- FIRSTL (R129). -/
def valFirstl : PureFn := fun x i =>
  let n := 256 / slotW x
  match (List.range n).find? (fun l => lane (slotW x) i.a l != 0) with
  | some l => okVal (BitVec.ofNat 256 l) true
  | none => okVal (BitVec.ofNat 256 n) false

/-- CMPEQ: lane-wise integer equality compare (R126). -/
def execCmpeq (x : Slot) (s : State) : Host.Outcome State Fault Refusal := firePure .cmpeq x s valCmpeq
/-- CMPNE: lane-wise integer inequality compare (R126). -/
def execCmpne (x : Slot) (s : State) : Host.Outcome State Fault Refusal := firePure .cmpne x s valCmpne
/-- CMPLT: lane-wise integer less-than compare (R126). -/
def execCmplt (x : Slot) (s : State) : Host.Outcome State Fault Refusal := firePure .cmplt x s valCmplt
/-- CMPLE: lane-wise integer less-or-equal compare (R126). -/
def execCmple (x : Slot) (s : State) : Host.Outcome State Fault Refusal := firePure .cmple x s valCmple
/-- CMPGT: lane-wise integer greater-than compare (R126). -/
def execCmpgt (x : Slot) (s : State) : Host.Outcome State Fault Refusal := firePure .cmpgt x s valCmpgt
/-- CMPGE: lane-wise integer greater-or-equal compare (R126). -/
def execCmpge (x : Slot) (s : State) : Host.Outcome State Fault Refusal := firePure .cmpge x s valCmpge
/-- TSTZ: lane-wise test that opA AND opB is zero (R126). -/
def execTstz (x : Slot) (s : State) : Host.Outcome State Fault Refusal := firePure .tstz x s valTstz
/-- TSTNZ: lane-wise test that opA AND opB is nonzero (R126). -/
def execTstnz (x : Slot) (s : State) : Host.Outcome State Fault Refusal := firePure .tstnz x s valTstnz
/-- FCMEQ: lane-wise floating-point equality compare (R127). -/
def execFcmeq (x : Slot) (s : State) : Host.Outcome State Fault Refusal := firePure .fcmeq x s valFcmeq
/-- FCMLT: lane-wise floating-point less-than compare (R127). -/
def execFcmlt (x : Slot) (s : State) : Host.Outcome State Fault Refusal := firePure .fcmlt x s valFcmlt
/-- FCMLE: lane-wise floating-point less-or-equal compare (R127). -/
def execFcmle (x : Slot) (s : State) : Host.Outcome State Fault Refusal := firePure .fcmle x s valFcmle
/-- FCMUN: lane-wise unordered compare, true where either lane is NaN (R127). -/
def execFcmun (x : Slot) (s : State) : Host.Outcome State Fault Refusal := firePure .fcmun x s valFcmun
/-- SEL: lane-wise select of opA or opB by opC (R128). -/
def execSel (x : Slot) (s : State) : Host.Outcome State Fault Refusal := firePure .sel x s valSel
/-- ANYL: sets lane 0 to all ones if any lane of opA is nonzero (R129). -/
def execAnyl (x : Slot) (s : State) : Host.Outcome State Fault Refusal := firePure .anyl x s valAnyl
/-- ALLL: sets lane 0 to all ones if every lane of opA is nonzero (R129). -/
def execAlll (x : Slot) (s : State) : Host.Outcome State Fault Refusal := firePure .alll x s valAlll
/-- FIRSTL: returns the index of the lowest nonzero lane (R129). -/
def execFirstl (x : Slot) (s : State) : Host.Outcome State Fault Refusal := firePure .firstl x s valFirstl

end Sys2Proof.Machine
end

