-- ==== Sys2Proof/Machine/FloatAlu.lean ====
section
/-!
DEFINITION. FloatAlu.lean: class 0x5, floating point (R131-R140).
-/
namespace Sys2Proof.Machine

/-- Slot f as a floating format, or FMTBAD where an FMTW has put another family there (R131). -/
def floatFmt (x : Slot) (i : Opnds) : Except TrapReq Fmt :=
  let f := fmtAt i.fmttab (slotF x)
  if f.fam.isFloat then .ok f else .error (fmtBad (slotF x))

/-- RM of MOD (R58). -/
def slotMode (x : Slot) : RM := RM.ofCode (slotRm x)

/-- Value of lane l in a format. -/
def fl (f : Fmt) (v : W256) (l : Nat) : FVal := f.decodeF (lane f.fam.width v l)

/-- A lane-wise result with its RC: any result lane NaN (R133), SRNG after the draws. -/
def floatLanes (i : Opnds) (f : Fmt) (g : Nat → W32 → LaneOut) : Except TrapReq PureOut :=
  let (v, rc, s) := mapLanes f.fam.width f.lanes g i.srng
  .ok { val := v, rc, srng := some s }

/-- The arithmetic family: one RoundTo of an exact value per lane (R134). -/
def floatArith (x : Slot) (i : Opnds) (g : RM → FVal → FVal → FVal → FVal) : Except TrapReq PureOut := do
  let f ← floatFmt x i
  let rm := slotMode x
  floatLanes i f (fun l s => (f.roundTo (g rm (fl f i.a l) (fl f i.b l) (fl f i.c l)) rm (slotSat x) s).nanLane f)

/-- FADD (R134). -/
def valFadd : PureFn := fun x i => floatArith x i (fun rm a b _ => a.add rm b)
/-- FSUB (R134). -/
def valFsub : PureFn := fun x i => floatArith x i (fun rm a b _ => a.add rm b.neg)
/-- FMUL (R134). -/
def valFmul : PureFn := fun x i => floatArith x i (fun _ a b _ => a.mul b)
/-- FMA (R134). -/
def valFma : PureFn := fun x i => floatArith x i (fun rm a b c => (a.mul b).add rm c)
/-- FMS (R134). -/
def valFms : PureFn := fun x i => floatArith x i (fun rm a b c => (a.mul b).add rm c.neg)
/-- FNMA (R134). -/
def valFnma : PureFn := fun x i => floatArith x i (fun rm a b c => (a.mul b).neg.add rm c)

/-- x is below y in the order of R135: that of R127 with -0 below +0. -/
def belowSigned (x y : FVal) : Bool :=
  x.cmp y == some (-1) || (x.isZero && y.isZero && x.sign && !y.sign)

/-- FMIN and FMAX on codes (R135). -/
def minMaxCode (f : Fmt) (big : Bool) (a b : Nat) : Nat :=
  let va := f.decodeF a
  let vb := f.decodeF b
  if va.isNan && vb.isNan then f.nanCode
  else if va.isNan then b
  else if vb.isNan then a
  else if big then (if belowSigned va vb then b else a)
  else (if belowSigned vb va then b else a)

/-- A lane-wise result on codes that draws nothing. -/
def codeLanes (i : Opnds) (f : Fmt) (g : Nat → Nat → Nat) : Except TrapReq PureOut :=
  let w := f.fam.width
  let v := ofLanes w f.lanes (fun l => g (lane w i.a l) (lane w i.b l))
  okVal v (anyNan f v)

/-- FMIN (R135). -/
def valFmin : PureFn := fun x i => do let f ← floatFmt x i; codeLanes i f (minMaxCode f false)
/-- FMAX (R135). -/
def valFmax : PureFn := fun x i => do let f ← floatFmt x i; codeLanes i f (minMaxCode f true)

/-- FABS on a code (R135). -/
def absCode (f : Fmt) (a : Nat) : Nat :=
  if (f.decodeF a).isNan then f.nanCode
  else if f.fam == .b8u then a
  else a % f.signWeight

/-- FNEG on a code (R135). -/
def negCode (f : Fmt) (a : Nat) : Nat :=
  if (f.decodeF a).isNan then f.nanCode
  else if f.fam == .b8u then (if a = 0 then 0 else f.nanCode)
  else if f.fam == .b8 && a == 0 then 0
  else if a < f.signWeight then a + f.signWeight else a - f.signWeight

/-- FABS (R135). -/
def valFabs : PureFn := fun x i => do let f ← floatFmt x i; codeLanes i f (fun a _ => absCode f a)
/-- FNEG (R135). -/
def valFneg : PureFn := fun x i => do let f ← floatFmt x i; codeLanes i f (fun a _ => negCode f a)

/-- FSCL: a * 2^n with n the lane of opB. A shift beyond 1,024 places gives what 1,024 places give, since every value
then overflows or lies below half the least one (R136). -/
def valFscl : PureFn := fun x i => do
  let f ← floatFmt x i
  floatLanes i f (fun l s =>
    let n := clampInt (-1024) 1024 (laneS f.fam.width i.b l)
    (f.roundTo ((fl f i.a l).scale n) (slotMode x) (slotSat x) s).nanLane f)

/-- One lane of FRND: the integer that RM chooses, then RoundTo of it without SAT, which fixes what stands for an integer beyond the format (R59,
R64, R136, log 13); a zero keeps the sign of a. -/
def frndLane (f : Fmt) (rm : RM) (code : Nat) (s : W32) : LaneOut :=
  match f.decodeF code with
  | .fin neg m e =>
    let (n, t) := roundInt neg m e rm s
    let c := (f.roundTo (.fin neg n.natAbs 0) rm false t).code
    ⟨c, (f.decodeF c).isNan, t⟩
  | .inf _ => ⟨code, false, s⟩
  | .nan => ⟨f.nanCode, true, s⟩

/-- FRND (R136). -/
def valFrnd : PureFn := fun x i => do
  let f ← floatFmt x i
  floatLanes i f (fun l s =>
    frndLane f (slotMode x) (lane f.fam.width i.a l) s)

/-- The value is subnormal in the format: below its least normal value and not zero. -/
def isSubnormal (f : Fmt) (v : FVal) : Bool :=
  match v with
  | .fin _ m e => m != 0 && decide (floorLog2 m e < f.emin)
  | _ => false

/-- The class bit of FCLS (R137). -/
def classBit (f : Fmt) (v : FVal) : Nat :=
  match v with
  | .nan => 1
  | .inf true => 2
  | .inf false => 128
  | .fin s m _ =>
    if m = 0 then 16
    else if isSubnormal f v then (if s then 8 else 32)
    else if s then 4 else 64

/-- FCLS (R137). -/
def valFcls : PureFn := fun x i => do
  let f ← floatFmt x i
  okVal (ofLanes f.fam.width f.lanes (fun l => classBit f (fl f i.a l))) (anyNan f i.a)

/-- One level of a tree whose nodes draw, in ascending index (R65, R138). -/
def pairUpM (f : Nat → Nat → W32 → Rounded) : List Nat → W32 → List Nat × W32
  | a :: b :: t, s =>
    let r := f a b s
    let (l, s') := pairUpM f t r.srng
    (r.code :: l, s')
  | t, s => (t, s)

/-- The tree of R65, level by level. -/
def treeReduceM (f : Nat → Nat → W32 → Rounded) : Nat → List Nat → W32 → List Nat × W32
  | 0, l, s => (l, s)
  | n + 1, l, s => let (l', s') := pairUpM f l s; treeReduceM f n l' s'

/-- The operation of FRED on codes (R138). -/
def fredOp (x : Slot) (f : Fmt) (a b : Nat) (s : W32) : Rounded :=
  match immBits x 0 2 with
  | 0 => let rm := slotMode x; f.roundTo ((f.decodeF a).add rm (f.decodeF b)) rm (slotSat x) s
  | 1 => ⟨minMaxCode f true a b, false, s⟩
  | _ => ⟨minMaxCode f false a b, false, s⟩

/-- FRED (R138). -/
def valFred : PureFn := fun x i => do
  let f ← floatFmt x i
  let (l, s) := treeReduceM (fredOp x f) 5 ((List.range f.lanes).map (fun l => lane f.fam.width i.a l)) i.srng
  let c := l.headD 0
  .ok { val := BitVec.ofNat 256 c, rc := (f.decodeF c).isNan, srng := some s }

/-- FDOT2: two products and a binary32 addend, rounded once; another family in slot f raises FMTBAD (R139). -/
def valFdot2 : PureFn := fun x i =>
  let f := fmtAt i.fmttab (slotF x)
  if f.fam == .f16 || f.fam == .bf16 then
    let rm := slotMode x
    let (v, rc, s) := mapLanes 32 8 (fun l s =>
      let p := ((fl f i.a (2 * l)).mul (fl f i.b (2 * l))).add rm ((fl f i.a (2 * l + 1)).mul (fl f i.b (2 * l + 1)))
      (fmt32.roundTo (p.add rm (fl fmt32 i.c l)) rm (slotSat x) s).nanLane fmt32) i.srng
    .ok { val := v, rc, srng := some s }
  else .error (fmtBad (slotF x))

/-- alpha or beta of OSM.m: 1 at the maximum, else Exp2Of of the difference (R140). -/
def osmFactor (v m : FVal) : Nat :=
  if v.cmp m == some 0 then f32Code fOne else f32Code (exp2Of (v.add .rne m.neg))

/-- OSM.m (R140). -/
def osmMerge (x : Slot) (i : Opnds) : Except TrapReq PureOut :=
  let g := fun (v : W256) (l : Nat) => fl fmt32 v l
  let nan := (g i.a 0).isNan || (g i.b 0).isNan
  let mc := if nan then fmt32.nanCode else minMaxCode fmt32 true (lane 32 i.a 0) (lane 32 i.b 0)
  let m := fmt32.decodeF mc
  let al := if nan then fmt32.nanCode else osmFactor (g i.a 0) m
  let be := if nan then fmt32.nanCode else osmFactor (g i.b 0) m
  let rm := slotMode x
  let z := fmt32.roundTo (((g i.a 1).mul (fmt32.decodeF al)).add rm ((g i.b 1).mul (fmt32.decodeF be))) rm (slotSat x) i.srng
  let v := packLanes 32 ([mc, z.code, al, be] ++ [4, 5, 6, 7].map (fun l => lane 32 i.a l ||| lane 32 i.b l))
  .ok { val := v, rc := anyNan fmt32 v, srng := some z.srng }

/-- OSM.a (R140). -/
def osmApply (x : Slot) (i : Opnds) : Except TrapReq PureOut :=
  let rm := slotMode x
  let al := fl fmt32 i.c 2
  let be := fl fmt32 i.c 3
  floatLanes i fmt32 (fun l s =>
    (fmt32.roundTo (((fl fmt32 i.a l).mul al).add rm ((fl fmt32 i.b l).mul be)) rm (slotSat x) s).nanLane fmt32)

/-- OSM; slot f must hold binary32 (R140, R131). -/
def valOsm : PureFn := fun x i =>
  if (fmtAt i.fmttab (slotF x)).fam == .f32 then (if x.imm.getLsbD 0 then osmApply x i else osmMerge x i)
  else .error (fmtBad (slotF x))

/-- FADD: lane-wise floating-point addition rounded once (R134). -/
def execFadd (x : Slot) (s : State) : Host.Outcome State Fault Refusal := firePure .fadd x s valFadd
/-- FSUB: lane-wise floating-point subtraction rounded once (R134). -/
def execFsub (x : Slot) (s : State) : Host.Outcome State Fault Refusal := firePure .fsub x s valFsub
/-- FMUL: lane-wise floating-point multiplication rounded once (R134). -/
def execFmul (x : Slot) (s : State) : Host.Outcome State Fault Refusal := firePure .fmul x s valFmul
/-- FMA: lane-wise fused multiply-add (R134). -/
def execFma (x : Slot) (s : State) : Host.Outcome State Fault Refusal := firePure .fma x s valFma
/-- FMS: lane-wise fused multiply-subtract (R134). -/
def execFms (x : Slot) (s : State) : Host.Outcome State Fault Refusal := firePure .fms x s valFms
/-- FNMA: lane-wise fused negated multiply-add (R134). -/
def execFnma (x : Slot) (s : State) : Host.Outcome State Fault Refusal := firePure .fnma x s valFnma
/-- FMIN: lane-wise floating-point minimum (R135). -/
def execFmin (x : Slot) (s : State) : Host.Outcome State Fault Refusal := firePure .fmin x s valFmin
/-- FMAX: lane-wise floating-point maximum (R135). -/
def execFmax (x : Slot) (s : State) : Host.Outcome State Fault Refusal := firePure .fmax x s valFmax
/-- FABS: lane-wise floating-point absolute value (R135). -/
def execFabs (x : Slot) (s : State) : Host.Outcome State Fault Refusal := firePure .fabs x s valFabs
/-- FNEG: lane-wise floating-point negation (R135). -/
def execFneg (x : Slot) (s : State) : Host.Outcome State Fault Refusal := firePure .fneg x s valFneg
/-- FSCL: lane-wise scaling by a power of two (R136). -/
def execFscl (x : Slot) (s : State) : Host.Outcome State Fault Refusal := firePure .fscl x s valFscl
/-- FRND: rounds each lane to an integral value under RM (R136). -/
def execFrnd (x : Slot) (s : State) : Host.Outcome State Fault Refusal := firePure .frnd x s valFrnd
/-- FCLS: writes a class bit for each floating-point lane (R137). -/
def execFcls (x : Slot) (s : State) : Host.Outcome State Fault Refusal := firePure .fcls x s valFcls
/-- FRED: reduces the floating-point lanes of opA by a fixed tree (R138). -/
def execFred (x : Slot) (s : State) : Host.Outcome State Fault Refusal := firePure .fred x s valFred
/-- FDOT2: two-term 16-bit dot product accumulated into binary32 lanes (R139). -/
def execFdot2 (x : Slot) (s : State) : Host.Outcome State Fault Refusal := firePure .fdot2 x s valFdot2
/-- OSM: merges online-softmax states (OSM.m) or their accumulators (OSM.a) (R140). -/
def execOsm (x : Slot) (s : State) : Host.Outcome State Fault Refusal := firePure .osm x s valOsm

end Sys2Proof.Machine
end

