-- ==== Sys2Proof/Machine/Scratch.lean ====
section
/-!
DEFINITION. Scratch.lean: class 0x9 (R170-R182): scratchpad, generators, store hold, decompressor control and queues. An
instruction puts its scratchpad accesses into its EQ at issue; they reach their banks in Order.lean, within the instruction's latency.
-/
namespace Sys2Proof.Machine

/-- The address in Mem.spad of an offset in the running context's partition (R170, R217). -/
def State.spadAt (s : State) (el off : Nat) : Nat := spadBase el + (s.elem el).ctx.mt.spbase.toNat + off

/-- SPSIZE of an element. -/
def State.spsize (s : State) (el : Nat) : Nat := (s.elem el).ctx.mt.spsize.toNat

/-- Bytes of the scratchpad at an address; none where a granule holds an uncorrectable error (R293). -/
def State.spadRead (s : State) (a n : Nat) : Option Nat :=
  if s.mem.spadErr.any (fun g => decide (a / 8 ≤ g) && decide (g * 8 < a + n)) then none else some (s.mem.spad.readN a n)

/-- Bytes written to the scratchpad: whole granules lose their errors; a part of a bad granule is not written (R293). -/
def State.spadWrite (s : State) (a n v : Nat) : Option State :=
  let whole := fun g => decide (a ≤ g * 8) && decide (g * 8 + 8 ≤ a + n)
  if s.mem.spadErr.any (fun g => decide (a / 8 ≤ g) && decide (g * 8 < a + n) && !whole g) then none
  else some { s with mem := { s.mem with spad := s.mem.spad.writeN a n v, spadErr := s.mem.spadErr.filter (fun g => !whole g) } }

/-- The PROT of an offset beyond the partition (R170). -/
def rangeTrap (off : Int) : TrapReq := protTrap 4 ((BitVec.ofInt 32 off).setWidth 64)

/-- The MEMUE of an offset or VA (R272). -/
def memueTrap (a : Nat) : TrapReq := { code := 0x12, cause := 0, info := BitVec.ofNat 64 a }

/-- An access of a firing (R224); the flight waits for it where `wait`. -/
def elemAccess (s : State) (f : Firing) (kind : AccKind) (tgt : AccTarget) (va bytes : Nat) (data : W256) (wait : Bool) : Access :=
  let c := (s.elem f.el).ctx
  { id := f.id, by_ := .elem f.el (if wait then f.id else 0) f.slot f.fcnt, kind, tgt, inst := c.inst.getD 0, asid := c.regs.asid, va, bytes,
    data, data2 := 0, xlat := .untried, ap := .std, pch := 0, off := 0, held := false, scope := 0, work := s.workOf f.el, sent := 0, waited := 0, leaf := 0, gone := false }

/-- A firing's access to the token at an offset of its partition, whose address is that of the partition at issue (R170, R217). -/
def spadAccess (s : State) (f : Firing) (kind : AccKind) (o bytes : Nat) (data : W256) (wait : Bool) : Access :=
  { elemAccess s f kind .spad o bytes data wait with off := s.spadAt f.el o }

/-- The access joins the tail of its EQ (R226, issue). -/
def State.toEq (s : State) (el : Nat) (a : Access) : State := s.modElem el (fun e => { e with eq := e.eq ++ [a] })

/-- LDS: the token at opA[31:0] (R171). -/
def execLds (x : Slot) (s : State) : Host.Outcome State Fault Refusal :=
  fire .lds x s (fun s f v =>
    let o := (bits v.a 0 32).toNat / 32 * 32
    if s.spsize f.el ≤ o then .error (rangeTrap (bits v.a 0 32).toNat)
    else .ok { lat := some 4, eff := fun t => t.toEq f.el (spadAccess s f .read o 32 0 true) })

/-- STS: the token at opA[31:0] becomes opB (R171). -/
def execSts (x : Slot) (s : State) : Host.Outcome State Fault Refusal :=
  fire .sts x s (fun s f v =>
    let o := (bits v.a 0 32).toNat / 32 * 32
    if s.spsize f.el ≤ o then .error (rangeTrap (bits v.a 0 32).toNat)
    else .ok { lat := some 2, eff := fun t => t.toEq f.el (spadAccess s f .write o 32 v.b true) })

/-- Addr(l) of LDSX and STSX (R171). -/
def laneAddr (x : Slot) (v : Opnds) (l : Nat) : Int :=
  let w : Int := slotW x / 8
  let a := ((bits v.a 0 32).toNat : Int) + getLane (slotU x) (slotW x) v.b l * w
  a - a % w

/-- The lanes' addresses in ascending lane order. -/
def laneAddrs (x : Slot) (v : Opnds) : List Int := (List.range (256 / slotW x)).map (laneAddr x v)

/-- The first lane address outside the partition. -/
def State.laneOut (s : State) (el : Nat) (x : Slot) (v : Opnds) : Option Int :=
  (laneAddrs x v).find? (fun a => decide (a < 0) || decide ((s.spsize el : Int) ≤ a))

/-- The distinct tokens touched, by the first lane that touches each (R234). -/
def laneTokens (x : Slot) (v : Opnds) : List Nat := ((laneAddrs x v).map (fun a => a.toNat / 32)).eraseDups

/-- D of R171. -/
def laneD (x : Slot) (v : Opnds) : Nat := (laneTokens x v).length

/-- The lanes that touch a token, ascending, each with its byte in the token. -/
def lanesAt (x : Slot) (v : Opnds) (tok : Nat) : List (Nat × Nat) :=
  ((List.range (256 / slotW x)).filter (fun l => (laneAddr x v l).toNat / 32 == tok)).map (fun l => (l, (laneAddr x v l).toNat % 32))

/-- The D accesses of an LDSX or STSX, one for each token, in the order of R234. -/
def laneAccesses (s : State) (f : Firing) (x : Slot) (v : Opnds) (kind : List (Nat × Nat) → AccKind) (data : W256) : List Access :=
  (laneTokens x v).map (fun t => spadAccess s f (kind (lanesAt x v t)) (32 * t) 32 data true)

/-- LDSX: each lane from its own address; L = 3 + D (R171). -/
def execLdsx (x : Slot) (s : State) : Host.Outcome State Fault Refusal :=
  fire .ldsx x s (fun s f v =>
    match s.laneOut f.el x v with
    | some a => .error (rangeTrap a)
    | none =>
      .ok { lat := some (3 + laneD x v), busy := laneD x v,
            eff := fun t => (laneAccesses s f x v (.gather (slotW x)) 0).foldl (fun t a => t.toEq f.el a) t })

/-- STSX: each lane to its own address, the higher lane staying where two meet; L = 2 + D (R171). -/
def execStsx (x : Slot) (s : State) : Host.Outcome State Fault Refusal :=
  fire .stsx x s (fun s f v =>
    match s.laneOut f.el x v with
    | some a => .error (rangeTrap a)
    | none =>
      .ok { lat := some (2 + laneD x v), busy := laneD x v,
            eff := fun t => (laneAccesses s f x v (.scatter (slotW x)) v.c).foldl (fun t a => t.toEq f.el a) t })

/-- Op of SATM on one lane of w bits (R172). -/
def satmLane (op w : Nat) (a b : Int) : Nat :=
  match op with
  | 0 => wrap w (a + b)
  | 1 => wrap w (min a b)
  | 2 => wrap w (max a b)
  | _ => wrap w b

/-- What SATM writes back: the old token combined lane by lane with opB (R172). -/
def satmValue (op w : Nat) (uns : Bool) (old b : W256) : W256 :=
  ofLanes w (256 / w) (fun l => satmLane op w (getLane uns w old l) (getLane uns w b l))

/-- SATM: the token's old value; the token combined with opB in one access (R172). -/
def execSatm (x : Slot) (s : State) : Host.Outcome State Fault Refusal :=
  fire .satm x s (fun s f v =>
    let o := (bits v.a 0 32).toNat / 32 * 32
    if s.spsize f.el ≤ o then .error (rangeTrap (bits v.a 0 32).toNat)
    else .ok { lat := some 5, busy := 2,
               eff := fun t => t.toEq f.el (spadAccess s f (.combine (slotM54 x) (slotW x) (slotU x)) o 32 v.b true) })

/-- The PROT of a generator without a valid descriptor (R174, R272). -/
def genTrap (g : Nat) : TrapReq := protTrap 8 (BitVec.ofNat 64 g)

/-- A generator with a descriptor loaded, its earlier state gone. -/
def Gen.load (d : W256) : Gen := { Gen.reset with desc := d, dv := true }

/-- A generator started from its first element, in or outside an open frame (R175, R177). -/
def Gen.start (g : Gen) (o : GenOwner) (stream : Nat) (framed : Bool) : Gen :=
  { Gen.load g.desc with state := .running, owner := o, moved := g.moved, stream, framed }

/-- Bursts issued so far end exactly here: a burst boundary (R175); a Z-block is one burst (R180). -/
def Gen.atBoundary (g : Gen) : Bool :=
  if dDcx g.desc then !g.inBlock else g.pos == dCount g.desc || g.pos * dEsz g.desc % (32 * dBurst g.desc) == 0

/-- No burst starts after the current one: suspended at a boundary, else once the burst ends, or once a fault is resolved (R175, R283). -/
def Gen.suspend (g : Gen) : Gen :=
  if g.state = .running then (if g.atBoundary then { g with state := .suspended } else { g with susp := true })
  else if g.state = .faulted then { g with susp := true } else g

/-- A suspended or faulted generator goes on from its saved state; a faulted access is tried again (R175, R283). -/
def Gen.resume (g : Gen) : Gen :=
  if g.state = .suspended ∨ g.state = .faulted then
    { g with state := .running, susp := false, failed := false,
             sq := g.sq.map (fun a => if a.xlat = .faulted then { a with xlat := .untried } else a) }
  else g

/-- GSET: loads the descriptor in opA; an invalid one raises PROT with CAUSE 8 and changes nothing (R174, R175). -/
def execGset (x : Slot) (s : State) : Host.Outcome State Fault Refusal :=
  fire .gset x s (fun _ f v =>
    if descOk (elType f.el) v.a then .ok { eff := fun t => t.modGen f.el (slotGen x) (fun g => { Gen.load v.a with moved := g.moved }) }
    else .error (genTrap (slotGen x)))

/-- A DCX stream's count of blocks starts afresh, and nothing of an earlier stream of its generator is kept (R180). -/
def MtPart.startDcx (m : MtPart) (g : Nat) (d : W256) : MtPart :=
  if dDcx d then { m with dcx := { m.dcx with blks := 0, bytes := m.dcx.bytes.drop g, began := m.dcx.began.drop g, bufs := m.dcx.bufs.filter (fun b => b.1 != g) } } else m

/-- GRUN: the stream from its first element; PROT with CAUSE 8 where no descriptor is loaded (R175). -/
def execGrun (x : Slot) (s : State) : Host.Outcome State Fault Refusal :=
  fire .grun x s (fun s f _ =>
    let g := s.gen f.el (slotGen x)
    if g.dv then
      .ok { eff := fun t => (t.modGen f.el (slotGen x) (fun g => g.start .elem (s.workOf f.el) (s.elem f.el).ctx.mt.frame.opened)).modMt f.el
              (fun m => m.startDcx (slotGen x) g.desc) }
    else .error (genTrap (slotGen x)))

/-- GSUS: no burst after the current one; RC 1 where the generator was running (R175). -/
def execGsus (x : Slot) (s : State) : Host.Outcome State Fault Refusal :=
  fire .gsus x s (fun s f _ =>
    let r := (s.gen f.el (slotGen x)).state == .running
    .ok { out := { val := 0, rc := r }, eff := fun t => t.modGen f.el (slotGen x) Gen.suspend })

/-- GRES: a suspended or faulted generator resumes (R175). -/
def execGres (x : Slot) (s : State) : Host.Outcome State Fault Refusal :=
  fire .gres x s (fun _ f _ => .ok { eff := fun t => t.modGen f.el (slotGen x) Gen.resume })

/-- The accesses of some generators of an element that have not performed. -/
def State.genAccesses (s : State) (el : Nat) (e : Nat) : List Nat :=
  let p := fun (a : Access) => match a.by_ with
    | .gen m g => m == el && e.testBit g
    | _ => false
  ((s.elem el).issued.filter p ++ (s.elem el).kept.filter p ++ (s.elem el).heldStores.filter p ++ s.travelling.filter p
    ++ (s.dom.unacked.map (fun w => w.acc)).filter p).map (fun a => a.id)

/-- SBAR: the generators of IMM[7:4] start no access until those of IMM[3:0] have performed what they issued (R176). -/
def execSbar (x : Slot) (s : State) : Host.Outcome State Fault Refusal :=
  fire .sbar x s (fun s f _ =>
    let waits := s.genAccesses f.el (immBits x 0 4)
    .ok { eff := fun t => if waits.isEmpty then t
      else t.modMt f.el (fun m => { m with sbars := m.sbars ++ [{ held := bits x.imm 4 4, waits }] }) })

/-- HOLD: opens the frame; PROT with CAUSE 9 where one is open (R177). -/
def execHold (x : Slot) (s : State) : Host.Outcome State Fault Refusal :=
  fire .hold x s (fun s f v =>
    let fr := (s.elem f.el).ctx.mt.frame
    if fr.opened then .error (protTrap 9 (fr.ivec.setWidth 64))
    else .ok { eff := fun t => t.modMt f.el (fun m =>
      { m with frame := { m.frame with opened := true, ivec := bits v.a 0 48 },
               gens := m.gens.map (fun (y : Nat × Gen) => (y.1, { y.2 with framed := false })) }) })

/-- A frame closed, nothing held. -/
def Frame.close (f : Frame) : Frame := { f with opened := false, held := [], bad := [], cmit := none, resumed := false }

/-- CMIT: the held stores are handed over one per fc, then the frame closes; L = CNT + 1 (R177). -/
def execCmit (x : Slot) (s : State) : Host.Outcome State Fault Refusal :=
  fire .cmit x s (fun s f _ =>
    let fr := (s.elem f.el).ctx.mt.frame
    let upd := fun (r : Frame) => if r.opened then (if r.held.isEmpty then r.close else { r with cmit := some f.id }) else r
    .ok { lat := some (fr.held.length + 1), busy := max 1 fr.held.length,
          eff := fun t => t.modMt f.el (fun m => { m with frame := upd m.frame }) })

/-- Every held store dropped and the frame closed, with the stores on their way to it (R177). -/
def State.discard (s : State) (el : Nat) : State :=
  let s := s.modElem el (fun e => { e with eq := e.eq.filter (fun a => !a.held) })
  s.modMt el (fun m => { m with frame := m.frame.close })

/-- DISC: drops every held store and closes the frame (R177). -/
def execDisc (x : Slot) (s : State) : Host.Outcome State Fault Refusal :=
  fire .disc x s (fun _ f _ => .ok { eff := fun t => t.discard f.el })

/-- DCXC: VER and FTSRC; another VER or a bit of opA[31:9] raises DCXFMT (R180). -/
def execDcxc (x : Slot) (s : State) : Host.Outcome State Fault Refusal :=
  fire .dcxc x s (fun _ f v =>
    if bits v.a 0 8 = 1 ∧ bits v.a 9 23 = 0 then
      .ok { eff := fun t => t.modMt f.el (fun m => { m with dcx := { m.dcx with ver := bits v.a 0 8, ftsrc := v.a.getLsbD 8 } }) }
    else .error { code := 0x15, cause := 0, info := 0 })

/-- BASE of a queue, a token offset. -/
def MtQueue.base (q : MtQueue) : Nat := (bits q.cfg 0 14).toNat

/-- The token offset n places behind the oldest entry of a ring. -/
def MtQueue.place (q : MtQueue) (n : Nat) : Nat := q.base + (q.head - q.base + n) % q.size

/-- A token joins a queue that has room: in its ring, at a token offset whose data is still to be written, or behind it in the linked segments
(R51, R181). -/
def MtQueue.push (q : MtQueue) (t : Token) : MtQueue × Option Nat :=
  if q.count < q.size then
    let p := q.place q.count
    ({ q with count := q.count + 1, tags := q.tags.put p (t.ct, t.ft) }, some p)
  else ({ q with count := q.count + 1, extra := q.extra ++ [t] }, none)

/-- The oldest token leaves a queue; the first of the linked segments takes the room in the ring, where its data is still to be written. -/
def MtQueue.pull (q : MtQueue) : MtQueue × Option (Nat × Token) :=
  let q1 := { q with head := q.place 1, count := q.count - 1, tags := q.tags.drop q.head }
  match q.extra with
  | [] => (q1, none)
  | t :: l =>
    let p := q1.place (q.size - 1)
    ({ q1 with extra := l, tags := q1.tags.put p (t.ct, t.ft) }, some (p, t))

/-- A queue of a memory tile replaced. -/
def State.setQueue (s : State) (el n : Nat) (q : MtQueue) : State := s.modMt el (fun m => { m with queues := m.queues.put n q })

/-- A token's data written into a ring place of a queue. -/
def State.writePlace (s : State) (el p : Nat) (t : Token) : State := (s.spadWrite (s.spadAt el (32 * p)) 32 t.data.toNat).getD s

/-- A channel's token joins the queue that backs it, its data in the same access (R170, R181). -/
def State.enqueue (s : State) (el n : Nat) (t : Token) : State :=
  let r := ((s.elem el).ctx.mt.queue n).push t
  let s := s.setQueue el n r.1
  match r.2 with
  | some p => s.writePlace el p t
  | none => s

/-- The oldest token of a queue; none where its ring place cannot be read. -/
def State.oldest (s : State) (el n : Nat) : Option Token :=
  let q := (s.elem el).ctx.mt.queue n
  let g := q.tags.getD q.head (.data, 0)
  (s.spadRead (s.spadAt el (32 * q.head)) 32).map (fun d => { ct := g.1, ft := g.2, data := BitVec.ofNat 256 d })

/-- The oldest token leaves the queue that backs a channel (R170, R181). -/
def State.dequeue (s : State) (el n : Nat) : State :=
  let r := ((s.elem el).ctx.mt.queue n).pull
  let s := s.setQueue el n r.1
  match r.2 with
  | some (p, t) => s.writePlace el p t
  | none => s

/-- A ring place lies beyond the partition: a write of QCFGq may put it there (R170, R181). -/
def State.placeOut (s : State) (el p : Nat) : Bool := decide (s.spsize el ≤ 32 * p)

/-- QAPP: appends opA with its head's tags, or as DATA with FT 0; QFULL on a full extensible queue, PROT on a place beyond the partition (R51, R170,
R181). -/
def execQapp (x : Slot) (s : State) : Host.Outcome State Fault Refusal :=
  fire .qapp x s (fun s f v =>
    let n := (bits x.mod 0 2).toNat
    let q := slotQueue (s.elem f.el).ctx x
    let t : Token := match v.ta with | some h => h | none => { ct := .data, ft := 0, data := v.a }
    if q.full then .error { code := 0x21, cause := 0, info := BitVec.ofNat 64 n }
    else match (q.push t).2 with
    | some p =>
      if s.placeOut f.el p then .error (rangeTrap (32 * p))
      else .ok { eff := fun u => (u.setQueue f.el n (q.push t).1).toEq f.el (spadAccess s f .write (32 * p) 32 t.data true) }
    | none => .ok { eff := fun u => u.setQueue f.el n (q.push t).1 })

/-- QTAK: the oldest entry, with its stored tags; RC 1 when the queue is then empty (R181). -/
def execQtak (x : Slot) (s : State) : Host.Outcome State Fault Refusal :=
  fire .qtak x s (fun s f _ =>
    let n := (bits x.mod 0 2).toNat
    let q := slotQueue (s.elem f.el).ctx x
    let r := q.pull
    if s.placeOut f.el q.head then .error (rangeTrap (32 * q.head))
    else .ok { out := { val := 0, rc := q.count == 1, tags := some (q.tags.getD q.head (.data, 0)) },
               eff := fun u =>
                 let u := (u.setQueue f.el n r.1).toEq f.el (spadAccess s f .take (32 * q.head) 32 0 true)
                 match r.2 with
                 | some (p, t) => u.toEq f.el (spadAccess s f .write (32 * p) 32 t.data false)
                 | none => u })

end Sys2Proof.Machine
end

