-- ==== Sys2Proof/Machine/Global.lean ====
section
/-!
DEFINITION. Global.lean: class 0xA (R183-R189): global memory, the weight store, signals and fences, near-bank commands, FLTR
and RDCE. An instruction puts its access into its EQ; what befalls the access is in Order.lean.
-/
namespace Sys2Proof.Machine

/-- VA of an address operand (R183). -/
def opVa (a : W256) : Nat := (bits a 0 56).toNat
/-- DEVID of an address operand. -/
def opDev (a : W256) : Nat := (bits a 64 10).toNat
/-- REM of an address operand. -/
def opRem (a : W256) : Bool := a.getLsbD 95

/-- A DEVID is reachable: another member of the domain whose route is valid (R309). -/
def State.reachable (s : State) (dev : Nat) : Bool :=
  s.dom.members.contains dev && dev != s.dom.self.toNat && (s.dom.routes.getD dev 0).getLsbD 31

/-- The trap at issue of an address operand: its range, its remote module, its alignment (R183, R185, R309). -/
def addrTrap (s : State) (a : W256) (align : Nat) : Option TrapReq :=
  if bits a 56 8 ≠ 0 then some (protTrap 4 (bits a 0 64))
  else if opRem a ∧ s.reachable (opDev a) = false then some (protTrap 6 (bits a 0 64))
  else if opVa a % align ≠ 0 then some (protTrap 5 (bits a 0 64))
  else none

/-- An access of a firing at an address operand (R184, R224). -/
def mkAccess (s : State) (f : Firing) (a : W256) (kind : AccKind) (bytes : Nat) (data data2 : W256) (wait held : Bool) (scope : Nat) :
    Access :=
  { elemAccess s f kind (if opRem a then .remote (opDev a) else .dram) (opVa a / bytes * bytes) bytes data wait with data2, held, scope }

/-- GLD: 32 bytes at the VA, when their data returns (R185). -/
def execGld (x : Slot) (s : State) : Host.Outcome State Fault Refusal :=
  fire .gld x s (fun s f v =>
    match addrTrap s v.a 1 with
    | some t => .error t
    | none => .ok { lat := none, eff := fun t => t.toEq f.el (mkAccess s f v.a .read 32 0 0 true false 0) })

/-- The stores of an element that are held or on their way to be (R177). -/
def State.heldCount (s : State) (el : Nat) : Nat :=
  (s.elem el).ctx.mt.frame.held.length + ((s.elem el).eq.filter (fun a => a.held)).length

/-- GST: 32 bytes at the VA; held in an MT, where it needs an open frame with room (R177, R185). -/
def execGst (x : Slot) (s : State) : Host.Outcome State Fault Refusal :=
  fire .gst x s (fun s f v =>
    let mt := elType f.el == .mt
    match addrTrap s v.a 1 with
    | some t => .error t
    | none =>
      if mt ∧ (s.elem f.el).ctx.mt.frame.opened = false then .error (protTrap 7 (bits v.a 0 64))
      else if mt ∧ 1024 ≤ s.heldCount f.el then
        .error { code := 0x23, cause := 0, info := BitVec.ofNat 64 (s.elem f.el).ctx.mt.frame.held.length }
      else .ok { eff := fun t => t.toEq f.el (mkAccess s f v.a .write 32 v.b 0 false mt 0) })

/-- GATM: an atomic on lane 0, aligned to its width (R185). -/
def execGatm (x : Slot) (s : State) : Host.Outcome State Fault Refusal :=
  fire .gatm x s (fun s f v =>
    let w := slotW x
    match addrTrap s v.a (w / 8) with
    | some t => .error t
    | none =>
      let k := AccKind.atomic (bits x.mod 4 3).toNat w (slotU x)
      .ok { lat := none, eff := fun t => t.toEq f.el
              (mkAccess s f v.a k (w / 8) (BitVec.ofNat 256 (lane w v.b 0)) (BitVec.ofNat 256 (lane w v.c 0)) true false 0) })

/-- The exit latency of a pseudo-channel's power state in fc (R269). -/
def Pch.exitFc (p : Pch) : Nat := match p.pwr with | 1 => 24 | 2 => 288 | _ => 0

/-- A pseudo-channel is woken: it is active from now on, its first service waits for the exit latency, its idle count restarts, and a refresh that
took it from power-down no longer returns it there (R269, R270). -/
def Pch.wake (p : Pch) (now : Nat) : Pch :=
  if p.pwr = 0 then { p with idleAt := now, fromPd := false }
  else { p with pwr := 0, wakeAt := some (now + p.exitFc), idleAt := now, fromPd := false }

/-- GPRF: wakes the PCH that holds the VA; no data, no fault (R186, R270). With REM = 1 the VA is another module's, and R186 names no effect there:
GPRF does nothing (log 62). -/
def execGprf (x : Slot) (s : State) : Host.Outcome State Fault Refusal :=
  fire .gprf x s (fun s f v =>
    let c := (s.elem f.el).ctx
    let va := opVa v.a
    let root := (c.inst.bind s.inst).map (fun i => i.root)
    let hit := match root with
      | some r => (match s.walk va 0 r 4 with
        | .leaf size e => some (leafCell size e va).2.1
        | .fault _ => none)
      | none => none
    match hit with
    | some p => if opRem v.a then .ok {} else .ok { eff := fun t => t.modPch p (fun q => q.wake t.now) }
    | none => .ok {})

/-- A token of a die's weight store lies in a weight image, read by the running net, that names the die (R186, R195). -/
def State.wsAllowed (s : State) (i : Nat) (die off : Nat) : Bool :=
  match s.inst i, s.region i with
  | some v, some r => v.img.objs.any (fun o =>
      bits o 0 4 == 9 && o.getLsbD 8 && r.dies[(bits o 96 4).toNat]? == some die
      && decide ((bits o 12 26).toNat * 16 ≤ off) && decide (off + 32 ≤ (bits o 12 26).toNat * 16 + (bits o 64 32).toNat))
  | _, _ => false

/-- WSLD: the token at a weight-store offset of the MT's own die, which must lie in a weight image (R186). -/
def execWsld (x : Slot) (s : State) : Host.Outcome State Fault Refusal :=
  fire .wsld x s (fun s f v =>
    let off := (bits v.a 0 30).toNat / 32 * 32
    let i := (s.elem f.el).ctx.inst.getD 0
    if s.wsAllowed i (elDie f.el) off then
      let a := elemAccess s f .read .ws off 32 0 true
      .ok { lat := none, eff := fun t => (t.toEq f.el a).modMt f.el (fun m => { m with wsDraw := some t.now }) }
    else .error (protTrap 4 (BitVec.ofNat 64 (bits v.a 0 30).toNat)))

/-- SIGW: a release that sets or adds opB[63:0] (R187, R233). -/
def execSigw (x : Slot) (s : State) : Host.Outcome State Fault Refusal :=
  fire .sigw x s (fun s f v =>
    match addrTrap s v.a 8 with
    | some t => .error t
    | none =>
      let a := mkAccess s f v.a (.sigw (slotM54 x == 1)) 8 ((bits v.b 0 64).setWidth 256) 0 true false (slotRm x)
      .ok { lat := none, eff := fun t => t.toEq f.el a })

/-- A SIGR or FNC holds back the element's later accesses until it completes (R187). -/
def State.addFence (s : State) (f : Firing) (scope : Nat) (waits : List Nat) : State :=
  s.modMt f.el (fun m => { m with fences := m.fences ++ [{ flight := f.id, scope, waits }] })

/-- SIGR: an acquire of a signal word; RC its compare with opB[63:0] (R187, R233). -/
def execSigr (x : Slot) (s : State) : Host.Outcome State Fault Refusal :=
  fire .sigr x s (fun s f v =>
    match addrTrap s v.a 8 with
    | some t => .error t
    | none =>
      let a := mkAccess s f v.a (.sigr (Cmp.ofCode (slotM54 x))) 8 ((bits v.b 0 64).setWidth 256) 0 true false (slotRm x)
      .ok { lat := none, eff := fun t => (t.addFence f (slotRm x) []).toEq f.el a })

/-- FNC: completes once every earlier access of the element and its generators has performed at the scope (R187, R233). -/
def execFnc (x : Slot) (s : State) : Host.Outcome State Fault Refusal :=
  fire .fnc x s (fun s f _ => .ok { lat := none, eff := fun t => t.addFence f (slotRm x) (s.outstanding f.el) })

/-- A near-bank command joins the EQ to the BN's PCH (R188). -/
def nearBank (s : State) (f : Firing) (k : AccKind) (v : W256) : Access :=
  { elemAccess s f k .nearBank 0 32 v false with pch := bnPch f.el }

/-- NBQ: Q[N] becomes opA when the command reaches the PCH (R188). -/
def execNbq (x : Slot) (s : State) : Host.Outcome State Fault Refusal :=
  fire .nbq x s (fun s f v => .ok { eff := fun t => t.toEq f.el (nearBank s f (.nbq (immBits x 0 3)) v.a) })

/-- The reserved bits of an NBR command token (R188). -/
def nbrReserved (v : W256) : Bool :=
  bits v 192 64 != 0 || bits v 112 16 != 0 || bits v 30 2 != 0 || bits v 10 6 != 0 || bits v 6 2 != 0

/-- NBR: posts the run of the command token; a reserved bit raises NBERR at issue (R188). -/
def execNbr (x : Slot) (s : State) : Host.Outcome State Fault Refusal :=
  fire .nbr x s (fun s f v =>
    if nbrReserved v.a then .error { code := 0x13, cause := 0, info := BitVec.ofNat 64 (8 + bnPch f.el % 64 * 256) }
    else .ok { eff := fun t => t.toEq f.el (nearBank s f .nbr v.a) })

/-- NBST: PCHST; RC 1 where a run is active (R188). -/
def execNbst (x : Slot) (s : State) : Host.Outcome State Fault Refusal :=
  fire .nbst x s (fun s f _ =>
    .ok { out := { val := BitVec.ofNat 256 (s.pchst (bnPch f.el)), rc := (s.pch (bnPch f.el)).active } })

/-- FLTR: the lanes of opA whose lane of opB is nonzero, packed; no token where none is (R189). -/
def execFltr (x : Slot) (s : State) : Host.Outcome State Fault Refusal :=
  fire .fltr x s (fun _ _ v =>
    let w := slotW x
    let l := (List.range (256 / w)).filter (fun l => lane w v.b l != 0)
    .ok { out := { val := packLanes w (l.map (fun l => lane w v.a l)), rc := !l.isEmpty,
                   ports := if l.isEmpty then some [] else none } })

/-- One lane of RDCE and CRED in a format: add, max or min (R189, R190). -/
def reduceCode (f : Fmt) (op a b : Nat) : Nat :=
  if f.fam = .i32 then
    match op with
    | 0 => wrap 32 (sext 32 a + sext 32 b)
    | 1 => wrap 32 (max (sext 32 a) (sext 32 b))
    | _ => wrap 32 (min (sext 32 a) (sext 32 b))
  else match op with
    | 0 => (f.roundTo ((f.decodeF a).add .rne (f.decodeF b)) .rne false 0).code
    | 1 => minMaxCode f true a b
    | _ => minMaxCode f false a b

/-- The families RDCE and CRED combine. -/
def reduceFam (f : Fam) : Bool := f == .f16 || f == .bf16 || f == .f32 || f == .i32

/-- opA and opB combined lane by lane. -/
def reduceLanes (f : Fmt) (op : Nat) (a b : W256) : W256 :=
  ofLanes f.fam.width f.lanes (fun l => reduceCode f op (lane f.fam.width a l) (lane f.fam.width b l))

/-- RDCE: opA and opB combined in slot f; RC 1 where a lane is NaN (R189). -/
def execRdce (x : Slot) (s : State) : Host.Outcome State Fault Refusal :=
  fire .rdce x s (fun _ _ v =>
    let f := fmtAt v.fmttab (slotF x)
    if reduceFam f.fam then
      let r := reduceLanes f (immBits x 0 2) v.a v.b
      .ok { out := { val := r, rc := f.fam.isFloat && anyNan f r }, lat := some 2 }
    else .error (fmtBad (slotF x)))

end Sys2Proof.Machine
end

