-- ==== Sys2Proof/Machine/Order.lean ====
section
/-!
DEFINITION. Order.lean: what befalls an access (R222, R224-R227, R282, R283, R293): translation, its way from an EQ or SQ to
the place where it performs, its performing and the answer to its issuer; the generators (R174, R228); tokens on circuits.
-/
namespace Sys2Proof.Machine

/-- The die of an instance's NSQ. -/
def State.nsqDie (s : State) (i : Nat) : Nat := match s.inst i with | some v => v.nsq / 8 | none => 0

/-- How a translation turns out: a cell, a trap code with its CAUSE, or a miss that a walk must serve. -/
inductive Trans where
  | cell (ap : Aperture) (pch off : Nat)
  | trap (code cause : Nat)
  | miss
  deriving DecidableEq, Repr

/-- A leaf applied to an access: its permissions, the areas kept from regions, its cell (R220, R221, R295). -/
def checkLeaf (k : AccKind) (size : Nat) (e : W64) (va : Nat) : Trans :=
  if !k.allowed e then .trap 0x11 3
  else if reservedPa (leafPa size e va) then .trap 0x11 3
  else match leafCell size e va with
    | (ap, p, o) => .cell ap p o

/-- A translation through a TLB. -/
def lookLeaf (l : List TlbEntry) (k : AccKind) (asid : BitVec 16) (va : Nat) : Trans :=
  match tlbLookup l asid va with
  | some t => checkLeaf k t.size t.pte va
  | none => .miss

/-- A miss asks the die's walker, once for each page of an ASID (R282). -/
def State.askWalk (s : State) (die : Nat) (asid : BitVec 16) (va root : Nat) : State :=
  s.modDie die (fun d =>
    if d.walks.any (fun w => w.asid == asid && w.page == va / 65536) then d
    else { d with walks := d.walks ++ [{ asid, page := va / 65536, root }] })

/-- An entry joins an element's first-level TLB of 256, the oldest leaving (R282, log 19). -/
def Elem.fillTlb (e : Elem) (t : TlbEntry) : Elem := { e with tlb := (t :: e.tlb).take 256 }

/-- An access of an element translated: first-level TLB, then the die's (R282). -/
def State.translate (s : State) (el : Nat) (a : Access) : Trans × State :=
  match lookLeaf (s.elem el).tlb a.kind a.asid a.va with
  | .miss =>
    match tlbLookup (s.die (elDie el)).tlb2 a.asid a.va with
    | some t => (checkLeaf a.kind t.size t.pte a.va, s.modElem el (fun e => e.fillTlb t))
    | none => (.miss, s.askWalk (elDie el) a.asid a.va (s.rootOf a.inst))
  | r => (r, s)

/-- The size code of the leaf by which an element's TLBs translate an access (R282, R284). -/
def State.leafOf (s : State) (el : Nat) (a : Access) : Nat :=
  match tlbLookup (s.elem el).tlb a.asid a.va with
  | some t => t.size
  | none => (match tlbLookup (s.die (elDie el)).tlb2 a.asid a.va with | some t => t.size | none => 0)

/-- A stream faults: its record has SRC 1, the generator shows STATE 3, the MT is not frozen; one that was suspended is so again once the fault is
resolved (R175, R177, R273, R283). -/
def State.streamFault (s : State) (i el g : Nat) (t : TrapReq) : State :=
  let s := s.modCtxOf el i (fun c => { c with mt := { c.mt with gens := c.mt.gens.put g { c.mt.gen g with state := .faulted, susp := (c.mt.gen g).susp || (c.mt.gen g).state == .suspended } } })
  s.trapNote i t 1 g 0 0 el (s.ivecAt i el)

/-- Where an access stands at its issuer: its EQ (0) or an SQ (1 + g), and its place there. -/
def State.accessAt (s : State) (el src idx : Nat) : Option Access :=
  match src with
  | 0 => (s.elem el).eq[idx]?
  | g + 1 => (s.gen el g).sq[idx]?

/-- The access at a place replaced. -/
def State.setAccess (s : State) (el src idx : Nat) (a : Access) : State :=
  match src with
  | 0 => s.modElem el (fun e => { e with eq := e.eq.set idx a })
  | g + 1 => s.modGen el g (fun v => { v with sq := v.sq.set idx a })

/-- The access at a place taken out. -/
def State.dropAccess (s : State) (el src idx : Nat) : State :=
  match src with
  | 0 => s.modElem el (fun e => { e with eq := e.eq.eraseIdx idx })
  | g + 1 => s.modGen el g (fun v => { v with sq := v.sq.eraseIdx idx })

/-- A fault of an access: an element's traps the element at its firing, a stream's is the stream's (R183, R279, R283). -/
def State.accessFault (s : State) (a : Access) (t : TrapReq) : State :=
  match a.by_ with
  | .elem el _ slot fcnt => s.trapLate a.inst el slot a.asid fcnt t
  | .gen el g => s.streamFault a.inst el g t
  | _ => s

/-- The access's turn came and its translation is not there: it waits, faulted or for a walk. -/
def State.stall (s : State) (el src idx : Nat) (a : Access) (x : Xlat) : State := s.setAccess el src idx { a with xlat := x }

/-- An access meets a fault where it is to leave: it waits there as faulted and its issuer traps; one that has been abandoned is dropped (R278, R283). -/
def State.refuse (s : State) (el src idx : Nat) (a : Access) (t : TrapReq) : State :=
  if a.gone then s.dropAccess el src idx else (s.stall el src idx a .faulted).accessFault a t

/-- The PCH whose queue an access of an element is for: its own for a near-bank command, that of its VA for DRAM; none where nothing is mapped. -/
def State.pchFor (s : State) (el : Nat) (a : Access) : Option Nat :=
  match a.tgt with
  | .nearBank => some a.pch
  | .dram => s.vaPch el a.asid a.inst a.va
  | _ => none

/-- Two accesses of an element may be of one target: the scratchpad, the WS, one remote module, or one PCH queue, which a VA that maps to nothing yet
may turn out to be (R184). -/
def State.sameTarget (s : State) (el : Nat) (a b : Access) : Bool :=
  let pch := fun (x : AccTarget) => x == .dram || x == .nearBank
  if pch a.tgt && pch b.tgt then
    match s.pchFor el a, s.pchFor el b with
    | some p, some q => p == q
    | _, _ => true
  else a.tgt == b.tgt

/-- The access is the head of its EQ, the one of its target, or of its SQ (R224, R226). -/
def State.atHead (s : State) (el src idx : Nat) (a : Access) : Bool :=
  match src with
  | 0 => ((s.elem el).eq.take idx).all (fun b => !s.sameTarget el b a)
  | _ => idx == 0

/-- An access joins the IB of its aperture and PCH (R226). -/
def State.toIngress (s : State) (a : Access) : State :=
  s.modPch a.pch (fun p => match a.ap with
    | .std => { p with ibStd := p.ibStd ++ [a] }
    | .nbl => { p with ibNbl := p.ibNbl ++ [a] }
    | .bar => { p with ibBar := p.ibBar ++ [a] }
    | .remote => { p with ibRem := p.ibRem ++ [a] })

/-- The run that an NBR command token posts (R188, R243). -/
def runOf (v : W256) (asid : BitVec 16) (inst : Nat) (owner : RunOwner) : NbRun :=
  { mpc := (bits v 0 6).toNat, lc0 := bits v 32 32, lc1 := bits v 64 32, lr0 := bits v 32 32, lr1 := bits v 64 32,
    row := bits v 16 14, pos := 0, len := bits v 96 16, wcnt := 0, bmask := bits v 128 64, rport := bits v 8 2, ebuf := [],
    banks := [], asid, inst, owner, segAt := 0, ended := none, waitAt := none }

/-- The command-queue entry of an access or near-bank command (R188, R239). -/
def Access.entry (a : Access) : CqEntry :=
  match a.kind with
  | .nbq n => .nbq n a.data a.inst
  | .nbr => .run (runOf a.data a.asid a.inst (match a.by_ with | .elem el _ slot _ => .elem el slot | _ => .elem 0 0))
  | _ => .access a

/-- An entry joins a command queue, which wakes its PCH (R239, R270). -/
def State.toQueue (s : State) (p : Nat) (c : CqEntry) : State :=
  s.modPch p (fun q => { q.wake s.now with cq := q.cq ++ [c] })

/-- The scratchpad bank of an address in Mem.spad: tile * 4 + bank (R170). -/
def spadBank (a : Nat) : Nat := a / 2 ^ 19 * 4 + a % 2 ^ 19 / 32 % 4

/-- The code of an access's kind in a request (log 11). -/
def AccKind.req : AccKind → Nat
  | .read => 0
  | .write => 1
  | .sigw add => if add then 3 else 2
  | .sigr c => 4 + c.code.toNat
  | .atomic op w uns => 8 + 16 * op + 256 * w + (if uns then 65536 else 0)
  | _ => 0

/-- The kind of a request's code. -/
def kindOfReq (n : Nat) : AccKind :=
  if 8 ≤ n % 16 then .atomic (n / 16 % 16) (n / 256 % 256) (decide (n / 65536 % 2 = 1))
  else if 4 ≤ n % 16 then .sigr (Cmp.ofCode (n % 4))
  else match n % 4 with
  | 0 => .read
  | 1 => .write
  | m => .sigw (decide (m = 3))

/-- What a request names beside its payload: address, size, number and kind (R312, log 11). -/
def reqWord (a : Access) : W128 := BitVec.ofNat 128 (a.va % 2 ^ 56 + a.bytes * 2 ^ 56 + a.id % 2 ^ 32 * 2 ^ 64 + a.kind.req * 2 ^ 96)

/-- A remote access enters its gateway circuit: a request packet leaves, and the answer is awaited (R237, R309). -/
def State.sendRemote (s : State) (a : Access) (dev : Nat) : State :=
  let die := match a.by_ with | .elem el _ _ _ => elDie el | .gen el _ => elDie el | _ => 0
  let type := match a.kind with | .read => 1 | .sigr _ => 1 | .write => 0 | _ => 4
  let tok := fun (v : W256) => ({ ct := .data, ft := 0, data := v } : Token)
  let s := s.sendPacket dev die type (match a.kind with | .read => [] | .atomic _ _ _ => [tok a.data, tok a.data2] | _ => [tok a.data]) (reqWord a)
  s.modDom (fun d => { d with unacked := d.unacked ++ [{ acc := a, dev, circ := die }] })

/-- The stream of an access: its offset lies in the partition, or in a weight image of the running net (R170, R186). -/
def State.streamRange (s : State) (el : Nat) (a : Access) : Bool :=
  match a.tgt with
  | .spad => decide (a.va + a.bytes ≤ s.spsize el)
  | .ws => s.wsAllowed a.inst (elDie el) (a.va / 32 * 32)
  | _ => true

/-- An instruction's access, not a generator's. -/
def Access.ofInstr (a : Access) : Bool := match a.by_ with | .elem _ _ _ _ => true | _ => false

/-- The scratchpad banks of a memory tile. -/
def mtBanks (el : Nat) : List Nat := (List.range 4).map (fun b => spadBank (spadBase el) + b)

/-- An instruction's access of a memory tile waits at one of its banks: the next stays in the EQ, so that they perform in issue order (R170). -/
def State.instrAtBank (s : State) (el : Nat) : Bool := (mtBanks el).any (fun b => (s.spadq.getD b []).any Access.ofInstr)

/-- A scratchpad bank has performed no access in this fc (R170). -/
def State.bankFree (s : State) (b : Nat) : Bool := match s.spadTurn.find? b with | some t => t.1 != s.now | none => true

/-- A scratchpad bank performs an access in this fc; the generator it serves is remembered (R170). -/
def State.useBank (s : State) (b : Nat) (g : Option Nat) : State :=
  { s with spadTurn := s.spadTurn.put b (s.now, g.getD (s.spadTurn.getD b (0, 3)).2) }

/-- An instruction's access is on its way to a bank, or the picker of its tile has still its turn in this fc: channels and generators wait (R170). -/
def State.instrFirst (s : State) (el b : Nat) : Bool :=
  (s.elem el).eq.any (fun a => a.tgt == .spad && spadBank a.off == b) || (s.spadq.getD b []).any Access.ofInstr
  || ((s.elem el).ctx.inst.isSome && (s.elem el).turn != some s.now)

/-- The token that a channel's queue holds longest may go on its way to the channel's input port (R90). -/
def State.channelReady (s : State) (c : Circuit) : Bool :=
  match c.via, c.dst with
  | some (mt, q), some d =>
    decide (0 < ((s.elem mt).ctx.mt.queue q).count) && s.portRoom d c.dstPort c.passed.length && !s.linksStopped c.inst && !s.isFrozen mt
  | _, _ => false

/-- A channel has a transfer to make at a bank (R170): a token that has come to a queue with room for it in its ring, or one that leaves. -/
def State.channelAt (s : State) (b : Nat) : Bool :=
  s.circs.vals.any (fun c => match c.via with
    | some (mt, q) =>
      let u := (s.elem mt).ctx.mt.queue q
      let at_ := fun p => spadBank (s.spadAt mt (32 * p)) == b
      (s.channelReady c && at_ u.head) || (s.arrived c && !s.linksStopped c.inst && decide (u.count < u.size) && at_ (u.place u.count))
    | none => false)

/-- The generator that a scratchpad bank grants next: of those whose SQ's head goes there, the one next in rotation after the one last served (R170). -/
def State.nextStreamAt (s : State) (el b : Nat) : Option Nat :=
  let last := (s.spadTurn.getD b (0, 3)).2
  ((List.range 4).map (fun k => (last + 1 + k) % 4)).find? (fun g => (s.gen el g).pending.head?.any (fun a =>
    a.tgt == .spad && !a.held && a.xlat == .untried && s.streamRange el a && spadBank (s.spadAt el a.va) == b))

/-- A scratchpad bank grants a generator's access its place in BQ: nothing waits there, no instruction's access and no channel's transfer comes first, and
the generator is next in rotation (R170). BQ is then a FIFO (R224), in which an instruction's access finds at most one before it (log 69). -/
def State.granted (s : State) (el g b : Nat) : Bool :=
  (s.spadq.getD b []).isEmpty && !s.instrFirst el b && !s.channelAt b && s.nextStreamAt el b == some g

/-- ACCESS_LEAVE for an access whose turn it is (R226). -/
def State.leave (s : State) (el src idx : Nat) (a : Access) : State :=
  match a.tgt with
  | .spad =>
    if src = 0 ∧ s.instrAtBank el = true then s
    else if src = 0 ∨ s.streamRange el a then
      let at_ := if src = 0 then a.off else s.spadAt el a.va
      let b := spadBank at_
      if src != 0 && !s.granted el (src - 1) b then s
      else
      let s := s.dropAccess el src idx
      { s with spadq := s.spadq.put b (s.spadq.getD b [] ++ [{ a with off := at_, xlat := .done, sent := s.now }]) }
    else s.refuse el src idx a (protTrap 4 (BitVec.ofNat 64 a.va))
  | .ws =>
    if src = 0 ∨ s.streamRange el a then
      if src != 0 && (match (s.elem el).ctx.mt.wsDraw with | some t => decide (s.now < t + 6) | none => false) then s
      else
        let s := s.dropAccess el src idx
        let s := s.modMt el (fun m => { m with wsDraw := if src = 0 then m.wsDraw else some s.now })
        let b := a.va / 2 ^ 26
        s.modDie (elDie el) (fun d =>
          { d with wsq := d.wsq.put b (d.wsq.getD b [] ++ [{ a with off := elDie el * 2 ^ 30 + a.va, xlat := .done, sent := s.now }]) })
    else s.refuse el src idx a (protTrap 4 (BitVec.ofNat 64 a.va))
  | .remote dev =>
    if !s.reachable dev then s.refuse el src idx a (protTrap 6 (BitVec.ofNat 64 a.va))
    else if s.maySend dev (elDie el) then (s.dropAccess el src idx).sendRemote a dev
    else s
  | .nearBank =>
    if (s.pch a.pch).ingress.any (fun b => b.ofElem el) || decide (64 ≤ s.depth a.pch) then s
    else (s.dropAccess el src idx).toQueue a.pch { a with xlat := .done }.entry
  | .dram =>
    match s.translate el a with
    | (.cell ap p o, s) => (s.dropAccess el src idx).toIngress { a with ap, pch := p, off := o, xlat := .done, sent := s.now, leaf := s.leafOf el a }
    | (.trap c k, s) => s.refuse el src idx a { code := c, cause := k, info := BitVec.ofNat 64 a.va }
    | (.miss, s) => s.stall el src idx a .walking

/-- ACCESS_LEAVE: an access that is not held leaves its EQ or SQ for an IB or BQ, translated as it leaves (R222, R226). -/
def execAccessLeave (s : State) : Host.Outcome State Fault Refusal :=
  match s.focus with
  | .event (.accessLeave el src idx) =>
    match s.accessAt el src idx with
    | some a =>
      if a.held || a.xlat != .untried || !s.atHead el src idx a then .next s else .next (s.leave el src idx a)
    | none => .next s
  | _ => .next s

/-- A stream's store finds the hold buffer full: the invocation will be discarded (R177). -/
def State.holdOverflow (s : State) (el g : Nat) : State :=
  let n := (s.elem el).ctx.mt.frame.held.length
  let i := (s.elem el).ctx.inst.getD 0
  (s.freezeCtx el i).streamFault i el g { code := 0x23, cause := 0, info := BitVec.ofNat 64 n }

/-- A store joins the hold buffer of a context (R177). -/
def Ctx.keepHeld (c : Ctx) (a : Access) : Ctx := { c with mt := { c.mt with frame := { c.mt.frame with held := c.mt.frame.held ++ [a] } } }

/-- A held store moves to the tail of the hold buffer of its context, running or set aside, translated as it leaves its EQ or SQ (R177, R226). A stream's element counts as done there: the
stream ends with its last held store, so that CMIT need not wait for it (log 60). -/
def State.holdStore (s : State) (el src idx : Nat) (a : Access) : State :=
  let fr := (s.ctxOf el a.inst).mt.frame
  if src ≠ 0 ∧ fr.opened = false then
    s.refuse el src idx a (protTrap 7 (BitVec.ofNat 64 a.va))
  else if src ≠ 0 ∧ 1024 ≤ fr.held.length then (s.stall el src idx a .faulted).holdOverflow el (src - 1)
  else
    let keep := fun (s : State) (a : Access) =>
      let s := (s.dropAccess el src idx).modCtxOf el a.inst (fun c => c.keepHeld a)
      if src = 0 then s else s.modGen el (src - 1) (fun g => { g with done := g.done + 1 })
    match a.tgt with
    | .dram =>
      match s.translate el a with
      | (.cell ap p o, s) => keep s { a with ap, pch := p, off := o, xlat := .done, sent := s.now, leaf := s.leafOf el a }
      | (.trap c k, s) => s.refuse el src idx a { code := c, cause := k, info := BitVec.ofNat 64 a.va }
      | (.miss, s) => s.stall el src idx a .walking
    | _ => keep s { a with xlat := .done, sent := s.now }

/-- ACCESS_HOLD: a store that R177 holds moves from the head of its EQ or SQ into the hold buffer (R226). -/
def execAccessHold (s : State) : Host.Outcome State Fault Refusal :=
  match s.focus with
  | .event (.accessHold el src idx) =>
    match s.accessAt el src idx with
    | some a =>
      if !a.held || a.xlat != .untried || !s.atHead el src idx a then .next s else .next (s.holdStore el src idx a)
    | none => .next s
  | _ => .next s

/-- The first held store leaves the hold buffer; the frame closes with the last (R177). -/
def State.unhold1 (s : State) (el : Nat) (l : List Access) : State :=
  s.modMt el (fun m => { m with frame := if l.isEmpty then m.frame.close else { m.frame with held := l } })

/-- A CMIT that cannot hand over its next store traps its element, once; an error is counted (R177, R338). -/
def State.stopCmit (s : State) (el f : Nat) (t : TrapReq) (count : Option Nat) : State :=
  match (s.elem el).ctx.flights.find? (fun x => x.id == f) with
  | some x => if 0 < (s.elem el).frozen.trap then s else (match count with | some k => s.bump k | none => s).trapElem el x.slot x.fcnt t
  | none => s

/-- A CMIT hands over the next held store: it is committed, and held no longer (R177). One that the buffer cannot give back raises MEMUE (R293); one
to another module waits while its circuit may not send (R314), and raises PROT with CAUSE 6 where the module may not be reached (R237). -/
def State.handOver (s : State) (el : Nat) : State :=
  let fr := (s.elem el).ctx.mt.frame
  match fr.cmit, fr.held with
  | some f, a :: l =>
    if fr.bad.contains a.id then
      s.stopCmit el f (memueTrap a.va) (some 4)
    else match a.tgt with
    | .remote dev =>
      if !s.reachable dev then s.stopCmit el f (protTrap 6 (BitVec.ofNat 64 a.va)) none
      else if s.maySend dev (elDie el) then (s.unhold1 el l).sendRemote { a with held := false } dev else s
    | _ => (s.unhold1 el l).toIngress { a with held := false }
  | _, _ => s

/-- The head of the IB of an aperture. -/
def Pch.ib (p : Pch) : Aperture → List Access
  | .std => p.ibStd | .nbl => p.ibNbl | .bar => p.ibBar | .remote => p.ibRem

/-- The IB of an aperture without its head. -/
def Pch.popIb (p : Pch) : Aperture → Pch
  | .std => { p with ibStd := p.ibStd.tail }
  | .nbl => { p with ibNbl := p.ibNbl.tail }
  | .bar => { p with ibBar := p.ibBar.tail }
  | .remote => { p with ibRem := p.ibRem.tail }

/-- ACCESS_INGRESS: the head of an ingress FIFO moves to the tail of the command queue, which has 64 entries (R226, R239). -/
def execAccessIngress (s : State) : Host.Outcome State Fault Refusal :=
  match s.focus with
  | .event (.accessIngress p ap) =>
    match (s.pch p).ib ap with
    | a :: _ =>
      if 64 ≤ s.depth p then .next s else .next ((s.modPch p (fun q => q.popIb ap)).toQueue p (.access a))
    | [] => .next s
  | _ => .next s

/-- The new value of an atomic on w bits, and whether it writes (R185). -/
def atomicNew (op w : Nat) (uns : Bool) (old d d2 : Nat) : Nat × Bool :=
  let sg := fun (n : Nat) => if uns then (n : Int) else sext w n
  match op with
  | 0 => (wrap w (sg old + sg d), true)
  | 1 => (wrap w (min (sg old) (sg d)), true)
  | 2 => (wrap w (max (sg old) (sg d)), true)
  | 3 => (d, true)
  | 4 => (d, old == d2)
  | 5 => (old &&& d, true)
  | 6 => (old ||| d, true)
  | _ => (old ^^^ d, true)

/-- A compare of a signal word (R187, R198). -/
def cmpHolds (c : Cmp) (a b : W64) : Bool :=
  match c with
  | .eq => a == b
  | .ne => a != b
  | .geu => decide (b.toNat ≤ a.toNat)
  | .ltu => decide (a.toNat < b.toNat)

/-- What performing answers: the value taken, a result condition, or an uncorrectable error. -/
inductive Answer where
  | done (v : W256) (rc : Bool)
  | bad
  deriving DecidableEq, Repr

/-- The state with DRAM bytes written at a cell; a whole token loses its error (R293). -/
def State.dramWrite (s : State) (at_ n v : Nat) : State :=
  { s with mem := { s.mem with dram := s.mem.dram.writeN at_ n v,
                               dramErr := if n = 32 then s.mem.dramErr.filter (fun t => t != at_ / 32) else s.mem.dramErr } }

/-- The bits of a QCB that the host may write: QTAB, RING, EN, ASID, the levels, AGEI, MSIX and CRING; every other is RO or reserved (R7, R295). -/
def qcbRw : Nat :=
  (2 ^ 39 - 1) * 2 ^ 77 + (2 ^ 64 - 1) * 2 ^ 128 + 2 ^ 432 + (2 ^ 16 - 1) * 2 ^ 448 + 63 * 2 ^ 472 + (2 ^ 32 - 1) * 2 ^ 544 + (2 ^ 14 - 1) * 2 ^ 576
    + (2 ^ 64 - 1) * 2 ^ 704

/-- An access of the host. -/
def Access.ofHost (a : Access) : Bool := match a.by_ with | .host _ => true | _ => false

/-- What a write leaves at an address: a host's write of a QCB changes the RW fields alone (R295). -/
def Access.written (a : Access) (old : Nat) : Nat :=
  if a.ofHost = true ∧ 0xFFC000000 ≤ a.va ∧ a.va < 0xFFC800000 then
    let m := qcbRw / 2 ^ (8 * (a.va % 128)) % 2 ^ (8 * a.bytes)
    (BitVec.ofNat 256 old &&& ~~~BitVec.ofNat 256 m ||| (a.data &&& BitVec.ofNat 256 m)).toNat
  else a.data.toNat

/-- An access to DRAM performs at its cell (R226, R234, R293): one token, all at once. -/
def State.performDram (s : State) (a : Access) : Answer × State :=
  let at_ := cellAt (a.pch, a.off)
  let err := s.mem.dramErr.contains (at_ / 32)
  let old := s.mem.dram.readN at_ a.bytes
  let val : W256 := BitVec.ofNat 256 old
  if err && !(a.kind == .write && a.bytes == 32) then (.bad, s)
  else match a.kind with
  | .read => (.done val (nz val), s)
  | .write => (.done 0 false, s.dramWrite at_ a.bytes (a.written old))
  | .atomic op w uns =>
    let r := atomicNew op w uns old a.data.toNat a.data2.toNat
    (.done val (r.2 && r.1 != old), if r.2 then s.dramWrite at_ a.bytes r.1 else s)
  | .sigw add => (.done 0 false, s.dramWrite at_ 8 (if add then (old + a.data.toNat) % 2 ^ 64 else a.data.toNat))
  | .sigr c => (.done val (cmpHolds c (BitVec.ofNat 64 old) (bits a.data 0 64)), s)
  | _ => (.done 0 false, s)

/-- Lanes of w bits read from their bytes in the token at an address, every other lane 0; none where a granule of one is bad (R171, R293). -/
def State.gatherLanes (s : State) (at_ w : Nat) : List (Nat × Nat) → Option Nat
  | [] => some 0
  | (l, b) :: ls =>
    match s.spadRead (at_ + b) (w / 8), s.gatherLanes at_ w ls with
    | some v, some r => some (v * 2 ^ (w * l) + r)
    | _, _ => none

/-- Lanes of w bits of a value written at their bytes in the token at an address, in this order, and whether a bad granule refused one (R171, R293). -/
def State.scatterLanes (s : State) (at_ w : Nat) (v : W256) : List (Nat × Nat) → State × Bool
  | [] => (s, false)
  | (l, b) :: ls =>
    match s.spadWrite (at_ + b) (w / 8) (lane w v l) with
    | some t => t.scatterLanes at_ w v ls
    | none => ((s.scatterLanes at_ w v ls).1, true)

/-- A scratchpad access performs, the token's or a part of it all at once (R170-R172, R234, R293). -/
def State.performSpad (s : State) (a : Access) : Answer × State :=
  let read := fun (f : Nat → Answer × State) => match s.spadRead a.off a.bytes with | some v => f v | none => (.bad, s)
  match a.kind with
  | .read | .take => read (fun v => (.done (BitVec.ofNat 256 v) (nz (BitVec.ofNat 256 v : W256)), s))
  | .gather w l => (match s.gatherLanes a.off w l with
    | some v => (.done (BitVec.ofNat 256 v) false, s)
    | none => (.bad, s))
  | .scatter w l => (match s.scatterLanes a.off w a.data l with
    | (t, false) => (.done 0 false, t)
    | (t, true) => (.bad, t))
  | .combine op w uns => read (fun v =>
      let old : W256 := BitVec.ofNat 256 v
      (.done old (nz old), (s.spadWrite a.off 32 (satmValue op w uns old a.data).toNat).getD s))
  | _ => (match s.spadWrite a.off a.bytes a.data.toNat with
    | some t => (.done 0 false, t)
    | none => (.bad, s))

/-- A weight-store read performs (R186, R293). -/
def State.performWs (s : State) (a : Access) : Answer × State :=
  if (s.die (a.off / 2 ^ 30)).wsErr.any (fun g => decide (a.va / 8 ≤ g) && decide (g * 8 < a.va + a.bytes)) then (.bad, s)
  else
    let v : W256 := BitVec.ofNat 256 (s.mem.ws.readN a.off a.bytes)
    (.done v (nz v), s)

/-- A flight takes what an access of a kind answers: lanes join those gathered before, a taken token keeps its firing's own RC, and a flight with a
fixed latency keeps it (R170, R171, R181). -/
def Flight.take (f : Flight) (k : AccKind) (due : Nat) (v : W256) (rc : Bool) : Flight :=
  let f := { f with due := f.due.or (some due) }
  match k with
  | .gather _ _ => { f with val := f.val ||| v, rc := nz (f.val ||| v) }
  | .take => { f with val := v }
  | _ => { f with val := v, rc := rc }

/-- The flight an access answers takes its result, `due` being the fc of its completion where none is fixed; a suspended context's flight takes it too
(R286). -/
def Ctx.answer (c : Ctx) (id : Nat) (k : AccKind) (due : Nat) (v : W256) (rc : Bool) : Ctx :=
  { c with flights := c.flights.map (fun f => if f.id = id then f.take k due v rc else f) }

/-- The flight of an access that met an uncorrectable error delivers no data (R183). -/
def Ctx.refuse (c : Ctx) (id : Nat) : Ctx :=
  { c with flights := c.flights.map (fun f => if f.id = id then { f with due := none } else f) }

/-- A generator's access performed: a read's data lands in stream order, a write counts as done (R175, R228). -/
def Gen.answer (g : Gen) (a : Access) (v : W256) : Gen :=
  if a.kind = .read then { g with reads := g.reads.map (fun r => if r.id = a.id then { r with data := some v } else r) }
  else { g with done := g.done + 1 }

/-- The state with a generator changed wherever its stream's context stands, running or suspended. -/
def State.modGenOf (s : State) (el g : Nat) (p : Gen → Bool) (f : Gen → Gen) : State :=
  s.modElem el (fun e =>
    let upd := fun (c : Ctx) => if p (c.mt.gen g) then { c with mt := { c.mt with gens := c.mt.gens.put g (f (c.mt.gen g)) } } else c
    { e with ctx := upd e.ctx, saved := e.saved.map (fun (x : Nat × Ctx) => (x.1, upd x.2)) })

/-- A stream counts an access of its own: a read it awaits, or a write of the same stream while that is not over; held writes have been counted as
they were held (log 60). -/
def Gen.expects (a : Access) (g : Gen) : Bool :=
  if a.kind = .read then g.reads.any (fun r => r.id == a.id)
  else g.dv && !dHold g.desc && g.stream == a.work && decide (g.done < g.pos)

/-- The latency from a weight store's read to its result (R186). -/
def wsLatency : Nat := 24

/-- An error that a stream's access met is the stream's own: a read it awaits, or a write of the same stream. -/
def Gen.owns (a : Access) (g : Gen) : Bool := if a.kind = .read then g.reads.any (fun r => r.id == a.id) else g.dv && g.stream == a.work

/-- The fc between a stream's access leaving its SQ and its performing are a sample (R336). -/
def State.noteTravel (s : State) (el g : Nat) (a : Access) : State :=
  s.push (s.samplesAny 1 (fun c => (bits c 0 32).toNat == el && (bits c 32 2).toNat == g) (s.now - a.sent))

/-- An access has performed: its issuer is answered (R183, R185-R187), but one that has been abandoned (R278). The NSQ's, the mirrors', the host's and a
peer's answers are given by their own parts. -/
def State.answerElem (s : State) (a : Access) (r : Answer) : State :=
  match a.by_, r with
  | .elem el f _ _, .done v rc =>
    if f = 0 then s
    else
      let due := s.now + (if a.tgt = .ws then wsLatency else 1)
      (s.modElem el (fun e => if a.kind.takes then e.mapCtxs (fun c => c.answer f a.kind due v rc) else e)).settleHeld el a.inst
  | .elem el f _ _, .bad =>
    let s := (s.countError a.tgt).modElem el (fun e => if a.kind.takes then e.mapCtxs (fun c => c.refuse f) else e)
    if a.gone then s else s.accessFault a (memueTrap a.va)
  | .gen el g, .done v _ => (s.modGenOf el g (Gen.expects a) (fun x => x.answer a v)).noteTravel el g a
  | .gen el g, .bad =>
    -- the stream faults at this access, which a resumption tries again, and its element freezes (R272)
    let s := (s.countError a.tgt).noteTravel el g a
    if a.gone || !((s.ctxOf el a.inst).mt.gen g).owns a then s
    else ((s.modCtxOf el a.inst (fun c =>
      { c with mt := { c.mt with gens := c.mt.gens.put g { c.mt.gen g with sq := { a with xlat := .faulted } :: (c.mt.gen g).sq } } })).freezeCtx el
        a.inst).accessFault a (memueTrap a.va)
  | _, _ => s

/-- The die's bank of the weight store is in refresh (R13). -/
def State.wsOffset (s : State) (die : Nat) : Nat := (s.now + (s.die die).phase) % 102400

/-- Bank b is in its refresh window. -/
def State.wsBusy (s : State) (die b : Nat) : Bool :=
  decide (b * 6400 ≤ s.wsOffset die) && decide (s.wsOffset die < b * 6400 + 1024)

/-- The access at the head of a scratchpad bank's BQ, which it serves next, and its generator (R226). -/
def State.nextAtBank (s : State) (_el b : Nat) : Option (Access × Option Nat) :=
  (s.spadq.getD b []).head?.map (fun a => (a, match a.by_ with | .gen _ g => some g | _ => none))

/-- The access at the head of a weight-store bank's BQ, which it serves next (R226). -/
def State.nextAtWs (s : State) (die bank : Nat) : Option Access := ((s.die die).wsq.getD bank []).head?

/-- The memory tile that an access to a weight store draws for, by its place on the die. -/
def Access.drawer (a : Access) : Nat := match a.by_ with | .elem el _ _ _ => el % 65536 | .gen el _ => el % 65536 | _ => 0

/-- The weight-store bank that a die serves next: of the banks outside refresh where a read waits, the one whose head draws for the MT that comes next
after the MT served last (R12, R13). -/
def State.wsNext (s : State) (die : Nat) : Option Nat :=
  let turn := fun (a : Access) => (a.drawer + 65535 - (s.die die).wsLast) % 65536
  ((s.die die).wsq.keys.filter (fun b => !s.wsBusy die b)).foldl (fun best b => match best, s.nextAtWs die b with
    | none, some _ => some b
    | some c, some a => (match s.nextAtWs die c with | some d => if turn a < turn d then some b else best | none => some b)
    | _, none => best) none

/-- A weight store serves at most 625 tokens, its 8 TB/s, in 4 fc. R12 gives the rate and no span over which it is counted: the windows of 4 fc, aligned
to the fc count, and any burst inside one are the model's choice (log 70). -/
def State.wsRoom (s : State) (die : Nat) : Bool := (s.die die).wsSpan != s.now / 4 || decide ((s.die die).wsGot < 625)

/-- A weight store has served a token of an MT. -/
def Die.served (d : Die) (now mt : Nat) : Die :=
  { d with wsSpan := now / 4, wsGot := if d.wsSpan = now / 4 then d.wsGot + 1 else 1, wsLast := mt }

/-- A scratchpad bank or a weight-store bank performs the head of its BQ: a scratchpad bank at most one in an fc, a weight-store bank in its turn (R12,
R13, R170, R226). -/
def State.performBank (s : State) (t : Target) : State :=
  match t with
  | .spad mt bank =>
    let b := spadBank (spadBase mt) + bank
    if s.bankFree b then
      match s.nextAtBank mt b with
      | some (a, g) =>
        let s := { s.useBank b g with spadq := s.spadq.put b (s.spadq.getD b []).tail }
        let r := s.performSpad a
        r.2.answerElem a r.1
      | none => s
    else s
  | .ws die bank =>
    if s.wsNext die != some bank || !s.wsRoom die then s
    else match s.nextAtWs die bank with
    | some a =>
      let s := s.modDie die (fun d => { d.served s.now a.drawer with wsq := d.wsq.put bank (d.wsq.getD bank []).tail })
      let r := s.performWs a
      r.2.answerElem a r.1
    | none => s
  | _ => s

/-- WS_REFRESH: a bank of a die's weight store enters or leaves its refresh window; the reads that waited for it go on, and
WSREADY follows in the next round (R13, R35). Nothing is stored: the window is the offset in the rotation. -/
def execWsRefresh (s : State) : Host.Outcome State Fault Refusal :=
  match s.focus with
  | .event (.wsRefresh die) =>
    let waiting := (List.range 16).filter (fun b => !s.wsBusy die b && !((s.die die).wsq.getD b []).isEmpty)
    .next (waiting.foldl (fun s _ => match s.wsNext die with | some b => s.performBank (.ws die b) | none => s) s)
  | _ => .next s

end Sys2Proof.Machine
end

