-- ==== Sys2Proof/Machine/Stream.lean ====
section
/-!
DEFINITION. Stream.lean: generators (R174-R176, R228), the decompressor (R178-R180), and tokens on circuits and through
queue-backed channels (R17, R90, R181, R226, R229).
-/
namespace Sys2Proof.Machine

/-- Some of these accesses have not performed at their target (R176). -/
def State.anyOutstanding (s : State) (ids : List Nat) : Bool :=
  let p := fun (a : Access) => ids.contains a.id
  s.elems.vals.any (fun e => e.issued.any p || e.kept.any p || e.heldStores.any p) || s.travelling.any p || s.dom.unacked.any (fun w => p w.acc)

/-- An SBAR holds a generator (R176). -/
def State.sbarHolds (s : State) (el g : Nat) : Bool :=
  (s.elem el).ctx.mt.sbars.any (fun b => b.held.getLsbD g && s.anyOutstanding b.waits)

/-- The TGT of a generator's accesses. -/
def dTarget (d : W256) : AccTarget :=
  match dTgt d with | 0 => .spad | 1 => .dram | 2 => .ws | _ => .remote (dDev d)

/-- An access of a generator at an address. -/
def genAccess (s : State) (el g va bytes : Nat) (data : W256) : Access :=
  let d := (s.gen el g).desc
  let c := (s.elem el).ctx
  { id := s.nextId, by_ := .gen el g, kind := if dWrite d then .write else .read, tgt := dTarget d, inst := c.inst.getD 0,
    asid := c.regs.asid, va, bytes, data, data2 := 0, xlat := .untried, ap := .std, pch := 0, off := 0, held := dHold d, scope := 0,
    work := (s.gen el g).stream, sent := 0, waited := 0, leaf := 0, gone := false }

/-- The generator may start its next access: it runs, no SBAR holds it, a miss entry is free, and a new burst starts only while it is not asked to
suspend, its element is not frozen and no access of it has faulted; a burst that has begun goes on (R175, R176, R226, R282, R283). -/
def State.mayGenerate (s : State) (el g : Nat) : Bool :=
  let v := s.gen el g
  (v.state == .running || (v.state == .faulted && !v.atBoundary)) && !(v.atBoundary && (v.susp || s.isFrozen el)) && !s.sbarHolds el g
  && (dTgt v.desc != 1 || decide (s.genMisses el g < 4))

/-- A suspension that was asked for takes effect at the burst boundary (R175). -/
def Gen.settle (g : Gen) : Gen := if g.susp ∧ g.atBoundary = true ∧ g.state = .running then { g with state := .suspended, susp := false } else g

/-- An access joins the tail of SQ(g); a read also awaits its place in stream order (R226, R228). -/
def State.toSq (s : State) (el g : Nat) (a : Access) (step : Nat) : State :=
  let read := a.kind == .read
  let s := s.modGen el g (fun v =>
    { v with sq := v.sq ++ [a], pos := v.pos + step, made := some s.now,
             reads := if read then v.reads ++ [{ id := a.id, data := none }] else v.reads })
  { s with nextId := s.nextId + 1 }

/-- The data that has landed at the front of a DCX stream joins the bytes of its block (R180). -/
def takeLanded : List StreamRead → List Byte × List StreamRead
  | [] => ([], [])
  | r :: l => match r.data with
    | some v => let (b, k) := takeLanded l; ((List.range 32).map (fun i => bits v (8 * i) 8) ++ b, k)
    | none => ([], r :: l)

/-- The bytes fetched of a generator's block. -/
def Dcx.fetched (d : Dcx) (g : Nat) : List Byte := d.bytes.getD g []

/-- Bytes join a generator's block, which its first bytes begin. -/
def Dcx.fetch (d : Dcx) (g now : Nat) (l : List Byte) : Dcx :=
  let b := d.fetched g
  { d with bytes := d.bytes.put g (b ++ l), began := if b.isEmpty then d.began.put g now else d.began }

/-- The landed data of a DCX stream moved into its block. -/
def State.pullBlock (s : State) (el g : Nat) : State :=
  let r := takeLanded (s.gen el g).reads
  if r.1.isEmpty then s
  else (s.modGen el g (fun v => { v with reads := r.2 })).modMt el (fun m => { m with dcx := m.dcx.fetch g s.now r.1 })

/-- The field of a Z-block header from byte `at_`, n bytes (R178). -/
def blockField (b : List Byte) (at_ n : Nat) : Nat := leNat ((b.drop at_).take n)

/-- CODLEN of a block. -/
def blockCodlen (b : List Byte) : Nat := blockField b 8 4

/-- The tokens a block takes: one until its header is there, or where CODLEN is out of range (R178, R180). -/
def blockTokens (b : List Byte) : Nat :=
  if b.length < 32 ∨ blockCodlen b = 0 ∨ 8192 < blockCodlen b then 1 else (16 + blockCodlen b + 31) / 32

/-- ACCESS_GENERATE for a read or write stream without DCX: its next element (R174). -/
def State.generatePlain (s : State) (el g : Nat) : State :=
  let v := s.gen el g
  let d := v.desc
  let va := dAddr d v.pos
  if v.pos < dCount d ∧ s.mayGenerate el g = true then
    if dWrite d then
      let j := dPort d
      match (s.elem el).ctx.ports.head j with
      | none => s
      | some t =>
        let o := v.pos * dEsz d % 32
        let last := o + dEsz d == 32 || v.pos + 1 == dCount d
        if last && v.moved == some s.now then s
        else
          let a := genAccess s el g va (dEsz d) (BitVec.ofNat 256 (t.data.toNat >>> (8 * o) % 2 ^ (8 * dEsz d)))
          let s := (s.toSq el g a 1).modGen el g (fun v => if last then { v with moved := some s.now } else v)
          let s := if last then s.modPorts el (fun p => p.pops [j]) else s
          s.modGen el g Gen.settle
    else (s.toSq el g (genAccess s el g va (dEsz d) 0) 1).modGen el g Gen.settle
  else s.modGen el g Gen.settle

/-- The bytes of a DCX stream's block still to be asked for, as the offset of the next token; none where all are (R180). -/
def State.nextBlockToken (s : State) (el g : Nat) : Option Nat :=
  let v := s.gen el g
  let b := (s.elem el).ctx.mt.dcx.fetched g
  let asked := b.length / 32 + v.reads.length
  if v.pos < dCount v.desc ∧ asked < blockTokens b ∧ (0 < asked ∨ (s.elem el).ctx.mt.dcx.bufs.length < 2) then some asked else none

/-- ACCESS_GENERATE for a DCX stream: the next token of its block; a block is one burst (R180). -/
def State.generateDcx (s : State) (el g : Nat) : State :=
  let s := s.pullBlock el g
  match s.nextBlockToken el g with
  | none => s
  | some n =>
    let va := dAddr (s.gen el g).desc (s.gen el g).pos + 32 * n
    if s.mayGenerate el g then (s.toSq el g (genAccess s el g va 32 0) 0).modGen el g (fun v => { v with inBlock := true }) else s

/-- ACCESS_GENERATE: a running generator puts its next access into its SQ (R226). -/
def execAccessGenerate (s : State) : Host.Outcome State Fault Refusal :=
  match s.focus with
  | .event (.accessGenerate el g) =>
    if dDcx (s.gen el g).desc then .next (s.generateDcx el g) else .next (s.generatePlain el g)
  | _ => .next s

/-- A token enters an element's output staging. -/
def State.stage (s : State) (el j : Nat) (t : Token) : State :=
  s.modPorts el (fun p => { p with outq := p.outq.put j (p.outq.getD j [] ++ [{ firing := 0, tok := some t }]) })

/-- The output port of a stream has room, and its generator has not moved a token in this fc (R175). -/
def State.mayStage (s : State) (el g : Nat) : Bool :=
  let v := s.gen el g
  !s.isFrozen el && decide (0 < freeEntries (s.elem el).ctx.ports (dPort v.desc)) && v.moved != some s.now

/-- A read stream whose elements have all been emitted sends its TAIL where FRM asks for one, and is done (R173, R175). -/
def State.endStream (s : State) (el g : Nat) : State :=
  let v := s.gen el g
  if v.dv && v.done == dCount v.desc && (v.state == .running || v.state == .suspended) && v.sq.isEmpty then
    if dFrm v.desc && !dWrite v.desc && !v.tailed then
      if s.mayStage el g then
        (s.stage el (dPort v.desc) { ct := .tail, ft := dFtr v.desc, data := 0 }).modGen el g
          (fun v => { v with tailed := true, moved := some s.now, state := .done })
      else s
    else s.modGen el g (fun v => { v with state := .done })
  else s

/-- The low n bytes of a value. -/
def lowBytes (v : W256) (n : Nat) : List Byte := (List.range n).map (fun i => bits v (8 * i) 8)

/-- The elements that have landed at the front of a read stream, until a token is full: the bytes, how many elements, and what
remains (R174). -/
def packLanded (esz : Nat) : List StreamRead → List Byte → Nat → List Byte × Nat × List StreamRead
  | [], b, n => (b, n, [])
  | r :: l, b, n =>
    if b.length ≥ 32 then (b, n, r :: l)
    else match r.data with
      | some v => packLanded esz l (b ++ lowBytes v esz) (n + 1)
      | none => (b, n, r :: l)

/-- A read stream emits its next token once it is full, or padded with zeros at the stream's end (R174, R175). -/
def State.emitStream (s : State) (el g : Nat) : State :=
  let v := s.gen el g
  if !v.dv || dDcx v.desc || dWrite v.desc || v.state == .idle || v.state == .done || !s.mayStage el g then s
  else
    let esz := dEsz v.desc
    let r := packLanded esz v.reads v.pack 0
    let done := v.done
    let total := done + (v.pack.length / esz) + r.2.1
    if r.1.length = 32 ∨ (r.1 ≠ [] ∧ total = dCount v.desc) then
      let t : Token := { ct := .data, ft := dFtr v.desc, data := BitVec.ofNat 256 (leNat r.1) }
      (s.stage el (dPort v.desc) t).modGen el g
        (fun v => { v with pack := [], reads := r.2.2, done := total, moved := some s.now })
    else s.modGen el g (fun v => { v with pack := r.1, reads := r.2.2 })

/-- One Rice code of a payload, at most 255 one bits, read from a bit position: z and the position behind it (R179). -/
def riceUnary (p : Nat) : Nat → Nat → Nat → Option (Nat × Nat)
  | 0, _, _ => none
  | f + 1, at_, n => if p.testBit at_ then riceUnary p f (at_ + 1) (n + 1) else some (n, at_ + 1)

/-- The raw byte of a z (R179). -/
def unzigzag (z : Nat) : Nat := if z % 2 = 0 then z / 2 else (256 - (z + 1) / 2) % 256

/-- n raw bytes decoded from a payload; none where a code is malformed (R179). -/
def riceDecode (p k : Nat) : Nat → Nat → Option (List Nat × Nat)
  | 0, at_ => some ([], at_)
  | n + 1, at_ =>
    match riceUnary p 256 at_ 0 with
    | none => none
    | some (u, at1) =>
      let z := u * 2 ^ k + p / 2 ^ at1 % 2 ^ k
      if 255 < z then none
      else (riceDecode p k n (at1 + k)).map (fun r => (unzigzag z :: r.1, r.2))

/-- What a Z-block decodes to: DCXFMT, DCXSUM, or its raw bytes and FSLOT (R178-R180). -/
inductive BlockResult where
  | malformed
  | badSum
  | ok (raw : List Nat) (fslot : BitVec 3)
  deriving DecidableEq, Repr

/-- Decode and check a Z-block (R178-R180). -/
def decodeBlock (ver : Byte) (b : List Byte) : BlockResult :=
  let raw := blockField b 4 2
  let k := blockField b 6 1
  let cod := blockCodlen b
  let fs := blockField b 3 1
  if blockField b 0 2 ≠ 0x5A42 ∨ blockField b 2 1 ≠ ver.toNat ∨ blockField b 2 1 ≠ 1 ∨ 7 < fs ∨ raw % 32 ≠ 0 ∨ raw < 32 ∨ 4096 < raw
    ∨ 7 < k ∨ blockField b 7 1 ≠ 0 ∨ cod = 0 ∨ 8192 < cod then .malformed
  else
    let p := leNat ((b.drop 16).take cod)
    match riceDecode p k raw 0 with
    | none => .malformed
    | some (l, last) =>
      if last ≤ 8 * (cod - 1) ∨ 8 * cod < last ∨ p / 2 ^ last ≠ 0 then .malformed
      else if crcBytes 0xFFFFFFFF l ^^^ 0xFFFFFFFF ≠ blockField b 12 4 then .badSum
      else .ok l (BitVec.ofNat 3 fs)

/-- The tokens of a block's raw bytes. -/
def rawTokens (l : List Nat) : Nat → List W256
  | 0 => []
  | n + 1 => BitVec.ofNat 256 (packNat 8 (l.take 32)) :: rawTokens (l.drop 32) n

/-- The byte offset of a generator's block in its stream: its address less BASE (R273, log 20). -/
def Gen.blockOffset (g : Gen) : Nat := (dAddr g.desc g.pos + 2 ^ 56 - dBase g.desc) % 2 ^ 56

/-- The decoder has ended a generator's block. -/
def Dcx.finish (d : Dcx) (g now : Nat) : Dcx := { d with bytes := d.bytes.drop g, began := d.began.drop g, idleAt := now }

/-- The fc before which a generator's block cannot have been decoded: at most 8 of its raw bytes per fc, from its first bytes on, one block after
another (R180, log 77). -/
def Dcx.decodedAt (d : Dcx) (g : Nat) : Nat := max (d.began.getD g 0) d.idleAt + (min 4096 (blockField (d.fetched g) 4 2) + 7) / 8

/-- A block that fails: the generator is faulted with its state at the block's first byte (R180). -/
def State.blockFault (s : State) (el g code : Nat) : State :=
  let off := (s.gen el g).blockOffset
  let s := s.modGen el g (fun v => { v with inBlock := false })
  let s := s.modMt el (fun m => { m with dcx := m.dcx.finish g s.now })
  s.streamFault ((s.elem el).ctx.inst.getD 0) el g { code, cause := 0, info := BitVec.ofNat 64 off }

/-- DCX_BLOCK_CHECK: a fetched Z-block has been decoded, 8 raw bytes per fc at most, and its CRC is checked; DCXFMT or DCXSUM, or its tokens wait in a
buffer (R178-R180). -/
def execDcxBlockCheck (s : State) : Host.Outcome State Fault Refusal :=
  match s.focus with
  | .event (.dcxBlockCheck el g) =>
    let s := s.pullBlock el g
    let m := (s.elem el).ctx.mt
    let b := m.dcx.fetched g
    let v := s.gen el g
    if b.isEmpty || b.length != 32 * blockTokens b || !v.reads.isEmpty || v.state != .running || decide (2 ≤ m.dcx.bufs.length)
        || decide (s.now < m.dcx.decodedAt g) then .next s
    else match decodeBlock m.dcx.ver b with
    | .malformed => .next (s.blockFault el g 0x15)
    | .badSum => .next (s.blockFault el g 0x14)
    | .ok raw fs =>
      let buf : DcxBuf := { toks := rawTokens raw (raw.length / 32), ft := if m.dcx.ftsrc then dFtr v.desc else fs, at_ := v.blockOffset }
      let s := s.modMt el (fun m => { m with dcx := { m.dcx.finish g s.now with bufs := m.dcx.bufs ++ [(g, buf)] } })
      .next (s.modGen el g (fun v => Gen.settle { v with pos := v.pos + 1, inBlock := false }))
  | _ => .next s

/-- The buffers after the first token of a generator's oldest block has gone, and whether the block is over. -/
def popBuf (g : Nat) : List (Nat × DcxBuf) → List (Nat × DcxBuf) × Bool
  | [] => ([], false)
  | (h, b) :: l =>
    if h = g then (if b.toks.length ≤ 1 then (l, true) else ((h, { b with toks := b.toks.tail }) :: l, false))
    else let r := popBuf g l; ((h, b) :: r.1, r.2)

/-- DCX_EMIT: a token of a verified block goes to the output port, at most one per 4 fc (R180). -/
def execDcxEmit (s : State) : Host.Outcome State Fault Refusal :=
  match s.focus with
  | .event (.dcxEmit el g) =>
    let d := (s.elem el).ctx.mt.dcx
    let paced := match d.last with | some t => decide (t + 4 ≤ s.now) | none => true
    match d.bufs.find? (fun b => b.1 == g) with
    | some (_, b) =>
      match b.toks with
      | v :: _ =>
        if paced && s.mayStage el g then
          let r := popBuf g d.bufs
          let s := s.stage el (dPort (s.gen el g).desc) { ct := .data, ft := b.ft, data := v }
          let n := if r.2 && d.blks != 0xFFFF then d.blks + 1 else d.blks
          let s := s.modMt el (fun m => { m with dcx := { m.dcx with bufs := r.1, last := some s.now, blks := n } })
          .next (s.modGen el g (fun v => { v with moved := some s.now, done := if r.2 then v.done + 1 else v.done }))
        else .next s
      | [] => .next s
    | none => .next s
  | _ => .next s

/-- A circuit can take the token at the front of its output port: one an fc, which the input port, or the links to the backing MT, have room for (R17,
R226). -/
def State.maySendOn (s : State) (c : Circuit) : Bool :=
  let filled := match ((s.elem c.src).ctx.ports.outq.getD c.srcPort []).head? with | some e => e.tok.isSome | none => false
  filled && !s.linksStopped c.inst
  && (match c.via, c.dst with
      | some _, _ => decide (c.flying.length < max 1 c.firstHops)
      | none, some d => s.portRoom d c.dstPort c.flying.length
      | none, none => true)

/-- A link of a region has moved a token: its detector sees it (R50). -/
def State.noteLink (s : State) (i : Nat) : State := s.modRegion i (fun r => { r with moved := true })

/-- A token leaves its output port on a circuit; a sink discards it (R89, R226). -/
def State.sendToken (s : State) (k : Nat) (c : Circuit) : State :=
  match (s.elem c.src).ctx.ports.outq.getD c.srcPort [] with
  | { tok := some t, .. } :: l =>
    let s := s.modPorts c.src (fun p => { p with outq := p.outq.put c.srcPort l })
    let s := s.noteLink c.inst
    if c.dst.isNone && c.via.isNone then s
    else { s with circs := s.circs.put k { c with flying := c.flying ++ [(s.now, t)] } }
  | _ => s

/-- A token enters an input port: its queue, or while the element is frozen and the queue is full a landing entry. Tokens that have landed come before
it (R17, R44). -/
def State.enterPort (s : State) (el j : Nat) (t : Token) : State :=
  s.modCtx el (fun c =>
    let p := c.ports
    let q := p.inq.getD j []
    if q.length < 4 ∧ p.land.getD j [] = [] then
      { c with ports := { p with inq := p.inq.put j (q ++ [t]),
                                 late := if c.coming.isEmpty then p.late else p.late.put j (p.late.getD j 0 + 1) } }
    else { c with ports := { p with land := p.land.put j (p.land.getD j [] ++ [t]) } })

/-- A port can take a token now: into its queue, where none has landed before it, or while the element is frozen into a landing entry. -/
def State.canEnter (s : State) (el j : Nat) : Bool :=
  let p := (s.elem el).ctx.ports
  (decide ((p.inq.getD j []).length < 4) && (p.land.getD j []).isEmpty) || (s.isFrozen el && decide ((p.land.getD j []).length < 4))

/-- A bank of a memory tile is free for a channel's transfer at a ring place (R170). -/
def State.channelBank (s : State) (mt p : Nat) : Option Nat :=
  let b := spadBank (s.spadAt mt (32 * p))
  if s.bankFree b && (s.spadq.getD b []).isEmpty && !s.instrFirst mt b then some b else none

/-- A channel's token reaches the queue that backs it, as a QAPP would: QFULL on a full extensible queue (R51, R170, R181). -/
def State.channelAppend (s : State) (k : Nat) (c : Circuit) (mt q : Nat) (t : Token) : State :=
  let u := (s.elem mt).ctx.mt.queue q
  if !u.full then
    let bank := if u.count < u.size then (s.channelBank mt (u.place u.count)).map some else some none
    match bank with
    | none => s
    | some b =>
    let s := (match b with | some b => s.useBank b none | none => s).enqueue mt q t
    { s with circs := s.circs.put k { c with flying := c.flying.tail } }.noteLink c.inst
  else if u.ext && (s.elem mt).frozen.trap == 0 then
    s.trapElem mt 0 ((s.elem mt).ctx.regs.fcnt + 1) { code := 0x21, cause := 0, info := BitVec.ofNat 64 q }
  else s

/-- The head token of a channel's first leg, if it has come, joins the queue that backs the channel. -/
def State.append (s : State) (k : Nat) (c : Circuit) : State :=
  match c.via, c.flying with
  | some (mt, q), (_, t) :: _ => if s.arrived c then s.channelAppend k c mt q t else s
  | _, _ => s

/-- TOKEN_DELIVER: the head token of a circuit that has come to its receiver enters the input port, or the queue that backs the channel (R226,
R341). -/
def execTokenDeliver (s : State) : Host.Outcome State Fault Refusal :=
  match s.focus with
  | .event (.tokenDeliver k) =>
    match s.circs.find? k with
    | some c =>
      if s.linksStopped c.inst then .next s
      else match c.passed, c.dst, c.flying, c.via with
      | (_, t) :: l, some d, _, some _ =>
        if s.passedOn c && s.canEnter d c.dstPort then
          .next (({ s with circs := s.circs.put k { c with passed := l } }.enterPort d c.dstPort t).noteLink c.inst)
        else .next (s.append k c)
      | _, _, _, some _ => .next (s.append k c)
      | _, some d, (_, t) :: l, none =>
        if s.arrived c && s.canEnter d c.dstPort then
          .next (({ s with circs := s.circs.put k { c with flying := l } }.enterPort d c.dstPort t).noteLink c.inst)
        else .next s
      | _, _, _, _ => .next s
    | none => .next s
  | _ => .next s

/-- The queue that backs a channel sends its oldest token on its way to the channel's input port, one per fc (R90, R170, R181). -/
def State.drainChannel (s : State) (k : Nat) (c : Circuit) : State :=
  match c.via with
  | some (mt, q) =>
    if s.channelReady c then
      match s.channelBank mt ((s.elem mt).ctx.mt.queue q).head, s.oldest mt q with
      | some b, some t =>
        let s := (s.useBank b none).dequeue mt q
        { s with circs := s.circs.put k { c with passed := c.passed ++ [(s.now, t)] } }.noteLink c.inst
      | _, _ => s
    else s
  | none => s

end Sys2Proof.Machine
end

