-- ==== Sys2Proof/Machine/Translate.lean ====
section
/-!
DEFINITION. Translate.lean: the page walker and the fault FIFO of a die (R220, R282, R283), the retry of a resolved fault, and
the driver's invalidations (R284).
-/
namespace Sys2Proof.Machine

/-- The kind of access a fault entry serves (R283). -/
def AccKind.faultKind : AccKind → FaultKind
  | .read | .sigr _ => .read
  | .write => .write
  | _ => .atomic

/-- An access waits for the walk of a page of an ASID. -/
def Access.awaits (a : Access) (asid : BitVec 16) (page : Nat) : Bool :=
  a.xlat == .walking && a.asid == asid && a.va / 65536 == page

/-- The accesses of a die's elements, with their elements, that a predicate picks. -/
def State.dieAccesses (s : State) (die : Nat) (p : Access → Bool) : List Access :=
  (s.elems.filter (fun (x : Nat × Elem) => elDie x.1 == die)).flatMap (fun x => x.2.issued.filter p)

/-- Every access of an element's EQ and SQs that is to leave changed. -/
def Elem.mapAccesses (e : Elem) (f : Access → Access) : Elem :=
  let gens := fun (c : Ctx) =>
    { c with mt := { c.mt with gens := c.mt.gens.map (fun (x : Nat × Gen) => (x.1, if x.2.failed then x.2 else { x.2 with sq := x.2.sq.map f })) } }
  { e with eq := e.eq.map f, ctx := gens e.ctx, saved := e.saved.map (fun (x : Nat × Ctx) => (x.1, gens x.2)) }

/-- The accesses of a die's elements that a predicate picks take a translation state. -/
def State.setXlat (s : State) (die : Nat) (p : Access → Bool) (x : Xlat) : State :=
  let f := fun (a : Access) => if p a then { a with xlat := x } else a
  { s with elems := s.elems.map (fun (y : Nat × Elem) => if elDie y.1 == die then (y.1, y.2.mapAccesses f) else y) }

/-- The signal word's VA of an action: its SIGNAL object's (R195). -/
def NetImg.signalVa (v : NetImg) (obj : Nat) : Nat := match v.objs[obj]? with | some o => (bits o 8 56).toNat | none => 0

/-- The word of a firing whose translation waits for a walk: a SIGN's or WATCH's (R280). -/
def FSlot.wordVa (v : NetImg) (f : FSlot) : Option Nat :=
  let code := (bits f.act 0 8).toNat
  if (code == 0x09 || code == 0x0A) && f.stage == .going && f.asked && !f.faulted then
    some (v.signalVa (bits f.act 8 8).toNat)
  else none

/-- The kind under which a firing's word faults: SIGN writes it, WATCH reads it. -/
def FSlot.wordKind (f : FSlot) : FaultKind := if bits f.act 0 8 = 0x09 then .atomic else .read

/-- The mirror places of an instance whose word's translation waits for a walk (R340). -/
def Inst.mirrorVa (v : Inst) (p : Nat) : Option Nat :=
  match v.mirrors.find? p with
  | some m => if m.asked && m.fault == 0 then
      some (v.img.signalVa (match v.img.places[p]? with | some d => (bits d 40 8).toNat | none => 0)) else none
  | none => none

/-- The instances whose NSQ lies on a die, of an ASID. -/
def State.nsqsOf (s : State) (die : Nat) (asid : BitVec 16) : List (Nat × Inst) :=
  List.filter (fun (x : Nat × Inst) => x.2.nsq / 8 == die && x.2.asid == asid) s.insts

/-- The kinds of access that wait for a page of an ASID at a die: elements, streams, firings and mirrors. -/
def State.waitingKinds (s : State) (die : Nat) (asid : BitVec 16) (page : Nat) : List FaultKind :=
  let accs := (s.dieAccesses die (fun a => a.awaits asid page && !a.gone)).map (fun a => a.kind.faultKind)
  let nsq := (s.nsqsOf die asid).flatMap (fun x =>
    (x.2.slots.vals.filter (fun f => (f.wordVa x.2.img).any (fun v => v / 65536 == page))).map FSlot.wordKind
    ++ (if x.2.mirrors.keys.any (fun p => (x.2.mirrorVa p).any (fun v => v / 65536 == page)) then [FaultKind.read] else []))
  (accs ++ nsq).eraseDups

/-- An XLATE's trap (R272). -/
def xlateTrap (cause va : Nat) : TrapReq := { code := 0x10, cause, info := BitVec.ofNat 64 va }

/-- A walk that ends in XLATE tells its NSQ actions and mirrors: a record of SRC 2 each, and nothing freezes (R280, R340). -/
def State.faultNsq (s : State) (die : Nat) (asid : BitVec 16) (page cause : Nat) : State :=
  (s.nsqsOf die asid).foldl (fun s x =>
    let s := x.2.slots.foldl (fun s (y : Nat × FSlot) =>
      match y.2.wordVa x.2.img with
      | some va => if va / 65536 = page then
          (s.modSlot x.1 y.1 (fun f => { f with faulted := true })).trapNote x.1 (xlateTrap cause va) 2 0 0 y.1 (s.nsqElem x.1) 0
        else s
      | none => s) s
    x.2.mirrors.keys.foldl (fun s p =>
      match x.2.mirrorVa p with
      | some va => if va / 65536 = page then
          let s := s.modInst x.1 (fun v => match v.mirrors.find? p with
            | some m => { v with mirrors := v.mirrors.put p { m with fault := 1, good := false, busy := false } }
            | none => v)
          s.trapNote x.1 (xlateTrap cause va) 2 0 0 0xFF (s.nsqElem x.1) 0
        else s
      | none => s) s) s

/-- A die has a fault entry for a page, ASID and kind (R283). -/
def Die.hasFault (d : Die) (asid : BitVec 16) (page : Nat) (k : FaultKind) : Bool :=
  d.faults.any (fun f => f.asid == asid && f.page == page && f.kind == k)

/-- The FIFO of 512 entries takes those that a page's faults still need (R283). -/
def State.faultRoom (s : State) (die : Nat) (asid : BitVec 16) (page : Nat) (kinds : List FaultKind) : Bool :=
  decide ((s.die die).faults.length + (kinds.filter (fun k => !(s.die die).hasFault asid page k)).length ≤ 512)

/-- An MSI-X vector is raised. -/
def State.raiseMsi (s : State) (v : Nat) : State := s.modBar (fun b => { b with msix := b.msix ++ [v] })

/-- A fault entry for each kind that has none yet for the page; in normal mode Markhor signals the host of each by the management vector (R283,
R306). -/
def State.addFaults (s : State) (die : Nat) (asid : BitVec 16) (page cause : Nat) (kinds : List FaultKind) : State :=
  kinds.foldl (fun s k =>
    if (s.die die).hasFault asid page k then s
    else
      let n := s.fresh
      let s := n.2.modDie die (fun d => { d with faults := d.faults ++ [{ num := n.1, asid, page, kind := k, cause, given := false }] })
      if s.cmd.mode = .normal then s.raiseMsi 0 else s) s

/-- The walk of a page has ended in a leaf: the die's TLB of 16,384 takes it and the accesses that waited try again (R282). -/
def State.walkLeaf (s : State) (die : Nat) (w : Walk) (size : Nat) (e : W64) : State :=
  let s := s.modDie die (fun d => { d with tlb2 := ({ asid := w.asid, page := w.page, size, pte := e } :: d.tlb2).take 16384 })
  s.setXlat die (fun a => a.awaits w.asid w.page) .untried

/-- The abandoned accesses that have faulted leave their EQs (R278). -/
def State.dropGone (s : State) : State :=
  { s with elems := s.elems.map (fun (x : Nat × Elem) => (x.1, { x.2 with eq := x.2.eq.filter (fun a => !(a.gone && a.xlat == Xlat.faulted)) })) }

/-- The walk of a page has ended in XLATE: fault entries, and every access that waited faults (R220, R283). -/
def State.walkFault (s : State) (die : Nat) (w : Walk) (cause : Nat) : State :=
  let s := s.addFaults die w.asid w.page cause (s.waitingKinds die w.asid w.page)
  let waiting := s.dieAccesses die (fun a => a.awaits w.asid w.page)
  let s := (s.setXlat die (fun a => a.awaits w.asid w.page) .faulted).dropGone
  let s := waiting.foldl (fun s a => if a.gone then s else s.accessFault a (xlateTrap cause a.va)) s
  s.faultNsq die w.asid w.page cause

/-- PAGE_WALK: one of the walks in flight at a die ends: the walker takes up to 8 misses in the order they came, and they end in any order. A full fault
FIFO keeps a walk waiting (R21, R282, R283). A table beyond the terabyte of DRAM is no address. -/
def execPageWalk (s : State) : Host.Outcome State Fault Refusal :=
  match s.focus with
  | .event (.pageWalk die idx) =>
    match ((s.die die).walks.take 8)[idx]? with
    | none => .next s
    | some w =>
      if 2 ^ 40 ≤ w.root then .fault .noSuchAddress
      else
        let t := s.modDie die (fun d => { d with walks := d.walks.eraseIdx idx })
        match s.walk (w.page * 65536) 0 w.root 4 with
        | .leaf size e => .next (t.walkLeaf die w size e)
        | .fault c =>
          if s.faultRoom die w.asid w.page (s.waitingKinds die w.asid w.page) then .next (t.walkFault die w c) else .next s
  | _ => .next s

/-- A TLB entry lies in an invalidation (R284). -/
def TlbEntry.dropped (t : TlbEntry) (asid : BitVec 16) (va : Nat) (size : Nat) : Bool :=
  t.asid == asid && (size == 3 || (t.page * 65536 / 2 ^ pageBits size == va / 2 ^ pageBits size)
    || (t.page * 65536 / 2 ^ pageBits t.size == va / 2 ^ pageBits t.size))

/-- An access has been translated through a leaf that an invalidation drops, a larger one that holds the VA among them. -/
def Access.invalidated (a : Access) (asid : BitVec 16) (va size : Nat) : Bool :=
  a.tgt == .dram && a.xlat == .done && a.asid == asid && (size == 3 || a.va / 2 ^ pageBits size == va / 2 ^ pageBits size
    || a.va / 2 ^ pageBits a.leaf == va / 2 ^ pageBits a.leaf)

/-- The words that an instance's firings and mirrors reach through a page are translated anew: a reading after an invalidation uses the new translation
alone; every word that the largest leaf with the VA could map is (R222, R284, R340). -/
def Inst.dropWords (v : Inst) (asid : BitVec 16) (va size : Nat) : Inst :=
  let hit := fun (w : Nat) => v.asid == asid && (size == 3 || w / 2 ^ pageBits 2 == va / 2 ^ pageBits 2)
  { v with slots := v.slots.map (fun (x : Nat × FSlot) =>
             if (x.2.code == 0x09 || x.2.code == 0x0A) && hit (v.img.signalVa x.2.tgt) then (x.1, { x.2 with cell := none }) else x),
           mirrors := v.mirrors.map (fun (m : Nat × Mirror) =>
             if hit (v.img.signalVa (match v.img.places[m.1]? with | some d => (bits d 40 8).toNat | none => 0)) then (m.1, { m.2 with cell := none }) else m) }

/-- TLBINV_GO: a request drops every matching entry of every TLB and waits for the accesses translated through them; ignored while
the last request has not completed (R284). -/
def execTlbinvGo (s : State) : Host.Outcome State Fault Refusal :=
  match s.focus with
  | .event (.tlbinvGo size) =>
    if !s.bar.tlbDone then .next s
    else
      let asid := s.bar.tlbAsid
      let va := s.bar.tlbVa.toNat
      let keep := fun (t : TlbEntry) => !t.dropped asid va size.toNat
      let acc := (s.travelling ++ s.elems.vals.flatMap (fun e => e.heldStores)).filter (fun a => a.invalidated asid va size.toNat)
      let s := { s with elems := s.elems.map (fun (x : Nat × Elem) => (x.1, { x.2 with tlb := x.2.tlb.filter keep })),
                        dies := s.dies.map (fun (x : Nat × Die) => (x.1, { x.2 with tlb2 := x.2.tlb2.filter keep })),
                        insts := s.insts.map (fun (x : Nat × Inst) => (x.1, x.2.dropWords asid va size.toNat)) }
      .next (s.modBar (fun b =>
        { b with tlbSize := size, reqSize := size, reqVa := b.tlbVa, reqAsid := b.tlbAsid, tlbDone := false, tlbWait := acc.map (fun a => a.id) }))
  | _ => .next s

/-- The last invalidation has completed: no walk to its pages is in flight and its accesses have performed at DIE scope (R284). -/
def State.tlbSettled (s : State) : Bool :=
  let va := s.bar.reqVa.toNat
  let size := s.bar.reqSize.toNat
  !s.dies.vals.any (fun d => d.walks.any (fun w => w.asid == s.bar.reqAsid
      && (size == 3 || w.page * 65536 / 2 ^ pageBits size == va / 2 ^ pageBits size)))
  && !s.pendingAt 3 true (fun a => s.bar.tlbWait.contains a.id)

/-- TLBINV_DONE: DONE becomes 1 (R284). -/
def execTlbinvDone (s : State) : Host.Outcome State Fault Refusal :=
  match s.focus with
  | .event .tlbinvDone =>
    if !s.bar.tlbDone && s.tlbSettled then .next (s.modBar (fun b => { b with tlbDone := true, tlbWait := [] })) else .next s
  | _ => .next s

/-- A faulted firing waits for a fault entry: a SIGN's or WATCH's word, or the structure that a CFG, NBLD or WSW fetches (R280). -/
def FSlot.attached (y : FSlot) (v : NetImg) (f : FaultEntry) : Bool :=
  y.faulted && y.stage == .going
  && (match (bits y.act 0 8).toNat with
    | 0x09 | 0x0A => y.wordKind == f.kind && (FSlot.wordVa v { y with faulted := false, asked := true }).any (fun a => a / 65536 == f.page)
    | _ => f.kind == .read && y.operand.toNat / 65536 == f.page)

/-- A faulted mirror waits for a fault entry (R340). -/
def Mirror.attached (m : Mirror) (v : NetImg) (place : Nat) (f : FaultEntry) : Bool :=
  m.fault == 1 && f.kind == .read
  && v.signalVa (match v.places[place]? with | some d => (bits d 40 8).toNat | none => 0) / 65536 == f.page

/-- A faulted generator goes on by itself: it runs, or, where it was to suspend and stands at a burst boundary, it is suspended (R175, R283). -/
def Gen.goOn (g : Gen) : Gen := Gen.settle { g with state := .running }

/-- A fault that the host has resolved: every access attached to it is translated again, its stream goes on by itself, and its
elements run again (R183, R280, R283). -/
def State.retryFault (s : State) (die : Nat) (f : FaultEntry) : State :=
  let mine := fun (a : Access) => a.xlat == .faulted && a.asid == f.asid && a.va / 65536 == f.page && a.kind.faultKind == f.kind
  let accs := s.dieAccesses die mine
  let s := s.setXlat die mine .untried
  let s := accs.foldl (fun s a => match a.by_ with
    | .elem el _ _ _ => s.resumeElem el a.inst
    | .gen el g => s.modCtxOf el a.inst (fun c =>
        if (c.mt.gen g).state = .faulted then { c with mt := { c.mt with gens := c.mt.gens.put g (c.mt.gen g).goOn } } else c)
    | _ => s) s
  (s.nsqsOf die f.asid).foldl (fun s x =>
    let s := x.2.slots.keys.foldl (fun s k => s.modSlot x.1 k (fun y =>
      if y.attached x.2.img f then { y with faulted := false } else y)) s
    s.modInst x.1 (fun v => { v with mirrors := v.mirrors.map (fun (m : Nat × Mirror) =>
      if m.2.attached x.2.img m.1 f then (m.1, { m.2 with fault := 0 }) else m) })) s

end Sys2Proof.Machine
end

