-- ==== Sys2Proof/Machine/Pch.lean ====
section
/-!
DEFINITION. Pch.lean: a pseudo-channel serves its command queue (R239, R240, R342): ordinary accesses and their answers, runs
and their suspensions (R250-R258), refresh, alerts and power states (R265-R270). Times are in fifths of an fc.
-/
namespace Sys2Proof.Machine

/-- The present time in fifths of an fc. -/
def State.now5 (s : State) : Nat := 5 * s.now

/-- A run that has not ended holds the head of the queue (R239, R251). -/
def Pch.holding (p : Pch) : Bool := match p.run with | some r => r.ended.isNone | none => false

/-- The engine is at a suspension point (R254). -/
def Pch.suspended (p : Pch) : Bool := match p.phase with | .suspended _ _ => true | _ => false

/-- A PCH is awake, and no refresh, back-off, service or step holds it. -/
def Pch.free (p : Pch) (now5 : Nat) : Bool :=
  p.pwr == 0 && p.wakeAt.isNone && p.refEnd.isNone && p.backoff.isNone && p.serving.isNone && decide (p.freeAt ≤ now5)

/-- When the next item begins: where the last one ended within the present fc, or now. -/
def Pch.startAt (p : Pch) (now5 : Nat) : Nat := if now5 < p.freeAt + 5 then p.freeAt else now5

/-- A refresh or an alert may be served: the PCH serves nothing, and no run holds it but at a suspension point (R266, R268). -/
def Pch.atGap (p : Pch) (now5 : Nat) : Bool := p.free now5 && (!p.holding || p.suspended)

/-- The oldest ordinary access of the queue, and the queue without it. -/
def takeAccess : List CqEntry → Option (Access × List CqEntry)
  | [] => none
  | .access a :: l => some (a, l)
  | c :: l => (takeAccess l).map (fun r => (r.1, c :: r.2))

/-- The ordinary access whose turn it is: the queue's head, or at a suspension the oldest of those chosen (R239, R254). -/
def Pch.turnOf (p : Pch) : Option (Access × List CqEntry) :=
  match p.phase with
  | .suspended owed _ => if p.holding then (if 0 < owed then takeAccess p.cq else none) else (match p.cq with | .access a :: l => some (a, l) | _ => none)
  | _ => if p.holding then none else (match p.cq with | .access a :: l => some (a, l) | _ => none)

/-- The row, by bank * 16384 + row, of an offset (R221). -/
def rowOf (off : Nat) : Nat := off / 1024 % 64 * 16384 + off / 65536

/-- One ACT of a row: its count rises, and at the threshold an alert is raised (R267, R268). -/
def State.activate (s : State) (p row : Nat) : State :=
  let n := (s.pch p).acts.getD row 0 + 1
  let alert := decide ((s.stk (p / 64)).thr.toNat ≤ n)
  let s := s.modPch p (fun q => { q with acts := q.acts.put row n, alerts := if alert then q.alerts ++ [row] else q.alerts })
  if alert then { s with stkRegs := s.stkRegs.put (p / 64) { s.stk (p / 64) with alerts := satInc (s.stk (p / 64)).alerts } } else s

/-- An ordinary access is in service from its ACT (R342); the back-off it waited is a sample (R336). -/
def State.beginService (s : State) (p : Nat) : State :=
  let q := s.pch p
  match q.turnOf with
  | some (a, _) =>
    if q.free s.now5 && !q.refDue && q.alerts.isEmpty then
      let s := (s.modPch p (fun q => { q with serving := some (q.startAt s.now5) })).activate p (rowOf a.off)
      s.push (s.samples (p / 64) 4 (fun c => bits c 0 6 == BitVec.ofNat 6 p) a.waited)
    else s
  | none => s

/-- From the ACT to the moment an access performs, in fifths of an fc (R342). -/
def performAfter (k : AccKind) : Nat :=
  match k with
  | .atomic _ _ _ => 144
  | .sigw true => 144
  | _ => 128

/-- From the ACT to the end of the PRE (R342). -/
def holdFor (k : AccKind) : Nat :=
  match k with
  | .read | .sigr _ => 336
  | .write | .sigw false => 368
  | _ => 384

/-- A reply to a remote module: what R312 carries, with the access's number, its RC and 1 for MEMUE or 2 for PROT in the encrypted word (log 11). -/
def State.reply (s : State) (dev circ tag : Nat) (kind : AccKind) (v : W256) (rc : Bool) (err : Nat) : State :=
  let s := s.modDom (fun d => { d with serving := d.serving.filter (fun r => r.acc != tag) })
  let w : W128 := BitVec.ofNat 128 (tag % 2 ^ 32 * 256 + (if rc then 4 else 0) + err)
  match kind with
  | .write => s.sendPacket dev circ 3 [] w
  | _ => s.sendPacket dev circ 2 [{ ct := .data, ft := 0, data := v }] w

/-- The WATCH of a slot compares the word it has read (R198, R204). -/
def FSlot.watchHolds (f : FSlot) (w : W64) : Bool := cmpHolds (Cmp.ofCode (bits f.act 16 2).toNat) w (bits f.act 32 64)

/-- A SIGN's or WATCH's access to its word has performed, or met an uncorrectable error (R204, R293). -/
def State.answerFiring (s : State) (i k : Nat) (a : Access) (r : Answer) : State :=
  match r with
  | .done v _ =>
    let w := bits v 0 64
    let s := s.modSlot i k (fun f => { f with waits := f.waits.filter (fun n => n != a.id),
                                              operand := if a.kind.isRead then w else f.operand })
    match a.kind, s.slot i k with
    | .read, some f => if f.watchHolds w then s.arrive i k 0 else s
    | _, _ => s
  | .bad =>
    let s := s.trapNote i { code := 0x12, cause := 0, info := BitVec.ofNat 64 a.va } 2 0 0 k (s.nsqElem i) 0
    match a.kind, s.slot i k with
    | .read, some f => if bits f.act 96 32 = 0 then s.arrive i k 3
        else s.modSlot i k (fun f => { f with waits := [], operand := s.wordAt (a.pch, a.off) })
    | _, _ => s.arrive i k 3

/-- A mirror's read has performed, or met an uncorrectable error (R340). -/
def State.answerMirror (s : State) (i p : Nat) (a : Access) (r : Answer) : State :=
  let upd := fun (s : State) (w : W64) (good : Bool) => s.modInst i (fun v => match v.mirrors.find? p with
    | some m => { v with mirrors := v.mirrors.put p { m with seen := some w, good, busy := false } }
    | none => v)
  match r with
  | .done v _ => upd s (bits v 0 64) true
  | .bad => (upd s (s.wordAt (a.pch, a.off)) false).trapNote i { code := 0x12, cause := 0, info := BitVec.ofNat 64 a.va } 2 0 0 0xFF (s.nsqElem i) 0

/-- A part of the host's read joins what the read returns, at its place in it; one of a read that another has followed is lost (log 5). -/
def State.joinReply (s : State) (a : Access) (v : Nat) : State :=
  if a.work = s.bar.readNo then s.modBar (fun b => { b with reply := b.reply.map (fun r => r + v % 2 ^ (8 * a.bytes) * 2 ^ (8 * a.data.toNat)) }) else s

/-- An access has performed: whoever issued it is answered (R183, R204, R237, R293, R340). -/
def State.answer (s : State) (a : Access) (r : Answer) : State :=
  match a.by_ with
  | .elem _ _ _ _ => s.answerElem a r
  | .gen _ _ => s.answerElem a r
  | .nsq i k => (if r = .bad then s.bump 2 else s).answerFiring i k a r
  | .mirror i p => (if r = .bad then s.bump 2 else s).answerMirror i p a r
  | .host _ => (match r with
    | .done v _ => if a.kind.isRead then s.joinReply a v.toNat else s
    | .bad => let f := (s.bump 2).freeVal
        if a.kind.isRead then f.2.joinReply a f.1.toNat else s.bump 2)
  | .peer dev circ => (match r with
    | .done v rc => s.reply dev circ a.id a.kind v rc 0
    | .bad => (s.bump 2).reply dev circ a.id a.kind 0 false 1)

/-- The access in service performs, and its PCH is held until its PRE ends (R342). -/
def State.serve (s : State) (p t : Nat) (a : Access) (l : List CqEntry) : State :=
  let s := s.modPch p (fun q =>
    { q with cq := l, serving := none, freeAt := t + holdFor a.kind,
             closing := t + holdFor a.kind, phase := match q.phase with | .suspended owed e => .suspended (owed - 1) e | x => x })
  let r := s.performDram a
  r.2.answer a r.1

/-- An NBQ at the head of the queue: Q[N] is written, one tCCD step (R239, R240). -/
def State.serveNbq (s : State) (p : Nat) : State :=
  let q := s.pch p
  match q.cq with
  | .nbq n v _ :: l =>
    if q.free s.now5 && !q.refDue && q.alerts.isEmpty && !q.holding then
      s.modPch p (fun q => { q with cq := l, q := q.q.put n v, freeAt := q.startAt s.now5 + 16, closing := q.startAt s.now5 + 16 })
    else s
  | _ => s

/-- The head of a PCH's queue performs: the access in service once its column step has ended, or an NBQ. -/
def State.performPch (s : State) (p : Nat) : State :=
  let q := s.pch p
  match q.serving, q.turnOf with
  | some t, some (a, l) => if t + performAfter a.kind ≤ s.now5 then s.serve p t a l else s
  | _, _ => s.serveNbq p

/-- ACCESS_PERFORM: the head of a target's queue performs as a read, write or atomic (R226, R234). -/
def execAccessPerform (s : State) : Host.Outcome State Fault Refusal :=
  match s.focus with
  | .event (.accessPerform t) =>
    match t with
    | .pch p => .next (s.performPch p)
    | .spad _ _ => .next (s.performBank t)
    | .ws _ _ => .next (s.performBank t)
    | .remote _ => .next s
  | _ => .next s

/-- The runs of a stack that are active (R253). -/
def State.activeRuns (s : State) (stack : Nat) : Nat :=
  (List.filter (fun (x : Nat × Pch) => x.1 / 64 == stack && x.2.holding) s.pchs).length

/-- The run limit of a stack at the throttle level in force (R253, R335). -/
def State.runLimit (s : State) : Nat := 32 - 2 * s.bar.levelIn

/-- The run at the head of a queue, with the query buffer that a saved one brings back and its context slot. -/
def Pch.nextRun (p : Pch) : Option (NbRun × Option (Nat × Tab W256)) :=
  match p.cq with
  | .run r :: _ => if p.saved.length < 2 then some (r, none) else none
  | .saved k :: _ => (p.saved.find? k).map (fun v => (v.run, some (k, v.q)))
  | _ => none

/-- Some PCH of a stack has waited on the run limit since before another (R253). -/
def State.waitsBefore (s : State) (p : Nat) : Bool :=
  let mine := (s.pch p).limit.getD s.now
  s.pchs.any (fun (x : Nat × Pch) => x.1 / 64 == p / 64 && x.1 != p && (match x.2.limit with
    | some t => decide (t < mine) || (decide (t = mine) && decide (x.1 < p))
    | none => false))

/-- A run begins its first segment at MPC, WCNT 0 (R243, R250, R253, R257). -/
def State.startRun (s : State) (p : Nat) (r : NbRun) (sv : Option (Nat × Tab W256)) : State :=
  s.modPch p (fun q =>
    { q with cq := q.cq.tail, phase := .running, limit := none,
             run := some { r with wcnt := 0, segAt := q.startAt s.now5, waitAt := none },
             q := match sv with | some v => v.2 | none => q.q,
             saved := match sv with | some v => q.saved.drop v.1 | none => q.saved })

/-- RUN_START: a run command at the head of its queue starts where the stack's run limit allows; otherwise it waits with
PCHST.LIMIT set (R253, R257). -/
def execRunStart (s : State) : Host.Outcome State Fault Refusal :=
  match s.focus with
  | .event (.runStart p) =>
    let q := s.pch p
    match q.nextRun with
    | some (r, sv) =>
      if q.run.isSome || !q.free s.now5 || q.refDue || !q.alerts.isEmpty then .next s
      else if decide (s.activeRuns (p / 64) < s.runLimit) && !s.waitsBefore p then .next (s.startRun p r sv)
      else .next (s.modPch p (fun q => { q with limit := some (q.limit.getD s.now) }))
    | none => .next s
  | _ => .next s

/-- RUN_RESUME: the refresh, the alerts and the chosen accesses have been served; the run goes on at MPC, after a SYNC with WCNT 0
(R254). -/
def execRunResume (s : State) : Host.Outcome State Fault Refusal :=
  match s.focus with
  | .event (.runResume p) =>
    let q := s.pch p
    match q.phase, q.run with
    | .suspended 0 atEmit, some r =>
      if q.free s.now5 && !q.refDue && q.alerts.isEmpty then
        let r' := if atEmit then r else { r with wcnt := 0, segAt := q.startAt s.now5 }
        .next (s.modPch p (fun q => { q with phase := .running, run := some r' }))
      else .next s
    | _, _ => .next s
  | _ => .next s

/-- The BN in front of a PCH (R19, R101). -/
def pchBn (p : Nat) : Nat := elemId .bn (p / 64) (p % 64) 0

/-- The BN in front of a PCH takes the tokens of a run: its region runs there; or its region, which runs, has no node there and nobody else runs on that BN,
whose port queues them (R202, R248, log 68). -/
def State.bnTakes (s : State) (p : Nat) (r : NbRun) : Bool :=
  let c := (s.elem (pchBn p)).ctx
  c.inst == some r.inst
  || (c.inst.isNone && (match s.region r.inst with | some v => !v.saved && !v.elems.contains (pchBn p) | none => false))

/-- A token of a run can enter its BN's port, and EBUF has sent none in this fc (R248). -/
def State.mayDrain (s : State) (p : Nat) (r : NbRun) : Bool :=
  s.bnTakes p r && (s.pch p).drained != some s.now && s.canEnter (pchBn p) r.rport.toNat

/-- EBUF_DRAIN: the emit buffer sends its oldest token to I[RPORT], at most one per fc (R248, R258). -/
def execEbufDrain (s : State) : Host.Outcome State Fault Refusal :=
  match s.focus with
  | .event (.ebufDrain p) =>
    match (s.pch p).run with
    | some r =>
      match r.ebuf with
      | t :: l =>
        if s.mayDrain p r then
          let s := s.modPch p (fun q => { q with run := some { r with ebuf := l }, drained := some s.now })
          let s := s.modRegion r.inst (fun v => { v with moved := true })
          .next (s.enterPort (pchBn p) r.rport.toNat t)
        else .next s
      | [] => .next s
    | none => .next s
  | _ => .next s

/-- The EB bits of the banks, bit b for bank b (R251). -/
def NbRun.ebMap (r : NbRun) : Nat := (r.part.map (fun b => if (r.bank b).eb then 2 ^ b else 0)).sum

/-- The run time of a segment at a time: a wait at an EMIT with no row open does not count (R250). -/
def NbRun.segTime (r : NbRun) (t : Nat) : Nat := (match r.waitAt with | some w => w | none => t) - r.segAt

/-- A segment may run to a time that is `more` behind another: 640 fc are not yet over then (R250). -/
def NbRun.inTime (r : NbRun) (t more : Nat) : Bool := decide (r.segTime t + more ≤ 3200)

/-- A run ends at a time with a code, 0 for HALT: open rows are precharged, EBUF drains, and a fault raises NBERR with the IVEC of the run's own region
(R251, R272, R277). Its record has SLOT and NFS 0, as R273 gives them for SRC 3; R251 has the trap name the slot or the firing (log 40). -/
def State.endRun (s : State) (p code t : Nat) : State :=
  match (s.pch p).run with
  | none => s
  | some r =>
    let s := s.modPch p (fun q => { q with run := some { r.closed with ended := some code }, phase := .running, freeAt := r.closeAt t })
    if code = 0 then s
    else s.trapNote r.inst { code := 0x13, cause := 0, info := BitVec.ofNat 64 (code + p % 64 * 256) } 3 0 0 0 (pchBn p) (s.ivecAt r.inst (pchBn p))

/-- A run of an NBRUN has ended: the firing remembers the worst outcome so far in `remaining` and waits for the others (R202). -/
def State.tellRun (s : State) (p : Nat) (r : NbRun) (code : Nat) : State :=
  match r.owner with
  | .elem _ _ => s
  | .nsq i k =>
    let o := if code ≠ 0 then 3 else if r.ebMap ≠ 0 then 1 else 0
    s.modSlot i k (fun f => { f with waits := f.waits.filter (fun n => n != p), remaining := max f.remaining o })

/-- A region is set aside or has been asked to be: its runs suspend into their context slots (R257, R288). -/
def State.regionSaved (s : State) (i : Nat) : Bool := match s.region i with | some v => v.saved || v.accepted.isSome | none => false

/-- A suspended run moves with the query buffer into a free context slot (R257). -/
def State.saveRun (s : State) (p : Nat) (r : NbRun) : State :=
  let k := if (s.pch p).saved.keys.contains 0 then 1 else 0
  s.modPch p (fun q => { q with run := none, rest := r, phase := .none, saved := q.saved.put k { run := r, q := q.q } })

/-- The region of a run stands aside, so that its BN takes no token of it. -/
def State.runAside (s : State) (r : NbRun) : Bool := match s.region r.inst with | some v => v.saved | none => false

/-- RUN_END: once EBUF has drained, a TAIL with the error bitmap and the fault code is placed and the run is over (R251). A run that has ended while
its region stands aside keeps its EBUF and its TAIL in a context slot (R257). -/
def execRunEnd (s : State) : Host.Outcome State Fault Refusal :=
  match s.focus with
  | .event (.runEnd p) =>
    match (s.pch p).run with
    | some r =>
      match r.ended with
      | some code =>
        if r.ebuf.isEmpty && s.mayDrain p r && decide ((s.pch p).freeAt ≤ s.now5) then
          let t : Token := { ct := .tail, ft := 0, data := BitVec.ofNat 256 (r.ebMap + code * 2 ^ 64) }
          let s := s.modPch p (fun q => { q with run := none, rest := r, phase := .none, drained := some s.now })
          .next ((s.enterPort (pchBn p) r.rport.toNat t).tellRun p r code)
        else if s.runAside r && decide ((s.pch p).freeAt ≤ s.now5) then .next (s.saveRun p r)
        else .next s
      | none => .next s
    | none => .next s
  | _ => .next s

/-- The running segment of a PCH has exceeded 640 fc (R250). -/
def Pch.overdue (p : Pch) (now5 : Nat) : Bool :=
  match p.run with
  | some r => r.ended.isNone && p.phase == .running && !r.inTime now5 0
  | none => false

/-- SEGMENT_TIMEOUT: a segment's run time exceeds 640 fc and its run ends with code 3 (R250). -/
def execSegmentTimeout (s : State) : Host.Outcome State Fault Refusal :=
  match s.focus with
  | .event (.segmentTimeout p) =>
    match (s.pch p).run with
    | some _ =>
      if (s.pch p).overdue s.now5 then
        .next (s.endRun p 3 (max s.now5 (s.pch p).freeAt))
      else .next s
    | none => .next s
  | _ => .next s

/-- The due offset of a PCH within its stack's refresh interval (R265). -/
def dueOffset (p : Nat) : Nat := p % 8 * 780

/-- REFRESH_DUE: a PCH's refresh falls due; one in self-refresh receives none (R265, R266). -/
def execRefreshDue (s : State) : Host.Outcome State Fault Refusal :=
  match s.focus with
  | .event (.refreshDue p) =>
    let q := s.pch p
    if s.refPhase (p / 64) = dueOffset p ∧ q.lastDue ≠ some s.now ∧ q.pwr ≠ 2 then
      .next (s.modPch p (fun q => { q with refDue := true, lastDue := some s.now }))
    else .next s
  | _ => .next s

/-- An all-bank refresh begins: the next two rows of every bank, whose counts return to 0 (R265, R267). -/
def Pch.startRefresh (p : Pch) (now5 : Nat) : Pch :=
  let row := 2 * p.refRow
  let t := p.startAt now5 + 2800
  { p with refDue := false, refEnd := some t, freeAt := t, refRow := (p.refRow + 1) % 8192,
           acts := p.acts.filter (fun x => x.1 % 16384 != row && x.1 % 16384 != row + 1) }

/-- REFRESH: a due refresh is served at the moments of R266; power-down is left first and returned to (R269). -/
def execRefresh (s : State) : Host.Outcome State Fault Refusal :=
  match s.focus with
  | .event (.refresh p) =>
    let q := s.pch p
    if !q.refDue then .next s
    else if q.pwr = 1 ∧ q.wakeAt = none then
      .next (s.modPch p (fun q => { q with pwr := 0, wakeAt := some (s.now + q.exitFc), fromPd := true }))
    else if q.atGap s.now5 then .next (s.modPch p (fun q => q.startRefresh s.now5))
    else .next s
  | _ => .next s

/-- A PCH is idle: an access holds the queue until its PRE has ended (R269, R342). -/
def Pch.idle (p : Pch) (now5 : Nat) : Bool :=
  p.cq.isEmpty && decide (p.freeAt ≤ now5) && p.run.isNone && p.refEnd.isNone && p.backoff.isNone && p.alerts.isEmpty && p.serving.isNone

/-- REFRESH_END: the refresh is over after tRFCab; a PCH that it took from power-down returns there (R265, R269). -/
def execRefreshEnd (s : State) : Host.Outcome State Fault Refusal :=
  match s.focus with
  | .event (.refreshEnd p) =>
    match (s.pch p).refEnd with
    | some t =>
      if t ≤ s.now5 then
        .next (s.modPch p (fun q =>
          let q := { q with refEnd := none }
          if q.fromPd then { q with fromPd := false, pwr := if q.idle s.now5 then 1 else 0 } else { q with idleAt := s.now }))
      else .next s
    | none => .next s
  | _ => .next s

/-- ALERT: the oldest alert is served, after a due refresh: the aggressor's count returns to 0 and the PCH is held in back-off for
256 fc (R267, R268). -/
def execAlert (s : State) : Host.Outcome State Fault Refusal :=
  match s.focus with
  | .event (.alert p) =>
    let q := s.pch p
    match q.alerts with
    | row :: l =>
      if q.atGap s.now5 && !q.refDue then
        .next (s.modPch p (fun q =>
          let t := q.startAt s.now5 + 1280
          { q with alerts := l, acts := q.acts.drop row, backoff := some t, freeAt := t }))
      else .next s
    | [] => .next s
  | _ => .next s

/-- BACKOFF_END: the back-off of an alert runs out (R268). -/
def execBackoffEnd (s : State) : Host.Outcome State Fault Refusal :=
  match s.focus with
  | .event (.backoffEnd p) =>
    match (s.pch p).backoff with
    | some t => if t ≤ s.now5 then .next (s.modPch p (fun q => { q with backoff := none })) else .next s
    | none => .next s
  | _ => .next s

/-- POWER_DOWN_ENTRY: a PCH idle for 512 fc enters power-down where PDEN allows (R269). -/
def execPowerDownEntry (s : State) : Host.Outcome State Fault Refusal :=
  match s.focus with
  | .event (.powerDownEntry p) =>
    let q := s.pch p
    if q.idle s.now5 && q.pwr == 0 && q.wakeAt.isNone && !q.fromPd && !q.refDue && (s.stk (p / 64)).pden && decide (q.idleAt + 512 ≤ s.now) then
      .next (s.modPch p (fun q => { q with pwr := 1 }))
    else .next s
  | _ => .next s

/-- SELF_REFRESH_ENTRY: a PCH idle for 64,000 fc enters self-refresh where SREN allows; it receives no refresh there (R266, R269). -/
def execSelfRefreshEntry (s : State) : Host.Outcome State Fault Refusal :=
  match s.focus with
  | .event (.selfRefreshEntry p) =>
    let q := s.pch p
    if q.idle s.now5 && q.pwr != 2 && q.wakeAt.isNone && !q.fromPd && !q.refDue && (s.stk (p / 64)).sren && decide (q.idleAt + 64000 ≤ s.now) then
      .next (s.modPch p (fun q => { q with pwr := 2, refDue := false }))
    else .next s
  | _ => .next s

/-- PCH_WAKE: the exit latency has passed and the PCH is active (R269, R270). -/
def execPchWake (s : State) : Host.Outcome State Fault Refusal :=
  match s.focus with
  | .event (.pchWake p) =>
    match (s.pch p).wakeAt with
    | some t => if t ≤ s.now then .next (s.modPch p (fun q => { q with pwr := 0, wakeAt := none })) else .next s
    | none => .next s
  | _ => .next s

end Sys2Proof.Machine
end

