-- ==== Sys2Proof/Machine/NearBank.lean ====
section
/-!
DEFINITION. NearBank.lean: the micro-instructions of a near-bank run (R244-R249), one step of the run that the focus names.
-/
namespace Sys2Proof.Machine

/-- A run may take its next step, which needs some DRAM constraint to have passed (R252). -/
def Pch.mayStep (p : Pch) (r : NbRun) (ready now5 : Nat) : Bool :=
  p.phase == .running && r.ended.isNone && p.free now5 && decide (ready ≤ now5)

/-- A step of a run with its duration and its earliest time. A fault ends the run; so does an MPC that passes entry 63
(R251, R252), and a step that would end after the segment's 640 fc, which is not performed (R250, log 66). -/
def State.micro (s : State) (p : Nat) (dur ready : NbRun → Nat) (f : State → NbRun → Nat → Except Nat (NbRun × State)) : State :=
  match (s.pch p).run with
  | none => s
  | some r =>
    if (s.pch p).mayStep r (ready r) s.now5 then
      let t := max ((s.pch p).startAt s.now5) (ready r)
      if !r.inTime t (dur r) then s.endRun p 3 (t + dur r)
      else match f s r t with
      | .error c => s.endRun p c (t + dur r)
      | .ok (r', s') =>
        let u := s'.modPch p (fun q => { q with run := some r', freeAt := t + dur r })
        if 64 ≤ r'.mpc then u.endRun p 5 (t + dur r) else u
    else s

/-- A micro-instruction: the step of the PCH in focus. -/
def onRun (s : State) (f : Nat → State) : Host.Outcome State Fault Refusal :=
  match s.focus with
  | .pch p => .next (f p)
  | _ => .next s

/-- MPC moves on. -/
def NbRun.next (r : NbRun) : NbRun := { r with mpc := r.mpc + 1 }

/-- tCCD, one step (R252). -/
def tCcd : NbRun → Nat := fun _ => 16

/-- A step on the registers of each participating bank, which may read the query buffer. -/
def State.microRegs (s : State) (p dur : Nat) (f : Tab W256 → NbRun → Nat → NbBank → NbBank) : State :=
  s.micro p (fun _ => dur) (fun _ => 0) (fun s r _ => .ok ((r.each (fun b x => f (s.pch p).q r b x)).next, s))

/-- Lane i of a vector register, a binary32 code. -/
def vLane (v : BitVec 512) (i : Nat) : Nat := (bits v (32 * i) 32).toNat

/-- A vector register of 16 lanes. -/
def vOf (f : Nat → Nat) : BitVec 512 := BitVec.ofNat 512 (packNat 32 ((List.range 16).map f))

/-- V[n] of a bank. -/
def NbBank.v (b : NbBank) (n : Nat) : BitVec 512 :=
  match n with | 0 => b.v0 | 1 => b.v1 | 2 => b.v2 | _ => b.v3

/-- V[n] of a bank replaced. -/
def NbBank.setV (b : NbBank) (n : Nat) (v : BitVec 512) : NbBank :=
  match n with | 0 => { b with v0 := v } | 1 => { b with v1 := v } | 2 => { b with v2 := v } | _ => { b with v3 := v }

/-- binary16 or bfloat16 (R244). -/
def fmt16 (bf : Bool) : Fmt := { mx := false, inf := false, fam := if bf then .bf16 else .f16, p := 0 }

/-- Lane i of a 16-bit token. -/
def hLane (bf : Bool) (v : W256) (i : Nat) : FVal := (fmt16 bf).decodeF (lane 16 v i)

/-- The binary32 value of a code. -/
def f32Of (c : Nat) : FVal := fmt32.decodeF c

/-- Lane i of V[n]. -/
def NbBank.vf (b : NbBank) (n i : Nat) : FVal := f32Of (vLane (b.v n) i)

/-- Each lane of V[n] becomes RoundTo of a value (R244). -/
def NbBank.mapV (b : NbBank) (n : Nat) (f : Nat → FVal) : NbBank := b.setV n (vOf (fun i => f32Code (f i)))

/-- Minus infinity. -/
def negInf : W32 := 0xFF800000#32

/-- NOP (R248). -/
def execNbuNop (s : State) : Host.Outcome State Fault Refusal := onRun s (fun p => s.microRegs p 16 (fun _ _ _ b => b))

/-- A row grant covers a row for an ASID (R249). -/
def grantCovers (g : W64) (asid : BitVec 16) (row : Nat) (write : Bool) : Bool :=
  g.getLsbD 0 && bits g 48 16 == asid && decide ((bits g 16 14).toNat ≤ row) && decide (row ≤ (bits g 32 14).toNat) && (!write || g.getLsbD 1)

/-- Some grant of a PCH covers a row. -/
def Pch.granted (p : Pch) (asid : BitVec 16) (row : Nat) (write : Bool) : Bool := p.grants.vals.any (fun g => grantCovers g asid row write)

/-- ACT: opens row ROW + off in each bank; codes 1 and 6 (R245, R249, R267). -/
def execAct (off : BitVec 14) (s : State) : Host.Outcome State Fault Refusal :=
  onRun s (fun p => s.micro p tCcd (fun _ => 0) (fun s r t =>
    let row := r.row + off
    if r.anyOpen then .error 1
    else if !(s.pch p).granted r.asid row.toNat false then .error 6
    else .ok ((r.each (fun _ b => { b with open_ := some row, actAt := t })).next,
              r.part.foldl (fun s b => s.activate p (b * 16384 + row.toNat)) s)))

/-- PRE: closes the open rows, then ROW + inc; tRP where a row was open (R245, R252). -/
def execPre (inc : BitVec 14) (s : State) : Host.Outcome State Fault Refusal :=
  onRun s (fun p => s.micro p (fun r => if r.anyOpen then 112 else 16) (fun r => if r.anyOpen then r.preAt else 0) (fun s r _ =>
    .ok ({ r.each (fun _ b => { b with open_ := none }) with row := r.row + inc }.next, s)))

/-- The column of RD and WR (R245). -/
def NbRun.column (r : NbRun) (off : BitVec 2) (col : BitVec 5) : Nat :=
  let o := match off.toNat with | 0 => 0 | 1 => r.lc0.toNat | 2 => 2 * r.lc0.toNat | _ => r.lc1.toNat
  (col.toNat + o) % 32

/-- tRCD after each ACT (R252). -/
def NbRun.columnAt (r : NbRun) : Nat :=
  (r.part.map (fun b => if (r.bank b).open_.isSome then (r.bank b).actAt + 112 else 0)).foldl max 0

/-- The address in Mem.dram of a column of a row of a bank (R221). -/
def columnCell (p bank row col : Nat) : Nat := cellAt (p, row * 65536 + bank * 1024 + col * 32)

/-- Some participating bank has no row open. -/
def NbRun.anyClosed (r : NbRun) : Bool := r.part.any (fun b => (r.bank b).open_.isNone)

/-- RD: the latch of each bank; an uncorrectable error sets EB and fills it with NaN (R245, R256). -/
def execRd (off : BitVec 2) (col : BitVec 5) (s : State) : Host.Outcome State Fault Refusal :=
  onRun s (fun p => s.micro p tCcd NbRun.columnAt (fun s r _ =>
    if r.anyClosed then .error 2
    else .ok ((r.each (fun n b => match b.open_ with
      | some row =>
        let c := columnCell p n row.toNat (r.column off col)
        if s.mem.dramErr.contains (c / 32) then { b with eb := true, l := broadcast 16 0x7FC0 }
        else { b with l := s.mem.dram.token c }
      | none => b)).next, s)))

/-- WR: the latch of each bank goes to a column of its open row; codes 2 and 7 (R245, R249, R293). -/
def execWr (off : BitVec 2) (col : BitVec 5) (s : State) : Host.Outcome State Fault Refusal :=
  onRun s (fun p => s.micro p tCcd NbRun.columnAt (fun s r t =>
    if r.anyClosed then .error 2
    else if r.part.any (fun n => match (r.bank n).open_ with
      | some row => !(s.pch p).granted r.asid row.toNat true
      | none => false) then .error 7
    else
      let s := r.part.foldl (fun s n => match (r.bank n).open_ with
        | some row => s.dramWrite (columnCell p n row.toNat (r.column off col)) 32 (r.bank n).l.toNat
        | none => s) s
      .ok ((r.each (fun _ b => { b with wrEnd := t + 16 })).next, s)))

/-- ZV: a vector register, or S, M and Z (R246). -/
def execZv (a : BitVec 3) (s : State) : Host.Outcome State Fault Refusal :=
  onRun s (fun p => s.microRegs p 16 (fun _ _ _ b => if a = 4 then { b with s := 0, m := negInf, z := 0, masked := false } else b.setV a.toNat 0))

/-- MACQ: a[i] + L[i] q[i] (R246). -/
def execMacq (a : BitVec 2) (b : BitVec 3) (bf : Bool) (s : State) : Host.Outcome State Fault Refusal :=
  onRun s (fun p => s.microRegs p 16 (fun q _ _ x =>
    x.mapV a.toNat (fun i => ((hLane bf x.l i).mul (hLane bf (q.getD b.toNat 0) i)).add .rne (x.vf a.toNat i))))

/-- The scalar of AXPY and SCAL: lane k of a query, or S (R246). -/
def scalarOf (q : Tab W256) (x : NbBank) (b : BitVec 3) (fromS : Bool) (k : BitVec 4) (bf : Bool) : FVal :=
  if fromS then f32Of x.s.toNat else hLane bf (q.getD b.toNat 0) k.toNat

/-- The product of AXPY: with the S of a masked position, +0 or -0, a latch that is no finite number contributes nothing, whatever was read there (R260,
R263), where R246 alone gives NaN (log 58, DEDUCED). -/
def axpyProduct (q : Tab W256) (x : NbBank) (b : BitVec 3) (fromS : Bool) (k : BitVec 4) (bf : Bool) (i : Nat) : FVal :=
  let v := (scalarOf q x b fromS k bf).mul (hLane bf x.l i)
  if fromS && x.masked && bits x.s 0 31 == 0 && v.isNan then .fin false 0 0 else v

/-- AXPY: a[i] + s L[i] (R246). -/
def execAxpy (a : BitVec 2) (b : BitVec 3) (fromS : Bool) (k : BitVec 4) (bf : Bool) (s : State) : Host.Outcome State Fault Refusal :=
  onRun s (fun p => s.microRegs p 16 (fun q _ _ x =>
    x.mapV a.toNat (fun i => (axpyProduct q x b fromS k bf i).add .rne (x.vf a.toNat i))))

/-- The exact sum of the lanes' products (R246). -/
def dotSum (bf : Bool) (l q : W256) : FVal :=
  ((List.range 15).map (fun i => (hLane bf l (i + 1)).mul (hLane bf q (i + 1)))).foldl (FVal.add .rne) ((hLane bf l 0).mul (hLane bf q 0))

/-- DOTQ: S from the dot product and S itself under ACC, else +0, rounded once (R246). -/
def execDotq (b : BitVec 3) (acc bf : Bool) (s : State) : Host.Outcome State Fault Refusal :=
  onRun s (fun p => s.microRegs p 16 (fun q _ _ x =>
    let d := dotSum bf x.l (q.getD b.toNat 0)
    { x with masked := false, s := BitVec.ofNat 32 (f32Code (d.add .rne (if acc then f32Of x.s.toNat else .fin false 0 0))) }))

/-- The greater of M and S, NaN where either is (R247). -/
def maxOf (x : NbBank) : Nat :=
  if (f32Of x.m.toNat).isNan || (f32Of x.s.toNat).isNan then fmt32.nanCode else minMaxCode fmt32 true x.m.toNat x.s.toNat

/-- What a bank's score contributes under a maximum: as R247 says, but that of a masked position nothing, even if the maximum is minus infinity too
(R260, log 58). -/
def NbBank.scoreFactor (x : NbBank) (m : FVal) : Nat := if x.masked && x.s == negInf then 0 else osmFactor (f32Of x.s.toNat) m

/-- SMX: folds S into M, Z and the chosen vectors (R247). -/
def NbBank.smx (x : NbBank) (vmask : BitVec 4) : NbBank :=
  let nan := (f32Of x.m.toNat).isNan || (f32Of x.s.toNat).isNan
  let m := maxOf x
  let al := if nan then fmt32.nanCode else osmFactor (f32Of x.m.toNat) (f32Of m)
  let be := if nan then fmt32.nanCode else x.scoreFactor (f32Of m)
  let z := f32Code (((f32Of x.z.toNat).mul (f32Of al)).add .rne (f32Of be))
  let y := (List.range 4).foldl (fun y n => if vmask.getLsbD n then y.mapV n (fun i => (x.vf n i).mul (f32Of al)) else y) x
  { y with m := BitVec.ofNat 32 m, s := BitVec.ofNat 32 be, z := BitVec.ofNat 32 z }

/-- SMX (R247, R252). -/
def execSmx (vmask : BitVec 4) (s : State) : Host.Outcome State Fault Refusal :=
  onRun s (fun p => s.microRegs p 48 (fun _ _ _ x => x.smx vmask))

/-- MAXS: M from the greater of M and S (R247). -/
def execMaxs (s : State) : Host.Outcome State Fault Refusal :=
  onRun s (fun p => s.microRegs p 16 (fun _ _ _ x => { x with m := BitVec.ofNat 32 (maxOf x) }))

/-- EXPS: S from 2 to S less M (R247). -/
def execExps (s : State) : Host.Outcome State Fault Refusal :=
  onRun s (fun p => s.microRegs p 32 (fun _ _ _ x =>
    let nan := (f32Of x.m.toNat).isNan || (f32Of x.s.toNat).isNan
    { x with s := BitVec.ofNat 32 (if nan then fmt32.nanCode else x.scoreFactor (f32Of x.m.toNat)) }))

/-- SCAL: a[i] s (R246). -/
def execScal (a : BitVec 2) (b : BitVec 3) (fromS : Bool) (k : BitVec 4) (bf : Bool) (s : State) : Host.Outcome State Fault Refusal :=
  onRun s (fun p => s.microRegs p 16 (fun q _ _ x => x.mapV a.toNat (fun i => (x.vf a.toNat i).mul (scalarOf q x b fromS k bf))))

/-- ADDV: a[i] + V[B][i] (R246). -/
def execAddv (a b : BitVec 2) (s : State) : Host.Outcome State Fault Refusal :=
  onRun s (fun p => s.microRegs p 16 (fun _ _ _ x => x.mapV a.toNat (fun i => (x.vf a.toNat i).add .rne (x.vf b.toNat i))))

/-- The loop counters and MPC after a LOOP (R248). -/
def NbRun.loop (r : NbRun) (reload second : Bool) (target : BitVec 6) : NbRun :=
  if second then
    if r.lc1 ≠ 0 then { r with lc1 := r.lc1 - 1, mpc := target.toNat }
    else if reload then { r with lc1 := r.lr1, mpc := r.mpc + 1 } else r.next
  else
    if r.lc0 ≠ 0 then { r with lc0 := r.lc0 - 1, mpc := target.toNat }
    else if reload then { r with lc0 := r.lr0, mpc := r.mpc + 1 } else r.next

/-- LOOP (R248). -/
def execLoop (reload second : Bool) (target : BitVec 6) (s : State) : Host.Outcome State Fault Refusal :=
  onRun s (fun p => s.micro p tCcd (fun _ => 0) (fun s r _ => .ok (r.loop reload second target, s)))

/-- The accesses that a suspension chooses: those waiting, at most 16 (R254). -/
def Pch.chosen (p : Pch) : Nat := min 16 p.queued.length

/-- Something waits for a suspension at a PCH (R254, R266, R268). -/
def Pch.due (p : Pch) : Bool := p.refDue || !p.alerts.isEmpty

/-- A run has reached a SYNC: it is saved, suspended or goes on with a new segment (R250, R254, R257). -/
def State.afterSync (s : State) (p t : Nat) (r : NbRun) : State :=
  let q := s.pch p
  let s := s.modPch p (fun q => { q with freeAt := t + 16 })
  if s.regionSaved r.inst then s.saveRun p r
  else if q.due || (decide ((s.stk (p / 64)).arb.toNat + 1 ≤ r.wcnt) && decide (0 < q.chosen)) then
    s.modPch p (fun q => { q with run := some r, phase := .suspended q.chosen false })
  else s.modPch p (fun q => { q with run := some { r with segAt := t + 16 } })

/-- SYNC: ends a segment, its own 2 ns in it; code 4 where a row is open (R248, R250). -/
def execSync (s : State) : Host.Outcome State Fault Refusal :=
  onRun s (fun p => match (s.pch p).run with
    | none => s
    | some r =>
      if (s.pch p).mayStep r 0 s.now5 then
        let t := (s.pch p).startAt s.now5
        if !r.inTime t 16 then s.endRun p 3 (t + 16)
        else if r.anyOpen then s.endRun p 4 (t + 16)
        else if 63 ≤ r.mpc then s.endRun p 5 (t + 16)
        else s.afterSync p t { r.next with wcnt := min (r.wcnt + 1) 15 }
      else s)

/-- The token of a bank (R248). -/
def emitData (a : Nat) (hi : Bool) (n : Nat) (x : NbBank) : W256 :=
  match a with
  | 4 => BitVec.ofNat 256 (x.m.toNat + x.z.toNat * 2 ^ 32 + x.s.toNat * 2 ^ 64 + (n * 256 + (if x.eb then 1 else 0)) * 2 ^ 128)
  | 5 => x.l
  | _ => bits (x.v a) (if hi then 256 else 0) 256

/-- An EMIT that waits for room: with a row open its segment's time runs; with none it is a suspension point (R250, R254, R257). -/
def State.emitWait (s : State) (p t : Nat) (r : NbRun) : State :=
  if r.anyOpen then s
  else
    let r := { r with waitAt := some (r.waitAt.getD t) }
    if s.regionSaved r.inst then s.saveRun p r
    else if (s.pch p).due || decide (0 < (s.pch p).chosen) then
      s.modPch p (fun q => { q with run := some r, phase := .suspended q.chosen true })
    else s.modPch p (fun q => { q with run := some r })

/-- EMIT: one DATA token for each participating bank, in bank order, once EBUF has room (R248). -/
def execEmit (a : BitVec 3) (ft : BitVec 3) (hi : Bool) (s : State) : Host.Outcome State Fault Refusal :=
  onRun s (fun p => match (s.pch p).run with
    | none => s
    | some r =>
      if 128 < r.ebuf.length + r.part.length then
        (if (s.pch p).mayStep r 0 s.now5 then s.emitWait p ((s.pch p).startAt s.now5) r else s)
      else s.micro p tCcd (fun _ => 0) (fun s r t =>
        let toks := r.part.map (fun n => ({ ct := .data, ft, data := emitData a.toNat hi n (r.bank n) } : Token))
        .ok ({ r.next with ebuf := r.ebuf ++ toks, segAt := r.segAt + (match r.waitAt with | some w => t - w | none => 0), waitAt := none }, s)))

/-- HALT: the run ends with code 0, or 3 where its last segment has taken too long (R248, R250, R251). -/
def execHalt (s : State) : Host.Outcome State Fault Refusal :=
  onRun s (fun p => match (s.pch p).run with
    | none => s
    | some r =>
      if (s.pch p).mayStep r 0 s.now5 then
        let t := (s.pch p).startAt s.now5
        s.endRun p (if r.inTime t 16 then 0 else 3) (t + 16)
      else s)

/-- MOVQ: the latch from a query (R246). -/
def execMovq (b : BitVec 3) (s : State) : Host.Outcome State Fault Refusal :=
  onRun s (fun p => s.microRegs p 16 (fun q _ _ x => { x with l := q.getD b.toNat 0 }))

/-- MASK: S becomes minus infinity at and beyond LEN; then POS + inc (R247). -/
def execMask (str : BitVec 6) (inc : BitVec 14) (s : State) : Host.Outcome State Fault Refusal :=
  onRun s (fun p => s.micro p tCcd (fun _ => 0) (fun s r _ =>
    .ok ({ r.each (fun n x => if r.len.toNat ≤ r.pos.toNat + str.toNat * n then { x with s := negInf, masked := true } else x) with
           pos := r.pos + inc.setWidth 32 }.next, s)))

/-- CVTL: the latch from a vector register in 16 bits (R246). -/
def execCvtl (a : BitVec 2) (sat bf : Bool) (s : State) : Host.Outcome State Fault Refusal :=
  onRun s (fun p => s.microRegs p 16 (fun _ _ _ x =>
    { x with l := ofLanes 16 16 (fun i => ((fmt16 bf).roundTo (x.vf a.toNat i) .rne sat 0).code) }))

/-- STV: S, M or Z, unrounded, into a lane (R246). -/
def execStv (a : BitVec 2) (addLc0 : Bool) (src : BitVec 2) (k : BitVec 4) (s : State) : Host.Outcome State Fault Refusal :=
  onRun s (fun p => s.microRegs p 16 (fun _ r _ x =>
    let n := (k.toNat + (if addLc0 then r.lc0.toNat else 0)) % 16
    let v := match src.toNat with | 0 => x.s | 1 => x.m | _ => x.z
    x.setV a.toNat (vOf (fun i => if i = n then v.toNat else vLane (x.v a.toNat) i))))

end Sys2Proof.Machine
end

