-- ==== Sys2Proof/Machine/Image.lean ====
section
/-!
DEFINITION. Image.lean: a stage image (R94, R95) taken apart and checked as CFG does (R43, R77, R78), and its installation in the
tiles of a section (R200, R278).
-/
namespace Sys2Proof.Machine

/-- A stage image taken apart (R95). -/
structure StageImg where
  snum  : Nat
  nodes : List NodeRec
  edges : List W128
  circs : List W128
  rast  : List W64
  /-- Scratchpad data records: node, byte offset, tokens. -/
  data  : List (Nat × Nat × List W256)
  deriving DecidableEq, Repr

/-- The first n words and the rest; none where there are fewer. -/
def takeWords (n : Nat) (l : List W128) : Option (List W128 × List W128) :=
  if n ≤ l.length then some (l.take n, l.drop n) else none

/-- The bits set in a mask, ascending. -/
def bitsSet {w : Nat} (m : BitVec w) : List Nat := (List.range w).filter (fun i => m.getLsbD i)

/-- Pairs of words joined, low half first. -/
def pairs : List W128 → List W256
  | a :: b :: l => (b ++ a) :: pairs l
  | _ => []

/-- A node record and what follows it (R94, R95). -/
def takeNode (l : List W128) : Option (NodeRec × List W128) :=
  match l with
  | hdr :: ctr :: l => do
    let dn := bitsSet (bits hdr 16 8)
    let sn := bitsSet (bits hdr 96 32)
    let (d, l) ← takeWords (2 * dn.length) l
    let (x, l) ← takeWords sn.length l
    let (e, l) ← takeWords (if bits hdr 4 3 = 1 then 3 else 0) l
    return ({ hdr, ctr, dvals := dn.zip (pairs d), slots := sn.zip x, ext := e, circs := [] }, l)
  | _ => none

/-- n node records. -/
def takeNodes : Nat → List W128 → Option (List NodeRec × List W128)
  | 0, l => some ([], l)
  | n + 1, l => do
    let (r, l) ← takeNode l
    let (rs, l) ← takeNodes n l
    return (r :: rs, l)

/-- n scratchpad data records (R95). One with NTOK 0 is rejected: it is outside the field's range, and R95's list of rejected images does not name it
(log 31). -/
def takeData : Nat → List W128 → Option (List (Nat × Nat × List W256) × List W128)
  | 0, l => some ([], l)
  | n + 1, l => match l with
    | h :: l => do
      let (d, l) ← takeWords (2 * (bits h 48 16).toNat) l
      let (rs, l) ← takeData n l
      if bits h 64 64 ≠ 0 ∨ bits h 48 16 = 0 then none
      else return (((bits h 0 16).toNat, (bits h 16 32).toNat, pairs d) :: rs, l)
    | [] => none

/-- The two halves of each word, low half first. -/
def halves (l : List W128) : List W64 := l.flatMap (fun w => [bits w 0 64, bits w 64 64])

/-- A stage image of exactly these words; none where its header or its length is wrong (R95). With an odd NRAST the upper half of the last rasterisation
word is no entry, and the model does not look at it (log 31). -/
def parseStage (l : List W128) : Option StageImg :=
  match l with
  | [] => none
  | h :: l => do
    let nn := (bits h 32 16).toNat
    let nr := (bits h 80 16).toNat
    if bits h 0 16 ≠ 0x5347 ∨ bits h 16 8 ≠ 1 ∨ bits h 112 16 ≠ 0 ∨ nn = 0 ∨ 1024 < nr then none
    else
      let (nodes, l) ← takeNodes nn l
      let (edges, l) ← takeWords (bits h 48 16).toNat l
      let (circs, l) ← takeWords (bits h 64 16).toNat l
      let (rs, l) ← takeWords ((nr + 1) / 2) l
      let (data, l) ← takeData (bits h 96 16).toNat l
      if l.isEmpty then
        return { snum := (bits h 24 8).toNat, nodes, edges, circs, rast := (halves rs).take nr, data }
      else none

/-- TYPE of a node record. -/
def NodeRec.type (r : NodeRec) : Nat := (bits r.hdr 4 3).toNat
/-- SPSIZE of an MT record's extension. -/
def NodeRec.spsize (r : NodeRec) : Nat := match r.ext with | e :: _ => (bits e 0 32).toNat | [] => 0
/-- QCFGq of an MT record's extension. -/
def NodeRec.qcfg (r : NodeRec) (q : Nat) : W64 :=
  match r.ext[1 + q / 2]? with | some e => bits e (q % 2 * 64) 64 | none => 0
/-- FMTTAB of a record. -/
def NodeRec.fmttab (r : NodeRec) : W64 := bits r.hdr 32 64

/-- Fields of an edge record (R95). -/
def eSrc (e : W128) : Nat := (bits e 0 16).toNat
/-- SPORT. -/
def eSport (e : W128) : Nat := (bits e 16 2).toNat
/-- DST. -/
def eDst (e : W128) : Nat := (bits e 32 16).toNat
/-- DPORT. -/
def eDport (e : W128) : Nat := (bits e 48 2).toNat
/-- VIA. -/
def eVia (e : W128) : Nat := (bits e 64 16).toNat
/-- VQ. -/
def eVq (e : W128) : Nat := (bits e 80 2).toNat

/-- Nothing occurs twice. -/
def noRepeats [BEq α] (l : List α) : Bool := l.eraseDups.length == l.length

/-- The rings of an MT's queues: base and size in tokens. -/
def NodeRec.rings (r : NodeRec) : List (Nat × Nat) :=
  ((List.range 4).map (fun q => ((bits (r.qcfg q) 0 14).toNat, (bits (r.qcfg q) 14 14).toNat))).filter (fun x => x.2 != 0)

/-- Two rings overlap. -/
def ringsMeet (a b : Nat × Nat) : Bool := decide (a.1 < b.1 + b.2) && decide (b.1 < a.1 + a.2)

/-- No two rings of a list overlap. -/
def apart : List (Nat × Nat) → Bool
  | [] => true
  | a :: l => l.all (fun b => !ringsMeet a b) && apart l

/-- An MT record's partition and queues are as R95 asks; `vq` are the queues that channels name. -/
def NodeRec.mtOk (r : NodeRec) (vq : List Nat) : Bool :=
  r.spsize != 0 && r.spsize % 4096 == 0 && decide (r.spsize ≤ 393216)
  && (match r.ext with | e :: _ => bits e 64 64 == 0 && bits e 32 12 == 0 | [] => false)
  && r.rings.all (fun x => decide ((x.1 + x.2) * 32 ≤ r.spsize)) && apart r.rings
  && (List.range 4).all (fun q => bits (r.qcfg q) 38 26 == 0 && (r.qcfg q).getLsbD 37 == vq.contains q)

/-- The checks of a stage image before those of its node records (R95). Of what R95's layout excludes and its list does not name, an edge record with 0xFFFF
at both ends, a data record of a node that is no MT or with an OFF that is no multiple of 32, and an SPBASE that is no multiple of 4 KiB are rejected, and
a circuit record with T 0 is taken (log 31). -/
def StageImg.ok (v : StageImg) : Bool :=
  let n := v.nodes.length
  let ty := fun k => (v.nodes[k]?).map NodeRec.type
  v.edges.all (fun e =>
    bits e 90 38 == 0 && bits e 50 14 == 0 && bits e 18 14 == 0
    && (eSrc e == 0xFFFF || decide (eSrc e < n)) && (eDst e == 0xFFFF || decide (eDst e < n)) && !(eSrc e == 0xFFFF && eDst e == 0xFFFF)
    && (eVia e == 0xFFFF || ty (eVia e) == some 1) && !(eVia e == 0xFFFF && bits e 82 8 != 0))
  && noRepeats ((v.edges.filter (fun e => eSrc e != 0xFFFF)).map (fun e => (eSrc e, eSport e)))
  && noRepeats ((v.edges.filter (fun e => eDst e != 0xFFFF)).map (fun e => (eDst e, eDport e)))
  && v.circs.all (fun c => bits c 80 48 == 0 && bits c 34 6 == 0 && bits c 22 10 == 0 && decide ((bits c 32 2).toNat < 2)
    && ty (bits c 0 16).toNat == some 3)
  && v.rast.all (fun e => bits e 48 16 == 0)
  && v.data.all (fun d => ty d.1 == some 1 && d.2.1 % 32 == 0
    && (match v.nodes[d.1]? with | some r => decide (d.2.1 + 32 * d.2.2.length ≤ r.spsize) | none => false))
  && v.nodes.zipIdx.all (fun x => x.1.type != 1 || x.1.mtOk ((v.edges.filter (fun e => eVia e == x.2)).map eVq))

/-- The checks of a node record's own words for the element that receives it (R94, R56). -/
def NodeRec.ok (r : NodeRec) (t : ElemType) : Bool :=
  bits r.hdr 0 4 == 1 && r.type == typeCode t && bits r.hdr 12 4 == 0 && (r.hdr.getLsbD 11 || bits r.hdr 9 2 == 0)
  && bits r.ctr 64 64 == 0 && fmttabOk r.fmttab

/-- The circuits that a stage declares for a node, by N; of two records with one N, which Chaog rejects (R317) and CFG's list does not name, the last holds
(log 31). -/
def StageImg.circsOf (v : StageImg) (k : Nat) : Tab W128 :=
  (v.circs.filter (fun c => (bits c 0 16).toNat == k)).foldl (fun t c => t.put (bits c 16 6).toNat c) []

/-- What the slot checks know of a node (R77). -/
def StageImg.nodeCtx (v : StageImg) (k : Nat) (t : ElemType) (r : NodeRec) : NodeCtx :=
  { ty := t, compl := r.hdr.getLsbD 8, fmttab := r.fmttab,
    bound := BitVec.ofNat 4 (((List.range 4).map (fun q => if (r.qcfg q).getLsbD 37 then 2 ^ q else 0)).sum),
    circs := BitVec.ofNat 64 (((v.circsOf k).keys.map (fun n => 2 ^ n)).sum) }

/-- The row of R78 that a word which does not decode breaks: the row of R76 for a reserved opcode and for an INVL word with another field set
(log 31); a plain INVL breaks none. -/
def errorRow : DecodeError → Option Nat
  | .invl => none
  | .reservedPortCond => some 2
  | .presWithoutEnable => some 7
  | _ => some 1

/-- The row that a slot word breaks in its node. -/
def wordBreach (c : NodeCtx) (w : W128) : Option Nat :=
  match decodeSlot w with
  | .ok (o, x) => slotRow c o x
  | .error e => errorRow e

/-- The first slot of a record that fails, and the row it breaks (R77); 0xFE where the record itself fails. -/
def StageImg.nodeBreach (v : StageImg) (k : Nat) (t : ElemType) (r : NodeRec) : Option (Nat × Nat) :=
  if !r.ok t then some (0xFE, 0)
  else (r.slots.filterMap (fun (x : Nat × W128) => (wordBreach (v.nodeCtx k t r) x.2).map (fun row => (x.1, row)))).head?

/-- The leader a record names for the element of a node in a section (R43). -/
def leaderIn (nodes : Tab Nat) (recs : List NodeRec) (el : Nat) : Option Nat :=
  match List.find? (fun (x : Nat × Nat) => x.2 == el) nodes with
  | some (k, _) => (recs[k]?).bind (recLeader el)
  | none => none

/-- The number of leaders before an element, none where more than n. -/
def chainDepth (nodes : Tab Nat) (recs : List NodeRec) (el : Nat) : Nat → Option Nat
  | 0 => none
  | n + 1 => match leaderIn nodes recs el with
    | none => some 0
    | some l => (chainDepth nodes recs l n).map (· + 1)

/-- A follower breaks R43: its leader is missing or outside the section, has two followers, or the chain is longer than 16. -/
def chainBreach (nodes : Tab Nat) (recs : List NodeRec) (k el : Nat) : Bool :=
  match recs[k]? with
  | none => false
  | some r =>
    r.hdr.getLsbD 11 && (match leaderIn nodes recs el with
      | none => true
      | some l => !nodes.vals.contains l || (nodes.vals.filter (fun e => leaderIn nodes recs e == some l)).length != 1
          || (chainDepth nodes recs el 16).isNone)

/-- The ILLOP records of a stage image loaded into a section: element, slot field and failing row (R43, R77, R95). For SLOT 0xFD, 0xFE and 0xFF no row
is numbered, and INFO is 0 (log 31). -/
def stageBreaches (nodes : Tab Nat) (l : List W128) : List (Nat × Nat × Nat) :=
  let nw := nodes.vals.headD 0
  match parseStage l with
  | none => [(nw, 0xFD, 0)]
  | some v =>
    if !v.ok || nodes.length != v.nodes.length then [(nw, 0xFD, 0)]
    else
      let own := nodes.filterMap (fun (x : Nat × Nat) =>
        ((v.nodes[x.1]?).bind (v.nodeBreach x.1 (elType x.2))).map (fun b => (x.2, b.1, b.2)))
      let ch := (nodes.filter (fun (x : Nat × Nat) => chainBreach nodes v.nodes x.1 x.2)).map (fun x => (x.2, 0xFF, 0))
      own ++ ch

/-- The gateway circuit that a circuit record declares, not bound (R95, R317). -/
def circuitOf (c : W128) : GwCircuit :=
  { recv := bits c 32 2 == 1, peerOff := (bits c 48 16).toNat, coll := (bits c 40 8).toNat, perStep := (bits c 64 16).toNat,
    bound := none, peer := 0, circ := 0, credits := 0, got := [], sent := 0, total := 0, acks := 0, owed := [] }

/-- The registers of an element whose configuration starts (R94, R100). -/
def recRegs (r : NodeRec) (snum : Nat) (asid : BitVec 16) (fcnt : BitVec 48) : Regs :=
  { Regs.reset with d := r.dvals, k0 := bits r.ctr 0 32, k1 := bits r.ctr 32 32, p := bits r.hdr 24 8, fmttab := r.fmttab, fcnt,
                    stage := BitVec.ofNat 32 snum, asid }

/-- The memory tile's parts of a configuration that starts (R95, R181, R182). -/
def recMt (r : NodeRec) (spbase : Nat) : MtPart :=
  { MtPart.reset with
    spbase := BitVec.ofNat 32 spbase, spsize := BitVec.ofNat 32 r.spsize,
    queues := (List.range 4).map (fun q => (q, { MtQueue.reset with cfg := r.qcfg q, head := (bits (r.qcfg q) 0 14).toNat })) }

/-- The context of an element whose configuration starts: from its record, and the rest as at launch; ports as given (R200). -/
def freshCtx (r : NodeRec) (snum spbase inst : Nat) (asid : BitVec 16) (fcnt : BitVec 48) (ports : Ports) : Ctx :=
  { Ctx.reset with
    regs := recRegs r snum asid fcnt, ports, mt := recMt r spbase, inst := some inst,
    gw := { circs := r.circs.map (fun (x : Nat × W128) => (x.1, circuitOf x.2)), cbars := [] } }

/-- The configuration slot of an instance's own context at an element, which runs or which a CSLOT or a pre-emption has set aside (R285). -/
def Elem.baseSlot (e : Elem) (i : Nat) : Nat :=
  if e.run ≠ 2 ∧ e.ctx.inst = some i then e.run
  else match List.find? (fun (x : Nat × Ctx) => x.2.inst == some i) e.saved with
  | some (k, _) => k
  | none => if e.run = 2 then 0 else e.run

/-- The slot under which the partition of the running context is kept. -/
def Elem.runKey (e : Elem) : Nat := if e.run = 2 then shadowSlot (e.baseSlot (e.ctx.inst.getD 0)) else e.run

/-- The partitions of an MT other than those kept for one slot, and those in use there: base and size (R95, R217). -/
def Elem.partitions (e : Elem) (k : Nat) : List (Nat × Nat) :=
  let of := fun (c : Ctx) => (c.mt.spbase.toNat, c.mt.spsize.toNat)
  ((e.parts.filter (fun x => x.1 != k)).map (fun x => (x.2.1, x.2.2.1))
    ++ (if e.runKey = k ∨ e.ctx.inst = none then [] else [of e.ctx])
    ++ (e.saved.filter (fun (x : Nat × Ctx) => x.1 != k)).map (fun x => of x.2)).filter (fun x => x.2 != 0)

/-- A partition for a context of an MT beside the others: the lowest multiple of 4 KiB below the save areas (R95, R285, log 10). -/
def Elem.fit (e : Elem) (k size : Nat) : Option Nat :=
  ((List.range 97).map (· * 4096)).find? (fun b => decide (b + size ≤ 393216) && (e.partitions k).all (fun x => !ringsMeet x (b, size)))

/-- A partition of at least a size kept for a slot of an instance: the one kept already, or another where it is too small; none where an MT has no
room (R95, R217, log 10). -/
def Elem.keep (e : Elem) (i k size : Nat) : Option Elem :=
  if size ≤ (e.parts.getD k (0, 0, 0)).2.1 then some e else (e.fit k size).map (fun b => { e with parts := e.parts.put k (b, size, i) })

/-- An element takes a configuration into the slot it runs and starts it in the partition kept under a key: FCNT and port queues are kept (R200, R217). -/
def Elem.start (e : Elem) (key : Nat) (r : NodeRec) (snum inst : Nat) (asid : BitVec 16) (keep : Bool) : Elem :=
  let base := (e.parts.getD key (0, 0, 0)).1
  { e with cfg := e.cfg.put e.run r,
           ctx := freshCtx r snum base inst asid (if keep then e.ctx.regs.fcnt else 0) (if keep then e.ctx.ports else .reset) }

/-- The tokens of a scratchpad data record written into a partition (R92). -/
def State.layData (s : State) (el off : Nat) : List W256 → State
  | [] => s
  | v :: l => ((s.spadWrite (s.spadAt el off) 32 v.toNat).getD s).layData el (off + 32) l

/-- The part of a tile's save areas that holds an element's state, in Mem.spad, first byte and length: 16 KiB in its home MT for a CE, the next 48 KiB of
its own for an MT; SAVE0 for a context in C0, SAVE1 for one in C1 (R11, R285, log 64). A BN and a GW keep their state elsewhere. -/
def saveArea (el k : Nat) : Option (Nat × Nat) :=
  match elType el with
  | .ce => some (spadBase (homeMt el) + 393216 + 65536 * (k % 2), 16384)
  | .mt => some (spadBase el + 409600 + 65536 * (k % 2), 49152)
  | _ => none

/-- A context spills to its save area, whose check bits are written afresh (R288, R293). -/
def State.spill (s : State) (el k : Nat) : State :=
  let s := s.modElem el (fun e => { e with saveErr := e.saveErr.filter (fun n => n != k) })
  match saveArea el k with
  | some (a, n) => { s with mem := { s.mem with spadErr := s.mem.spadErr.filter (fun g => !(decide (a ≤ g * 8) && decide (g * 8 < a + n))) } }
  | none => s

/-- A save area holds an uncorrectable error (R293): a CE's or an MT's in the scratchpad, a BN's or a GW's in its own SRAM (R285). -/
def State.saveBad (s : State) (el k : Nat) : Bool :=
  match saveArea el k with
  | some (a, n) => s.mem.spadErr.any (fun g => decide (a ≤ g * 8) && decide (g * 8 < a + n))
  | none => (s.elem el).saveErr.contains k

/-- Every data record of a stage written into its MT's partition (R92). -/
def State.layStage (s : State) (nodes : Tab Nat) (v : StageImg) : State :=
  v.data.foldl (fun s d => match nodes.find? d.1 with
    | some el => s.layData el d.2.1 d.2.2
    | none => s) s

/-- The circuits of a stage (R89, R90, R95): tokens on their way on a circuit that stays keep their place. An `.out` boundary drains into a discarding sink,
whatever its record names beside (log 31). -/
def State.wire (s : State) (i sid : Nat) (nodes : Tab Nat) (v : StageImg) : State :=
  let old := List.filter (fun (x : Nat × Circuit) => x.2.inst == i && x.2.sid == sid) s.circs
  let s := { s with circs := List.filter (fun (x : Nat × Circuit) => !(x.2.inst == i && x.2.sid == sid)) s.circs }
  v.edges.foldl (fun s e =>
    match nodes.find? (eSrc e) with
    | none => s
    | some src =>
      let dst := nodes.find? (eDst e)
      let was := old.find? (fun x => x.2.src == src && x.2.srcPort == eSport e && x.2.dst == dst && x.2.dstPort == eDport e)
      let c : Circuit :=
        { src, srcPort := eSport e, dst, dstPort := eDport e, via := if dst.isNone then none else (nodes.find? (eVia e)).map (fun m => (m, eVq e)),
          flying := match was with | some x => x.2.flying | none => [], passed := match was with | some x => x.2.passed | none => [], inst := i, sid }
      { s with circs := s.circs.put s.nextId c, nextId := s.nextId + 1 }) s

/-- A stage starts in C0 of a section, as a launch or a SWAP makes it: every tile in the same fc (R92, R200). -/
def State.install (s : State) (i sid : Nat) (l : List W128) (keep : Bool) : State :=
  match s.sect i sid, parseStage l with
  | some x, some v =>
    let asid := match s.inst i with | some n => n.asid | none => 0
    let s := x.nodes.foldl (fun s (n : Nat × Nat) => match v.nodes[n.1]? with
      | some r => s.modElem n.2 (fun e => e.start e.run { r with circs := v.circsOf n.1 } v.snum i asid keep)
      | none => s) s
    let s := (s.layStage x.nodes v).wire i sid x.nodes v
    s.modSect i sid (fun x => { x with img := some l, rast := v.rast, cur := 0 })
  | _, _ => s

end Sys2Proof.Machine
end

