-- ==== Sys2Proof/Machine/NetImage.lean ====
section
/-!
DEFINITION. NetImage.lean: reading structures through a region's or a queue's tables (R280, R295), a net image taken apart (R192)
and checked (R213).
-/
namespace Sys2Proof.Machine

/-- A translation fault of an access to a structure: code, CAUSE, VA and the kind of access (R272, R280, R283). -/
structure VaFault where
  code  : Nat
  cause : Nat
  va    : Nat
  kind  : FaultKind
  deriving DecidableEq, Repr

/-- The cell of a VA under a root table, for a read or a write; the strip reaches every area (R220, R295). -/
def State.vaCell (s : State) (root va : Nat) (k : AccKind) : Except VaFault (Nat × Nat) :=
  if 2 ^ 56 ≤ va then .error { code := 0x11, cause := 4, va, kind := k.faultKind }
  else match s.walk va 0 root 4 with
  | .fault c => .error { code := 0x10, cause := c, va, kind := k.faultKind }
  | .leaf size e =>
    if !k.allowed e then .error { code := 0x11, cause := 3, va, kind := k.faultKind }
    else .ok (leafCell size e va).2

/-- n bytes at a VA, little-endian, each byte translated on its own page. -/
def State.vaRead (s : State) (root va : Nat) : Nat → Except VaFault Nat
  | 0 => .ok 0
  | n + 1 => do
    let c ← s.vaCell root va .read
    let r ← s.vaRead root (va + 1) n
    return (s.mem.dram.read (cellAt c)).toNat + 256 * r

/-- The first token of n bytes at a VA that holds an uncorrectable error, by its VA (R293). -/
def State.vaBad (s : State) (root va n : Nat) : Option Nat :=
  ((List.range ((va % 32 + n + 31) / 32)).map (fun j => (va / 32 + j) * 32)).find? (fun a => match s.vaCell root a .read with
    | .ok c => s.mem.dramErr.contains (cellAt c / 32)
    | .error _ => false)

/-- n 128-bit words at a VA. -/
def State.vaWords (s : State) (root va : Nat) : Nat → Except VaFault (List W128)
  | 0 => .ok []
  | n + 1 => do
    let w ← s.vaRead root va 16
    let l ← s.vaWords root (va + 16) n
    return BitVec.ofNat 128 w :: l

/-- Fields of a net image's header (R193). -/
def NetImg.ntr (h : W128) : Nat := (bits h 48 16).toNat
/-- NPL. -/
def NetImg.npl (h : W128) : Nat := (bits h 32 16).toNat
/-- NACT. -/
def NetImg.nact (h : W128) : Nat := (bits h 64 16).toNat
/-- NOBJ. -/
def NetImg.nobj (h : W128) : Nat := (bits h 80 16).toNat
/-- NDATA. -/
def NetImg.ndata (h : W128) : Nat := (bits h 96 16).toNat
/-- NREGM. -/
def NetImg.nregm (h : W128) : BitVec 16 := bits h 32 16
/-- SYS. -/
def NetImg.sys (v : NetImg) : Bool := v.hdr0.getLsbD 113
/-- FW. -/
def NetImg.fw (v : NetImg) : Bool := v.hdr0.getLsbD 114
/-- TIMEQ. -/
def NetImg.timeq (v : NetImg) : Nat := (bits v.hdr1 0 32).toNat

/-- The words of a net image behind its header (R192). -/
def netWords (h0 h1 : W128) : Nat :=
  (NetImg.npl h0 + 1) / 2 + 2 * NetImg.ntr h0 + NetImg.nact h0 + 2 * NetImg.nobj h0
    + ((bitsSet (NetImg.nregm h1)).length + 1) / 2 + 2 * NetImg.ndata h0

/-- A net image of its words (R192). -/
def parseNet (base : Nat) (h0 h1 : W128) (l : List W128) : NetImg :=
  let np := (NetImg.npl h0 + 1) / 2
  let a := l.drop np
  let nt := 2 * NetImg.ntr h0
  let b := a.drop nt
  let c := b.drop (NetImg.nact h0)
  let d := c.drop (2 * NetImg.nobj h0)
  let rs := bitsSet (NetImg.nregm h1)
  let m := (rs.length + 1) / 2
  { base, hdr0 := h0, hdr1 := h1, places := (halves (l.take np)).take (NetImg.npl h0), trans := pairs (a.take nt),
    acts := b.take (NetImg.nact h0), objs := pairs (c.take (2 * NetImg.nobj h0)), regs := rs.zip (halves (d.take m)),
    data := pairs (d.drop m) }

/-- The counts of a header are in R193's ranges. -/
def countsOk (h : W128) : Bool :=
  decide (NetImg.nobj h ≤ 256) && decide (1 ≤ NetImg.nact h) && decide (NetImg.nact h ≤ 256) && decide (1 ≤ NetImg.ntr h)
  && decide (NetImg.ntr h ≤ 256) && decide (1 ≤ NetImg.npl h) && decide (NetImg.npl h ≤ 256)

/-- The net image at a VA. Where the header's magic, version or counts are wrong only the header is read (R213, rows 1 and 2). -/
def State.fetchNet (s : State) (root va : Nat) : Except VaFault NetImg := do
  let h ← s.vaWords root va 2
  let h0 := h.headD 0
  let h1 := h.getD 1 0
  if bits h0 0 16 ≠ 0x4E49 ∨ countsOk h0 = false then return { NetImg.empty with base := va, hdr0 := h0, hdr1 := h1 }
  else
    let l ← s.vaWords root (va + 32) (netWords h0 h1)
    return parseNet va h0 h1 l

/-- Place fields (R194). -/
def pCap (d : W64) : Nat := (bits d 0 16).toNat
/-- INIT. -/
def pInit (d : W64) : Nat := (bits d 16 16).toNat
/-- KIND. -/
def pKind (d : W64) : Nat := (bits d 32 3).toNat
/-- BIND. -/
def pBind (d : W64) : Nat := (bits d 40 8).toNat

/-- An arc: input kind 1-3, weight and place (R196). -/
structure InArc where
  kind   : Nat
  weight : Nat
  place  : Nat
  deriving DecidableEq, Repr

/-- An output arc: outcome mask, weight and place (R196). -/
structure OutArc where
  mask   : BitVec 4
  weight : Nat
  place  : Nat
  deriving DecidableEq, Repr

/-- The input fields of a transition record. -/
def tInField (t : W256) (n : Nat) : BitVec 14 := bits t (128 + 14 * n) 14
/-- The output fields. -/
def tOutField (t : W256) (m : Nat) : BitVec 16 := bits t (16 * m) 16

/-- The input arcs present. -/
def tIn (t : W256) : List InArc :=
  (List.range 4).filterMap (fun n =>
    let f := tInField t n
    if bits f 8 2 = 0 then none else some { kind := (bits f 8 2).toNat, weight := (bits f 10 4).toNat, place := (bits f 0 8).toNat })

/-- The output arcs present. -/
def tOut (t : W256) : List OutArc :=
  (List.range 8).filterMap (fun m =>
    let f := tOutField t m
    if f = 0 then none else some { mask := bits f 12 4, weight := (bits f 8 4).toNat, place := (bits f 0 8).toNat })

/-- VALID of a transition. -/
def tValid (t : W256) : Bool := t.getLsbD 191
/-- The concurrency limit. -/
def tConc (t : W256) : Nat := (bits t 188 3).toNat + 1
/-- PRIO. -/
def tPrio (t : W256) : Nat := (bits t 186 2).toNat
/-- AIDX. -/
def tAidx (t : W256) : Nat := (bits t 192 8).toNat

/-- Consumed_t(p) (R31). -/
def tConsumes (t : W256) (p : Nat) : Nat := (((tIn t).filter (fun a => a.kind == 1 && a.place == p)).map (fun a => a.weight)).sum

/-- The weight deposited into p under an outcome. -/
def tDeposits (t : W256) (o p : Nat) : Nat :=
  (((tOut t).filter (fun a => a.mask.getLsbD o && a.place == p)).map (fun a => a.weight)).sum

/-- MaxDeposit_t(p) (R31). -/
def tMaxDeposit (t : W256) (p : Nat) : Nat := ((List.range 4).map (fun o => tDeposits t o p)).foldl max 0

/-- OKIND of an object. -/
def oKind (o : W256) : Nat := (bits o 0 4).toNat

/-- An object of an image has a kind. -/
def NetImg.isKind (v : NetImg) (n k : Nat) : Bool := match v.objs[n]? with | some o => oKind o == k | none => false

/-- The bits of an object's payload that its kind uses (R195, R316). -/
def objMask (o : W256) : W256 :=
  let f := fun (lo n : Nat) => ((1#256 <<< n) - 1) <<< lo
  match oKind o with
  | 1 => f 8 16
  | 2 => f 8 18 ||| f 32 8
  | 3 => f 8 4 ||| f 64 64
  | 4 => f 32 64
  | 5 => f 8 6 ||| f 32 40
  | 6 => f 8 56
  | 7 => f 8 61 ||| f 128 64
  | 8 => f 8 18 ||| f 32 6 ||| f 40 12 ||| f 64 32 ||| f 128 64
  | 9 => f 8 1 ||| f 12 26 ||| f 64 36
  | 10 => f 8 16
  | _ => BitVec.allOnes 256

/-- The bits of an action word that its code uses (R197, R198); all where the code is reserved or EXTEND's. The register number beside NREG or ADDN is
used only where that bit is set, and COLL's B only in a step (log 63). -/
def actMask (w : W128) : W128 :=
  let f := fun (lo n : Nat) => ((1#128 <<< n) - 1) <<< lo
  let nreg := w.getLsbD 24
  let reg := f 24 1 ||| (if nreg then f 25 4 else 0)
  (f 0 8) ||| (match (bits w 0 8).toNat with
  | 0x00 => 0
  | 0x01 => f 8 8 ||| f 16 8 ||| reg ||| f 32 16 ||| f 64 3
  | 0x02 => f 8 8 ||| f 16 10
  | 0x03 => f 8 8 ||| f 16 2
  | 0x04 => f 8 8 ||| f 16 8 ||| reg ||| f 64 3
  | 0x05 => f 16 3 ||| f 32 64
  | 0x06 => f 8 8 ||| f 16 8
  | 0x07 => f 8 8 ||| f 16 13 ||| f 32 64 ||| f 96 14 ||| f 112 16
  | 0x08 => f 8 8 ||| f 32 56
  | 0x09 => f 8 8 ||| f 16 4 ||| f 32 64
  | 0x0A => f 8 8 ||| f 16 5 ||| f 32 96
  | 0x0B => f 8 8 ||| f 32 64
  | 0x0C => f 8 8 ||| f 32 64
  | 0x0D => f 8 8 ||| f 16 1 ||| f 32 64
  | 0x0E => f 8 8
  | 0x0F => f 8 8 ||| f 16 2 ||| (if bits w 16 2 = 1 then f 32 32 else 0)
  | 0x10 => f 8 8 ||| f 32 32
  | 0x11 => f 8 8
  | 0x12 => f 16 8 ||| reg ||| f 32 64
  | 0x13 => f 32 32
  | 0x14 => f 8 8 ||| f 16 8
  | 0x15 => f 32 16
  | 0x16 => f 32 32 ||| f 96 32
  | _ => BitVec.allOnes 128)

/-- The kind of object that an action's TGT names; none where TGT names no object (R198). -/
def actTgtKind (code : Nat) : Option Nat :=
  match code with
  | 0x01 | 0x02 | 0x03 | 0x10 => some 1
  | 0x04 => some 2
  | 0x06 | 0x07 => some 3
  | 0x08 => some 9
  | 0x09 | 0x0A => some 7
  | 0x0F => some 8
  | 0x11 => some 6
  | _ => none

/-- An action whose TGT is a register index. -/
def actTgtReg (code : Nat) : Bool := (decide (0x0B ≤ code) && decide (code ≤ 0x0E)) || code == 0x14

/-- A scope code from 2 to 5 (R198). -/
def scopeOk {n : Nat} (x : BitVec n) : Bool := decide (2 ≤ x.toNat) && decide (x.toNat ≤ 5)

/-- Row 11: TGT is as its action needs (R198, R213). -/
def NetImg.tgtOk (v : NetImg) (w : W128) : Bool :=
  let code := (bits w 0 8).toNat
  let t := (bits w 8 8).toNat
  match actTgtKind code with
  | some k => v.isKind t k && !(code == 0x08 && (match v.objs[t]? with | some o => o.getLsbD 8 | none => false))
  | none => !actTgtReg code || decide (t ≤ 15)

/-- Row 12: an action's operands are within R198. -/
def NetImg.operandsOk (v : NetImg) (w : W128) : Bool :=
  let a8 := (bits w 16 8).toNat
  let nreg := w.getLsbD 24
  match (bits w 0 8).toNat with
  | 0x01 => scopeOk (bits w 64 3) && (!nreg || bits w 32 16 == 0)
  | 0x02 => v.isKind a8 4 && !w.getLsbD 24
  | 0x03 => !w.getLsbD 16
  | 0x04 => v.isKind a8 10 && scopeOk (bits w 64 3)
  | 0x05 => scopeOk (bits w 16 3) && (bitsSet (bits w 32 64)).all (fun n => v.isKind n 2)
  | 0x06 => v.isKind a8 5
  | 0x07 => v.isKind a8 5 && scopeOk (bits w 26 3)
  | 0x09 => scopeOk (bits w 17 3)
  | 0x0A => scopeOk (bits w 18 3)
  | 0x0F => bits w 16 2 != 3
  | 0x10 => decide (1 ≤ (bits w 32 32).toNat) && decide ((bits w 32 32).toNat ≤ 2048)
  | 0x12 => !nreg || bits w 32 64 == 0
  | 0x13 => bits w 32 32 != 0
  | 0x14 => decide (a8 < v.places.length)
  | _ => true

/-- Row 13: an object is within its limits (R195, R213); `stage` gives the stage image behind an IMAGE object. Nothing gives a binary's length, so
OFF + LEN is held to the end of the virtual addresses (log 63). -/
def NetImg.objOk (v : NetImg) (stage : Nat → Option StageImg) (n : Nat) (o : W256) : Bool :=
  match oKind o with
  | 1 => true
  | 2 => (match v.objs[(bits o 32 8).toNat]? with
    | some q => oKind q == 1 && bits q 8 8 != 0xFF && (match (stage (bits q 8 8).toNat).bind (fun g => g.nodes[(bits o 8 16).toNat]?) with
        | some r => r.type == 1 || r.type == 2
        | none => false)
    | none => false)
  | 3 => true
  | 4 => decide (v.base + (bits o 32 32).toNat + (bits o 64 32).toNat ≤ 2 ^ 56)
  | 5 => decide (1 ≤ (bits o 64 8).toNat) && decide ((bits o 8 6).toNat + (bits o 64 8).toNat ≤ 64)
      && decide (v.base + (bits o 32 32).toNat + 4 * (bits o 64 8).toNat ≤ 2 ^ 56)
  | 6 => true
  | 7 => !v.places.any (fun d => pKind d == 3 && pBind d == n) || scopeOk (bits o 66 3)
  | 8 => true
  | 9 => bits o 64 5 == 0 && decide ((bits o 12 26).toNat * 16 + (bits o 64 32).toNat ≤ 2 ^ 30)
  | 10 => decide ((bits o 8 16).toNat < v.data.length)
  | _ => false

/-- Row 6: the rules of R194 for the system places. -/
def sysPlaceOk (d : W64) : Bool :=
  match pKind d with
  | 1 | 3 => pCap d == 1 && pInit d == 0
  | 2 => pInit d == 0
  | _ => true

/-- Row 7: BIND is as its place needs. -/
def NetImg.bindOk (v : NetImg) (d : W64) : Bool :=
  match pKind d with
  | 2 => v.isKind (pBind d) 1 || v.isKind (pBind d) 2
  | 3 => v.isKind (pBind d) 7
  | _ => pBind d == 0

/-- Row 8: a transition record is well made: arcs name places, and breach no rule of R30. -/
def NetImg.arcsOk (v : NetImg) (t : W256) : Bool :=
  let kind := fun p => (v.places[p]?).map pKind
  if !tValid t then t == 0
  else
    (List.range 4).all (fun n => bits (tInField t n) 8 2 != 0 || tInField t n == 0)
    && (tIn t).all (fun a => decide (a.place < v.places.length) && a.weight != 0
        && !(a.kind == 1 && (kind a.place == some 1 || kind a.place == some 3)))
    && (tOut t).all (fun a => decide (a.place < v.places.length) && a.weight != 0 && a.mask != 0 && kind a.place == some 0)

/-- Row 9: the action exists, and the arcs fit their places. -/
def NetImg.fitsOk (v : NetImg) (t : W256) : Bool :=
  !tValid t || (decide (tAidx t < v.acts.length)
    && v.places.zipIdx.all (fun x => decide (tConsumes t x.2 ≤ pCap x.1) && decide (tMaxDeposit t x.2 ≤ pCap x.1)))

/-- Row 6 at place `n`: CAP and INIT of its kind, no earlier WSREADY or TIME place of the same kind,
and no TIME place without TIMEQ (R194). -/
def NetImg.sysOk (v : NetImg) (d : W64) (n : Nat) : Bool :=
  sysPlaceOk d && !((pKind d == 1 || pKind d == 4) && (v.places.take n).any (fun e => pKind e == pKind d))
  && !(pKind d == 4 && v.timeq == 0)

/-- Row 6 beyond the places: TIMEQ without a TIME place, or out of range, which names no place
(the record's index is then 0, log 31). -/
def NetImg.timeOk (v : NetImg) : Bool :=
  v.timeq == 0 || (v.places.any (fun d => pKind d == 4) && decide (1024 ≤ v.timeq) && decide (v.timeq ≤ 16777216))

/-- The first index at which a test fails, as an error record's index, table and code. -/
def firstBad {α : Type} (table code : Nat) (ok : α → Nat → Bool) (l : List α) : Option (Nat × Nat × Nat) :=
  ((l.zipIdx.filter (fun x => !ok x.1 x.2)).head?).map (fun x => (x.2, table, code))

/-- The 32-bit error record of R213. -/
def errRecord (x : Nat × Nat × Nat) : Nat := x.1 * 2 ^ 16 + x.2.1 * 256 + x.2.2

/-- Row 3: the reserved bits of each table, in table order. -/
def NetImg.reservedRow (v : NetImg) : Option (Nat × Nat × Nat) :=
  if bits v.hdr0 115 13 ≠ 0 ∨ v.hdr0.getLsbD 112 = true ∨ bits v.hdr1 48 80 ≠ 0 then some (0, 0, 3)
  else (firstBad 1 3 (fun d _ => bits d 48 16 == 0 && bits d 35 5 == 0) v.places).or
    ((firstBad 2 3 (fun t _ => bits t 200 56 == 0 && bits t 184 2 == 0) v.trans).or
      ((firstBad 3 3 (fun w _ => w &&& ~~~(actMask w) == 0) v.acts).or
        (firstBad 4 3 (fun o _ => bits o 4 4 == 0 && (o >>> 8 <<< 8) &&& ~~~(objMask o) == 0) v.objs)))

/-- NETLOAD's checks in row order: the first failing index, table and code (R213). -/
def NetImg.check (v : NetImg) (minor : Nat) (sys fw : Bool) (stage : Nat → Option StageImg) : Option (Nat × Nat × Nat) :=
  if bits v.hdr0 0 16 ≠ 0x4E49 ∨ bits v.hdr0 16 8 ≠ 1 ∨ minor < (bits v.hdr0 24 8).toNat then some (0, 0, 1)
  else if countsOk v.hdr0 = false then some (0, 0, 2)
  else v.reservedRow.or
    ((if (v.sys && !sys) || (v.fw && !fw) then some (0, 0, 4) else none).or
    ((firstBad 1 5 (fun d _ => pCap d != 0 && decide (pInit d ≤ pCap d) && decide (pKind d < 5)) v.places).or
    ((firstBad 1 6 v.sysOk v.places).or
    ((if v.timeOk then none else some (0, 1, 6)).or
    ((firstBad 1 7 (fun d _ => v.bindOk d) v.places).or
    ((firstBad 2 8 (fun t _ => v.arcsOk t) v.trans).or
    ((firstBad 2 9 (fun t _ => v.fitsOk t) v.trans).or
    ((firstBad 3 10 (fun w _ => decide ((bits w 0 8).toNat < 0x18) && (bits w 0 8 != 0x16 || v.sys) && (bits w 0 8 != 0x17 || v.fw)) v.acts).or
    ((firstBad 3 11 (fun w _ => v.tgtOk w) v.acts).or
    ((firstBad 3 12 (fun w _ => v.operandsOk w) v.acts).or
     (firstBad 4 13 (fun o n => v.objOk stage n o) v.objs)))))))))))

/-- The VA of what an IMAGE or NBPROG object of a net image names (R195). -/
def NetImg.objVa (v : NetImg) (obj : Nat) : Nat := v.base + (match v.objs[obj]? with | some o => (bits o 32 32).toNat | none => 0)

/-- The words of the stage image behind an IMAGE object of a net image. -/
def State.fetchStage (s : State) (root : Nat) (v : NetImg) (obj : Nat) : Except VaFault (List W128) :=
  match v.objs[obj]? with
  | some o => s.vaWords root (v.objVa obj) ((bits o 64 32).toNat / 16)
  | none => .ok []

/-- The fault of a fetch of the stage image behind a GEN object, into which row 13 looks (R213, R295). -/
def State.genFault (s : State) (root : Nat) (v : NetImg) (obj : Nat) : Option VaFault :=
  match (v.objs[obj]?).filter (fun o => oKind o == 2) with
  | some o =>
    (match (v.objs[(bits o 32 8).toNat]?).filter (fun q => oKind q == 1 && bits q 8 8 != 0xFF) with
    | some q => (match s.fetchStage root v (bits q 8 8).toNat with | .error f => some f | .ok _ => none)
    | none => none)
  | none => none

/-- The stage image behind an IMAGE object, where it can be fetched and taken apart. -/
def State.stageAt (s : State) (root : Nat) (v : NetImg) (obj : Nat) : Option StageImg :=
  match s.fetchStage root v obj with
  | .ok l => parseStage l
  | .error _ => none

/-- NETLOAD's checks of a net image behind its fetches: the first that fails, or the fault of a stage image that row 13 needs (R213, R295, R300). -/
def State.checkNet (s : State) (root : Nat) (v : NetImg) (sys fw : Bool) : Except VaFault (Option (Nat × Nat × Nat)) :=
  match v.check (bits s.bar.inForce 16 8).toNat sys fw (s.stageAt root v) with
  | some x =>
    (match if x.2.2 = 13 then s.genFault root v x.1 else none with
    | some f => .error f
    | none => .ok (some x))
  | none => .ok none

/-- The micro-instructions of an NBPROG object, words of 32 bits (R195, R202). -/
def State.fetchProg (s : State) (root va : Nat) : Nat → Except VaFault (List W32)
  | 0 => .ok []
  | n + 1 => do
    let w ← s.vaRead root va 4
    let l ← s.fetchProg root (va + 4) n
    return BitVec.ofNat 32 w :: l

end Sys2Proof.Machine
end

