-- ==== Sys2Proof/Machine/Actions.lean ====
section
/-!
DEFINITION. Actions.lean: the net actions (R197-R208) but those of collectives, and the events that end them. An action of the
instantaneous class that acts at its completion runs in step 1 of the round after its start (R33, R205); every other runs
at its start, and `advance` carries on what it waits for.
-/
namespace Sys2Proof.Machine

/-- An action that acts at its completion: NOP, the register actions, TAIL and DONE (R205, R207). -/
def actInstant (code : Nat) : Bool :=
  code == 0x00 || (decide (0x0B ≤ code) && decide (code ≤ 0x0E)) || code == 0x14 || code == 0x11 || code == 0x15

/-- Net firing, phase two: an outcome deposits through its arcs, the reservations fall and the slot is free (R32). -/
def Inst.complete (v : Inst) (k o : Nat) : Inst :=
  match v.slots.find? k with
  | none => v
  | some f =>
    match v.img.trans[f.trans]? with
    | none => { v with slots := v.slots.drop k }
    | some t =>
      let ps := ((tOut t).map (fun a => a.place)).eraseDups
      { v with slots := v.slots.drop k,
               count := ps.foldl (fun c p => c.put p (c.getD p 0 + tDeposits t o p)) v.count,
               rsv := ps.foldl (fun c p => c.put p (c.getD p 0 - tMaxDeposit t p)) v.rsv }

/-- A firing completes; the detector sees it (R32, R50). -/
def State.finish (s : State) (i k o : Nat) : State :=
  (s.modInst i (fun v => v.complete k o)).modRegion i (fun r => { r with moved := true })

/-- An action that acts at its completion: its firing was started in an earlier round, and this fc's round has not been run
(R33, R205). -/
def atCompletion (s : State) (f : Nat → Nat → Inst → FSlot → State) : Host.Outcome State Fault Refusal :=
  match s.focus with
  | .nsq i k =>
    match s.inst i with
    | some v =>
      match v.slots.find? k with
      | some x => if x.stage = .issued ∧ v.turn ≠ some s.now then .next (f i k v x) else .next s
      | none => .next s
    | none => .next s
  | _ => .next s

/-- An action that runs at its start: its firing goes from issued to going, and does what the action does; one that restarts has been issued again
(R38). -/
def atStart (s : State) (f : State → Nat → Nat → Inst → FSlot → State) : Host.Outcome State Fault Refusal :=
  match s.focus with
  | .nsq i k =>
    match s.inst i with
    | some v =>
      match v.slots.find? k with
      | some x => if x.stage = .issued then .next (f (s.modSlot i k (fun y => { y with stage := .going, rst := false })) i k v x) else .next s
      | none => .next s
    | none => .next s
  | _ => .next s

/-- The action word of a firing in its slot (R197). -/
def State.setAct (s : State) (i k : Nat) (x : Instr) : State :=
  s.modSlot i k (fun f => { f with act := (encodeAction x).getD f.act })

/-- NOP: completes with outcome 0 (R198). -/
def execNetNop (s : State) : Host.Outcome State Fault Refusal := atCompletion s (fun i k _ _ => s.finish i k 0)

/-- A net register. -/
def Inst.reg (v : Inst) (n : Nat) : W64 := v.n.getD n 0

/-- A net register written (R210). -/
def State.setReg (s : State) (i n : Nat) (x : W64) : State := s.modInst i (fun v => { v with n := v.n.put n x })

/-- NSET: N[n] takes the value (R205). -/
def execNset (n : Fin 16) (value : W64) (s : State) : Host.Outcome State Fault Refusal :=
  atCompletion s (fun i k _ _ => (s.setReg i n.val value).finish i k 0)

/-- NADD: the value is added to N[n] modulo 2^64 (R205). -/
def execNadd (n : Fin 16) (value : W64) (s : State) : Host.Outcome State Fault Refusal :=
  atCompletion s (fun i k v _ => (s.setReg i n.val (v.reg n.val + value)).finish i k 0)

/-- NCMP's outcome: 0 less, 1 equal, 2 greater (R205). -/
def ncmpOutcome (uns : Bool) (a b : W64) : Nat :=
  if a = b then 1 else if uns then (if a.toNat < b.toNat then 0 else 2) else (if a.toInt < b.toInt then 0 else 2)

/-- NCMP: N[n] against the value (R205). -/
def execNcmp (n : Fin 16) (uns : Bool) (value : W64) (s : State) : Host.Outcome State Fault Refusal :=
  atCompletion s (fun i k v _ => s.finish i k (ncmpOutcome uns (v.reg n.val) value))

/-- NDEC: N[n] falls by 1 unless it is 0; outcome 1 where it is 0 then (R205). -/
def execNdec (n : Fin 16) (s : State) : Host.Outcome State Fault Refusal :=
  atCompletion s (fun i k v _ =>
    let x := v.reg n.val
    if x = 0 then s.finish i k 1 else (s.setReg i n.val (x - 1)).finish i k (if x = 1 then 1 else 0))

/-- NRDP: N[n] takes the place's count as this completion is applied (R205). -/
def execNrdp (n : Fin 16) (place : BitVec 8) (s : State) : Host.Outcome State Fault Refusal :=
  atCompletion s (fun i k v _ => (s.setReg i n.val (BitVec.ofNat 64 (v.count.getD place.toNat 0))).finish i k 0)

/-- DONE: finishes the instance with its status (R25, R207). -/
def execDone (status : BitVec 16) (s : State) : Host.Outcome State Fault Refusal :=
  atCompletion s (fun i k _ _ => (s.modInst i (fun v => { v with done := some status })).finish i k 0)

/-- TAIL: records the child; a second one records nothing and has outcome 3 (R45). -/
def execTail (tgt : BitVec 8) (s : State) : Host.Outcome State Fault Refusal :=
  atCompletion s (fun i k v _ =>
    match v.tail, v.img.objs[tgt.toNat]? with
    | none, some o => (s.modInst i (fun v => { v with tail := some ((bits o 8 56).setWidth 64) })).finish i k 0
    | _, _ => s.finish i k 3)

/-- TIMER: completes B fc after its start round (R207). -/
def execTimer (count : W32) (s : State) : Host.Outcome State Fault Refusal :=
  atStart s (fun s i k _ _ => s.modSlot i k (fun f => { f with deadline := some (s.now + count.toNat) }))

/-- TIMER_EXPIRE: a TIMER's deadline has passed and its completion arrives (R207). -/
def execTimerExpire (s : State) : Host.Outcome State Fault Refusal :=
  match s.focus with
  | .event (.timerExpire i k) =>
    match s.slot i k with
    | some f => if f.code = 0x13 ∧ f.stage = .going ∧ f.deadline.any (fun t => decide (t ≤ s.now)) then .next (s.arrive i k 0) else .next s
    | none => .next s
  | _ => .next s

/-- HOSTI: a completion record of KIND 1 with the value and the vector joins those to be written (R207, R299). -/
def execHosti (vec : BitVec 8) (reg : Option (Fin 16)) (value : W64) (s : State) : Host.Outcome State Fault Refusal :=
  atStart s (fun s i k _ x =>
    match s.region i with
    | some r => s.addRecord { qcb := r.qcb, value := match reg with | some _ => x.operand | none => value, status := 0, kind := 1,
                              tag := r.hdr.tag, ring := r.ring, irq := some vec.toNat, firing := some (i, k), miss := none }
    | none => s)

/-! ## ARM -/

/-- Registers that an ARM's tile count reaches: a counter write that lands in the same fc does not change it (R26, R106). -/
def Regs.loadK0 (r : Regs) (n : Nat) : Regs := { r with k0 := BitVec.ofNat 32 n, armed := true }

/-- Every element of a section takes a value in K0 (R26): in the context of its stage, running or suspended (R287, R323). -/
def State.loadK0 (s : State) (i : Nat) (nodes : Tab Nat) (n : Nat) : State :=
  nodes.foldl (fun s (x : Nat × Nat) => s.modElem x.2 (fun e =>
    let f := fun (c : Ctx) => { c with regs := c.regs.loadK0 n }
    if e.ctx.inst = some i ∧ e.run ≠ 2 then { e with ctx := f e.ctx }
    else { e with saved := e.saved.map (fun (y : Nat × Ctx) => if y.2.inst = some i then (y.1, f y.2) else y) })) s

/-- A section's ARM begins: K0 takes its tile count; the tiles owed, IVEC and the rasterisation cursor are set, and it takes a number of its own (R26,
R103, R169, R277). -/
def State.arm (s : State) (i sid : Nat) (x : Section) (n : Nat) : State :=
  let no := s.fresh
  (no.2.loadK0 i x.nodes n).modSect i sid (fun x =>
    { x with remaining := n, armNo := 2 * no.1, ivec := 0, cur := if x.kept.isSome then x.cur else 0, kept := x.kept.map (fun t => (t.1, 0)), fin := none })

/-- The ARMs of a section begin, one after another: one of 0 tiles completes at once, and at a fenced section each completes with outcome 3 (R26,
R278). -/
def State.beginArms (s : State) (i sid : Nat) (x : Section) : List ArmRec → State
  | [] => s.modSect i sid (fun x => { x with arms := [] })
  | a :: l =>
    if x.fenced then (s.arrive i a.slot 3).beginArms i sid x l
    else if a.n = 0 then ((s.arm i sid x 0).arrive i a.slot 0).beginArms i sid x l
    else (s.arm i sid x a.n).modSect i sid (fun x => { x with arms := a :: l })

/-- The first ARM that waits at a section begins (R26). -/
def State.beginArm (s : State) (i sid : Nat) : State :=
  match s.sect i sid with
  | some x => s.beginArms i sid x x.arms
  | none => s

/-- The stage number of the image in C0 of a section. -/
def Section.snum (x : Section) : Option Nat := x.img.bind (fun l => l.head?.map (fun h => (bits h 24 8).toNat))

/-- ARM: arms the section with n tiles; outcome 3 where n is above 65,535 or C0 does not hold stage s; behind an earlier ARM it
waits at the section (R26, R199). -/
def execArm (tgt stg : BitVec 8) (reg : Option (Fin 16)) (n : BitVec 16) (scope : Scope) (s : State) : Host.Outcome State Fault Refusal :=
  atStart s (fun s i k _ x =>
    let m := match reg with | some _ => x.operand.toNat | none => n.toNat
    match s.sect i tgt.toNat with
    | some y =>
      if 65535 < m ∨ y.snum ≠ some stg.toNat then s.arrive i k 3
      else
        let s := s.modSect i tgt.toNat (fun y => { y with arms := y.arms ++ [{ slot := k, n := m, scope := scope.code.toNat }] })
        if y.arms.isEmpty then s.beginArm i tgt.toNat else s
    | none => s.arrive i k 3)

/-- The elements of a section. -/
def Section.elems (x : Section) : List Nat := x.nodes.vals

/-- A store of an element or a generator of some elements. -/
def Access.storeOf (els : List Nat) (a : Access) : Bool :=
  !a.kind.isRead && (match a.by_ with
    | .elem e _ _ _ => els.contains e
    | .gen e _ => els.contains e
    | _ => false)

/-- The region of an instance is set aside (R288). -/
def State.asideNow (s : State) (i : Nat) : Bool := (s.region i).any (fun r => r.saved)

/-- No store-hold buffer of a section holds an uncommitted store, and none is on its way there (R103). -/
def State.noneHeld (s : State) (x : Section) : Bool :=
  x.elems.all (fun el => (s.elem el).ctx.mt.frame.held.isEmpty && !(s.elem el).issued.any (fun a => a.held))

/-- FIN_APPLY: a posted FIN completes the oldest ARM once no store is held and every committed store has performed at its scope; the
next ARM of the section begins (R26, R103). It waits while the region is set aside. -/
def execFinApply (s : State) : Host.Outcome State Fault Refusal :=
  match s.focus with
  | .event (.finApply i sid) =>
    match s.sect i sid with
    | some x =>
      match x.arms, x.fin with
      | a :: l, some o =>
        if !s.asideNow i && s.noneHeld x && !s.pendingAt a.scope false (Access.storeOf x.elems) then
          .next (((s.modSect i sid (fun x => { x with arms := l, fin := none })).arrive i a.slot o).beginArm i sid)
        else .next s
      | _, _ => .next s
    | none => .next s
  | _ => .next s

/-! ## CFG, SWAP, CSLOT -/

/-- A structure's fetch faulted: a record of SRC 2, and an XLATE waits in the fault FIFO for the host while a PROT ends the action
with outcome 3 (R280). Where the FIFO is full the firing waits and its fetch is tried again (R283). -/
def State.fetchFault (s : State) (i k : Nat) (f : VaFault) : State :=
  let asid := match s.inst i with | some v => v.asid | none => 0
  let note := fun (s : State) => s.trapNote i { code := f.code, cause := f.cause, info := BitVec.ofNat 64 f.va } 2 0 0 k (s.nsqElem i) 0
  if f.code = 0x10 then
    if s.faultRoom (s.nsqDie i) asid (f.va / 65536) [.read] then
      ((note s).modSlot i k (fun x => { x with faulted := true, operand := BitVec.ofNat 64 f.va })).addFaults (s.nsqDie i) asid (f.va / 65536) f.cause [.read]
    else s
  else (note s).arrive i k 3

/-- A structure's fetch met an uncorrectable error: a record of SRC 2, and the action ends with outcome 3 (R272, R293). -/
def State.fetchBad (s : State) (i k va : Nat) : State := ((s.bump 2).trapNote i (memueTrap va) 2 0 0 k (s.nsqElem i) 0).arrive i k 3

/-- The writes to DRAM that stand in an ingress FIFO or a command queue, behind which a fetch enters (R224, log 78). -/
def State.writesAhead (s : State) : List Nat := (s.travelling.filter (fun a => a.tgt == .dram && !a.kind.isRead)).map (fun a => a.id)

/-- The fetch of an action begins: its reads enter behind the writes that have left for DRAM before them, and perform once those have (R225, R226,
R232). -/
def State.beginFetch (s : State) (i k : Nat) (run : State → State) : State :=
  if s.writesAhead.isEmpty then run s else s.modSlot i k (fun f => { f with waits := s.writesAhead })

/-- The fetch of an action goes on once its fault is resolved and the writes before it have performed. -/
def State.goFetch (s : State) (f : FSlot) (run : State → State) : State :=
  if f.faulted || s.travelling.any (fun a => f.waits.contains a.id) then s else run s

/-- The image behind a configuration slot of a section's tiles is loaded; a fenced CE leaves its chain (R200, R278). -/
def State.loadBuffers (s : State) (i sid slot : Nat) (x : Section) (l : List W128) : State :=
  match parseStage l with
  | none => s
  | some v =>
    let s := x.nodes.foldl (fun s (n : Nat × Nat) => match v.nodes[n.1]? with
      | some r => s.modElem n.2 (fun e => { e with buf := e.buf.put slot { r with circs := v.circsOf n.1 } })
      | none => s) s
    s.modSect i sid (fun x => { x with bufs := x.bufs.put slot l, fenced := false })

/-- The load buffers behind a slot are invalid (R200). -/
def State.dropBuffers (s : State) (i sid slot : Nat) (x : Section) : State :=
  let s := x.elems.foldl (fun s el => s.modElem el (fun e => { e with buf := e.buf.drop slot })) s
  s.modSect i sid (fun x => { x with bufs := x.bufs.drop slot })

/-- The ILLOP records of a failing load (R43, R77, R95). -/
def State.noteBreaches (s : State) (i : Nat) (l : List (Nat × Nat × Nat)) : State :=
  l.foldl (fun s b => s.trapNote i { code := 0x01, cause := 0, info := BitVec.ofNat 64 b.2.2 } 0 0 b.2.1 0 b.1 (s.ivecOf b.1)) s

/-- The partitions of a stage kept for the configuration slots that a CFG loads: none where an MT has no room for its own (R95, R217, log 10). -/
def State.keepParts (s : State) (i slot : Nat) (x : Section) (l : List W128) : Option State :=
  match parseStage l with
  | none => none
  | some v => x.nodes.foldl (fun s (n : Nat × Nat) => match s, v.nodes[n.1]? with
      | some s, some r =>
        let e := s.elem n.2
        let base := e.baseSlot i
        (e.keep i (if slot = 0 then base else shadowSlot base) r.spsize).map (s.setElem n.2)
      | _, _ => s) (some s)

/-- CFG loads an image into the buffers behind a slot of a section, or fails (R77, R200, R280, R290, R293). -/
def State.runCfg (s : State) (i k sid img slot : Nat) : State :=
  match s.inst i, s.sect i sid with
  | some v, some x =>
    match s.fetchStage v.root v.img img with
    | .error f => (if f.code = 0x10 then s else s.dropBuffers i sid slot x).fetchFault i k f
    | .ok l =>
      match s.vaBad v.root (v.img.objVa img) (16 * l.length) with
      | some a => (s.dropBuffers i sid slot x).fetchBad i k a
      | none =>
      let b := stageBreaches x.nodes l
      if b.isEmpty then
        match s.keepParts i slot x l with
        | some t => (t.loadBuffers i sid slot x l).arrive i k 0
        | none => (s.dropBuffers i sid slot x).arrive i k 3
      else ((s.dropBuffers i sid slot x).noteBreaches i b).arrive i k 3
  | _, _ => s.arrive i k 3

/-- CFG: the stage image goes into the load buffers of C0 or C2 of every tile of the section (R200). -/
def execCfg (tgt img : BitVec 8) (shadow : Bool) (s : State) : Host.Outcome State Fault Refusal :=
  atStart s (fun s i k _ _ => s.beginFetch i k (fun s => s.runCfg i k tgt.toNat img.toNat (if shadow then 2 else 0)))

/-- A section is drained: no ARM, element firing, stream or unsettled bank (R200). -/
def State.drained (s : State) (x : Section) : Bool :=
  x.arms.isEmpty && x.elems.all (fun el =>
    let c := (s.elem el).ctx
    c.flights.isEmpty && c.coming.isEmpty && !c.mt.gens.vals.any Gen.busy && !c.mxu.a0.unsettled && !c.mxu.a1.unsettled)

/-- Every EQ, SQ, HB and CF of a section is empty, a channel's queue with them, and so are the queues of its banks: what a SWAP into C0 waits for beside
the drain (R231). -/
def State.emptied (s : State) (i sid : Nat) (x : Section) : Bool :=
  x.elems.all (fun el =>
    let c := (s.elem el).ctx
    (s.elem el).eq.all (fun a => a.inst != i) && c.mt.gens.vals.all (fun g => g.sq.isEmpty) && c.mt.frame.held.isEmpty
    && (elType el != .mt || (mtBanks el).all (fun b => (s.spadq.getD b []).isEmpty)))
  && s.circs.vals.all (fun c => !(c.inst == i && c.sid == sid) || (c.flying.isEmpty && c.passed.isEmpty
    && (match c.via with | some (mt, q) => decide (((s.elem mt).ctx.mt.queue q).count = 0) | none => true)))

/-- C2 of an instance is in force at an element (R323). -/
def Elem.inC2 (e : Elem) (i : Nat) : Bool := e.run == 2 && e.ctx.inst == some i

/-- A CSLOT has C2 in force in a section (R323). -/
def State.inC2 (s : State) (i : Nat) (x : Section) : Bool := x.elems.any (fun el => (s.elem el).inC2 i)

/-- A SWAP may install its image: the section is drained, and for C0 also empty and back from C2 (R200, R217, R231, log 65). -/
def State.maySwap (s : State) (i sid slot : Nat) (x : Section) : Bool :=
  s.drained x && (slot != 0 || (s.emptied i sid x && !s.inC2 i x))

/-- SWAP: waits for the section to drain; outcome 3 where no image is loaded for the slot (R200). -/
def execSwap (tgt : BitVec 8) (shadow : Bool) (s : State) : Host.Outcome State Fault Refusal :=
  atStart s (fun s i k _ _ =>
    match (s.sect i tgt.toNat).bind (fun x => x.bufs.find? (if shadow then 2 else 0)) with
    | some _ => s
    | none => s.arrive i k 3)

/-- An image becomes the C2 of a section: its gateways' circuits start unbound (R200, R323). -/
def State.newC2 (s : State) (i sid : Nat) (x : Section) (l : List W128) : State :=
  match parseStage l with
  | none => s
  | some v =>
    (x.nodes.foldl (fun s (n : Nat × Nat) => s.modElem n.2 (fun e =>
      { e with shadowGw := e.shadowGw.put i ((v.circsOf n.1).map (fun (y : Nat × W128) => (y.1, circuitOf y.2))) })) s).modSect i sid
      (fun x => { x with c2 := some l })

/-- A firing may change its section's configuration: its region neither stands aside nor has been asked to (R288, R290). -/
def State.mayReplace (s : State) (i : Nat) : Bool := (s.region i).any (fun r => !r.saved && r.accepted.isNone)

/-- SWAP_INSTALL: the section is drained, and every tile installs its loaded image in the same fc (R200). A SWAP whose image has gone since completes
with outcome 3. -/
def execSwapInstall (s : State) : Host.Outcome State Fault Refusal :=
  match s.focus with
  | .event (.swapInstall i k) =>
    match s.slot i k with
    | some f =>
      let slot := (bits f.act 16 2).toNat
      match s.sect i f.tgt with
      | some x =>
        if f.code = 0x03 ∧ f.stage = .going ∧ s.mayReplace i = true then
          match x.bufs.find? slot with
          | some l =>
            if s.maySwap i f.tgt slot x then
              let s := if slot = 0 then s.install i f.tgt l true else s.newC2 i f.tgt x l
              let s := x.elems.foldl (fun s el => s.modElem el (fun e => { e with buf := e.buf.drop slot })) s
              .next ((s.modSect i f.tgt (fun x => { x with bufs := x.bufs.drop slot, swapped := some s.now })).arrive i k 0)
            else .next s
          | none => .next (s.arrive i k 3)
        else .next s
      | none => .next s
    | none => .next s
  | _ => .next s

/-- A CSLOT may enter C2: the section is drained, no other CSLOT has C2 in force there, and no store is on its way to a hold buffer that is to be set
aside (R323, log 65). -/
def State.mayEnterC2 (s : State) (i : Nat) (x : Section) : Bool :=
  s.drained x && !s.inC2 i x && x.elems.all (fun el => !(s.elem el).eq.any (fun a => a.held && a.inst == i))

/-- CSLOT: outcome 3 where C2 holds no image; otherwise it drains the section first (R206, R323). -/
def execCslot (tgt : BitVec 8) (length : W32) (s : State) : Host.Outcome State Fault Refusal :=
  atStart s (fun s i k _ _ =>
    match (s.sect i tgt.toNat).bind (fun x => x.c2) with
    | some _ => s.modSlot i k (fun f => { f with remaining := length.toNat })
    | none => s.arrive i k 3)

/-- The circuits of a section's configuration, taken out of the machine or put back (R288, R323). -/
def State.park (s : State) (i sid : Nat) : State :=
  let mine := List.filter (fun (x : Nat × Circuit) => x.2.inst == i && x.2.sid == sid) s.circs
  let s := { s with circs := List.filter (fun (x : Nat × Circuit) => !(x.2.inst == i && x.2.sid == sid)) s.circs }
  s.modSect i sid (fun x => { x with parked := mine })

/-- The circuits set aside come back. -/
def State.unpark (s : State) (i sid : Nat) : State :=
  match s.sect i sid with
  | some x =>
    let s := { s with circs := List.filter (fun (y : Nat × Circuit) => !(y.2.inst == i && y.2.sid == sid)) s.circs }
    let s := { s with circs := x.parked.foldl (fun (t : Tab Circuit) (y : Nat × Circuit) => t.put y.1 y.2) s.circs }
    s.modSect i sid (fun x => { x with parked := [] })
  | none => s

/-- An element enters C2: its own context is set aside, and C2's starts from its record, with the circuits of its gateway as they were left (R323). -/
def Elem.enterC2 (e : Elem) (r : NodeRec) (snum i : Nat) (asid : BitVec 16) (now : Nat) : Elem :=
  let e' := Elem.start { e with saved := e.saved.put e.run (e.ctx.setDown now), run := 2, shadowGw := e.shadowGw.drop i } (shadowSlot e.run) r snum i asid false
  { e' with ctx := { e'.ctx with gw := { e'.ctx.gw with circs := e.shadowGw.getD i [] } } }

/-- C0's context is kept in a save area and C2 installed with fresh state from its node records (R323); the table and cursor of RAST are C2's own
(R169). -/
def State.enterC2 (s : State) (i sid : Nat) (x : Section) (l : List W128) : State :=
  match parseStage l with
  | none => s
  | some v =>
    let asid := match s.inst i with | some n => n.asid | none => 0
    let s := s.park i sid
    let s := x.nodes.foldl (fun s (n : Nat × Nat) => match v.nodes[n.1]? with
      | some r => s.modElem n.2 (fun e => e.enterC2 { r with circs := v.circsOf n.1 } v.snum i asid s.now)
      | none => s) (x.elems.foldl (fun s el => s.spill el (s.elem el).run) s)
    ((s.layStage x.nodes v).wire i sid x.nodes v).modSect i sid (fun x => { x with kept := some (x.rast, x.cur), rast := v.rast, cur := 0 })

/-- The context of an instance that a CSLOT has set aside comes back to its element; the circuits of C2's gateway are kept, unless a SWAP has put others in
their place (R323). -/
def Elem.leaveC2 (e : Elem) (i now : Nat) : Elem :=
  match List.find? (fun (x : Nat × Ctx) => x.2.inst == some i) e.saved with
  | some (k, c) =>
    if e.run = 2 then
      { e with ctx := c.takeUp now, run := k, saved := e.saved.drop k, cfg := e.cfg.drop 2, eq := e.eq.filter (fun a => !(a.held && a.inst == i)),
               shadowGw := if (e.shadowGw.find? i).isSome then e.shadowGw else e.shadowGw.put i e.ctx.gw.circs }
    else e
  | none => e

/-- C2 stops, its tokens in flight are discarded and the context it stood for is restored (R323); a save area that cannot be read ends the region
(R293). -/
def State.leaveC2 (s : State) (i sid : Nat) (x : Section) : State :=
  let bad := x.elems.any (fun el => s.saveBad el ((s.elem el).baseSlot i))
  let s := x.elems.foldl (fun s el => s.modElem el (fun e => e.leaveC2 i s.now)) s
  let s := (s.unpark i sid).modSect i sid (fun x => match x.kept with | some t => { x with rast := t.1, cur := t.2, kept := none } | none => x)
  if bad then s.kill i 0x12 else s

/-- C2's time is over and what it had issued has completed (R206, R323). -/
def State.cslotOver (s : State) (i : Nat) (f : FSlot) : Bool :=
  f.code == 0x10 && f.stage == .going && f.deadline.any (fun t => decide (t ≤ s.now))
  && (match s.sect i f.tgt with
      | some x => x.elems.all (fun el => (s.elem el).ctx.flights.isEmpty && (s.elem el).ctx.coming.isEmpty)
      | none => false)

/-- CSLOT_EXPIRE: after B fc C2's issued firings have completed, C0 is back and the CSLOT completes with outcome 0 (R206, R323). -/
def execCslotExpire (s : State) : Host.Outcome State Fault Refusal :=
  match s.focus with
  | .event (.cslotExpire i k) =>
    match s.slot i k with
    | some f =>
      match s.sect i f.tgt with
      | some x => if s.cslotOver i f then .next ((s.leaveC2 i f.tgt x).arrive i k 0) else .next s
      | none => .next s
    | none => .next s
  | _ => .next s

/-! ## STRM, SBAR -/

/-- The generator of a GEN object. -/
def State.genOf (s : State) (i obj : Nat) : Option (Nat × Nat) := (s.region i).bind (fun r => r.gens.find? obj)

/-- A firing's stream has a number and has started. -/
def State.noteStream (s : State) (i k id : Nat) : State := s.modSlot i k (fun f => { f with left := true, remaining := id })

/-- A STRM starts its stream once the generator is neither running nor suspended and owns no follower's port early (R44, R174, R201,
R279); while a CSLOT has the generator's configuration set aside it waits for that too (log 65). -/
def State.startStrm (s : State) (i k : Nat) (f : FSlot) : State :=
  match s.genOf i f.tgt, (s.inst i).bind (fun v => (v.img.objs[(bits f.act 16 8).toNat]?).bind (fun o => v.img.data[(bits o 8 16).toNat]?)) with
  | some (el, g), some d =>
    let v := s.gen el g
    if v.busy || !(s.elem el).ctx.coming.isEmpty || (s.elem el).run == 2 then s
    else if v.state = .faulted then
      (s.modGen el g (fun v => { v.resume with owner := .strm i k })).noteStream i k v.stream
    else
      let d : W256 := if f.act.getLsbD 24 then (d >>> 56 <<< 56) ||| ((bits d 0 56 + bits f.operand 0 56).setWidth 256) else d
      if descOk (elType el) d then
        let n := s.fresh
        let id := 2 * n.1 + 1
        let s := n.2.modGen el g (fun v => ({ Gen.load d with moved := v.moved }).start (.strm i k) id (s.elem el).ctx.mt.frame.opened)
        (s.modMt el (fun m => m.startDcx g d)).noteStream i k id
      else s.arrive i k 3
  | _, _ => s.arrive i k 3

/-- A generator has still accesses of a stream to generate, or has them in its SQ. -/
def Gen.inStream (v : Gen) (id : Nat) : Bool := v.stream == id && (decide (v.pos < dCount v.desc) || !v.sq.isEmpty)

/-- Every access of a stream of a generator has performed at a scope (R201, R227). -/
def State.streamOver (s : State) (el g id scope : Nat) : Bool :=
  !(s.gen el g).inStream id && !s.pendingAt scope true (fun a => a.work == id && a.by_ == .gen el g)

/-- A started STRM completes: a read stream once its last token has entered the port, a write stream once every access has
performed at the scope (R201). -/
def State.checkStrm (s : State) (i k : Nat) (f : FSlot) : State :=
  match s.genOf i f.tgt with
  | some (el, g) =>
    let v := s.gen el g
    let mine := v.stream == f.remaining
    if mine && !dWrite v.desc then (if v.state = .done then s.arrive i k 0 else s)
    else if s.streamOver el g f.remaining (bits f.act 64 3).toNat then s.arrive i k 0 else s
  | none => s.arrive i k 3

/-- A stream that a STRM started has ended: its firing completes with outcome 3, and an SBAR that waits for it will (R201, R278, R279, log 65). -/
def State.failStream (s : State) (i id : Nat) : State :=
  match s.inst i with
  | none => s
  | some v => v.slots.foldl (fun s (x : Nat × FSlot) =>
      if x.2.stage == .going && x.2.code == 0x04 && x.2.left && x.2.remaining == id then s.arrive i x.1 3
      else if x.2.stage == .going && x.2.code == 0x05 && x.2.waits.contains id then s.modSlot i x.1 (fun f => { f with left := true })
      else s) s

/-- STRM: starts a stream from the descriptor of its DESC object (R201). -/
def execStrm (tgt desc : BitVec 8) (reg : Option (Fin 16)) (scope : Scope) (s : State) : Host.Outcome State Fault Refusal :=
  atStart s (fun s i k _ x =>
    let s := s.setAct i k (.strm tgt desc reg scope)
    s.startStrm i k ((s.slot i k).getD x))

/-- A firing of another slot is a STRM whose GEN object a mask names. -/
def FSlot.strmIn (f : FSlot) (mask : W64) : Bool := f.code == 0x04 && decide (f.tgt < 64) && mask.getLsbD f.tgt

/-- The accesses of a generator that have not performed, wherever they stand. -/
def State.genPending (s : State) (el g : Nat) : List Access :=
  let p := fun (a : Access) => a.by_ == .gen el g
  (s.elem el).issued.filter p ++ (s.elem el).heldStores.filter p ++ s.travelling.filter p ++ (s.dom.unacked.map (fun w => w.acc)).filter p

/-- SBAR: waits until the streams that named STRMs started before it have performed at the scope (R201): the streams by number, those of firings that
have ended and have accesses left among them, and the STRM firings that have not started theirs. -/
def execSbarAction (scope : Scope) (mask : W64) (s : State) : Host.Outcome State Fault Refusal :=
  atStart s (fun s i k v _ =>
    let s := s.setAct i k (.sbarAction scope mask)
    let gens := (bitsSet mask).filterMap (s.genOf i)
    let strms := List.filter (fun (x : Nat × FSlot) => x.1 != k && x.2.strmIn mask) v.slots
    let begun := ((strms.filter (fun x => x.2.left)).map (fun x => x.2.remaining)
      ++ (gens.flatMap (fun x => s.genPending x.1 x.2)).map (fun a => a.work)
      ++ (gens.map (fun x => s.gen x.1 x.2)).filterMap (fun g => if g.failed then some g.stream else none)).filter (fun n => n % 2 == 1)
    s.modSlot i k (fun f =>
      { f with todo := (strms.filter (fun x => !x.2.left)).map (fun x => x.1 * 2 ^ 32 + x.2.round.toNat), waits := begun.eraseDups,
               remaining := scope.code.toNat,
               left := gens.any (fun x => (s.gen x.1 x.2).failed && (s.gen x.1 x.2).stream % 2 == 1) }))

/-- The STRM firing that an SBAR noted still stands in its slot. -/
def Inst.noted (v : Inst) (w : Nat) : Option FSlot :=
  (v.slots.find? (w / 2 ^ 32)).filter (fun f => f.code == 0x04 && f.round.toNat == w % 2 ^ 32)

/-- An SBAR completes once its streams have performed at its scope: outcome 3 where one of them ended faulted (R201). -/
def State.checkSbar (s : State) (i k : Nat) (f : FSlot) : State :=
  match s.inst i with
  | none => s
  | some v =>
    let begun := f.waits ++ f.todo.filterMap (fun w => (v.noted w).bind (fun y => if y.left then some y.remaining else none))
    let todo := f.todo.filter (fun w => (v.noted w).any (fun y => !y.left && (match y.stage with | .arrived _ => false | _ => true)))
    let gens := (bitsSet (bits f.act 32 64)).filterMap (s.genOf i)
    if f.left then s.arrive i k 3
    else if todo.isEmpty && begun.all (fun id => gens.all (fun x => s.streamOver x.1 x.2 id f.remaining)) then s.arrive i k 0
    else s.modSlot i k (fun f => { f with waits := begun, todo })

/-! ## NBLD, NBRUN, WSW -/

/-- The PCHs of a PCHSET object (R195). -/
def State.pchsOf (s : State) (i obj : Nat) : List Nat :=
  match (s.inst i).bind (fun v => v.img.objs[obj]?), s.region i with
  | some o, some r =>
    match r.dies[(bits o 8 4).toNat]? with
    | some d => (bitsSet (bits o 64 64)).map (fun c => d * 64 + c)
    | none => []
  | _, _ => []

/-- A program's word is one that NBLD writes: it decodes, and a LOOP's target lies in the program (R202, R244). -/
def progWordOk (len : Nat) (w : W32) : Bool :=
  match decodeMicro w with
  | .ok (.loop _ _ t) => decide (t.toNat < len)
  | .ok _ => true
  | .error _ => false

/-- A word as NBLD writes it: ENTRY added to a LOOP's target (R202). -/
def relocate (entry : Nat) (w : W32) : W32 :=
  match decodeMicro w with
  | .ok (.loop _ _ t) => (w >>> 6 <<< 6) ||| ((t + BitVec.ofNat 6 entry).setWidth 32)
  | _ => w

/-- A program written into an instruction store (R202). -/
def Pch.loadProg (p : Pch) (entry : Nat) (l : List W32) : Pch :=
  { p with is := l.zipIdx.foldl (fun t x => t.put (entry + x.2) (relocate entry x.1)) p.is, progs := p.progs.put entry l.length }

/-- NBLD fetches its program and writes it into every PCH of the set, or fails and writes nothing (R202, R280, R293). -/
def State.runNbld (s : State) (i k set prog : Nat) : State :=
  match s.inst i with
  | some v =>
    match v.img.objs[prog]? with
    | some o =>
      let ps := s.pchsOf i set
      if ps.any (fun p => (s.pch p).run.isSome || !(s.pch p).saved.isEmpty) then s.arrive i k 3
      else match s.fetchProg v.root (v.img.objVa prog) (bits o 64 8).toNat with
        | .error f => s.fetchFault i k f
        | .ok l =>
          match s.vaBad v.root (v.img.objVa prog) (4 * l.length) with
          | some a => s.fetchBad i k a
          | none =>
          if l.all (progWordOk l.length) then
            (ps.foldl (fun s p => s.modPch p (fun q => q.loadProg (bits o 8 6).toNat l)) s).arrive i k 0
          else s.arrive i k 3
    | none => s.arrive i k 3
  | none => s

/-- NBLD: writes a microprogram into the instruction stores of a PCH set (R202). -/
def execNbld (tgt prog : BitVec 8) (s : State) : Host.Outcome State Fault Refusal :=
  atStart s (fun s i k _ _ => s.beginFetch i k (fun s => s.runNbld i k tgt.toNat prog.toNat))

/-- The run that an NBRUN posts (R202, R243): every bank takes part. -/
def nbRunOf (entry : Nat) (rport : BitVec 2) (lc0 lc1 : W32) (row0 : BitVec 14) (len : BitVec 16) (asid : BitVec 16) (i k : Nat) : NbRun :=
  { mpc := entry, lc0, lc1, lr0 := lc0, lr1 := lc1, row := row0, pos := 0, len, wcnt := 0, bmask := BitVec.allOnes 64, rport,
    ebuf := [], banks := [], asid, inst := i, owner := .nsq i k, segAt := 0, ended := none, waitAt := none }

/-- The run of an NBRUN's firing. -/
def FSlot.nbRun (f : FSlot) (entry : Nat) (asid : BitVec 16) (i k : Nat) : NbRun :=
  nbRunOf entry (bits f.act 24 2) (bits f.act 32 32) (bits f.act 64 32) (bits f.act 96 14) (bits f.act 112 16) asid i k

/-- NBRUN: one run to every PCH of the set; outcome 3 where the set is empty or a PCH holds no program at ENTRY (R202). -/
def execNbrun (tgt prog : BitVec 8) (rport : BitVec 2) (scope : Scope) (lc0 lc1 : W32) (row0 : BitVec 14) (len : BitVec 16) (s : State) :
    Host.Outcome State Fault Refusal :=
  atStart s (fun s i k v _ =>
    match v.img.objs[prog.toNat]? with
    | some o =>
      let s := s.setAct i k (.nbrun tgt prog rport scope lc0 lc1 row0 len)
      let ps := s.pchsOf i tgt.toNat
      let entry := (bits o 8 6).toNat
      if ps.isEmpty || ps.any (fun p => ((s.pch p).progs.find? entry).isNone) then s.arrive i k 3
      else
        let now := ps.filter (fun p => decide (s.depth p < 64))
        let run := nbRunOf entry rport lc0 lc1 row0 len v.asid i k
        let s := now.foldl (fun s p => s.toQueue p (.run run)) s
        s.modSlot i k (fun f => { f with waits := ps, todo := ps.filter (fun p => !now.contains p) })
    | none => s.arrive i k 3)

/-- An NBRUN posts to the queues that have room again, and completes once every run has ended and its writes have performed (R202). -/
def State.checkNbrun (s : State) (i k : Nat) (f : FSlot) : State :=
  match s.inst i with
  | none => s
  | some v =>
    let entry := match v.img.objs[(bits f.act 16 8).toNat]? with | some o => (bits o 8 6).toNat | none => 0
    let now := f.todo.filter (fun p => decide (s.depth p < 64))
    let s := now.foldl (fun s p => s.toQueue p (.run (f.nbRun entry v.asid i k))) s
    let s := s.modSlot i k (fun f => { f with todo := f.todo.filter (fun p => !now.contains p) })
    if f.waits.isEmpty && !s.pendingAt (bits f.act 26 3).toNat false (fun _ => false) then s.arrive i k f.remaining else s

/-- Weight-store bytes written; whole granules lose their errors (R203, R293). -/
def State.wsWrite (s : State) (die off n v : Nat) : State :=
  { s with mem := { s.mem with ws := s.mem.ws.writeN (die * 2 ^ 30 + off) n v } }.modDie die (fun d =>
    { d with wsErr := d.wsErr.filter (fun g => !(decide (off ≤ g * 8) && decide (g * 8 + 8 ≤ off + n))) })

/-- Two weight images of a die overlap: their objects and the regions' dies. -/
def imagesMeet (o q : W256) : Bool :=
  let a := (bits o 12 26).toNat * 16
  let b := (bits q 12 26).toNat * 16
  decide (a < b + (bits q 64 32).toNat) && decide (b < a + (bits o 64 32).toNat)

/-- A running net holds a part of a weight image of a die with USE = 1 (R12, R203). -/
def State.wsHeld (s : State) (die : Nat) (o : W256) : Bool :=
  s.insts.any (fun (x : Nat × Inst) => match s.region x.1 with
    | some r => x.2.img.objs.any (fun q => oKind q == 9 && q.getLsbD 8 && r.dies[(bits q 96 4).toNat]? == some die && imagesMeet o q)
    | none => false)

/-- WSW copies its bytes, or fails and leaves the weight store as it is (R203, R280, R293). -/
def State.runWsw (s : State) (i k obj va : Nat) : State :=
  match (s.inst i).bind (fun v => (v.img.objs[obj]?).map (fun o => (v, o))), s.region i with
  | some (v, o), some r =>
    match r.dies[(bits o 96 4).toNat]? with
    | none => s.arrive i k 3
    | some die =>
      if s.wsHeld die o then s.arrive i k 3
      else
        let n := (bits o 64 32).toNat
        match s.vaRead v.root va n with
        | .error f => s.fetchFault i k f
        | .ok d =>
          match s.vaBad v.root va n with
          | some a => s.fetchBad i k a
          | none => (s.wsWrite die ((bits o 12 26).toNat * 16) n d).arrive i k 0
  | _, _ => s.arrive i k 3

/-- WSW: copies LEN bytes from the VA into the weight store (R203). -/
def execWsw (tgt : BitVec 8) (va : BitVec 56) (s : State) : Host.Outcome State Fault Refusal :=
  atStart s (fun s i k _ _ => s.beginFetch i k (fun s => s.runWsw i k tgt.toNat va.toNat))

/-! ## SIGN, WATCH -/

/-- The numbers of the ARMs and streams of an instance whose firings are in flight (R204). -/
def State.worksInFlight (s : State) (i : Nat) : List Nat :=
  (match s.region i with | some r => (r.sects.vals.filter (fun x => !x.arms.isEmpty)).map (fun x => x.armNo) | none => [])
  ++ (match s.inst i with | some v => (v.slots.vals.filter (fun f => f.code == 0x04 && f.left)).map (fun f => f.remaining) | none => [])

/-- The stores that a SIGN covers at its start: those of the ARMs and streams whose firings have completed, committed if they were held, and the writes
of the SIGNs that have (R204). -/
def State.covered (s : State) (i : Nat) : List Nat :=
  let busy := s.worksInFlight i
  let signs := match s.inst i with | some v => v.slots.vals.flatMap (fun (f : FSlot) => if f.code = 0x09 then f.waits else []) | none => []
  let p := fun (a : Access) => a.inst == i && !a.held && !a.kind.isRead && (match a.by_ with
    | .elem _ _ _ _ | .gen _ _ => a.work != 0 && !busy.contains a.work
    | .nsq _ _ => !signs.contains a.id
    | _ => false)
  ((s.elems.vals.flatMap (fun e => e.issued.filter p)) ++ s.travelling.filter p ++ (s.dom.unacked.map (fun w => w.acc)).filter p).map (fun a => a.id)

/-- The word of an instance's firing or mirror translated through its die's TLB, as every one of its accesses is (R222, R280). -/
def State.lookWord (s : State) (i va : Nat) (kind : AccKind) : Trans :=
  match s.inst i with
  | some v => lookLeaf (s.die (s.nsqDie i)).tlb2 kind v.asid va
  | none => .miss

/-- A word whose translation is not there asks its die's walker (R280). -/
def State.askWord (s : State) (i va : Nat) : State :=
  match s.inst i with
  | some v => s.askWalk (s.nsqDie i) v.asid va v.root
  | none => s

/-- The page size code of the leaf that translates such a word (R284). -/
def State.wordLeaf (s : State) (i va : Nat) : Nat :=
  match (s.inst i).bind (fun v => tlbLookup (s.die (s.nsqDie i)).tlb2 v.asid va) with | some t => t.size | none => 0

/-- An access of a firing or a mirror to its 64-bit word. -/
def wordAccess (s : State) (by_ : Issuer) (i va : Nat) (kind : AccKind) (data : W64) (ap : Aperture) (pch off : Nat) : Access :=
  { id := s.nextId, by_, kind, tgt := .dram, inst := i, asid := match s.inst i with | some v => v.asid | none => 0, va, bytes := 8,
    data := data.setWidth 256, data2 := 0, xlat := .done, ap, pch, off, held := false, scope := 0, work := 0, sent := s.now, waited := 0,
    leaf := s.wordLeaf i va, gone := false }

/-- A word's access leaves for its PCH. -/
def State.issueWord (s : State) (a : Access) : State := { s with nextId := s.nextId + 1 }.toIngress a

/-- A firing's access to its word leaves where it is translated; a miss asks the walker, a PROT ends the action with outcome 3 (R280). -/
def State.sendWord (s : State) (i k va : Nat) (kind : AccKind) (data : W64) : State :=
  match s.lookWord i va kind with
  | .cell ap p o =>
    let a := wordAccess s (.nsq i k) i va kind data ap p o
    (s.issueWord a).modSlot i k (fun f => { f with left := true, asked := false, waits := [a.id], cell := some (p, o) })
  | .trap c q => (s.trapNote i { code := c, cause := q, info := BitVec.ofNat 64 va } 2 0 0 k (s.nsqElem i) 0).arrive i k 3
  | .miss => (s.askWord i va).modSlot i k (fun f => { f with asked := true, cell := none })

/-- A SIGN goes on: the covered stores perform, its write is translated and leaves, and it completes once that has performed (R37, R204). -/
def State.advanceSign (s : State) (i k : Nat) (f : FSlot) : State :=
  let sc := (bits f.act 17 3).toNat
  let va := match s.inst i with | some v => v.img.signalVa f.tgt | none => 0
  if f.left then
    (if s.pendingAt sc false (fun a => f.waits.contains a.id) then s else s.arrive i k 0)
  else if f.faulted || s.pendingAt sc false (fun a => f.todo.contains a.id) then s
  else s.sendWord i k va (.sigw (f.act.getLsbD 16)) (bits f.act 32 64)

/-- SIGN: a release that sets or adds to its signal word (R204). -/
def execSign (tgt : BitVec 8) (add : Bool) (scope : Scope) (value : W64) (s : State) : Host.Outcome State Fault Refusal :=
  atStart s (fun s i k v _ =>
    let s := (s.modSlot i k (fun f => { f with todo := s.covered i })).setAct i k (.sign tgt add scope value)
    if v.img.isKind tgt.toNat 7 then (match s.slot i k with | some f => s.advanceSign i k f | none => s) else s.arrive i k 3)

/-- A WATCH's next read leaves where none is on its way and its word is translated (R204). -/
def State.readWatch (s : State) (i k : Nat) (f : FSlot) : State :=
  let va := match s.inst i with | some v => v.img.signalVa f.tgt | none => 0
  if f.faulted || !f.waits.isEmpty then s else s.sendWord i k va .read 0

/-- WATCH: an acquire that waits until its word satisfies the compare, at most D fc where D is not 0 (R204). -/
def execWatch (tgt : BitVec 8) (cmp : Cmp) (scope : Scope) (value : W64) (timeout : W32) (s : State) : Host.Outcome State Fault Refusal :=
  atStart s (fun s i k v _ =>
    let s := (s.modSlot i k (fun f => { f with deadline := if timeout = 0 then none else some (s.now + timeout.toNat) })).setAct i k
      (.watch tgt cmp scope value timeout)
    if v.img.isKind tgt.toNat 7 then (match s.slot i k with | some f => s.readWatch i k f | none => s) else s.arrive i k 3)

/-- A WATCH has its word to read: for the first time, after an invalidation, or after a change (R204, R222). -/
def State.watchDue (s : State) (f : FSlot) : Bool :=
  f.code == 0x0A && f.stage == .going && !f.faulted && f.waits.isEmpty && (f.cell.isNone || f.stale s)

/-- WATCH_RECHECK: a WATCH reads its word again after a change (R204). -/
def execWatchRecheck (s : State) : Host.Outcome State Fault Refusal :=
  match s.focus with
  | .event (.watchRecheck i k) =>
    match s.slot i k with
    | some f => if s.watchDue f then .next (s.readWatch i k f) else .next s
    | none => .next s
  | _ => .next s

/-- WATCH_TIMEOUT: a WATCH's timeout passes without the compare holding, and it completes with outcome 1 (R204, R280). -/
def execWatchTimeout (s : State) : Host.Outcome State Fault Refusal :=
  match s.focus with
  | .event (.watchTimeout i k) =>
    match s.slot i k with
    | some f => if f.code = 0x0A ∧ f.stage = .going ∧ f.deadline.any (fun t => decide (t ≤ s.now)) then .next (s.arrive i k 1) else .next s
    | none => .next s
  | _ => .next s

/-! ## EXTEND -/

/-- A 4 KiB segment is linked to an extensible queue of an instance's context, within its limit and the tile's spare pool (R51, log 12). -/
def State.linkSegment (s : State) (i el q : Nat) : Option State :=
  let m := (s.ctxOf el i).mt
  let v := m.queue q
  let used := (m.queues.vals.map (fun x => x.segs)).sum
  if v.ext && decide (v.segs < (bits v.cfg 28 8).toNat) && decide (used < Config.sparePool el) then
    some (s.modCtxOf el i (fun c => { c with mt := { c.mt with queues := c.mt.queues.put q { v with segs := v.segs + 1 } } }))
  else none

/-- EXTEND: links a segment on Markhor's behalf (R51, R208). Its operands are the firmware's: here B names the MT and A[1:0] the queue
(log 22). -/
def execExtend (tgt : BitVec 8) (a : BitVec 16) (b c d : W32) (s : State) : Host.Outcome State Fault Refusal :=
  atStart s (fun s i k _ _ =>
    if tgt = 0 ∧ c = 0 ∧ d = 0 then
      match s.linkSegment i b.toNat (bits a 0 2).toNat with
      | some t => t.arrive i k 0
      | none => s.arrive i k 3
    else s.arrive i k 3)

/-- What a firing of the actions above waits for is looked at again in each round. -/
def State.advance (s : State) (i k : Nat) (f : FSlot) : State :=
  if f.stage ≠ .going then s
  else match f.code with
  | 0x02 => s.goFetch f (fun s => s.runCfg i k f.tgt (bits f.act 16 8).toNat (bits f.act 24 2).toNat)
  | 0x04 => if f.left then s.checkStrm i k f else s.startStrm i k f
  | 0x05 => s.checkSbar i k f
  | 0x06 => s.goFetch f (fun s => s.runNbld i k f.tgt (bits f.act 16 8).toNat)
  | 0x07 => s.checkNbrun i k f
  | 0x08 => s.goFetch f (fun s => s.runWsw i k f.tgt (bits f.act 32 56).toNat)
  | 0x09 => s.advanceSign i k f
  | 0x10 =>
    match f.deadline, s.sect i f.tgt with
    | none, some x => (match x.c2 with
      | some l => if s.mayReplace i && s.mayEnterC2 i x then (s.enterC2 i f.tgt x l).modSlot i k (fun f => { f with deadline := some (s.now + f.remaining) }) else s
      | none => s.arrive i k 3)
    | _, _ => s
  | _ => s

end Sys2Proof.Machine
end

