-- ==== Sys2Proof/Machine/Nsq.lean ====
section
/-!
DEFINITION. Nsq.lean: the net sequencer (R29-R38): which transitions are enabled, starting one, completing firings, the round, the
system places, the detector (R50) and an instance's retirement (R25).
-/
namespace Sys2Proof.Machine

/-- A transition of an image. -/
def NetImg.tr (v : NetImg) (t : Nat) : W256 := v.trans.getD t 0

/-- The code of a transition's action. -/
def NetImg.trCode (v : NetImg) (t : Nat) : Nat := match v.acts[tAidx (v.tr t)]? with | some w => (bits w 0 8).toNat | none => 0

/-- The must-drain actions (R37). -/
def mustDrain (code : Nat) : Bool := code == 0x0F || code == 0x10 || code == 0x16 || code == 0x17

/-- The save class of an action: 0 instantaneous, 1 resumable, 2 must-drain (R37). -/
def saveClass (code : Nat) : Nat := if mustDrain code then 2 else if actInstant code || code == 0x13 then 0 else 1

/-- An input arc holds (R30): the consume arcs of a place together. -/
def Inst.arcHolds (v : Inst) (t : W256) (a : InArc) : Bool :=
  let n := v.count.getD a.place 0
  match a.kind with
  | 1 => decide (tConsumes t a.place ≤ n)
  | 2 => decide (a.weight ≤ n)
  | _ => decide (n < a.weight)

/-- Every output place has room (R31). -/
def Inst.hasRoom (v : Inst) (t : W256) : Bool :=
  (tOut t).all (fun a =>
    let p := a.place
    let cap := match v.img.places[p]? with | some d => pCap d | none => 0
    decide (v.count.getD p 0 + v.rsv.getD p 0 + tMaxDeposit t p ≤ cap + tConsumes t p))

/-- A firing slot that is free. -/
def Inst.freeSlot (v : Inst) : Option Nat := (List.range 32).find? (fun k => (v.slots.find? k).isNone)

/-- A transition is enabled (R31). -/
def Inst.enabled (v : Inst) (t : Nat) : Bool :=
  let r := v.img.tr t
  decide (t < v.img.trans.length) && tValid r && decide ((v.slots.vals.filter (fun f => f.trans == t)).length < tConc r)
  && v.freeSlot.isSome && (tIn r).all (v.arcHolds r) && v.hasRoom r

/-- A transition may start: it is enabled, and while a pre-emption is asked for it is no must-drain one (R34, R287). -/
def Inst.startable (v : Inst) (preempt : Bool) (t : Nat) : Bool := v.enabled t && !(preempt && mustDrain (v.img.trCode t))

/-- The transition a class would start: searched upward from its pointer (R34). -/
def Inst.pick (v : Inst) (preempt : Bool) (c : Nat) : Option Nat :=
  ((List.range 256).map (fun j => (v.ptr.getD c 255 + 1 + j) % 256)).find? (fun t => tPrio (v.img.tr t) == c && v.startable preempt t)

/-- The transition the NSQ starts: from the highest class that has one (R34). -/
def Inst.choice (v : Inst) (preempt : Bool) : Option Nat := ((List.range 4).filterMap (v.pick preempt)).head?

/-- The region lets its NSQ start firings: after a resumption once every firing that restarts has been issued again (R25, R38, R276, R288). -/
def Region.mayStart (r : Region) (v : Inst) : Bool :=
  r.holds == 0 && !r.frozen && r.accepted.isNone && !r.saved && v.done.isNone && !v.slots.vals.any (fun f => f.rst)

/-- A firing slot filled at a start (R38, R197). -/
def Inst.newSlot (v : Inst) (t : Nat) : FSlot :=
  let w := v.img.acts.getD (tAidx (v.img.tr t)) 0
  let code := (bits w 0 8).toNat
  let reads := (code == 0x01 || code == 0x04 || code == 0x12) && w.getLsbD 24
  { trans := t, cls := saveClass code, rst := false, round := v.rounds, stage := .issued, act := w, remaining := 0, deadline := none,
    waits := [], todo := [], operand := if reads then v.n.getD (bits w 25 4).toNat 0 else 0, cell := none, left := false, asked := false, faulted := false }

/-- Net firing, phase one: the consume weights leave, the room is reserved, a slot is filled (R32). -/
def Inst.startFiring (v : Inst) (t k now : Nat) : Inst :=
  let r := v.img.tr t
  let ins := (((tIn r).filter (fun a => a.kind == 1)).map (fun a => a.place)).eraseDups
  let outs := ((tOut r).map (fun a => a.place)).eraseDups
  { v with count := ins.foldl (fun c p => c.put p (c.getD p 0 - tConsumes r p)) v.count,
           rsv := outs.foldl (fun c p => c.put p (c.getD p 0 + tMaxDeposit r p)) v.rsv,
           slots := v.slots.put k (v.newSlot t), ptr := v.ptr.put (tPrio r) t, start := some now }

/-- TRANSITION_START: in a round whose completions and system places are done, the chosen transition starts, and its action is issued
(R32, R33). -/
def execTransitionStart (s : State) : Host.Outcome State Fault Refusal :=
  match s.focus with
  | .event (.transitionStart i t) =>
    match s.inst i, s.region i with
    | some v, some r =>
      if v.turn = some s.now ∧ v.start ≠ some s.now ∧ r.mayStart v = true ∧ v.choice r.preempt.isSome = some t then
        match v.freeSlot with
        | some k =>
          let s := (s.modInst i (fun v => v.startFiring t k s.now)).modRegion i (fun r => { r with moved := true })
          .next (if actInstant (v.img.trCode t) then s else s.push [.action i k])
        | none => .next s
      else .next s
    | _, _ => .next s
  | _ => .next s

/-- FIRING_COMPLETION: before the round's step 2, the lowest slot whose outcome has arrived completes (R32, R33). -/
def execFiringCompletion (s : State) : Host.Outcome State Fault Refusal :=
  match s.focus with
  | .event (.firingCompletion i k) =>
    match s.inst i with
    | some v =>
      match v.slots.find? k with
      | some f =>
        match f.stage with
        | .arrived o => if v.turn = some s.now then .next s else .next (s.finish i k o)
        | _ => .next s
      | none => .next s
    | none => .next s
  | _ => .next s

/-- The banks of a weight store that a weight image touches. -/
def imageBanks (o : W256) : List Nat :=
  let a := (bits o 12 26).toNat * 16
  let n := (bits o 64 32).toNat
  (List.range 16).filter (fun b => decide (a < (b + 1) * 2 ^ 26) && decide (b * 2 ^ 26 < a + n))

/-- WSREADY of an instance (R35). -/
def State.wsReady (s : State) (v : Inst) (r : Region) : Bool :=
  v.img.objs.all (fun o => !(oKind o == 9 && o.getLsbD 8) || (match r.dies[(bits o 96 4).toNat]? with
    | some d => (imageBanks o).all (fun b => !s.wsBusy d b)
    | none => true))

/-- The count of a mirror place (R35, R340). -/
def Inst.mirrorCount (v : Inst) (p : Nat) : Nat :=
  match v.mirrors.find? p, (v.img.places[p]?).bind (fun d => v.img.objs[pBind d]?) with
  | some m, some o => (match m.seen with
    | some w => if m.good && m.fault == 0 && cmpHolds (Cmp.ofCode (bits o 64 2).toNat) w (bits o 128 64) then 1 else 0
    | none => 0)
  | _, _ => 0

/-- Step 2 of a round for WSREADY and the mirrors (R33, R35). -/
def State.systemPlaces (s : State) (i : Nat) : State :=
  match s.inst i, s.region i with
  | some v, some r =>
    let ready := s.wsReady v r
    let upd := fun (c : Tab Nat) (x : W64 × Nat) =>
      match pKind x.1 with
      | 1 => c.put x.2 (if ready then 1 else 0)
      | 3 => c.put x.2 (v.mirrorCount x.2)
      | _ => c
    s.modInst i (fun v => { v with count := v.img.places.zipIdx.foldl upd v.count })
  | _, _ => s

/-- Step 2 of a round for the FAULT places: a deposit that finds its place full kills the region with the trap's code (R36). -/
def State.faultDeposits (s : State) (i : Nat) : List Nat → State
  | [] => s.modInst i (fun v => { v with deposits := [] })
  | d :: l =>
    match s.inst i with
    | none => s
    | some v =>
      let p := d / 256
      let cap := match v.img.places[p]? with | some x => pCap x | none => 0
      if cap ≤ v.count.getD p 0 then s.kill i (BitVec.ofNat 16 (d % 256))
      else (s.modInst i (fun v => { v with count := v.count.put p (v.count.getD p 0 + 1) })).faultDeposits i l

/-- The completions that a round applies, lowest slot first: outcomes that have arrived, and the actions that act at their completion
(R33, R205). -/
def Inst.dueMoves (v : Inst) (i : Nat) : List Move :=
  v.slots.filterMap (fun (x : Nat × FSlot) => match x.2.stage with
    | .arrived _ => some (.event (.firingCompletion i x.1))
    | .issued => if actInstant x.2.code then some (.action i x.1) else none
    | .going => none)

/-- Every firing that waits is looked at. -/
def State.advanceAll (s : State) (i : Nat) (l : List (Nat × FSlot)) : State :=
  l.foldl (fun s x => match s.slot i x.1 with | some f => s.advance i x.1 f | none => s) s

/-- A TIME quantum has passed (R35). -/
def Inst.timeDue (v : Inst) : Bool := v.img.timeq != 0 && decide (v.img.timeq ≤ v.time)

/-- NSQ_ROUND: one round per fc: completions, system places with a TIME tick first, and at most one start (R33, R36). A saved instance runs none
(R38). -/
def execNsqRound (s : State) : Host.Outcome State Fault Refusal :=
  match s.focus with
  | .event (.nsqRound i) =>
    match s.inst i, s.region i with
    | some v, some r =>
      if v.turn = some s.now ∨ r.saved = true then .next s
      else
        let s := s.advanceAll i v.slots
        match s.inst i with
        | none => .next s
        | some v =>
          let due := v.dueMoves i
          if !due.isEmpty then .next (s.push (due ++ [.event (.nsqRound i)]))
          else if v.timeDue then .next (s.push [.event (.timeTick i), .event (.nsqRound i)])
          else
            let s := (s.systemPlaces i).faultDeposits i v.deposits
            let s := s.modInst i (fun v => { v with turn := some s.now, rounds := v.rounds + 1 })
            match s.inst i, s.region i with
            | some v, some r =>
              (match v.choice r.preempt.isSome with
              | some t => if r.mayStart v then .next (s.push [.event (.transitionStart i t)]) else .next s
              | none => .next s)
            | _, _ => .next s
    | _, _ => .next s
  | _ => .next s

/-- TIME_TICK: a TIME quantum has passed and, once the round's completions are applied, the TIME place takes a token up to its capacity (R33, R35,
R36). -/
def execTimeTick (s : State) : Host.Outcome State Fault Refusal :=
  match s.focus with
  | .event (.timeTick i) =>
    match s.inst i with
    | some v =>
      if v.timeDue = true ∧ v.turn ≠ some s.now ∧ v.dueMoves i = [] then
        let upd := fun (c : Tab Nat) (x : W64 × Nat) =>
          if pKind x.1 = 4 then c.put x.2 (min (pCap x.1) (c.getD x.2 0 + 1)) else c
        .next (s.modInst i (fun v => { v with time := v.time - v.img.timeq, count := v.img.places.zipIdx.foldl upd v.count }))
      else .next s
    | none => .next s
  | _ => .next s

/-- A mirror has its word to read: for the first time or after a change (R340). -/
def State.mirrorDue (s : State) (v : Inst) (p : Nat) : Bool :=
  match v.mirrors.find? p with
  | some m => m.fault == 0 && !m.busy && (m.cell.isNone || m.stale s)
  | none => false

/-- A mirror changed. -/
def State.modMirror (s : State) (i p : Nat) (f : Mirror → Mirror) : State :=
  s.modInst i (fun v => match v.mirrors.find? p with
    | some m => { v with mirrors := v.mirrors.put p (f m) }
    | none => v)

/-- A mirror's word is translated, or read where it is (R340). -/
def State.readMirror (s : State) (i p : Nat) (v : Inst) : State :=
  let va := v.img.signalVa (match v.img.places[p]? with | some d => pBind d | none => 0)
  match s.lookWord i va .read with
  | .cell ap q o =>
    (s.issueWord (wordAccess s (.mirror i p) i va .read 0 ap q o)).modMirror i p (fun m => { m with busy := true, asked := false, cell := some (q, o) })
  | .trap c q =>
    (s.modMirror i p (fun m => { m with fault := 2, good := false, asked := false })).trapNote i { code := c, cause := q, info := BitVec.ofNat 64 va } 2 0 0 0xFF
      (s.nsqElem i) 0
  | .miss => (s.askWord i va).modMirror i p (fun m => { m with asked := true, cell := none })

/-- MIRROR_UPDATE: a mirror reads its word; its count follows in the next round (R35, R340). -/
def execMirrorUpdate (s : State) : Host.Outcome State Fault Refusal :=
  match s.focus with
  | .event (.mirrorUpdate i p) =>
    match s.inst i with
    | some v =>
      match v.mirrors.find? p with
      | some _ => if s.mirrorDue v p then .next (s.readMirror i p v) else .next s
      | none => .next s
    | none => .next s
  | _ => .next s

/-- CSTATE of a firing slot (R38). -/
def State.cstateOf (s : State) (i : Nat) (f : FSlot) : Nat :=
  match f.code with
  | 0x01 => (match s.sect i f.tgt with | some x => x.remaining | none => 0)
  | 0x13 | 0x0A => (match f.deadline with | some t => min (t - s.now) 65535 | none => 0)
  | _ => 0

/-- An entry of the firing-slot table (R38). -/
def State.slotEntry (s : State) (i : Nat) (f : Option FSlot) : Nat :=
  match f with
  | none => 0
  | some f => 2 ^ 63 + f.cls % 4 * 2 ^ 61 + (if f.rst then 2 ^ 60 else 0) + f.trans % 256 * 2 ^ 48 + f.round.toNat * 2 ^ 16 + s.cstateOf i f

/-- The DEADLOCK dump block, in bytes (R274). -/
def State.dumpBytes (s : State) (i : Nat) (v : Inst) (r : Region) : Nat × Nat :=
  let counts := (List.range 256).flatMap (fun p => [v.count.getD p 0, v.rsv.getD p 0])
  let slots := (List.range 32).map (fun k => s.slotEntry i (v.slots.find? k))
  let els := r.elems.map (fun el => (s.elem el).ctx.regs.reason.toNat)
  (1024 + 256 + els.length, packNat 16 counts + 2 ^ 8192 * packNat 64 slots + 2 ^ 10240 * packNat 8 els)

/-- A firing waits for memory outside any access: a translation that walks or has faulted, a structure's fetch (R50, R280). -/
def FSlot.fetching (f : FSlot) : Bool :=
  f.faulted || f.asked || (f.stage == .going && (f.code == 0x02 || f.code == 0x06 || f.code == 0x08))

/-- Something of a region is outstanding: an access, a translation of its own that walks or has faulted, a run (R50). -/
def State.regionBusy (s : State) (i : Nat) : Bool :=
  s.elems.vals.any (fun e => e.issued.any (fun a => a.inst == i)) || s.travelling.any (fun a => a.inst == i)
  || s.dom.unacked.any (fun w => w.acc.inst == i) || s.pchs.vals.any (fun p => match p.run with | some r => r.inst == i | none => false)
  || (match s.inst i with
      | some v => v.slots.vals.any FSlot.fetching || v.mirrors.vals.any (fun m => m.asked || m.fault == 1)
      | none => false)

/-- An element has a trap that is being handled: the freeze that a fence leaves on a CE is none (R50, R278). -/
def State.trapped (s : State) (el : Nat) : Bool := decide ((if s.defects.contains el then 1 else 0) < (s.elem el).frozen.trap)

/-- The detector does not advance: a TIMER or WATCH is in flight, the region is frozen or set aside, or a collective instance of it is paused
(R50, R326). -/
def State.detectorHeld (s : State) (i : Nat) (v : Inst) (r : Region) : Bool :=
  r.frozen || r.accepted.isSome || r.saved || r.holds != 0 || r.elems.any s.trapped
  || v.slots.vals.any (fun f => f.code == 0x13 || f.code == 0x0A)
  || s.colls.any (fun (x : Nat × Coll) => x.2.inst == i && x.2.isPaused)

/-- DEADLOCK: the count has reached the interval; the dump is written, the region freezes and the record is raised, whose classification kills the region
(R50, R272, R274, R276). -/
def execDeadlock (s : State) : Host.Outcome State Fault Refusal :=
  match s.focus with
  | .event (.deadlock i) =>
    match s.inst i, s.region i with
    | some v, some r =>
      if r.interval ≠ 0 ∧ r.interval ≤ r.idle ∧ s.detectorHeld i v r = false then
        let d := s.dumpBytes i v r
        let s := (s.paWrite r.dump d.1 d.2).modRegion i (fun v => { v with frozen := true, holds := v.holds + 1 })
        .next (s.trapNote i { code := 0x20, cause := 0, info := BitVec.ofNat 64 r.dump } 5 0 0 0 (s.nsqElem i) 0)
      else .next s
    | _, _ => .next s
  | _ => .next s

/-- A finished instance may retire: nothing is in flight, every held store is committed and no store is left at its issuer (R25, log 35). -/
def State.mayRetire (s : State) (i : Nat) (v : Inst) (r : Region) : Bool :=
  v.done.isSome && v.slots.isEmpty && !r.saved && r.sects.vals.all (s.noneHeld ·)
  && r.elems.all (fun el => !(s.elem el).issued.any (fun a => a.inst == i && !a.kind.isRead))

/-- What a TAIL child takes from its parent (R45). -/
def childOf (v : Inst) (r : Region) (va : W64) : Child :=
  { va, qcb := r.qcb, ring := r.ring, hdr := r.hdr, interval := r.interval, root := v.root, dmask := r.dmask, ndm1 := r.ndm1,
    level := r.level, asid := v.asid, origin := r.origin, miss := none }

/-- INSTANCE_RETIRE: after DONE the instance retires with its record, its child is kept for its launch, and its region is released
(R25, R45, R299). -/
def execInstanceRetire (s : State) : Host.Outcome State Fault Refusal :=
  match s.focus with
  | .event (.instanceRetire i) =>
    match s.inst i, s.region i with
    | some v, some r =>
      if s.mayRetire i v r then
        let s := s.retireRecord i (v.done.getD 0)
        let s := match v.tail with
          | some va => s.modCmd (fun c => { c with children := c.children.put i (childOf v r va) })
          | none => s
        .next (s.release i)
      else .next s
    | _, _ => .next s
  | _ => .next s

end Sys2Proof.Machine
end

