-- ==== Sys2Proof/Machine/Strip.lean ====
section
/-!
DEFINITION. Strip.lean: the Chamois strip (R294-R300): queue control blocks, kicks, mapping and ageing, the fetch of packets, completion
records and queue errors, and the packets that launch nothing.
-/
namespace Sys2Proof.Machine

/-- The PA of a QCB (R295). -/
def qcbPa (q : Nat) : Nat := 0xFFC000000 + 128 * q
/-- The PA of its recovery shadow. -/
def recPa (q : Nat) : Nat := 0xFFC800000 + 128 * q

/-- The words that a change of a QCB under way writes. -/
def State.qcbChange (s : State) (q : Nat) : List (Nat × W64) := match s.cmd.qcbs.find? q with | some c => c.2 | none => []

/-- The 16 words of a QCB as firmware knows them: the shadow's where SEQ is odd, with the change that is under way (R296, R306). -/
def State.qcbWords (s : State) (q : Nat) : List W64 :=
  let pa := if s.paRead (qcbPa q) 8 % 2 = 1 then recPa q else qcbPa q
  (s.qcbChange q).foldl (fun l x => l.set x.1 x.2) ((List.range 16).map (fun n => BitVec.ofNat 64 (s.paRead (pa + 8 * n) 8)))

/-- The fields of a change are written into the QCB (R296, step 3). -/
def State.qcbFields (s : State) (q : Nat) (ws : List (Nat × W64)) : State := ws.foldl (fun s x => s.paWrite (qcbPa q + 8 * x.1) 8 x.2.toNat) s

/-- SEQ becomes even again, and the change is over (R296, step 4). -/
def State.qcbEven (s : State) (q : Nat) : State :=
  (s.paWrite (qcbPa q) 8 (s.paRead (recPa q) 8 + 2)).modCmd (fun c => { c with qcbs := c.qcbs.drop q })

/-- Firmware begins to change words of a QCB: the shadow takes the whole block and SEQ becomes odd (R296, steps 1 and 2). What it changes before the
fields of an earlier change are written is written with them; a change whose fields are written ends first. -/
def State.qcbWrite (s : State) (q : Nat) (ws : List (Nat × W64)) : State :=
  match s.cmd.qcbs.find? q with
  | some (false, l) => s.modCmd (fun c => { c with qcbs := c.qcbs.put q (false, l ++ ws) })
  | c =>
    let s := if c.isSome then s.qcbEven q else s
    let old := (s.qcbWords q).map BitVec.toNat
    ((s.paWrite (recPa q) 128 (packNat 64 old)).paWrite (qcbPa q) 8 (old.headD 0 + 1)).modCmd (fun c => { c with qcbs := c.qcbs.put q (false, ws) })

/-- Every change of a QCB goes a step on: its fields, then its SEQ (R296). -/
def State.stepQcbs (s : State) : State :=
  s.cmd.qcbs.foldl (fun s (x : Nat × (Bool × List (Nat × W64))) =>
    if x.2.1 then s.qcbEven x.1
    else (s.qcbFields x.1 x.2.2).modCmd (fun c => { c with qcbs := c.qcbs.put x.1 (true, x.2.2) })) s

/-- The hardware slot that serves a queue. -/
def State.slotOf (s : State) (q : Nat) : Option Nat := (List.find? (fun (x : Nat × HwSlot) => x.2.qcb == q) s.cmd.slots).map Prod.fst

/-- A hardware slot changed, if it is mapped. -/
def State.modHw (s : State) (n : Nat) (f : HwSlot → HwSlot) : State :=
  match s.cmd.slots.find? n with
  | some h => s.modCmd (fun c => { c with slots := c.slots.put n (f h) })
  | none => s

/-- A word of a queue's QCB as firmware holds it: as read at the mapping, or as it stands (R295). -/
def State.qword (s : State) (q n : Nat) : W64 :=
  match (s.slotOf q).bind s.cmd.slots.find? with
  | some h => h.rw.getD n 0
  | none => (s.qcbWords q).getD n 0

/-- QTAB: the PA of the level-0 table of a queue. -/
def State.qRoot (s : State) (q : Nat) : Nat := (bits (s.qword q 1) 13 39).toNat * 8192
/-- ASID of a queue. -/
def State.qAsid (s : State) (q : Nat) : BitVec 16 := bits (s.qword q 7) 0 16
/-- FLAGS.EN. -/
def State.qEn (s : State) (q : Nat) : Bool := (s.qword q 6).getLsbD 48
/-- FLAGS.SYS. -/
def State.qSys (s : State) (q : Nat) : Bool := (s.qword q 6).getLsbD 49
/-- The base level in a QCB's word 7. -/
def qBase (w : W64) : Nat := (bits w 24 3).toNat
/-- The ceiling: not below the base level (R295). -/
def qCeil (w : W64) : Nat := max (qBase w) (bits w 27 3).toNat
/-- CUR of a QCB's word 7, between base and ceiling. -/
def qCur (w : W64) : Nat := max (qBase w) (min (qCeil w) (bits w 16 8).toNat)

/-- The current level of a queue. -/
def State.levelOf (s : State) (q : Nat) : Nat :=
  match (s.slotOf q).bind s.cmd.slots.find? with
  | some h => h.cur
  | none => qCur (s.qword q 7)

/-- A queue's current level changed, in its slot or in its QCB. -/
def State.setLevel (s : State) (q l : Nat) : State :=
  match s.slotOf q with
  | some n => s.modHw n (fun h => { h with cur := l })
  | none =>
    let w := s.qword q 7
    s.qcbWrite q [(7, (w &&& ~~~0xFF0000#64) ||| BitVec.ofNat 64 (l * 2 ^ 16))]

/-- The strip serves a slot in the present mode (R305, R306). -/
def State.serves (s : State) (h : HwSlot) : Bool := s.cmd.mode == .normal || (s.cmd.mode == .direct && h.byMap)

/-- The die in whose fault FIFO a queue's translation faults stand (R295). -/
def State.qDie (s : State) (q : Nat) : Nat := match s.slotOf q with | some n => n / 64 | none => 0

/-- A queue's interrupt: vector VB + (n mod count), or vector 0 where the queue has no range of its own (R299, R328). -/
def State.raiseQ (s : State) (q n : Nat) : State :=
  let w := s.qword q 9
  let vb := (bits w 0 8).toNat
  let count := max 1 (bits w 8 6).toNat
  s.raiseMsi (if vb = 0 ∨ 255 < vb + count - 1 then 0 else vb + n % count)

/-- A queue error: ERR, the interrupt VB and, unless the completion ring itself failed, a KIND 3 record before it; the queue stops, once a packet that
has left dispatch has completed (R300). -/
def State.queueError (s : State) (q cls idx detail : Nat) (tag : BitVec 16) (record : Bool) : State :=
  let s := (s.qcbWrite q [(12, BitVec.ofNat 64 (idx % 2 ^ 16 * 2 ^ 48 + cls * 2 ^ 40 + detail % 2 ^ 32))]).modCmd
    (fun c => { c with errs := c.errs.put q idx })
  let s := match s.slotOf q with
    | some n => s.modHw n (fun h => if h.stage = SlotStage.launch then h else { h with stage := .stopped, pkt := [], miss := none })
    | none => s
  if record then s.addRecord { qcb := q, value := 0, status := 0, kind := 3, tag, ring := BitVec.ofNat 32 idx, irq := some 0, firing := none, miss := none }
  else s.raiseQ q 0

/-- A fault that waits for the host stands in a die's FIFO. -/
def State.faultPending (s : State) (die : Nat) (asid : BitVec 16) (m : Miss) : Bool := (s.die die).hasFault asid (m.1 / 65536) m.2

/-- What waits for the host's answer to a fault. -/
def VaFault.miss (f : VaFault) : Miss := (f.va, f.kind)

/-- An XLATE of the strip enters the die's fault FIFO; none where that is full: its access is tried again (R283, R295). -/
def State.askHost (s : State) (die : Nat) (asid : BitVec 16) (f : VaFault) : Option State :=
  if s.faultRoom die asid (f.va / 65536) [f.kind] then some (s.addFaults die asid (f.va / 65536) f.cause [f.kind]) else none

/-- TAG of the packet in a slot. -/
def HwSlot.tag (h : HwSlot) : BitVec 16 := bits (h.pkt.headD 0) 16 16

/-- A slot's access faults: an XLATE waits for the host's answer, a PROT is queue error class 7 (R295). -/
def State.slotFault (s : State) (n : Nat) (h : HwSlot) (f : VaFault) : State :=
  if f.code = 0x10 then
    match s.askHost (n / 64) (s.qAsid h.qcb) f with
    | some t => t.modHw n (fun h => { h with miss := some f.miss })
    | none => if h.stage = .dispatch then s.modHw n (fun h => { h with since := s.now + 1 }) else s
  else s.queueError h.qcb 7 h.head.toNat f.va h.tag true

/-- A slot waits for the host. -/
def State.slotWaits (s : State) (n : Nat) (h : HwSlot) : Bool := h.miss.any (s.faultPending (n / 64) (s.qAsid h.qcb))

/-! ## Fetch and parse -/

/-- The eight words of a ring unit (R295). -/
def State.ringUnit (s : State) (q : Nat) (idx : W32) : Except VaFault (List W64) := do
  let w := s.qword q 2
  let l ← s.vaWords (s.qRoot q) ((bits w 0 56).toNat + 64 * (idx.toNat % 2 ^ (bits w 56 8).toNat)) 4
  return halves l

/-- n ring units from an index. -/
def State.ringUnits (s : State) (q : Nat) (idx : W32) : Nat → Except VaFault (List W64)
  | 0 => .ok []
  | n + 1 => do
    let a ← s.ringUnit q idx
    let l ← s.ringUnits q (idx + 1) n
    return a ++ l

/-- The units that a header asks for (R299). -/
def pktUnits (l : List W64) : Nat := (bits (l.headD 0) 8 2).toNat + 1

/-- A packet waits for a dependency (R294). -/
def isWait : Instr → Bool
  | .waitall _ _ _ | .waitany _ _ _ | .fence _ => true
  | _ => false

/-- The error class of a packet's first unit alone: an unknown CODE, or an NU that is not its code's (R300). -/
def headClass (a : List W64) : Option Nat :=
  let n := 8 * pktUnits a
  match packetFields (a ++ List.replicate (n - a.length) 0) with
  | none => some 1
  | some i => if (encodePacket i).any (fun l => l.length == n) then none else some 2

/-- Fetch and parse in a slot: the header's errors from the first unit, the packet once the tail has passed all its units (R294, R297, R300). -/
def State.fetchSlot (s : State) (n : Nat) (h : HwSlot) : State :=
  if h.stage ≠ .fetch ∨ s.serves h = false ∨ h.head = h.tail ∨ s.slotWaits n h = true then s
  else match s.ringUnit h.qcb h.head with
  | .error f => s.slotFault n h f
  | .ok a =>
    let fail := fun (c : Nat) => s.queueError h.qcb c h.head.toNat (if c = 1 then (bits (a.headD 0) 0 8).toNat else 0) (bits (a.headD 0) 16 16) true
    match headClass a with
    | some c => fail c
    | none =>
    if (h.tail - h.head).toNat < pktUnits a then s
    else match s.ringUnits h.qcb h.head (pktUnits a) with
    | .error f => s.slotFault n h f
    | .ok l =>
      match decodePacket l with
      | .ok i => s.modHw n (fun h => { h with stage := if isWait i then .depend else .dispatch, pkt := l, since := 0, miss := none })
      | .error e => fail (if e = .reservedPacket then 1 else 2)

/-- Every slot fetches. -/
def State.stripFetch (s : State) : State :=
  s.cmd.slots.keys.foldl (fun s n => match s.cmd.slots.find? n with | some h => s.fetchSlot n h | none => s) s

/-! ## Dispatch -/

/-- A retired parent's child stands before the queue's packets (R45). -/
def State.childAhead (s : State) (q : Nat) : Bool := s.cmd.children.any (fun (x : Nat × Child) => x.2.qcb == q)

/-- A slot's head packet is ready for dispatch; one that had to wait in this fc is not tried twice in it. -/
def State.readyHw (s : State) (n : Nat) (h : HwSlot) : Bool :=
  h.stage == .dispatch && s.serves h && h.since != s.now + 1 && !s.childAhead h.qcb && !s.slotWaits n h

/-- The slot that the strip of a die dispatches: the highest level, equal levels in rotation (R294). -/
def State.dispatchNext (s : State) (die : Nat) : Option Nat :=
  let ready := List.filter (fun (x : Nat × HwSlot) => x.1 / 64 == die && s.readyHw x.1 x.2) s.cmd.slots
  let top := (ready.map (fun x => x.2.cur)).foldl max 0
  let order := (List.range 64).map (fun j => die * 64 + ((s.die die).rot + j) % 64)
  order.find? (fun n => ready.any (fun x => x.1 == n && x.2.cur == top))

/-- A packet that the strip dispatches now. -/
def atDispatch (s : State) (f : State → Nat → HwSlot → State) : Host.Outcome State Fault Refusal :=
  match s.focus with
  | .strip n =>
    match s.cmd.slots.find? n with
    | some h =>
      if s.dispatchNext (n / 64) = some n then .next (f (s.modDie (n / 64) (fun d => { d with rot := n % 64 + 1 })) n h)
      else .next s
    | none => .next s
  | _ => .next s

/-- A packet completes: its record and its interrupt, and the slot goes on to the next unless its queue has been stopped meanwhile (R299, R300). -/
def State.finishPacket (s : State) (n : Nat) (h : HwSlot) (p : PktHdr) (value : W64) (status : BitVec 16) : State :=
  let s := if p.cmpl then
      s.addRecord { qcb := h.qcb, value, status, kind := 0, tag := p.tag, ring := h.head, irq := if p.irq then some 0 else none, firing := none, miss := none }
    else if p.irq then s.raiseQ h.qcb 0 else s
  let next : SlotStage := if (s.cmd.errs.find? h.qcb).isSome then .stopped else .fetch
  s.modHw n (fun h => { h with head := h.head + BitVec.ofNat 32 (h.pkt.length / 8), pkt := [], stage := next, miss := none })

/-- NOP packet: completes at dispatch (R299). -/
def execPktNop (p : PktHdr) (s : State) : Host.Outcome State Fault Refusal := atDispatch s (fun s n h => s.finishPacket n h p 0 0)

/-- MARKER: completes at dispatch; its record carries the value (R299). -/
def execMarker (p : PktHdr) (value : W64) (s : State) : Host.Outcome State Fault Refusal :=
  atDispatch s (fun s n h => s.finishPacket n h p value 0)

/-- A 64-bit signal word changed at a cell; a token with an uncorrectable error keeps it, and the loss is counted (R293, R338). -/
def State.signalCell (s : State) (c : Nat × Nat) (add : Bool) (value : W64) : State :=
  if s.mem.dramErr.contains (cellAt c / 32) then s.bump 2
  else { s with mem := { s.mem with dram := s.mem.dram.writeN (cellAt c) 8 ((if add then s.wordAt c else 0) + value).toNat } }

/-- SIGNAL: writes or adds to its word at dispatch, and completes once that has been offered at MOD scope (R299). -/
def execSignal (p : PktHdr) (va : BitVec 56) (add : Bool) (value : W64) (s : State) : Host.Outcome State Fault Refusal :=
  match s.focus with
  | .strip n =>
    match s.cmd.slots.find? n with
    | some h =>
      if h.stage = .launch then (if s.unoffered then .next s else .next (s.finishPacket n h p 0 0))
      else atDispatch s (fun s n h => match s.vaCell (s.qRoot h.qcb) va.toNat (.sigw add) with
        | .error f => s.slotFault n h f
        | .ok c => (s.signalCell c add value).modHw n (fun h => { h with stage := .launch }))
    | none => .next s
  | _ => .next s

/-! ## Dependency check -/

/-- The conditions that hold, read together (R299). -/
def State.condsHold (s : State) (q : Nat) : List WaitCond → Except VaFault (List Bool)
  | [] => .ok []
  | c :: l => do
    let w ← s.vaRead (s.qRoot q) c.va.toNat 8
    let r ← s.condsHold q l
    return cmpHolds c.op (BitVec.ofNat 64 w) c.value :: r

/-- A WAITALL's or WAITANY's conditions are read, and it completes where they hold (R299). -/
def State.checkWait (s : State) (n : Nat) (h : HwSlot) (p : PktHdr) (all : Bool) (cs : List WaitCond) : State :=
  match s.condsHold h.qcb cs with
  | .error f => s.slotFault n h f
  | .ok l =>
    if (if all then l.all id else l.any id) then s.finishPacket n h p 0 0
    else s.modHw n (fun h => { h with held := BitVec.ofNat 16 (packNat 1 (l.map Bool.toNat)), miss := none })

/-- A packet's dependency check begins. -/
def atDepend (s : State) (f : State → Nat → HwSlot → State) : Host.Outcome State Fault Refusal :=
  match s.focus with
  | .strip n =>
    match s.cmd.slots.find? n with
    | some h =>
      if h.stage = .depend ∧ s.serves h = true then
        let h := { h with stage := .waiting, since := s.now, mark := s.nextId }
        .next (f (s.modHw n (fun _ => h)) n h)
      else .next s
    | none => .next s
  | _ => .next s

/-- WAITALL: holds the queue until all conditions hold at once, or its timeout (R299). -/
def execWaitall (p : PktHdr) (_timeout : W32) (cs : List WaitCond) (s : State) : Host.Outcome State Fault Refusal :=
  atDepend s (fun s n h => s.checkWait n h p true cs)

/-- WAITANY: holds the queue until any condition holds, or its timeout (R299). -/
def execWaitany (p : PktHdr) (_timeout : W32) (cs : List WaitCond) (s : State) : Host.Outcome State Fault Refusal :=
  atDepend s (fun s n h => s.checkWait n h p false cs)

/-- The parts of the WAITALL or WAITANY in progress in a slot: all, header, timeout and conditions. -/
def HwSlot.waitOf (h : HwSlot) : Option (Bool × PktHdr × W32 × List WaitCond) :=
  if h.stage ≠ .waiting then none
  else match decodePacket h.pkt with
  | .ok (.waitall p t cs) => some (true, p, t, cs)
  | .ok (.waitany p t cs) => some (false, p, t, cs)
  | _ => none

/-- WAIT_CONDITION_REREAD: the conditions are read again after a change (R299). -/
def execWaitConditionReread (s : State) : Host.Outcome State Fault Refusal :=
  match s.focus with
  | .event (.waitConditionReread n) =>
    match s.cmd.slots.find? n with
    | some h => (match h.waitOf with
      | some (all, p, _, cs) => if s.serves h && !s.slotWaits n h then .next (s.checkWait n h p all cs) else .next s
      | none => .next s)
    | none => .next s
  | _ => .next s

/-- WAIT_TIMEOUT: the timeout in us has passed since the dependency check began: status 1 (R299). -/
def execWaitTimeout (s : State) : Host.Outcome State Fault Refusal :=
  match s.focus with
  | .event (.waitTimeout n) =>
    match s.cmd.slots.find? n with
    | some h => (match h.waitOf with
      | some (_, p, t, _) => if s.serves h ∧ t ≠ 0 ∧ h.since + t.toNat * 1600 ≤ s.now then .next (s.finishPacket n h p 0 1) else .next s
      | none => .next s)
    | none => .next s
  | _ => .next s

/-- No instance launched from a queue before a number is left, none of their children, and no store of a retired one has still to
perform at MOD (R299). -/
def State.fenceDone (s : State) (q mark : Nat) : Bool :=
  !s.regions.any (fun (x : Nat × Region) => x.2.qcb == q && decide (x.2.origin < mark))
  && !s.cmd.children.any (fun (x : Nat × Child) => x.2.qcb == q && decide (x.2.origin < mark))
  && !s.pendingAt 4 true (fun a => (s.region a.inst).isNone)

/-- FENCE: waits until every instance launched earlier from its queue, and their TAIL children, have retired (R299). -/
def execFence (p : PktHdr) (s : State) : Host.Outcome State Fault Refusal :=
  match s.focus with
  | .strip n =>
    match s.cmd.slots.find? n with
    | some h =>
      let check := fun (s : State) (h : HwSlot) => if s.fenceDone h.qcb h.mark then s.finishPacket n h p 0 0 else s
      if h.stage = .waiting then (if s.serves h then .next (check s h) else .next s) else atDepend s (fun s _ h => check s h)
    | none => .next s
  | _ => .next s

/-! ## Kicks, mapping, ageing -/

/-- A dropped kick is counted (R297, R332). -/
def State.dropKick (s : State) : State := s.modCmd (fun c => { c with kickerr := satInc c.kickerr })

/-- A queue waits for its mapping. -/
def State.setPend (s : State) (q : Nat) : State :=
  s.modCmd (fun c => { c with pendmap := if c.pendmap.contains q then c.pendmap else q :: c.pendmap })

/-- A tail is announced: ignored, an error of class 6, or accepted (R297). -/
def State.announce (s : State) (q : Nat) (t : W32) : State :=
  let m := (s.slotOf q).bind s.cmd.slots.find?
  let head := match m with | some h => h.head | none => bits (s.qword q 3) 0 32
  let tail := match m with | some h => h.tail | none => bits (s.qword q 4) 0 32
  if s.qEn q = false ∨ t = tail ∨ 2 ^ 31 ≤ (t - tail).toNat then s
  else if 2 ^ (bits (s.qword q 2) 56 8).toNat < (t - head).toNat then s.queueError q 6 head.toNat t.toNat 0 true
  else match s.slotOf q with
  | some n => s.modHw n (fun h => { h with tail := t })
  | none => (s.qcbWrite q [(4, t.setWidth 64)]).setPend q

/-- A kick is processed (R297, R332, R333). -/
def State.serveKick (s : State) (page : Nat) (v : W64) : State :=
  let q := (bits v 0 16).toNat
  if !s.bar.okNeg || s.bar.phase != 5 || q / 256 != page || bits v 48 16 != 0 then s.dropKick
  else s.announce q (bits v 16 32)

/-- A write of a requester through BAR2 or BAR4 has not performed at MOD scope (R328). -/
def State.hostBusy (s : State) (req : Nat) : Bool := s.pendingAt 4 true (fun a => a.by_ == .host req && !a.kind.isRead)

/-- KICK: processed once its requester's earlier writes have performed at MOD scope, and its earlier kicks have been processed; the writes of other
requesters are not ordered against it (R297, R328). -/
def execKick (s : State) : Host.Outcome State Fault Refusal :=
  match s.focus with
  | .event (.kick req page v) =>
    if s.hostBusy req || s.cmd.kicks.any (fun k => k.1 == req) then .next (s.modCmd (fun c => { c with kicks := c.kicks ++ [(req, page, v)] }))
    else .next (s.serveKick page v)
  | _ => .next s

/-- The kicks that waited are processed, those of one requester in order. -/
def State.lateKicks (s : State) : State :=
  s.cmd.kicks.foldl (fun s k => if s.hostBusy k.1 then s.modCmd (fun c => { c with kicks := c.kicks ++ [k] }) else s.serveKick k.2.1 k.2.2)
    (s.modCmd (fun c => { c with kicks := [] }))

/-- A queue is mapped to a free slot: its QCB is read, and SLOT and CUR are written (R295, R298). -/
def State.mapQueue (s : State) (q n : Nat) (byMap : Bool) : State :=
  let w := s.qcbWords q
  let cur := qCur (w.getD 7 0)
  let h : HwSlot :=
    { qcb := q, head := bits (w.getD 3 0) 0 32, tail := bits (w.getD 4 0) 0 32, cur,
      stage := if (s.cmd.errs.find? q).isSome then .stopped else .fetch, pkt := [], rw := w, byMap, since := 0, mark := 0, miss := none, held := 0 }
  let s := s.qcbWrite q [(5, BitVec.ofNat 64 (n / 64 * 256 + 128 + n % 64)), (7, (w.getD 7 0 &&& ~~~0xFF0000#64) ||| BitVec.ofNat 64 (cur * 2 ^ 16))]
  s.modCmd (fun c => { c with slots := c.slots.put n h, pendmap := c.pendmap.filter (· != q) })

/-- A queue leaves its slot: the slot's state goes into the QCB, and a ring that holds packets is pending again (R298). -/
def State.unmapSlot (s : State) (n : Nat) (h : HwSlot) : State :=
  let w := s.qcbWords h.qcb
  let s := s.modCmd (fun c => { c with slots := c.slots.drop n })
  let s := s.qcbWrite h.qcb [(3, h.head.setWidth 64), (4, h.tail.setWidth 64), (5, w.getD 5 0 &&& ~~~0x80#64),
    (7, (w.getD 7 0 &&& ~~~0xFF0000#64) ||| BitVec.ofNat 64 (h.cur * 2 ^ 16))]
  if h.head = h.tail then s else s.setPend h.qcb

/-- The queue that Markhor serves next: the highest level, then the lowest id (R298). -/
def State.nextPending (s : State) : Option Nat :=
  let top := (s.cmd.pendmap.map s.levelOf).foldl max 0
  ((s.cmd.pendmap.filter (fun q => s.levelOf q == top)).foldl (fun m q => match m with | some p => some (min p q) | none => some q) none)

/-- The slot of a die that gives way to a level: the lowest level among those whose head is in neither dispatch nor launch, if below it (R298). -/
def State.victimSlot (s : State) (die level : Nat) : Option (Nat × HwSlot) :=
  let l := List.filter (fun (x : Nat × HwSlot) => x.1 / 64 == die && x.2.stage != .launch && x.2.stage != .dispatch && decide (x.2.cur < level)) s.cmd.slots
  let low := (l.map (fun x => x.2.cur)).foldl min 7
  l.find? (fun x => x.2.cur == low)

/-- QUEUE_MAP: Markhor serves a PENDMAP bit: a free slot of the die, or one it evicts (R298). A disabled queue loses its bit. -/
def execQueueMap (s : State) : Host.Outcome State Fault Refusal :=
  match s.focus with
  | .event (.queueMap die) =>
    if s.cmd.mode ≠ .normal then .next s
    else match s.nextPending with
    | none => .next s
    | some q =>
      if s.qEn q = false then .next (s.modCmd (fun c => { c with pendmap := c.pendmap.filter (· != q) }))
      else match (List.range 64).find? (fun n => (s.cmd.slots.find? (die * 64 + n)).isNone) with
      | some n => .next (s.mapQueue q (die * 64 + n) false)
      | none =>
        match s.victimSlot die (s.levelOf q) with
        | some (n, h) => .next ((s.unmapSlot n h).mapQueue q n false)
        | none => .next s
  | _ => .next s

/-- A queue ages: its PENDMAP bit is set, or its head packet is ready for dispatch and not dispatched (R298). -/
def State.mayAge (s : State) (q : Nat) : Bool :=
  s.cmd.pendmap.contains q || (match (s.slotOf q).bind s.cmd.slots.find? with | some h => h.stage == .dispatch | none => false)

/-- AGEI of a queue in fc: 0 means 1,000 us (R295). -/
def State.ageInterval (s : State) (q : Nat) : Nat :=
  let a := (bits (s.qword q 8) 32 32).toNat
  (if a = 0 then 1000 else a) * 1600

/-- AGEING: AGEI has passed and the level rises by one, up to the ceiling (R298). -/
def execAgeing (s : State) : Host.Outcome State Fault Refusal :=
  match s.focus with
  | .event (.ageing q) =>
    match s.cmd.ages.find? q with
    | some t =>
      if s.mayAge q ∧ t + s.ageInterval q ≤ s.now then
        .next ((s.setLevel q (min (qCeil (s.qword q 7)) (s.levelOf q + 1))).modCmd (fun c => { c with ages := c.ages.put q s.now }))
      else .next s
    | none => .next s
  | _ => .next s

/-- The queues that age are those whose interval runs. -/
def State.keepAges (s : State) : State :=
  let qs := (s.cmd.pendmap ++ s.cmd.slots.vals.map (fun h => h.qcb)).filter s.mayAge
  let old := List.filter (fun (x : Nat × Nat) => qs.contains x.1) s.cmd.ages
  s.modCmd (fun c => { c with ages := qs.foldl (fun (t : Tab Nat) q => match t.find? q with | some _ => t | none => t.put q s.now) old })

/-! ## Completion records -/

/-- A record's 32 bytes (R299). -/
def RecWait.bytes (r : RecWait) (time : Nat) (phase : BitVec 1) : Nat :=
  r.value.toNat * 2 ^ 192 + time % 2 ^ 64 * 2 ^ 128 + r.status.toNat * 2 ^ 96 + r.kind % 256 * 2 ^ 88 + r.tag.toNat * 2 ^ 64
    + r.ring.toNat * 2 ^ 32 + phase.toNat

/-- PHASE of the record with an index: it flips on each pass of the ring (R299, log 14). -/
def phaseOf (idx clog : Nat) : BitVec 1 := Config.firstPhase + BitVec.ofNat 1 (idx / 2 ^ clog)

/-- A record is written to its queue's completion ring at a PTP time, CIDX rises, and its interrupt and its HOSTI follow; a fault waits for
the host, and a PROT stops the queue (R295, R299, R300). No rule says what becomes of a HOSTI whose record finds its slot of the ring closed to it: the
model drops the record as it does every other, and that firing never completes (log 71). -/
def State.writeRecord (s : State) (time : Nat) (r : RecWait) : State :=
  let w := s.qword r.qcb 11
  let idx := (s.qcbWords r.qcb).getD 10 0
  let clog := (bits w 56 8).toNat
  if r.miss.any (s.faultPending (s.qDie r.qcb) (s.qAsid r.qcb)) then s.addRecord r
  else match s.vaCell (s.qRoot r.qcb) ((bits w 0 56).toNat + 32 * (idx.toNat % 2 ^ clog)) .write with
  | .error f =>
    if f.code = 0x10 then
      match s.askHost (s.qDie r.qcb) (s.qAsid r.qcb) f with
      | some t => t.addRecord { r with miss := some f.miss }
      | none => s.addRecord r
    else s.queueError r.qcb 7 r.ring.toNat f.va r.tag false
  | .ok c =>
    let s := { s with mem := { s.mem with dram := s.mem.dram.writeN (cellAt c) 32 (r.bytes time (phaseOf idx.toNat clog)),
                                          dramErr := s.mem.dramErr.filter (· != cellAt c / 32) } }
    let s := s.qcbWrite r.qcb [(10, idx + 1)]
    let s := match r.irq with | some n => s.raiseQ r.qcb n | none => s
    match r.firing with | some (i, k) => s.arrive i k 0 | none => s

/-- Every record that waits is tried, in order; one that must wait keeps those of its queue behind it. -/
def State.writeRecords (s : State) (time : Nat) : State :=
  s.cmd.records.foldl (fun s r =>
    if s.cmd.records.any (fun x => x.qcb == r.qcb) then s.addRecord r else s.writeRecord time r) (s.modCmd (fun c => { c with records := [] }))

end Sys2Proof.Machine
end

