-- ==== Sys2Proof/Machine/Launch.lean ====
section
/-!
DEFINITION. Launch.lean: region allocation, placement and its cache (R23, R303), the launch of a net instance (R25, R249, R274), LAUNCH,
NETLOAD, the time-triggered table (R301) and TAIL children (R45).
-/
namespace Sys2Proof.Machine

/-- The PTP time: the clock's base, the local oscillator's 0.625 ns per fc, and the slew, which is made within a second and goes no further: without
an edge the clock goes on by the local oscillator (R302). -/
def State.ptpNow (s : State) : Nat :=
  let ns := (s.now - s.ptp.at_) * 5 / 8
  ((s.ptp.base + ns : Int) + s.ptp.slew * (min ns 1000000000 : Nat) / 1000000000).toNat % 2 ^ 64

/-- What a launch asks for (R299): `via` is the table through which the net binary is read (R295). -/
structure LaunchReq where
  qcb      : Nat
  ring     : W32
  hdr      : PktHdr
  interval : Nat
  image    : Nat
  root     : Nat
  via      : Nat
  dmask    : BitVec 16
  ndm1     : BitVec 4
  level    : Nat
  asid     : BitVec 16
  origin   : Option Nat
  deriving DecidableEq, Repr

/-- How a launch ends: made, with whether a pre-emption has first to be accepted; waiting for tiles; a queue error; a fault. -/
inductive LaunchEnd where
  | made (s : State) (i : Nat) (waits : Bool)
  | wait
  | error (cls detail : Nat)
  | fault (f : VaFault)
  deriving DecidableEq, Repr

/-- The SECT objects of an image, with their STG. -/
def NetImg.sectObjs (v : NetImg) : List (Nat × Nat) :=
  v.objs.zipIdx.filterMap (fun x => if oKind x.1 = 1 then some (x.2, (bits x.1 8 8).toNat) else none)

/-- The words of the stage that each SECT object loads; none where STG is 0xFF. -/
def State.stageWords (s : State) (root : Nat) (v : NetImg) : List (Nat × Nat) → Except VaFault (List (Nat × List W128))
  | [] => .ok []
  | (n, g) :: l => do
    let w ← if g = 0xFF then Except.ok [] else s.fetchStage root v g
    let r ← s.stageWords root v l
    return (n, w) :: r

/-- The graph of a net as the placement cache's key knows it: the stages of its SECT objects (R303). -/
def graphOf (l : List (Nat × List W128)) : List W128 := l.flatMap (fun x => BitVec.ofNat 128 (x.1 * 2 ^ 64 + x.2.length) :: x.2)

/-- An ELEMID names an element of a die (R2, R14, R101). -/
def elemOk (die el : Nat) : Bool :=
  match elType el with
  | .ce | .mt => decide (elX el < 64) && decide (elY el < 32) && el == tileId die (elX el) (elY el)
  | .bn => decide (elX el < 64) && el == elemId .bn die (elX el) 0
  | .gw => portDie (elX el) == die && el == elemId .gw die (elX el) 0

/-- A tile lies in a section's rectangle. -/
def Section.covers (x : Section) (el : Nat) : Bool :=
  (elType el == .ce || elType el == .mt) && elDie el == x.die && decide (x.x0 ≤ elX el) && decide (elX el ≤ x.x1) && decide (x.y0 ≤ elY el)
    && decide (elY el ≤ x.y1)

/-- Two rectangles overlap. -/
def Section.meets (x y : Section) : Bool :=
  x.die == y.die && decide (x.x0 ≤ y.x1) && decide (y.x0 ≤ x.x1) && decide (x.y0 ≤ y.y1) && decide (y.y0 ≤ x.y1)

/-- A section is well formed by itself: a rectangle of one die's user grid with CE corners, its tiles in it, its base-die nodes and gateways on dies of
the region (R23). -/
def Section.ok (x : Section) (dies defects : List Nat) : Bool :=
  decide (x.x0 ≤ x.x1) && decide (x.x1 < 64) && decide (x.y0 ≤ x.y1) && decide (x.y1 < 32) && (x.x0 + x.y0) % 2 == 0 && (x.x1 + x.y1) % 2 == 0
  && x.nodes.vals.all (fun el => if elType el == .bn || elType el == .gw then elemOk (elDie el) el && dies.contains (elDie el)
                                 else elemOk x.die el && x.covers el)
  && !defects.any x.covers

/-- A placement of the stages of a net: its sections share no tile with one another or with another region (R23, R43, R49, R77, R303). -/
def placementOk (stages : List (Nat × List W128)) (dies defects avoid within : List Nat) (others : List Section) (t : Tab Section) : Bool :=
  let xs := t.vals
  t.keys == stages.map Prod.fst
  && xs.all (fun x => x.ok dies defects && dies.contains x.die)
  && noRepeats (xs.flatMap Section.elems) && (xs.flatMap Section.elems).all (fun el => !avoid.contains el && (within.isEmpty || within.contains el))
  && xs.zipIdx.all (fun a => xs.zipIdx.all (fun b => a.2 == b.2 || !a.1.meets b.1)) && xs.all (fun x => others.all (fun y => !x.meets y))
  && stages.all (fun a => a.2.isEmpty || (match t.find? a.1 with | some x => (stageBreaches x.nodes a.2).isEmpty | none => false))

/-- The sections of a placer's answer. -/
def placedAs (stages : List (Nat × List W128)) (l : List (Nat × Nat × Nat × Nat × Nat × List Nat)) : Tab Section :=
  (stages.zip l).foldl (fun (t : Tab Section) a =>
    let (die, x0, y0, x1, y1, els) := a.2
    t.put a.1.1 { Section.empty with die, x0, y0, x1, y1, nodes := (List.range els.length).zip els }) []

/-- The sections of every region but one. -/
def State.othersOf (s : State) (i : Option Nat) : List Section :=
  (List.filter (fun (x : Nat × Region) => some x.1 != i) s.regions).flatMap (fun x => x.2.sects.vals)

/-- A net as the placement cache knows it: wherever its binary lies. -/
def NetImg.graph (v : NetImg) : NetImg := { v with base := 0 }

/-- The bytes of a cache entry: the NSQ image and the stage images (R303). -/
def Placement.size (p : Placement) : Nat := 16 * (2 + netWords p.net.hdr0 p.net.hdr1 + p.img.length)

/-- Two entries have one key (R303). -/
def Placement.same (p q : Placement) : Bool := p.net == q.net && p.img == q.img && p.dies == q.dies && p.defects == q.defects && p.fw == q.fw

/-- Entries of the placement cache within its 64 MiB, the most recent first (R295, R303). -/
def cacheFit : Nat → List Placement → List Placement
  | _, [] => []
  | room, p :: l => if p.size ≤ room then p :: cacheFit (room - p.size) l else []

/-- The cache entry of a net placed on dies. -/
def State.entryOf (s : State) (v : NetImg) (stages : List (Nat × List W128)) (dies : List Nat) (t : Tab Section) : Placement :=
  { net := v.graph, img := graphOf stages, dies, defects := s.defects, fw := s.cmd.fwver, sects := t }

/-- A cached placement of a net on dies. -/
def State.cached (s : State) (v : NetImg) (stages : List (Nat × List W128)) (dies : List Nat) : Option Placement :=
  s.cmd.cache.find? (s.entryOf v stages dies []).same

/-- An entry becomes the cache's most recent one. -/
def State.cachePut (s : State) (p : Placement) : State :=
  s.modCmd (fun c => { c with cache := cacheFit (2 ^ 26) (p :: c.cache.filter (fun q => !p.same q)) })

/-- A placement of a net's stages with its NSQ image: the cached one where its tiles are free, or Markhor's, which enters the cache; none in direct
mode on a miss (R303, R306, log 10). `i` is the region whose tiles it may share. -/
def State.place (s : State) (v : NetImg) (stages : List (Nat × List W128)) (dies : List Nat) (i : Option Nat) : Option (Tab Section × NetImg × State) :=
  let key := graphOf stages
  let others := s.othersOf i
  let avoid := others.flatMap Section.elems
  let within : List Nat := match i.bind s.region with | some r => r.elems | none => []
  let fine := placementOk stages dies s.defects avoid within others
  match (s.cached v stages dies).filter (fun p => fine p.sects) with
  | some p => some (p.sects, { p.net with base := v.base }, s.cachePut p)
  | none =>
    if s.cmd.mode ≠ .normal then none
    else match Config.placer key dies (avoid ++ s.defects) within with
    | none => none
    | some l => let t := placedAs stages l
      if fine t then some (t, v, s.cachePut (s.entryOf v stages dies t)) else none

/-- The stages could be placed on dies that nothing else used (R300, class 5). -/
def State.placeable (s : State) (v : NetImg) (stages : List (Nat × List W128)) (dies : List Nat) : Bool :=
  (s.cached v stages dies).isSome
  || (s.cmd.mode == .normal && (match Config.placer (graphOf stages) dies s.defects [] with
    | some l => placementOk stages dies s.defects [] [] [] (placedAs stages l)
    | none => false))

/-- An NSQ that no instance holds, by die * 8 + n. -/
def State.freeNsq (s : State) (die : Nat) : Option Nat :=
  ((List.range 8).map (fun n => die * 8 + n)).find? (fun q => !s.insts.any (fun (x : Nat × Inst) => x.2.nsq == q))

/-- A die has a tile that no region and no defect takes. -/
def State.hasFreeTile (s : State) (die : Nat) : Bool :=
  let used := s.regions.vals.flatMap (fun r => r.sects.vals)
  (List.range 2048).any (fun k =>
    let el := tileId die (k % 64) (k / 64)
    !s.defects.contains el && !used.any (fun x => x.covers el))

/-- The dies that region allocation chooses, ascending; none where too few are free (R303). -/
def State.pickDies (s : State) (dmask : BitVec 16) (n : Nat) : Option (List Nat) :=
  let l := ((List.range 16).filter (fun d => dmask = 0 ∨ dmask.getLsbD d = true)).filter (fun d => (s.freeNsq d).isSome && s.hasFreeTile d)
  if n ≤ l.length then some (l.take n) else none

/-- The highest region-relative die that an image's PCHSET and WSIMG objects name. -/
def NetImg.topDie (v : NetImg) : Nat :=
  (v.objs.map (fun o => if oKind o = 3 then (bits o 8 4).toNat else if oKind o = 9 then (bits o 96 4).toNat else 0)).foldl max 0

/-- A WSW is writing a weight image that a net would read (R12, R203). -/
def State.wswTo (s : State) (v : NetImg) (dies : List Nat) : Bool :=
  s.insts.any (fun (x : Nat × Inst) => match s.region x.1 with
    | some r => x.2.slots.vals.any (fun f => f.code == 0x08 && (match f.stage with | .arrived _ => false | _ => true)
        && (match x.2.img.objs[f.tgt]? with
          | some q => v.objs.any (fun o => oKind o == 9 && o.getLsbD 8 && dies[(bits o 96 4).toNat]? == r.dies[(bits q 96 4).toNat]? && imagesMeet o q)
          | none => false))
    | none => false)

/-- The NBL leaves of a table tree (R220). -/
def State.nblLeaves (s : State) (level table : Nat) : Nat → List W64
  | 0 => []
  | left + 1 => (List.range 1024).flatMap (fun j =>
      let e := BitVec.ofNat 64 (s.paRead (table + 8 * j) 8)
      if !e.getLsbD 0 || pteMalformed level e then []
      else if e.getLsbD 4 then (if e.getLsbD 5 then [e] else [])
      else s.nblLeaves (level + 1) ((bits e 13 39).toNat * 8192) left)

/-- The PCH and row that an NBL leaf maps, and whether it allows writes: every leaf of a row must (R221, R249). -/
def leafRow (e : W64) : Nat × Nat × Bool :=
  let c := nblCell ((bits e 16 36).toNat * 65536)
  (c.1, c.2 / 65536, e.getLsbD 2)

/-- Maximal runs of consecutive rows of one WR, of rows in rising order (R249). -/
def rowRuns : Tab Bool → List (Nat × Nat × Bool)
  | [] => []
  | (r, w) :: t => match rowRuns t with
    | (f, l, v) :: rest => if f = r + 1 ∧ v = w then (r, l, w) :: rest else (r, r, w) :: (f, l, v) :: rest
    | [] => [(r, r, w)]

/-- A grant's word (R249). -/
def grantWord (asid : BitVec 16) (x : Nat × Nat × Bool) : W64 :=
  BitVec.ofNat 64 (asid.toNat * 2 ^ 48 + x.2.1 * 2 ^ 32 + x.1 * 2 ^ 16 + (if x.2.2 then 3 else 1))

/-- Grants written in ascending row order into those that no running region holds (R249). -/
def Pch.grant (p : Pch) (i : Nat) (asid : BitVec 16) : List (Nat × Nat × Bool) → Pch
  | [] => p
  | x :: l => match (List.range 8).find? (fun n => (p.owners.find? n).isNone) with
    | some n => Pch.grant { p with grants := p.grants.put n (grantWord asid x), owners := p.owners.put n i } i asid l
    | none => p

/-- The row grants of a region, formed from its NBL leaves at launch (R249). -/
def State.formGrants (s : State) (i root : Nat) (asid : BitVec 16) : State :=
  let rows := (s.nblLeaves 0 root 4).map leafRow
  ((rows.map Prod.fst).eraseDups).foldl (fun s p =>
    let t : Tab Bool := (rows.filter (fun x => x.1 == p)).foldl (fun (t : Tab Bool) x => t.put x.2.1 (x.2.2 && t.getD x.2.1 true)) []
    s.modPch p (fun q => q.grant i asid (rowRuns t))) s

/-- A new instance of an image: the initial marking, the registers NREGM names, a mirror for each mirror place (R25, R210, R340). -/
def newInst (nsq : Nat) (r : LaunchReq) (v : NetImg) : Inst :=
  { Inst.new nsq r.asid r.root v with
    count := v.places.zipIdx.map (fun x => (x.2, pInit x.1)), n := v.regs,
    mirrors := (v.places.zipIdx.filter (fun x => pKind x.1 == 3)).map (fun x =>
      (x.2, { seen := none, good := false, cell := none, busy := false, asked := false, fault := 0 })) }

/-- The generators of an image's GEN objects under a placement (R195). -/
def NetImg.genMap (v : NetImg) (t : Tab Section) : Tab (Nat × Nat) :=
  v.objs.zipIdx.filterMap (fun x =>
    if oKind x.1 = 2 then
      ((t.find? (bits x.1 32 8).toNat).bind (fun y => y.nodes.find? (bits x.1 8 16).toNat)).map (fun el => (x.2, el, (bits x.1 24 2).toNat))
    else none)

/-- The bytes of its scratchpad that a node asks for in a configuration slot: the most of the stages that the slot may hold. -/
def partNeed (l : List (Nat × StageImg)) (slot node : Nat) : Nat :=
  (l.map (fun x => if x.1 = slot then (match x.2.nodes[node]? with | some r => r.spsize | none => 0) else 0)).foldl max 0

/-- The stages that a section's configuration slots may hold, with the slot: what the launch loads into C0 or C1, and what the net's CFG actions load
(R199, R200). -/
def State.sectStages (s : State) (via : Nat) (v : NetImg) (stages : List (Nat × List W128)) (sid : Nat) : List (Nat × StageImg) :=
  (stages.filter (fun a => a.1 == sid)).filterMap (fun a => (parseStage a.2).map (fun g => (0, g)))
    ++ v.acts.filterMap (fun a =>
      if bits a 0 8 = 0x02 ∧ bits a 8 8 = BitVec.ofNat 8 sid then (s.stageAt via v (bits a 16 8).toNat).map (fun g => ((bits a 24 2).toNat, g)) else none)

/-- The partitions of an instance's stages kept in every memory tile of its sections, C0's or C1's and that of its C2, until it retires; none where a
tile has no room for them beside those of the contexts resident on it (R95, R217, log 10). -/
def State.keepAll (s : State) (i via : Nat) (v : NetImg) (stages : List (Nat × List W128)) (t : Tab Section) (base : Nat) : Option State :=
  t.foldl (fun (s? : Option State) (x : Nat × Section) =>
    let l := match s? with | some s => s.sectStages via v stages x.1 | none => []
    x.2.nodes.foldl (fun (s? : Option State) (n : Nat × Nat) =>
      let keep := fun (s : State) (k size : Nat) => if size = 0 then some s else ((s.elem n.2).keep i k size).map (s.setElem n.2)
      (s?.bind (fun s => keep s base (partNeed l 0 n.1))).bind (fun s => keep s (shadowSlot base) (partNeed l 2 n.1))) s?) (some s)

/-- The instance and its region come to be, with its stages in C0, or set aside until its pre-emption is accepted (R25, R288). Its trap dump lies
below the placement cache (R274, R295, log 23). An interval from 1 to 4,095 with DLD clear lies outside the range of R50, which names no effect for it: the
model's choice is to use it as it is given (log 48). -/
def State.create (s : State) (r : LaunchReq) (v : NetImg) (dies : List Nat) (t : Tab Section) (stages : List (Nat × List W128)) (nsq : Nat)
    (victim : Option Nat) : State × Nat :=
  let i := s.nextId
  let t : Tab Section := t.map (fun (x : Nat × Section) => (x.1, { x.2 with img := (stages.find? (fun a => a.1 == x.1 && !a.2.isEmpty)).map Prod.snd }))
  let reg : Region :=
    { dies, sects := t, gens := v.genMap t, interval := if r.hdr.dld then 65536 else r.interval, idle := 0, moved := false, traps := [],
      dump := 0xFF7000000 + 65536 * (2 * nsq + victim.isSome.toNat), holds := 0, bkpts := [], given := 0, frozen := false, badLoad := false,
      accepted := none, preempt := none, saved := victim.isSome, preempts := victim, later := [],
      level := r.level, qcb := r.qcb, ring := r.ring, hdr := r.hdr, dmask := r.dmask, ndm1 := r.ndm1, origin := r.origin.getD i }
  let s := { s with insts := s.insts.put i (newInst nsq r v), regions := s.regions.put i reg, nextId := i + 1 }
  let s := s.formGrants i r.root r.asid
  match victim with
  | some p => (s.modRegion p (fun x => { x with preempt := some i }), i)
  | none => (stages.foldl (fun s a => if a.2.isEmpty then s else s.install i a.1 a.2 false) s, i)

/-- A region that a launch with PRE may pre-empt: its queue's level is lower, it spans as many dies, and nothing pre-empts it or is pre-empted
by it (R298); the lowest level first, then the oldest (log 10). -/
def State.victims (s : State) (r : LaunchReq) : List (Nat × Region) :=
  let l := List.filter (fun (x : Nat × Region) => decide (s.levelOf x.2.qcb < r.level) && x.2.preempt.isNone && x.2.preempts.isNone && !x.2.saved
    && x.2.dies.length == r.ndm1.toNat + 1 && x.2.dies.all (fun d => r.dmask == 0 || r.dmask.getLsbD d)) s.regions
  (List.range 8).flatMap (fun n => l.filter (fun x => s.levelOf x.2.qcb == n))

/-- A launch by pre-emption: of the first region whose tiles the net fits (R298). It waits for a WSW that writes one of its weight images (R203); where
only room in the memory tiles is lacking it is not placed (R95). -/
def State.launchOver (s : State) (r : LaunchReq) (v : NetImg) (stages : List (Nat × List W128)) (lack : Bool) : List (Nat × Region) → LaunchEnd
  | [] => if lack then .error 5 0 else .wait
  | (p, x) :: l =>
    if s.wswTo v x.dies then .wait
    else match s.place v stages x.dies (some p) with
    | some (t, w, u) =>
      (match u.keepAll u.nextId r.via w stages t 1 with
      | some u =>
        let nsq := match s.inst p with | some n => n.nsq | none => 0
        let c := u.create r w x.dies t stages nsq (some p)
        .made c.1 c.2 true
      | none => s.launchOver r v stages true l)
    | none => s.launchOver r v stages lack l

/-- Region allocation and placement of a checked image (R23, R298, R303). -/
def State.allocate (s : State) (r : LaunchReq) (v : NetImg) (stages : List (Nat × List W128)) : LaunchEnd :=
  let pre := if r.hdr.pre then s.launchOver r v stages false (s.victims r) else .wait
  match s.pickDies r.dmask (r.ndm1.toNat + 1) with
  | none => pre
  | some dies =>
    if s.wswTo v dies then .wait
    else match s.place v stages dies none with
    | some (t, w, u) => (match (dies.filterMap u.freeNsq).head?, u.keepAll u.nextId r.via w stages t 0 with
      | some q, some u => let c := u.create r w dies t stages q none
        .made c.1 c.2 false
      | some _, none => .error 5 0
      | none, _ => pre)
    | none => if s.placeable v stages dies then pre else .error 5 0

/-- A launch: the image is fetched and checked, its stages fetched, its region allocated, placed and started (R213, R299, R300). -/
def State.tryLaunch (s : State) (r : LaunchReq) : LaunchEnd :=
  match s.fetchNet r.via r.image with
  | .error f => .fault f
  | .ok v =>
    match s.checkNet r.via v (s.qSys r.qcb) (decide (65536 ≤ r.qcb)) with
    | .error f => .fault f
    | .ok (some x) => if x.2.2 = 4 then .error 4 0 else .error 3 (errRecord x)
    | .ok none =>
      match s.stageWords r.via v v.sectObjs with
      | .error f => .fault f
      | .ok stages => if r.ndm1.toNat < v.topDie then .error 5 0 else s.allocate r v stages

/-- LAUNCH: launches a net instance; it completes when that leaves the launch stage, and the queue's level falls to its base (R298, R299).
A launch whose tiles are not free waits; one that pre-empts leaves once the pre-emption is accepted. -/
def execLaunch (p : PktHdr) (image root : W64) (interval : W32) (dmask : BitVec 16) (ndm1 : BitVec 4) (s : State) :
    Host.Outcome State Fault Refusal :=
  match s.focus with
  | .strip n =>
    match s.cmd.slots.find? n with
    | some h =>
      if h.stage = .launch then
        .next (match s.region h.mark with
          | some r => if r.saved && r.preempts.isSome then s else s.finishPacket n h p 0 0
          | none => s.finishPacket n h p 0 0)
      else atDispatch s (fun s n h =>
        let r : LaunchReq :=
          { qcb := h.qcb, ring := h.head, hdr := p, interval := interval.toNat, image := image.toNat, root := root.toNat, via := s.qRoot h.qcb,
            dmask, ndm1, level := h.cur, asid := s.qAsid h.qcb, origin := none }
        match s.tryLaunch r with
        | .fault f => s.slotFault n h f
        | .error c d => s.queueError h.qcb c h.head.toNat d h.tag true
        | .wait => s.modHw n (fun h => { h with since := s.now + 1 })
        | .made t i w =>
          let t := t.modHw n (fun h => { h with cur := qBase (h.rw.getD 7 0) })
          if w then t.modHw n (fun h => { h with stage := .launch, mark := i }) else t.finishPacket n h p 0 0)
    | none => .next s
  | _ => .next s

/-- NETLOAD: checks the image and puts its placement into the cache, for as many dies as it names (R299, R303). -/
def execNetload (p : PktHdr) (image : W64) (s : State) : Host.Outcome State Fault Refusal :=
  atDispatch s (fun s n h =>
    let via := s.qRoot h.qcb
    let fail := fun c d => s.queueError h.qcb c h.head.toNat d h.tag true
    match s.fetchNet via image.toNat with
    | .error f => s.slotFault n h f
    | .ok v =>
      match s.checkNet via v (s.qSys h.qcb) (decide (65536 ≤ h.qcb)) with
      | .error f => s.slotFault n h f
      | .ok (some x) => if x.2.2 = 4 then fail 4 0 else fail 3 (errRecord x)
      | .ok none =>
        match s.stageWords via v v.sectObjs with
        | .error f => s.slotFault n h f
        | .ok stages =>
          let dies := (s.pickDies 0 (v.topDie + 1)).getD (List.range (v.topDie + 1))
          match s.cached v stages dies with
          | some c => (s.cachePut c).finishPacket n h p 0 0
          | none =>
          match s.place v stages dies none with
          | some (_, _, t) => t.finishPacket n h p 0 0
          | none => if s.placeable v stages dies then s.modHw n (fun h => { h with since := s.now + 1 }) else fail 5 0)

/-! ## The time-triggered table -/

/-- The first slot of an entry at or after a time (R301). -/
def slotAfter (start period now : Nat) : Nat := if now ≤ start then start else start + (now - start + period - 1) / period * period

/-- TIMED: writes or removes an entry; what it writes holds from the entry's next slot, so that a running instance and a launch that waits from a past
slot are not touched (R301, log 48). -/
def execTimed (p : PktHdr) (entry : BitVec 8) (rule : BitVec 2) (valid : Bool) (period start image root : W64) (s : State) :
    Host.Outcome State Fault Refusal :=
  atDispatch s (fun s n h =>
    let k := entry.toNat
    let old := s.cmd.tt.find? k
    let e : TtEntry :=
      { rule := rule.toNat, period := period.toNat, start := start.toNat, next := slotAfter start.toNat period.toNat s.ptpNow,
        job := { image, root, qcb := h.qcb, hdr := p, ring := h.head }, skips := match old with | some o => o.skips | none => 0,
        queued := old.bind (fun o => o.queued), inst := old.bind (fun o => o.inst), miss := old.bind (fun o => o.miss) }
    (s.modCmd (fun c => { c with tt := if valid then c.tt.put k e else c.tt.drop k })).finishPacket n h p 0 0)

/-- The entry's previous instance still runs. -/
def State.ttRuns (s : State) (e : TtEntry) : Bool := e.inst.any (fun i => (s.inst i).isSome)

/-- An entry launches an image as a LAUNCH from its queue; where it cannot yet, one launch waits (R301). -/
def State.ttLaunch (s : State) (k : Nat) (e : TtEntry) (j : TtJob) : State :=
  let set := fun (s : State) (f : TtEntry → TtEntry) => s.modCmd (fun c => { c with tt := c.tt.put k (f e) })
  let r : LaunchReq :=
    { qcb := j.qcb, ring := j.ring, hdr := j.hdr, interval := 65536, image := j.image.toNat, root := j.root.toNat,
      via := s.qRoot j.qcb, dmask := 0, ndm1 := 0, level := s.levelOf j.qcb, asid := s.qAsid j.qcb, origin := none }
  let ended := fun (e : TtEntry) => { e with queued := none, miss := none }
  match s.tryLaunch r with
  | .made t i _ => set t (fun e => { ended e with inst := some i })
  | .wait => set s (fun e => { e with queued := some j })
  | .error c d => (set s ended).queueError j.qcb c j.ring.toNat d j.hdr.tag true
  | .fault f =>
    if f.code = 0x10 then
      match s.askHost (s.qDie j.qcb) (s.qAsid j.qcb) f with
      | some t => set t (fun e => { e with queued := some j, miss := some f.miss })
      | none => set s (fun e => { e with queued := some j })
    else (set s ended).queueError j.qcb 7 j.ring.toNat f.va j.hdr.tag true

/-- The launch of a slot with PRE set (R301, PREEMPT). -/
def TtJob.preempting (j : TtJob) : TtJob := { j with hdr := { j.hdr with pre := true } }

/-- An entry's waiting launch may be made: its instance has retired, its queue goes on, no fault of its image stands. -/
def State.ttMay (s : State) (e : TtEntry) (j : TtJob) : Bool :=
  s.cmd.mode == .normal && !s.ttRuns e && (s.cmd.errs.find? j.qcb).isNone && !e.miss.any (s.faultPending (s.qDie j.qcb) (s.qAsid j.qcb))

/-- TT_SLOT: a slot of an entry arrives, or its waiting launch is made (R301). -/
def execTtSlot (s : State) : Host.Outcome State Fault Refusal :=
  match s.focus with
  | .event (.ttSlot k) =>
    match s.cmd.tt.find? k with
    | none => .next s
    | some e =>
      if e.next ≤ s.ptpNow then
        let e := { e with next := e.next + e.period }
        let put := fun (f : TtEntry → TtEntry) => s.modCmd (fun c => { c with tt := c.tt.put k (f e) })
        if s.cmd.mode ≠ .normal then .next (put id)
        else if e.queued.isSome = true ∨ (s.cmd.errs.find? e.job.qcb).isSome = true then .next (put (fun e => { e with skips := e.skips + 1 }))
        else if s.ttRuns e then
          (if e.rule = 0 then .next (put (fun e => { e with skips := e.skips + 1 }))
           else if e.rule = 1 then .next (put (fun e => { e with queued := some e.job }))
           else .next ((put id).ttLaunch k e e.job.preempting))
        else .next ((put id).ttLaunch k e e.job)
      else match e.queued with
      | some j => if s.ttMay e j then .next (s.ttLaunch k e j) else .next s
      | none => .next s
  | _ => .next s

/-! ## TAIL children -/

/-- A child may be launched: its parent's stores have performed at MOD scope, its queue goes on, no fault of its image stands (R45); in direct mode the
strip serves the queues that MAP has mapped alone (R306). -/
def State.childMay (s : State) (i : Nat) (c : Child) : Bool :=
  let served := match (s.slotOf c.qcb).bind s.cmd.slots.find? with | some h => s.serves h | none => s.cmd.mode == .normal
  (s.inst i).isNone && served && (s.cmd.errs.find? c.qcb).isNone && !s.pendingAt 4 true (fun a => a.inst == i)
  && !c.miss.any (s.faultPending (s.qDie c.qcb) c.asid)

/-- TAIL_CHILD_LAUNCH: the child takes its parent's place in the queue, with the parent's LAUNCH parameters (R45). -/
def execTailChildLaunch (s : State) : Host.Outcome State Fault Refusal :=
  match s.focus with
  | .event (.tailChildLaunch i) =>
    match s.cmd.children.find? i with
    | none => .next s
    | some c =>
      if s.childMay i c then
        let r : LaunchReq :=
          { qcb := c.qcb, ring := c.ring, hdr := c.hdr, interval := c.interval, image := c.va.toNat, root := c.root, via := c.root,
            dmask := c.dmask, ndm1 := c.ndm1, level := s.levelOf c.qcb, asid := s.qAsid c.qcb, origin := some c.origin }
        let gone := fun (s : State) => s.modCmd (fun d => { d with children := d.children.drop i })
        let fail := fun cls d => (gone s).queueError c.qcb cls c.ring.toNat d c.hdr.tag true
        match s.tryLaunch r with
        | .wait => .next s
        | .error cls d => .next (if cls = 4 then fail 3 (errRecord (0, 0, 4)) else fail cls d)
        | .fault f =>
          if f.code = 0x10 then
            (match s.askHost (s.qDie c.qcb) c.asid f with
            | some t => .next (t.modCmd (fun d => { d with children := d.children.put i { c with miss := some f.miss } }))
            | none => .next s)
          else .next (fail 7 f.va)
        | .made t _ _ =>
          let t := (gone t).setLevel c.qcb (qBase (t.qword c.qcb 7))
          let t := if c.hdr.cmpl then
              t.addRecord { qcb := c.qcb, value := 0, status := 0, kind := 0, tag := c.hdr.tag, ring := c.ring, irq := if c.hdr.irq then some 0 else none,
                            firing := none, miss := none }
            else if c.hdr.irq then t.raiseQ c.qcb 0 else t
          .next t
      else .next s
  | _ => .next s

end Sys2Proof.Machine
end

