-- ==== Sys2Proof/Machine/Clock.lean ====
section
/-!
DEFINITION. Clock.lean: the PTP clock (R302), Markhor's heartbeat check and the watchdog (R305, R329).
-/
namespace Sys2Proof.Machine

/-- The clock continues from a value with a slew. -/
def State.clockAt (s : State) (v : Nat) (slew : Int) : State := { s with ptp := { s.ptp with base := v, at_ := s.now, slew } }

/-- A slew of at most 1 us per second (R302). -/
def slewOf (off : Int) : Int := max (-1000) (min 1000 off)

/-- PPS_EDGE: the clock takes the written time, or slews toward the previous second plus 10^9 ns; one that was never set counts on from reset and is
only held against its edges (R302). -/
def execPpsEdge (s : State) : Host.Outcome State Fault Refusal :=
  match s.focus with
  | .event .ppsEdge =>
    let p := s.ptp
    let now := s.ptpNow
    if p.setp then
      let s := s.clockAt p.setv.toNat 0
      .next { s with ptp := { s.ptp with setp := false, valid := true, sec := p.setv.toNat, edge := some s.now, good := true, lock := p.good } }
    else match p.edge with
    | none => .next { s with ptp := { p with sec := now, edge := some s.now, good := true, lock := false } }
    | some _ =>
      let off : Int := (p.sec + 1000000000 : Int) - now
      let good := decide (off.natAbs ≤ 1000)
      let s := if p.valid then s.clockAt now (slewOf off) else s
      .next { s with ptp := { s.ptp with sec := if p.valid then p.sec + 1000000000 else now, edge := some s.now, good, lock := p.good && good,
                                         miss := if good then p.miss else satInc p.miss } }
  | _ => .next s

/-- PPS_LOSS: no edge has come for 2 s: LOCK clears and an edge is counted missed (R302). -/
def execPpsLoss (s : State) : Host.Outcome State Fault Refusal :=
  match s.focus with
  | .event .ppsLoss =>
    match s.ptp.edge with
    | some t =>
      if t + 3200000000 ≤ s.now then
        .next { s with ptp := { s.ptp with lock := false, good := false, miss := satInc s.ptp.miss, edge := some (t + 1600000000),
                                           sec := s.ptp.sec + 1000000000 } }
      else .next s
    | none => .next s
  | _ => .next s

/-- PTPSET: the host writes the PTP time of the next edge (R302). -/
def execPtpset (s : State) : Host.Outcome State Fault Refusal :=
  match s.focus with
  | .event (.ptpset v) => .next { s with ptp := { s.ptp with setv := v, setp := true } }
  | _ => .next s

/-- Scheduling freezes and the management vector is raised (R305). -/
def State.freeze (s : State) : State := (s.modCmd (fun c => { c with mode := if c.mode = .normal then .frozen else c.mode })).raiseMsi 0

/-- HEARTBEAT_CHECK: Markhor looks for the strip's token; without it scheduling freezes (R305). -/
def execHeartbeatCheck (s : State) : Host.Outcome State Fault Refusal :=
  match s.focus with
  | .event (.heartbeatCheck ok) =>
    if s.cmd.mode ≠ .normal then .next s
    else .next (if ok then s.modCmd (fun c => { c with heart := s.now }) else s.freeze)
  | _ => .next s

/-- WATCHDOG: WDPET has not been written for 10 ms, Markhor has stopped: a record for every region, and scheduling freezes; a change of a QCB that it
had begun stays where it was, with SEQ odd (R272, R296, R305). -/
def execWatchdog (s : State) : Host.Outcome State Fault Refusal :=
  match s.focus with
  | .event .watchdog =>
    if s.bar.phase = 5 ∧ s.cmd.dogFired = false ∧ s.cmd.dog + 16000000 ≤ s.now then
      let s := s.regions.keys.foldl (fun s i => s.trapNote i { code := 0x22, cause := 0, info := 0 } 5 0 0 0 (s.nsqElem i) 0) s
      .next (s.modCmd (fun c => { c with dogFired := true, qcbs := [] })).freeze
    else .next s
  | _ => .next s

/-- WDPET: a write by Markhor restarts the watchdog; a host write is ignored (R329). -/
def execWdpet (s : State) : Host.Outcome State Fault Refusal :=
  match s.focus with
  | .event (.wdpet byMarkhor) => .next (if byMarkhor then s.modCmd (fun c => { c with dog := s.now }) else s)
  | _ => .next s

end Sys2Proof.Machine
end

