-- ==== Sys2Proof/Machine/Collective.lean ====
section
/-!
DEFINITION. Collective.lean: collective instances (R316-R322, R343): the COLL actions, binding, steps, pause, abort, and re-keying
(R313-R315).
-/
namespace Sys2Proof.Machine

/-- The circuits of a gateway that serve an instance: those of its own context, running or suspended, by number, and C2's behind them from 64 on. Both
keep their state while the other is in force (R323). -/
def Elem.circsFor (e : Elem) (i : Nat) : Tab GwCircuit :=
  let own := if e.inC2 i then none else if e.ctx.inst = some i then some e.ctx.gw.circs else none
  (own.getD (match List.find? (fun (x : Nat × Ctx) => x.2.inst == some i) e.saved with | some (_, c) => c.gw.circs | none => []))
    ++ (if e.inC2 i then e.ctx.gw.circs else e.shadowGw.getD i []).map (fun (x : Nat × GwCircuit) => (64 + x.1, x.2))

/-- The circuits of `circsFor` changed, each by its number there. -/
def Elem.modCircs (e : Elem) (i : Nat) (f : Nat → GwCircuit → GwCircuit) : Elem :=
  let upd := fun (o : Nat) (t : Tab GwCircuit) => t.map (fun (x : Nat × GwCircuit) => (x.1, f (o + x.1) x.2))
  let own := fun (o : Nat) (c : Ctx) => if c.inst = some i then { c with gw := { c.gw with circs := upd o c.gw.circs } } else c
  { e with ctx := own (if e.inC2 i then 64 else 0) e.ctx, saved := e.saved.map (fun (x : Nat × Ctx) => (x.1, own 0 x.2)),
           shadowGw := if e.inC2 i then e.shadowGw else e.shadowGw.map (fun (x : Nat × Tab GwCircuit) => if x.1 = i then (i, upd 64 x.2) else x) }

/-- The circuits of a gateway that serve an instance, changed. -/
def State.modCircs (s : State) (el i : Nat) (f : Nat → GwCircuit → GwCircuit) : State := s.modElem el (fun e => e.modCircs i f)

/-- The gateways of an instance's region. -/
def State.gwsOf (s : State) (i : Nat) : List Nat :=
  match s.region i with | some r => r.elems.filter (fun el => elType el == .gw) | none => []

/-- The circuits of a COLL object of an instance, by gateway and number there (R317). -/
def State.circsOfColl (s : State) (i obj : Nat) : List (Nat × Nat × GwCircuit) :=
  (s.gwsOf i).flatMap (fun el => (List.filter (fun (x : Nat × GwCircuit) => x.2.coll == obj) ((s.elem el).circsFor i)).map (fun x => (el, x.1, x.2)))

/-- Every circuit of a COLL object changed. -/
def State.modColCircs (s : State) (i obj : Nat) (f : GwCircuit → GwCircuit) : State :=
  (s.gwsOf i).foldl (fun s el => s.modCircs el i (fun _ g => if g.coll = obj then f g else g)) s

/-- The collective instance of an object of an instance, with its key. -/
def State.collOf (s : State) (i obj : Nat) : Option (Nat × Coll) := List.find? (fun (x : Nat × Coll) => x.2.inst == i && x.2.obj == obj) s.colls

/-- What a rank announces of its circuits, in order (R319). -/
def circsTold (l : List (Nat × Nat × GwCircuit)) : List (Bool × Nat × Nat) := l.map (fun x => (x.2.2.recv, x.2.2.peerOff, x.2.2.perStep))

/-- This rank's own announcement. -/
def State.ownAnnounce (s : State) (v : Coll) : Announce :=
  let l := circsTold (s.circsOfColl v.inst v.obj)
  { dev := s.dom.self.toNat, gid := v.gid, rank := v.rank, ranks := v.ranks, circs := l, total := l.length }

/-- The word of an announcement's control packets (R319, log 11). -/
def Announce.word (a : Announce) : W128 := ctlWord .bind (a.rank % 64 + 64 * (a.ranks % 128)) (a.gid.toNat + 2 ^ 64 * a.total)
/-- A circuit in 23 bits: its direction, peer offset and t. -/
def circBits (c : Bool × Nat × Nat) : Nat := (if c.1 then 1 else 0) + 2 * (c.2.1 % 64) + 128 * (c.2.2 % 65536)
/-- The tokens that tell an announcement's circuits, eleven in each (log 11). -/
def Announce.toks (a : Announce) : List Token :=
  (pieces 11 a.circs).map (fun l => { ct := .data, ft := 0, data := BitVec.ofNat 256 (packNat 23 (l.map circBits)) })
/-- The payloads of an announcement's packets: with the word's, eight tokens at most in each (R312), and one packet where there is no circuit to tell. -/
def Announce.payloads (a : Announce) : List (List Token) := if a.circs.isEmpty then [[]] else pieces 7 a.toks
/-- The announcement, or the part of one, that a packet tells. -/
def announceOf (p : Packet) : Announce :=
  let total := (bits p.word 88 40).toNat
  { dev := p.src.toNat, gid := bits p.word 24 64, rank := (bits p.word 8 6).toNat, ranks := (bits p.word 14 7).toNat, total,
    circs := (p.payload.flatMap (fun t => (List.range 11).map (fun j =>
      (t.data.getLsbD (23 * j), (bits t.data (23 * j + 1) 6).toNat, (bits t.data (23 * j + 7) 16).toNat)))).take total }

/-- An announcement joins those heard: it goes on with one of its rank that is not yet whole, or takes the place of an earlier one (R319). -/
def Domain.hear (d : Domain) (n : Announce) : Domain :=
  let mine := fun (h : Announce) => h.dev == n.dev && h.gid == n.gid
  let n := match d.heard.find? (fun h => mine h && decide (h.circs.length < h.total)) with
    | some h => { h with circs := (h.circs ++ n.circs).take h.total }
    | none => n
  { d with heard := d.heard.filter (fun h => !mine h) ++ [n] }

/-- The other members of the domain. -/
def State.others (s : State) : List Nat := s.dom.members.filter (fun d => d != s.dom.self.toNat)

/-- A bind fails: its firing completes with outcome 1 and there is no instance (R319). -/
def State.failBind (s : State) (c : Nat) (v : Coll) : State :=
  let s := match v.slot with | some k => s.arrive v.inst k 1 | none => s
  { s with colls := s.colls.drop c }

/-- The rank a circuit of a rank names as its peer (R319). -/
def peerRank (rank off ranks : Nat) : Nat := (rank + off) % ranks

/-- The send circuits of one rank that go to another, or its recv circuits from it. -/
def Announce.between (a : Announce) (recv : Bool) (q : Nat) : List (Bool × Nat × Nat) :=
  a.circs.filter (fun c => c.1 == recv && peerRank a.rank c.2.1 a.ranks == q)

/-- Every send circuit has its recv circuit at its peer with the same t, and the reverse (R319). -/
def circsMatch (l : List Announce) : Bool :=
  l.all (fun a => l.all (fun b => (a.between false b.rank).map (fun c => c.2.2) == (b.between true a.rank).map (fun c => c.2.2)))

/-- CIRC of the k-th circuit of a pair, by the sending rank (R319). -/
def collCirc (k rank : Nat) : Nat := 0x0100 + 64 * (k + 1) + rank

/-- The circuits of an instance as its binding numbers them: under a switch all that send, and all that receive, count together and go to
the switch (R319, log 11). -/
def State.bindCircs (s : State) (c : Nat) (v : Coll) (switch : Bool) (devs : Tab Nat) : State :=
  let l := s.circsOfColl v.inst v.obj
  l.zipIdx.foldl (fun s x =>
    let (el, n, g) := x.1
    let q := peerRank v.rank g.peerOff v.ranks
    let k := ((l.take x.2).filter (fun y => y.2.2.recv == g.recv && (switch || peerRank v.rank y.2.2.peerOff v.ranks == q))).length
    let from_ := if g.recv && !switch then q else v.rank
    s.modCircs el v.inst (fun m g => if m = n then
        { g with bound := some c, peer := if switch then 1023 else devs.getD q 0, circ := collCirc k from_, credits := 0, got := [], sent := 0,
                 total := 0, acks := 0, owed := [] }
      else g)) s

/-- A bind completes: the circuits are numbered and COLLST shows the instance (R318, R319). -/
def State.finishBind (s : State) (c : Nat) (v : Coll) (alg : Nat) (lease : BitVec 16) : State :=
  let all := s.ownAnnounce v :: s.heardOf v.gid
  let devs : Tab Nat := all.foldl (fun (t : Tab Nat) a => t.put a.rank a.dev) []
  let s := s.bindCircs c v (alg == 3) devs
  let s := match v.slot with | some k => s.arrive v.inst k 0 | none => s
  (s.modDom (fun d => { d with heard := d.heard.filter (fun a => a.gid != v.gid) })).modColl c (fun v =>
    { v with stage := .bound, bound := alg, slot := none, timer := none, ranksAt := devs, lease, held := alg == 3, asked := false })

/-- A ring binds where its circuits match (R319). -/
def State.bindRing (s : State) (c : Nat) (v : Coll) (alg : Nat) : State :=
  if circsMatch (s.ownAnnounce v :: s.heardOf v.gid) then s.finishBind c v alg 0 else s.failBind c v

/-- The switch has denied a reduction slot, or none has answered: ALG 0 binds a ring, ALG 3 fails (R319). -/
def State.denySwitch (s : State) (c : Nat) (v : Coll) : State := if v.alg = 0 then s.bindRing c v 1 else s.failBind c v

/-- The switch is asked for a reduction slot: the request leaves at rank 0 (R319, log 11). -/
def State.askSwitch (s : State) (c : Nat) (v : Coll) : State :=
  let s := s.modColl c (fun v => { v with asked := true })
  if v.rank = 0 then s.post 1023 [] (ctlWord .bind (64 * (v.ranks % 128)) v.gid.toNat) else s

/-- A binding instance looks at the announcements: a duplicated rank or a mismatched count fails, and once every rank has announced it binds,
or the switch is asked (R319). -/
def State.tryBind (s : State) (c : Nat) : State :=
  match s.colls.find? c with
  | none => s
  | some v =>
    if v.stage ≠ .binding ∨ v.asked = true then s
    else
      let all := s.ownAnnounce v :: s.heardOf v.gid
      if all.any (fun a => a.ranks != v.ranks) || !noRepeats (all.map (fun a => a.rank)) then s.failBind c v
      else if (List.range v.ranks).all (fun r => all.any (fun a => a.rank == r)) then
        (if v.alg = 0 ∨ v.alg = 3 then s.askSwitch c v else s.bindRing c v v.alg)
      else s

/-- COLL.bind: the instance starts and announces itself; an object without a valid rank or row, or with an instance not yet ended, fails
with outcome 1 (R318, R319, R324). -/
def execCollBind (tgt : BitVec 8) (s : State) : Host.Outcome State Fault Refusal :=
  atStart s (fun s i k v _ =>
    match v.img.objs[tgt.toNat]? with
    | none => s.arrive i k 1
    | some o =>
      let n := (bits o 40 6).toNat + 1
      let rank := (bits o 32 6).toNat
      let alg := (bits o 24 2).toNat
      if n < 2 ∨ n ≤ rank ∨ (alg = 2 ∧ n % ((bits o 46 6).toNat + 1) ≠ 0) ∨ (s.collOf i tgt.toNat).isSome = true then s.arrive i k 1
      else
        let c := s.nextId
        let new : Coll :=
          { inst := i, obj := tgt.toNat, num := (bits o 8 16).toNat, gid := bits o 128 64, rank, ranks := n, alg, bound := 0, stage := .binding,
            slot := some k, step := 0, steps := 0, tstep := (bits o 64 32).toNat, timer := some (bits o 64 32).toNat, ranksAt := [], paused := false,
            pausedBy := [], lease := 0, held := false, atBar := [], asked := false, used := 0 }
        let s := { s with colls := s.colls.put c new, nextId := c + 1 }
        let a := s.ownAnnounce new
        (s.others.foldl (fun s d => a.payloads.foldl (fun s l => s.post d l a.word) s) s).tryBind c)

/-- A step begins: each send circuit gets its t credits, and the step timer runs (R318). -/
def State.beginStep (s : State) (i k c step : Nat) (v : Coll) : State :=
  let s := s.modColCircs i v.obj (fun g => if g.recv then g else { g with credits := g.credits + g.perStep })
  s.modColl c (fun v => { v with slot := some k, step, steps := v.steps + 1, timer := some v.tstep })

/-- COLL.step: admits each circuit's tokens; outcome 1 where the object's instance is not bound, and at once 0 for a later step under a
switch (R318). A step behind another of its instance waits. -/
def execCollStep (tgt : BitVec 8) (k : W32) (s : State) : Host.Outcome State Fault Refusal :=
  atStart s (fun s i slot _ _ =>
    match s.collOf i tgt.toNat with
    | some (c, v) =>
      if v.stage ≠ .bound then s.arrive i slot 1
      else if v.bound = 3 ∧ v.steps ≠ 0 then s.arrive i slot 0
      else if v.slot.isSome then s
      else (s.beginStep i slot c k.toNat v).modSlot i slot (fun f => { f with left := true })
    | none => s.arrive i slot 1)

/-- The steps of an instance that ends, in flight or waiting behind another, complete with outcome 1, as steps on an instance that is not bound (R318,
log 72). -/
def State.endSteps (s : State) (v : Coll) : State :=
  let s := match v.slot with | some k => s.arrive v.inst k 1 | none => s
  match s.inst v.inst with
  | some n => n.slots.foldl (fun s (x : Nat × FSlot) =>
      if x.2.code == 0x0F && x.2.stage == .going && bits x.2.act 16 2 == 1 && x.2.tgt == v.obj && !x.2.left then s.arrive v.inst x.1 1 else s) s
  | none => s

/-- COLL.end: releases the slot and unbinds the circuits of a bound or aborted instance: they receive no more, and its steps end (R318). -/
def execCollEnd (tgt : BitVec 8) (s : State) : Host.Outcome State Fault Refusal :=
  atStart s (fun s i slot _ _ =>
    match s.collOf i tgt.toNat with
    | some (c, v) =>
      if v.stage = .binding then s.arrive i slot 1
      else
        let s := (s.modColCircs i v.obj (fun g => { g with credits := 0, got := [], owed := [] })).endSteps v
        ({ s with colls := s.colls.drop c }).arrive i slot 0
    | none => s.arrive i slot 1)

/-- A circuit has carried the tokens of the steps begun, and their acknowledgements are in (R318). -/
def GwCircuit.through (g : GwCircuit) (steps : Nat) : Bool :=
  if g.recv then decide (steps * g.perStep ≤ g.total) else decide (steps * g.perStep ≤ g.sent) && decide (steps * g.perStep ≤ g.acks)

/-- A step in flight is done once every circuit is through; a step that waited behind another begins (R318). -/
def State.advanceColl (s : State) (c : Nat) (v : Coll) : State :=
  let s := match v.stage, v.slot with
    | .bound, some k =>
      if (s.circsOfColl v.inst v.obj).all (fun x => x.2.2.through v.steps) then
        (s.arrive v.inst k 0).modColl c (fun v => { v with slot := none, timer := none })
      else s
    | _, _ => s
  match s.colls.find? c, s.inst v.inst with
  | some v, some n =>
    if v.slot.isSome then s
    else match List.find? (fun (x : Nat × FSlot) => x.2.code == 0x0F && x.2.stage == .going && bits x.2.act 16 2 == 1 && x.2.tgt == v.obj && !x.2.left) n.slots with
    | some (k, f) =>
      if v.stage = .bound then (s.beginStep v.inst k c (bits f.act 32 32).toNat v).modSlot v.inst k (fun f => { f with left := true })
      else s.arrive v.inst k 1
    | none => s
  | _, _ => s

/-- Every collective instance goes on by an fc: its timer runs unless it is paused or a re-keying holds it, and its lease only while it is
paused (R314, R318, R321). -/
def State.tickColls (s : State) : State :=
  s.colls.keys.foldl (fun s c => match s.colls.find? c with
    | some v =>
      let s := s.modColl c (fun v =>
        { v with timer := if v.isPaused || s.dom.rkey.isSome then v.timer else v.timer.map (fun t => t - 1),
                 used := if v.isPaused && v.held then v.used + 1 else v.used })
      s.advanceColl c v
    | none => s) s

/-- STEP_TIMEOUT: a step has not been done within TSTEP: outcome 1, and the instance aborts (R318, R343). -/
def execStepTimeout (s : State) : Host.Outcome State Fault Refusal :=
  match s.focus with
  | .event (.stepTimeout c) =>
    match s.colls.find? c with
    | some v => if v.stage = .bound ∧ v.timer = some 0 ∧ v.slot.isSome = true then .next (s.abortColl c 1 true) else .next s
    | none => .next s
  | _ => .next s

/-- BIND_TIMEOUT: the announcements have not come within TSTEP: outcome 1; where they have and no switch has answered by then, the request is denied
(R319, log 72). -/
def execBindTimeout (s : State) : Host.Outcome State Fault Refusal :=
  match s.focus with
  | .event (.bindTimeout c) =>
    match s.colls.find? c with
    | some v => if v.stage = .binding ∧ v.timer = some 0 then .next (if v.asked then s.denySwitch c v else s.failBind c v) else .next s
    | none => .next s
  | _ => .next s

/-- SWITCH_RESPONSE: a grant binds the switch with its lease; a denial binds a ring under ALG 0 and fails under ALG 3 (R319). -/
def execSwitchResponse (s : State) : Host.Outcome State Fault Refusal :=
  match s.focus with
  | .event (.switchResponse c answer) =>
    match s.colls.find? c with
    | some v =>
      if v.stage ≠ .binding ∨ v.asked = false then .next s
      else match answer with
      | .grant lease => .next (s.finishBind c v 3 lease)
      | .deny => .next (s.denySwitch c v)
    | none => .next s
  | _ => .next s

/-- PAUSE_RECEIVE: a peer has paused the instance: CSTAT.PAUSE is set and the timers stop (R321). -/
def execPauseReceive (s : State) : Host.Outcome State Fault Refusal :=
  match s.focus with
  | .event (.pauseReceive c peer) =>
    .next (s.modColl c (fun v => { v with pausedBy := if v.pausedBy.contains peer then v.pausedBy else v.pausedBy ++ [peer] }))
  | _ => .next s

/-- COLL_RESUME_RECEIVE: the peer goes on, and so does each timer from the value it held (R321). -/
def execCollResumeReceive (s : State) : Host.Outcome State Fault Refusal :=
  match s.focus with
  | .event (.collResumeReceive c peer) => .next (s.modColl c (fun v => { v with pausedBy := v.pausedBy.filter (· != peer) }))
  | _ => .next s

/-- ABORT_RECEIVE: the rank completes its COLL in flight with the outcome and its instance is aborted (R343). -/
def execAbortReceive (s : State) : Host.Outcome State Fault Refusal :=
  match s.focus with
  | .event (.abortReceive c outcome) => .next (s.abortColl c outcome.toNat false)
  | _ => .next s

/-- LEASE_EXPIRE: a switch instance has been paused for its lease, and the switch aborts it (R321). -/
def execLeaseExpire (s : State) : Host.Outcome State Fault Refusal :=
  match s.focus with
  | .event (.leaseExpire c) =>
    match s.colls.find? c with
    | some v => if v.held ∧ v.isPaused = true ∧ v.lease.toNat * 1024 ≤ v.used then .next (s.abortColl c 1 false) else .next s
    | none => .next s
  | _ => .next s

/-- BARRIER_RECEIVE: a peer's BARRIER for a key generation, or a rank's arrival at CBAR (R190, R314). -/
def execBarrierReceive (s : State) : Host.Outcome State Fault Refusal :=
  match s.focus with
  | .event (.barrierReceive peer what) =>
    match what with
    | .rekey g => .next (s.modDom (fun d => { d with bars := if d.bars.contains (peer, g) then d.bars else d.bars ++ [(peer, g)] }))
    | .coll c => .next (s.modColl c (fun v => match List.find? (fun (x : Nat × Nat) => x.2 == peer) v.ranksAt with
        | some (r, _) => if v.atBar.contains r then v else { v with atBar := v.atBar ++ [r] }
        | none => v))
  | _ => .next s

/-- A region frozen or set aside holds its acknowledgements back (R325). -/
def State.acksHeld (s : State) (i : Nat) : Bool := match s.region i with | some r => r.saved || r.frozen || r.accepted.isSome | none => false

/-- A pre-empted region's instances are paused, and each of their peers is told (R288, R321). -/
def State.pauseColls (s : State) (i : Nat) : State :=
  s.colls.foldl (fun s (x : Nat × Coll) =>
    if x.2.inst = i ∧ x.2.isAborted = false then (s.modColl x.1 (fun v => { v with paused := true })).sendControl .pause 0 x.2.gid.toNat (s.collPeers x.2)
    else s) s

/-- The acknowledgements a gateway has held back are sent, one for each packet, unless its region is still frozen or set aside (R325). -/
def State.payAcks (s : State) (i : Nat) : State :=
  if s.acksHeld i then s
  else (s.gwsOf i).foldl (fun s el =>
    let s := ((s.elem el).circsFor i).foldl (fun s (x : Nat × GwCircuit) =>
      x.2.owed.foldl (fun s k => s.sendPacket x.2.peer x.2.circ 3 [] (BitVec.ofNat 128 k)) s) s
    s.modCircs el i (fun _ g => { g with owed := [] })) s

/-- A region that resumes sends its acknowledgements, and RESUME for its instances (R321, R325). -/
def State.resumeColls (s : State) (i : Nat) : State :=
  (s.payAcks i).colls.foldl (fun s (x : Nat × Coll) =>
    if x.2.inst = i ∧ x.2.paused = true then (s.modColl x.1 (fun v => { v with paused := false })).sendControl .resume 0 x.2.gid.toNat (s.collPeers x.2)
    else s) (s.payAcks i)

/-! ## Re-keying -/

/-- Accesses to a device on a circuit, or to any where none is named, end at their issuers with MEMUE (R308, R313). -/
def State.loseRemote (s : State) (p : RemoteWait → Bool) : State :=
  let gone := s.dom.unacked.filter p
  let s := s.modDom (fun d => { d with unacked := d.unacked.filter (fun w => !p w) })
  gone.foldl (fun s w => s.answer w.acc .bad) s

/-- RKEY: outcome 3 where B is not g + 1; otherwise admission closes and the re-keying runs (R314). -/
def execRkey (gen timeout : W32) (s : State) : Host.Outcome State Fault Refusal :=
  atStart s (fun s i k _ _ =>
    if s.dom.members.isEmpty ∨ gen.toNat ≠ s.dom.gen + 1 ∨ s.dom.rkey.isSome = true then s.arrive i k 3
    else
      let s := s.modDom (fun d => { d with rkey := some (i, k), sentBar := false, asked := false })
      s.modSlot i k (fun f => { f with deadline := if timeout = 0 then none else some (s.now + timeout.toNat) }))

/-- Every packet sent under the present generation is acknowledged and every request answered (R314, step 2). -/
def State.allAcked (s : State) : Bool :=
  s.dom.unacked.isEmpty && s.dom.serving.isEmpty
  && s.colls.all (fun (x : Nat × Coll) => x.2.isAborted || (s.circsOfColl x.2.inst x.2.obj).all (fun y => y.2.2.recv || y.2.2.sent == y.2.2.acks))

/-- A collective instance has a peer that has left the domain: one that still binds, a rank that had announced itself (R315). -/
def State.orphaned (s : State) (v : Coll) : Bool :=
  (v.ranksAt.vals ++ (if v.stage = .binding then (s.dom.heard.filter (fun a => a.gid == v.gid)).map (fun a => a.dev) else [])).any
    (fun d => d != 1023 && !s.dom.members.contains d)

/-- The next generation is in force: every SEQ restarts, closed circuits open, departed members' keys are erased, an instance with a departed peer ends with outcome 1, and what was
held back is sent (R313-R315). -/
def State.nextGen (s : State) (i k : Nat) : State :=
  let g := s.dom.gen + 1
  let s := s.modDom (fun d => { d with gen := g, sendSeq := [], recvSeq := [], closed := [], rkey := none, sentBar := false,
                                       secrets := d.secrets.filter (fun x => d.pairs.contains x.1),
                                       bars := d.bars.filter (fun b => decide (g < b.2)) })
  let s := s.colls.foldl (fun s (x : Nat × Coll) =>
    if s.orphaned x.2 then (if x.2.stage = .binding then s.failBind x.1 x.2 else s.abortColl x.1 1 true) else s) s
  let s := s.modDom (fun d => { d with heard := d.heard.filter (fun a => d.members.contains a.dev) })
  s.flushLater.arrive i k 0

/-- A re-keying goes on: once all is acknowledged the BARRIERs leave, and once every member's has come the keys change (R314). -/
def State.advanceRkey (s : State) : State :=
  match s.dom.rkey with
  | none => s
  | some (i, k) =>
    let g := s.dom.gen + 1
    let s := if !s.dom.sentBar && s.allAcked then
        s.others.foldl (fun s d => s.sendPacket d 0xFFFF 5 [] (ctlWord .barrier 1 g)) (s.modDom (fun d => { d with sentBar := true }))
      else s
    if s.dom.sentBar && s.others.all (fun d => s.dom.bars.contains (d, g)) then s.nextGen i k else s

/-- The module leaves its domain: every secured circuit closes, its instances complete with outcome 1 (R314). -/
def State.leaveDomain (s : State) : State :=
  let s := s.colls.foldl (fun s (x : Nat × Coll) => s.abortColl x.1 1 false) s
  let s := s.loseRemote (fun _ => true)
  { s with dom := { Domain.reset with out := s.dom.out } }

/-- RKEY_TIMEOUT: D fc have passed without every BARRIER: outcome 1, and the module leaves the domain (R314). -/
def execRkeyTimeout (s : State) : Host.Outcome State Fault Refusal :=
  match s.focus with
  | .event (.rkeyTimeout i k) =>
    match s.slot i k with
    | some f =>
      if s.dom.rkey = some (i, k) ∧ f.code = 0x16 ∧ f.deadline.any (fun t => decide (t ≤ s.now)) then .next (s.leaveDomain.arrive i k 1)
      else .next s
    | none => .next s
  | _ => .next s

end Sys2Proof.Machine
end

