-- ==== Sys2Proof/Machine/Control.lean ====
section
/-!
DEFINITION. Control.lean: class 0x0, control (R102-R111).
-/
namespace Sys2Proof.Machine

/-- NOP: the guard and effect fields alone act (R102). -/
def execNop (x : Slot) (s : State) : Host.Outcome State Fault Refusal := fire .nop x s (fun _ _ _ => .ok {})

/-- OUTC at its section: one tile fewer is owed, or the oldest ARM in flight, if there is one, has its outcome posted (R103). -/
def postOutcome (fin : Bool) (o : Nat) (v : Section) : Section :=
  if fin then (if v.arms.isEmpty then v else { v with fin := some (v.fin.getD o) })
  else { v with remaining := v.remaining - 1 }

/-- OUTC: RemainingTiles falls, or with FIN the oldest ARM in flight at the section takes outcome opA[1:0] (R103). -/
def execOutc (x : Slot) (s : State) : Host.Outcome State Fault Refusal :=
  fire .outc x s (fun s f v => .ok { eff := fun t => match s.sectOf f.el with
    | some (i, sid) => t.modSect i sid (postOutcome (x.mod.getLsbD 0) (bits v.a 0 2).toNat)
    | none => t })

/-- TRAP: SWTRAP with IMM[15:0] after the issue effects (R104). -/
def execTrap (x : Slot) (s : State) : Host.Outcome State Fault Refusal :=
  fire .trap x s (fun _ _ _ => .ok { after := some { code := 0x03, cause := 0, info := BitVec.ofNat 64 (immBits x 0 16) } })

/-- BKPT: traps when DBGCTL.BKEN is 1, else acts as NOP (R104). -/
def execBkpt (x : Slot) (s : State) : Host.Outcome State Fault Refusal :=
  fire .bkpt x s (fun s f _ => .ok { after :=
    if (s.elem f.el).ctx.regs.dbgctl.getLsbD 0 then some { code := 0x04, cause := 0, info := BitVec.ofNat 64 (immBits x 0 16) }
    else none })

/-- RDSR: a special register, zero-extended; RC NZ(result); FCNT counts the firing itself, as R40 orders (R105). -/
def execRdsr (x : Slot) (s : State) : Host.Outcome State Fault Refusal :=
  fire .rdsr x s (fun s f _ =>
    let v : W256 := BitVec.ofNat 256 ((s.modRegs f.el (fun r => { r with fcnt := f.fcnt })).readSrg f.el (slotSrg x))
    .ok { out := { val := v, rc := nz v } })

/-- WRSR: opA[63:0] into the special register at completion (R99, R105). -/
def execWrsr (x : Slot) (s : State) : Host.Outcome State Fault Refusal :=
  fire .wrsr x s (fun _ _ v => .ok { out := { val := (bits v.a 0 64).setWidth 256 } })

/-- A new counter value, RC 1 when it is 0 (R106). -/
def counterAct (v : W32) : Act := { out := { val := v.setWidth 256, rc := v == 0 } }

/-- KSET: K becomes opA[31:0] (R106). -/
def execKset (x : Slot) (s : State) : Host.Outcome State Fault Refusal :=
  fire .kset x s (fun _ _ v => .ok (counterAct (bits v.a 0 32)))
/-- KDEC: K falls by 1 unless it is 0 (R106). -/
def execKdec (x : Slot) (s : State) : Host.Outcome State Fault Refusal :=
  fire .kdec x s (fun _ _ v => .ok (counterAct (if v.k = 0 then 0 else v.k - 1)))
/-- KADD: opA[31:0] added to K modulo 2^32 (R106). -/
def execKadd (x : Slot) (s : State) : Host.Outcome State Fault Refusal :=
  fire .kadd x s (fun _ _ v => .ok (counterAct (v.k + bits v.a 0 32)))

/-- PLOG: RC is the truth table IMM[3:0] at 2 P[a] + P[b] (R107). -/
def execPlog (x : Slot) (s : State) : Host.Outcome State Fault Refusal :=
  fire .plog x s (fun _ _ v =>
    let n := (if v.p.getLsbD (immBits x 4 3) then 2 else 0) + (if v.p.getLsbD (immBits x 8 3) then 1 else 0)
    .ok { out := { rc := x.imm.getLsbD n } })

/-- The samples an element's event counter e offers: one for each MHU bound to it (R111, R336). -/
def State.offers (s : State) (el e : Nat) (v : Nat) : List Move :=
  s.mon.mhus.filterMap (fun (m : Nat × Mhu) =>
    if m.2.cfg.getLsbD 63 && bits m.2.cfg 40 8 == 0 && (bits m.2.cfg 32 2).toNat == e && (bits m.2.cfg 0 32).toNat == el
    then some (.event (.mhuSample (m.1 / 64) (m.1 % 64) v)) else none)

/-- EVNT: where DBGCTL.EVEN is 1, counts EVC[e], saturating, and with SMP offers opA[31:0] as a sample, all at its issue (R111, log 9). -/
def execEvnt (x : Slot) (s : State) : Host.Outcome State Fault Refusal :=
  fire .evnt x s (fun s f v =>
    let e := (bits x.mod 0 2).toNat
    if (s.elem f.el).ctx.regs.dbgctl.getLsbD 1 then
      .ok { eff := fun t =>
        let t := t.modRegs f.el (fun r =>
          let c := r.evc.getD e 0
          { r with evc := r.evc.put e (if c = 0xFFFFFFFF#32 then c else c + 1) })
        if x.mod.getLsbD 2 then t.push (s.offers f.el e (bits v.a 0 32).toNat) else t }
    else .ok {})

/-- FMTW: FMTTAB[N] becomes opA[7:0] at completion; an invalid descriptor raises FMTBAD at issue (R56, R108). -/
def execFmtw (x : Slot) (s : State) : Host.Outcome State Fault Refusal :=
  fire .fmtw x s (fun _ _ v =>
    let n := (bits x.mod 3 3).toNat
    let b : Byte := bits v.a 0 8
    if (Fmt.ofByte b).valid then .ok { fin := .fmttab n b } else .error (fmtBad n))

/-- TICK: the picker issues nothing in the n fc that follow (R109). -/
def execTick (x : Slot) (s : State) : Host.Outcome State Fault Refusal :=
  fire .tick x s (fun _ f _ =>
    let n := immBits x 0 16
    let hold := fun (t : State) => if n = 0 then t else t.modCtx f.el (fun c => { c with tick := t.now + n + 1 })
    .ok { eff := hold })

end Sys2Proof.Machine
end

