-- ==== Sys2Proof/Machine/Convert.lean ====
section
/-!
DEFINITION. Convert.lean: class 0x7, conversions (R149-R155).
-/
namespace Sys2Proof.Machine

/-- The FMTTAB slot that describes a source operand: a port head's FT, else S (R149). -/
def sourceSlot (x : Slot) (s : Sel) (t : Option Token) : Nat :=
  if isPort s then (match t with | some h => h.ft.toNat | none => 0) else immBits x 0 3

/-- The source and target formats of a conversion, checked at issue: FMTBAD names the FT or slot concerned, and where the pair or Q fails the source's
(R149, log 37). That an FMTW has changed a checked slot is read as: to a descriptor that the instruction does not accept; any other change goes on (log 37,
DEDUCED). -/
def convFmts (o : Op) (x : Slot) (i : Opnds) : Except TrapReq (Fmt × Fmt) :=
  let ss := sourceSlot x x.sa i.ta
  let s := fmtAt i.fmttab ss
  let t := fmtAt i.fmttab (slotF x)
  if !srcFamOk o s.fam then .error (fmtBad ss)
  else if !dstFamOk o t.fam then .error (fmtBad (slotF x))
  else if !famPairOk o s.fam t.fam || !partOk o (immBits x 4 3) s t then .error (fmtBad ss)
  else .ok (s, t)

/-- The source lane of result lane l under the map of R150; none where the result lane is 0. -/
def laneMap (ns nt q l : Nat) : Option Nat :=
  if nt ≤ ns then some (q * nt + l)
  else if q * ns ≤ l ∧ l < q * ns + ns then some (l - q * ns)
  else none

/-- A rounding as a conversion lane, flagged as R149 says. -/
def cvtLane (t : Fmt) (r : Rounded) : LaneOut := ⟨r.code, if t.fam.isFloat then cvtFlag t r else r.out, r.srng⟩

/-- Lane by lane under the map of R150. -/
def convert (o : Op) (x : Slot) (i : Opnds) (g : Fmt → Fmt → Nat → W32 → LaneOut) : Except TrapReq PureOut := do
  let (s, t) ← convFmts o x i
  let q := immBits x 4 3
  let (v, rc, r) := mapLanes t.fam.width t.lanes (fun l sr =>
    match laneMap s.lanes t.lanes q l with
    | some k => g s t (lane s.fam.width i.a k) sr
    | none => ⟨0, false, sr⟩) i.srng
  .ok { val := v, rc, srng := some r }

/-- A value into format t: RoundTo, or the integer rules of R59. -/
def intoFmt (x : Slot) (t : Fmt) (v : FVal) (s : W32) : Rounded :=
  if t.fam.isFloat then t.roundTo v (slotMode x) (slotSat x) s else t.roundToInt v (slotMode x) s

/-- CVT (R150). -/
def valCvt : PureFn := fun x i => convert .cvt x i (fun s t c r => cvtLane t (intoFmt x t (s.decode c) r))
/-- CVTI (R150). -/
def valCvti : PureFn := fun x i => convert .cvti x i (fun s t c r => cvtLane t (intoFmt x t (s.decode c) r))
/-- CVTF (R150). -/
def valCvtf : PureFn := fun x i => convert .cvtf x i (fun s t c r => cvtLane t (intoFmt x t (s.decode c) r))

/-- WIDN: RNE for floats, sign extension for integers (R150). -/
def valWidn : PureFn := fun x i => convert .widn x i (fun s t c r =>
  if t.fam.isFloat then cvtLane t (t.roundTo (s.decode c) .rne false r)
  else ⟨wrap t.fam.width (sext s.fam.width c), false, r⟩)

/-- SRND: to T's value set and back into the source's format, in the source's layout (R150). -/
def valSrnd : PureFn := fun x i => do
  let (s, t) ← convFmts .srnd x i
  let (v, rc, r) := mapLanes s.fam.width s.lanes (fun l sr =>
    let a := t.roundTo (s.decodeF (lane s.fam.width i.a l)) (slotMode x) (slotSat x) sr
    let b := s.roundTo (t.decodeF a.code) .rne false a.srng
    ⟨b.code, a.out || cvtFlag s b, a.srng⟩) i.srng
  .ok { val := v, rc, srng := some r }

/-- QNT and DQNT: each lane scaled by 2^k under the lane map of R150; an e of 0xFF makes every lane NaN, or 0 for an integer
target, and RC 1 (R151). -/
def scaleLanes (o : Op) (x : Slot) (i : Opnds) (e : Nat) (k : Int) : Except TrapReq PureOut :=
  if e = 0xFF then do
    let (_, t) ← convFmts o x i
    okVal (ofLanes t.fam.width t.lanes (fun _ => t.nanCode)) true
  else convert o x i (fun s t c r => cvtLane t (intoFmt x t ((s.decode c).scale k) r))

/-- QNT (R151). -/
def valQnt : PureFn := fun x i => scaleLanes .qnt x i (lane 8 i.b 0) (127 - (lane 8 i.b 0 : Int))
/-- DQNT (R151). -/
def valDqnt : PureFn := fun x i => scaleLanes .dqnt x i (lane 8 i.b 0) ((lane 8 i.b 0 : Int) - 127)

/-- The greater of two values, the first where they are equal; NaN if either is (R152). -/
def maxAbs (a b : FVal) : FVal :=
  match a.cmp b with
  | none => .nan
  | some c => if c = -1 then b else a

/-- Emax(T) (R152). -/
def emaxOf (t : Fmt) : Int :=
  match t.fam with
  | .i8 => 6
  | .i4 => 2
  | _ => match t.decodeF t.maxCode with | .fin _ m e => floorLog2 m e | _ => 0

/-- The shared scale of an absolute maximum (R152). -/
def scaleOf (t : Fmt) (amax : FVal) : Nat :=
  match amax with
  | .nan => 0xFF
  | .inf _ => 0xFF
  | .fin _ m e => if m = 0 then 0 else (clampInt 0 254 (floorLog2 m e - emaxOf t + 127)).toNat

/-- MXSC (R152). -/
def valMxsc : PureFn := fun x i => do
  let (s, t) ← convFmts .mxsc x i
  let vs := (List.range s.lanes).map (fun l => (s.decodeF (lane s.fam.width i.a l)).abs)
  let amax := maxAbs (vs.foldl maxAbs (.fin false 0 0)) (fl fmt32 i.b 0)
  let e := scaleOf t amax
  okVal (BitVec.ofNat 256 (f32Code amax + e <<< 32)) (e == 0xFF)

/-- Two operands of one source slot, else FMTBAD (R153, R154). -/
def sameSource (x : Slot) (i : Opnds) : Except TrapReq Unit :=
  let a := sourceSlot x x.sa i.ta
  let b := sourceSlot x x.sb i.tb
  if a = b then .ok () else .error (fmtBad b)

/-- A value of any format narrowed into t: RoundTo for floats, R59's narrowing for integers (R153). -/
def narrowInto (x : Slot) (s t : Fmt) (c : Nat) (r : W32) : LaneOut :=
  if s.fam.isFloat then cvtLane t (intoFmt x t (s.decodeF c) r)
  else cvtLane t (t.narrowInt (sext s.fam.width c) (slotSat x) r)

/-- NARW (R153). -/
def valNarw : PureFn := fun x i => do
  let (s, t) ← convFmts .narw x i
  sameSource x i
  let n := s.lanes
  let (v, rc, r) := mapLanes t.fam.width t.lanes (fun l sr =>
    narrowInto x s t (if l < n then lane s.fam.width i.a l else lane s.fam.width i.b (l - n)) sr) i.srng
  .ok { val := v, rc, srng := some r }

/-- PK4: nibble 2l from opA, nibble 2l+1 from opB (R154). -/
def valPk4 : PureFn := fun x i => do
  let (s, t) ← convFmts .pk4 x i
  sameSource x i
  let (v, rc, r) := mapLanes 4 64 (fun l sr =>
    narrowInto x s t (if l % 2 = 0 then lane 8 i.a (l / 2) else lane 8 i.b (l / 2)) sr) i.srng
  .ok { val := v, rc, srng := some r }

/-- UPK4: lane l from nibble 2l + Q (R154). -/
def valUpk4 : PureFn := fun x i => do
  let (_, t) ← convFmts .upk4 x i
  let q := immBits x 4 3
  let (v, rc, r) := mapLanes 8 32 (fun l sr =>
    let n := sext 4 (lane 4 i.a (2 * l + q))
    if t.fam.isFloat then cvtLane t (intoFmt x t (.ofInt n) sr) else ⟨wrap 8 n, false, sr⟩) i.srng
  .ok { val := v, rc, srng := some r }

/-- CVT: converts floating lanes to another floating format (R150). -/
def execCvt (x : Slot) (s : State) : Host.Outcome State Fault Refusal := firePure .cvt x s valCvt
/-- CVTI: converts floating lanes to an integer format with saturation (R150). -/
def execCvti (x : Slot) (s : State) : Host.Outcome State Fault Refusal := firePure .cvti x s valCvti
/-- CVTF: converts integer lanes to a floating format (R150). -/
def execCvtf (x : Slot) (s : State) : Host.Outcome State Fault Refusal := firePure .cvtf x s valCvtf
/-- WIDN: widens lanes to exactly twice the width (R150). -/
def execWidn (x : Slot) (s : State) : Host.Outcome State Fault Refusal := firePure .widn x s valWidn
/-- SRND: rounds lanes to a target value set while keeping the source format (R150). -/
def execSrnd (x : Slot) (s : State) : Host.Outcome State Fault Refusal := firePure .srnd x s valSrnd
/-- QNT: quantises lanes under an E8M0 scale (R151). -/
def execQnt (x : Slot) (s : State) : Host.Outcome State Fault Refusal := firePure .qnt x s valQnt
/-- DQNT: dequantises lanes under an E8M0 scale (R151). -/
def execDqnt (x : Slot) (s : State) : Host.Outcome State Fault Refusal := firePure .dqnt x s valDqnt
/-- MXSC: computes a running absolute maximum and the shared MX scale for a target format (R152). -/
def execMxsc (x : Slot) (s : State) : Host.Outcome State Fault Refusal := firePure .mxsc x s valMxsc
/-- NARW: narrows two tokens into one at half the width (R153). -/
def execNarw (x : Slot) (s : State) : Host.Outcome State Fault Refusal := firePure .narw x s valNarw
/-- PK4: packs two 8-bit operands into paired INT4 nibbles (R154). -/
def execPk4 (x : Slot) (s : State) : Host.Outcome State Fault Refusal := firePure .pk4 x s valPk4
/-- UPK4: unpacks INT4 nibbles into 8-bit lanes (R154). -/
def execUpk4 (x : Slot) (s : State) : Host.Outcome State Fault Refusal := firePure .upk4 x s valUpk4

/-- SEED: replaces SRNG by opA[31:0] at completion, a value of 0 by 1 (R61, R155). -/
def execSeed (x : Slot) (s : State) : Host.Outcome State Fault Refusal :=
  fire .seed x s (fun _ _ v => .ok { fin := .seed (bits v.a 0 32) })

end Sys2Proof.Machine
end

