-- ==== Sys2Proof/Machine/Fjois.lean ====
section
/-!
DEFINITION. Fjois.lean: ports and links (R308), the reception of secured packets (R309-R313, R325), remote requests and their answers (R237), and
the trust domain's membership (R310, R314).
-/
namespace Sys2Proof.Machine

/-- A port fails: accesses outstanding through it end with MEMUE, and instances with a circuit on it abort with outcome 1 (R308, R343). -/
def State.failPort (s : State) (n : Nat) : State :=
  let s := s.modPort n (fun p => { p with state := 3, ver := 0, lanes := 0, rb := [], tries := 0 })
  let s := s.loseRemote (fun w => s.portOf w.dev == n)
  s.colls.foldl (fun s (x : Nat × Coll) =>
    if (s.circsOfColl x.2.inst x.2.obj).any (fun y => y.2.2.bound == some x.1 && s.portOf y.2.2.peer == n) then s.abortColl x.1 1 true else s) s

/-- LINK_REPLAY: a flit has failed its CRC, and it and those behind it are sent again in order; one that has failed 16 replays in a row fails the port
(R226, R308). -/
def execLinkReplay (s : State) : Host.Outcome State Fault Refusal :=
  match s.focus with
  | .event (.linkReplay n flit) =>
    if (s.port n).state ≠ 2 then .next s
    else
      let tries := if (s.port n).rb.head? = some flit then (s.port n).tries + 1 else 1
      .next (if 16 < tries then s.failPort n
        else s.modPort n (fun p => { p with retry := satInc p.retry, replays := p.replays + 1, rb := [flit], tries }))
  | _ => .next s

/-- LINK_TRAINING: version 3 where both ends offer it, else 2; a port whose peer offers neither stays down (R308). -/
def execLinkTraining (s : State) : Host.Outcome State Fault Refusal :=
  match s.focus with
  | .event (.linkTraining n o) =>
    if 24 ≤ n ∨ 2 ≤ (s.port n).state.toNat then .next s
    else if o.lanes.val = 0 ∨ (o.v2 = false ∧ o.v3 = false) then .next (s.modPort n (fun p => { p with state := 0, ver := 0, lanes := 0 }))
    else .next (s.modPort n (fun p => { p with state := 2, ver := if o.v3 then 3 else 2, lanes := BitVec.ofNat 3 o.lanes.val, rb := [], tries := 0 }))
  | _ => .next s

/-! ## Receiving -/

/-- The circuits of a gateway, in any of its contexts: the instance each serves, its number there and its fields. -/
def Elem.gwCircs (e : Elem) : List (Nat × Nat × GwCircuit) :=
  ((e.ctxs.filterMap (fun c => c.inst)).eraseDups).flatMap (fun i => (e.circsFor i).map (fun x => (i, x.1, x.2)))

/-- The collective circuit of a gateway to which a packet belongs: one that receives it, or for an acknowledgement the one that it answers; its
collective instance has not been ended (R313, R318). -/
def State.recvCirc (s : State) (gw : Nat) (p : Packet) : Option (Nat × Nat × GwCircuit) :=
  (s.elem gw).gwCircs.find? (fun x =>
    x.2.2.recv == (p.type != 3) && x.2.2.circ == p.circ.toNat && x.2.2.peer == p.src.toNat && (x.2.2.bound.bind s.colls.find?).isSome)

/-- The collective instances bound on a gateway, in any of its contexts. -/
def State.collsOn (s : State) (gw : Nat) : List Nat :=
  ((s.elem gw).gwCircs.filterMap (fun x => x.2.2.bound)).eraseDups.filter (fun k => (s.colls.find? k).isSome)

/-- The instance for whose region a gateway's record is raised: that of a bound collective, or the one the gateway runs. -/
def State.gwInst (s : State) (gw : Nat) : Option Nat :=
  match (s.collsOn gw).head?.bind s.colls.find? with
  | some v => some v.inst
  | none => (s.elem gw).ctx.inst

/-- A packet that fails its checks is discarded with LINKAUTH of SRC 4 (R273, R313). -/
def State.linkAuth (s : State) (gw : Nat) (p : Packet) : State :=
  match s.gwInst gw with
  | some i => s.trapNote i { code := 0x18, cause := 0, info := BitVec.ofNat 64 (p.circ.toNat * 2 ^ 48 + p.seq.toNat) } 4 0 0 0 gw (s.ivecAt i gw)
  | none => s.bump 8

/-- The access of a discarded load/store packet ends at its issuer with MEMUE: a request is answered so, and an answer's access ends here
(R313). -/
def State.dropAccessOf (s : State) (p : Packet) : State :=
  let id := 2 ^ 64 + p.src.toNat * 2 ^ 32 + (bits p.word 64 32).toNat
  match p.type.toNat with
  | 0 | 1 | 4 => s.reply p.src.toNat p.circ.toNat id (kindOfReq (bits p.word 96 32).toNat) 0 false 1
  | _ => s.loseRemote (fun w => w.dev == p.src.toNat && w.circ == p.circ.toNat && w.acc.id % 2 ^ 32 == (bits p.word 8 32).toNat)

/-- A failing packet: a load/store circuit closes and its accesses end with MEMUE; the instance of the collective circuit that it belongs to aborts with
outcome 2, and where it belongs to none, every instance bound on the gateway, but for instance control (R313). -/
def State.failPacket (s : State) (gw : Nat) (p : Packet) : State :=
  let on := s.collsOn gw
  let mine := (s.recvCirc gw p).bind (fun x => x.2.2.bound)
  let s := s.linkAuth gw p
  let key := p.src.toNat * 65536 + p.circ.toNat
  if p.circ.toNat < 16 then
    ((s.modDom (fun d => { d with closed := if d.closed.contains key then d.closed else key :: d.closed })).dropAccessOf p).loseRemote
      (fun w => w.dev == p.src.toNat && w.circ == p.circ.toNat)
  else if p.circ = 0xFFFF ∧ p.type = 5 then s
  else (match mine with | some c => [c] | none => on).foldl (fun s c => s.abortColl c 2 true) s

/-- The collective instances of this module with a GID. -/
def State.collsOfGid (s : State) (gid : W64) : List Nat := (List.filter (fun (x : Nat × Coll) => x.2.gid == gid) s.colls).map Prod.fst

/-- Instance control does what it says, as the event of its own (R309, R314, R319, R321, R343). -/
def State.control (s : State) (p : Packet) : State :=
  let a := (bits p.word 8 16).toNat
  let gid := bits p.word 24 64
  let cs := s.collsOfGid gid
  match (bits p.word 0 8).toNat with
  | 0 =>
    cs.foldl State.tryBind (s.modDom (fun d => d.hear (announceOf p)))
  | 1 => s.push (cs.map (fun c => .event (.pauseReceive c p.src.toNat)))
  | 2 => s.push (cs.map (fun c => .event (.collResumeReceive c p.src.toNat)))
  | 3 => s.push (cs.map (fun c => .event (.abortReceive c (BitVec.ofNat 2 a))))
  | 4 => if a = 1 then s.push [.event (.barrierReceive p.src.toNat (.rekey gid.toNat))]
         else s.push (cs.map (fun c => .event (.barrierReceive p.src.toNat (.coll c))))
  | _ => s

/-- Tokens of a collective circuit arrive: they are kept in order, and acknowledged unless the region is frozen or set aside (R190, R313, R325). -/
def State.collData (s : State) (gw i n : Nat) (p : Packet) : State :=
  let k := p.payload.length
  let held := s.acksHeld i
  let s := s.modCircs gw i (fun m g => if m = n then
      { g with got := g.got ++ p.payload, total := g.total + k, owed := if held then g.owed ++ [k] else g.owed } else g)
  if held then s else s.sendPacket p.src.toNat p.circ.toNat 3 [] (BitVec.ofNat 128 k)

/-- An acknowledgement reaches the send circuit it belongs to (R318). -/
def State.collAck (s : State) (gw i n : Nat) (p : Packet) : State :=
  s.modCircs gw i (fun m g => if m = n then { g with acks := g.acks + p.word.toNat } else g)

/-- A peer's request reaches this module: it is translated under the domain's binding, only pages with DSH = 1 answer it, and it enters the remote
aperture's ingress (R237, log 24). -/
def State.serveRequest (s : State) (p : Packet) : State :=
  let va := (bits p.word 0 56).toNat
  let id := 2 ^ 64 + p.src.toNat * 2 ^ 32 + (bits p.word 64 32).toNat
  let kind := kindOfReq (bits p.word 96 32).toNat
  let data := fun n => match p.payload[n]? with | some t => t.data | none => 0
  let s := s.modDom (fun d => { d with serving := d.serving ++ [{ dev := p.src.toNat, circ := p.circ.toNat, acc := id }] })
  let refuse := s.reply p.src.toNat p.circ.toNat id kind 0 false 2
  match s.walk va 0 (Config.domainRoot p.src.toNat) 4 with
  | .fault _ => refuse
  | .leaf size e =>
    if !e.getLsbD 7 then refuse
    else match checkLeaf kind size e va with
    | .cell _ q off =>
      s.toIngress { id, by_ := .peer p.src.toNat p.circ.toNat, kind, tgt := .dram, inst := 0, asid := 0, va, bytes := (bits p.word 56 8).toNat,
                    data := data 0, data2 := data 1, xlat := .done, ap := .remote, pch := q, off, held := false, scope := 0, work := 0, sent := s.now, waited := 0,
                    leaf := size, gone := false }
    | _ => refuse

/-- The owning module may not be reached for an access of this module: its stream faults at it and a resumption tries it again, or its element traps; one
that has been abandoned is dropped (R237, R278, R279). -/
def State.refuseRemote (s : State) (a : Access) : State :=
  let t := protTrap 6 (BitVec.ofNat 64 a.va)
  if a.gone then s
  else match a.by_ with
  | .gen el g =>
    if ((s.ctxOf el a.inst).mt.gen g).owns a then
      (s.modCtxOf el a.inst (fun c =>
        { c with mt := { c.mt with gens := c.mt.gens.put g { c.mt.gen g with sq := { a with xlat := .faulted } :: (c.mt.gen g).sq } } })).accessFault a t
    else s
  | _ => s.accessFault a t

/-- The answer to an access of this module: its value, MEMUE, or the PROT of a page that may not be reached (R237, R309). -/
def State.takeAnswer (s : State) (p : Packet) : State :=
  let id := (bits p.word 8 32).toNat
  let mine := fun (w : RemoteWait) => w.dev == p.src.toNat && w.circ == p.circ.toNat && w.acc.id % 2 ^ 32 == id
  match s.dom.unacked.find? mine with
  | none => s
  | some w =>
    let s := s.modDom (fun d => { d with unacked := d.unacked.filter (fun w => !mine w) })
    match (bits p.word 0 2).toNat with
    | 0 => s.answer w.acc (.done (match p.payload.head? with | some t => t.data | none => 0) (p.word.getLsbD 2))
    | 1 => s.answer w.acc .bad
    | _ => s.refuseRemote w.acc

/-- What an accepted packet carries is used, by circuit and TYPE; none where its circuit may not carry it (R309, R312, R313). -/
def State.acceptPacket (s : State) (gw : Nat) (p : Packet) : Option State :=
  let c := p.circ.toNat
  if c = 0xFFFF then (if p.type = 5 then some (s.control p) else none)
  else if c < 16 then
    (match p.type.toNat with
    | 0 | 1 | 4 => some (s.serveRequest p)
    | 2 | 3 => some (s.takeAnswer p)
    | _ => none)
  else if 0x0100 ≤ c ∧ c ≤ 0x113F then
    (if p.type = 3 then (s.recvCirc gw p).map (fun x => s.collAck gw x.1 x.2.1 p)
     else if p.type = 0 then (s.recvCirc gw p).map (fun x => s.collData gw x.1 x.2.1 p)
     else none)
  else none

/-- A packet that a gateway receives, opened under the key of its sender's direction, and whether its tag verifies: it must be for this module and from one
with which a session stands, or from the switch (R311-R313). -/
def State.unseal (s : State) (w : List Byte) : Packet × Bool :=
  let h := BitVec.ofNat 128 (leNat (w.take 16))
  let src : BitVec 10 := bits h 12 10
  let r := openPacket (s.linkKey src.toNat src (bits h 32 10)) w
  (r.1, r.2 && bits h 32 10 == s.dom.self && ((s.dom.secrets.find? src.toNat).isSome || src == 1023))

/-- FJOIS_PACKET_RECEIVE: SEQ, KGEN, tag and NTOK are checked, and the packet is accepted or fails (R313). One of an aborted instance or a closed
circuit is discarded without checks, and a module outside any domain accepts none (R310). -/
def execFjoisPacketReceive (s : State) : Host.Outcome State Fault Refusal :=
  match s.focus with
  | .event (.fjoisPacketReceive gw w) =>
    let p := (s.unseal w).1
    let key := p.src.toNat * 65536 + p.circ.toNat
    let aborted := match (s.recvCirc gw p).bind (fun x => x.2.2.bound.bind s.colls.find?) with | some v => v.isAborted | none => false
    if s.dom.members.isEmpty ∨ aborted = true then .next s
    else if s.dom.closed.contains key then .next (s.dropAccessOf p)
    else if p.seq.toNat = s.dom.recvSeq.getD key 0 ∧ p.kgen.toNat = s.dom.gen % 256 ∧ (s.unseal w).2 = true then
      let t := s.modDom (fun d => { d with recvSeq := d.recvSeq.put key (p.seq.toNat + 1) })
      (match t.acceptPacket gw p with
      | some u => .next u
      | none => .next (t.failPacket gw p))
    else .next (s.failPacket gw p)
  | _ => .next s

/-! ## Membership -/

/-- SPDM_EXCHANGE: a pair is admitted once its session is established, whose secret gives its traffic keys (R310, R311). -/
def execSpdmExchange (s : State) : Host.Outcome State Fault Refusal :=
  match s.focus with
  | .event (.spdmExchange peer ok secret) =>
    .next (if ok then s.modDom (fun d => { d with pairs := if d.pairs.contains peer then d.pairs else d.pairs ++ [peer],
                                                  secrets := d.secrets.put peer secret }) else s)
  | _ => .next s

/-- The route that firmware writes for a member (R309, log 25). -/
def routeWord (dev : Nat) : W32 := BitVec.ofNat 32 (2 ^ 31 + Config.routeOf dev % 24)

/-- This module becomes a member of a domain with the modules it has sessions with, 2 to 64 in all, at a generation (R309-R311). -/
def State.enterDomain (s : State) (self : BitVec 10) (gen : Nat) : State :=
  let peers := s.dom.pairs.filter (fun d => d != self.toNat)
  if s.dom.members.isEmpty ∧ peers ≠ [] ∧ peers.length ≤ 63 then
    s.modDom (fun d => { d with members := self.toNat :: peers, self, gen, sendSeq := [], recvSeq := [], closed := [],
                                routes := peers.foldl (fun (t : Tab W32) x => t.put x (routeWord x)) d.routes })
  else s

/-- MEMBERSHIP_CHANGE: a domain of 2 to 64 members forms at generation 1, or takes this module in at the generation it has come to; a member with a
session joins, or one leaves; firmware then runs the re-keying image (R309-R311, R314). -/
def execMembershipChange (s : State) : Host.Outcome State Fault Refusal :=
  match s.focus with
  | .event (.membershipChange change) =>
    match change with
    | .formed self => .next (s.enterDomain self 1)
    | .entered self gen => .next (if gen = 0 then s else s.enterDomain self gen.toNat)
    | .joins dev =>
      let d := dev.toNat
      if s.dom.members.isEmpty = false ∧ s.dom.pairs.contains d = true ∧ s.dom.members.contains d = false ∧ s.dom.members.length < 64 then
        .next (s.modDom (fun m => { m with members := m.members ++ [d], routes := m.routes.put d (routeWord d) }))
      else .next s
    | .leaves dev =>
      let d := dev.toNat
      if d = s.dom.self.toNat then .next s.leaveDomain
      else
        let s := s.modDom (fun m => { m with members := m.members.filter (· != d), pairs := m.pairs.filter (· != d), routes := m.routes.drop d })
        .next (if s.dom.members.length < 2 then s.leaveDomain else s)
  | _ => .next s

end Sys2Proof.Machine
end

