-- ==== Sys2Proof/Machine/Gateway.lean ====
section
/-!
DEFINITION. Gateway.lean: class 0xB, the collective circuits of a gateway (R190).
-/
namespace Sys2Proof.Machine

/-- The collective instance of a gateway circuit has aborted (R343). -/
def State.circAborted (s : State) (c : Ctx) (x : Slot) : Bool :=
  match (slotCirc c x).bind (fun g => g.bound.bind (fun k => s.colls.find? k)) with
  | some v => v.isAborted
  | none => false

/-- COLLABORT of a circuit (R190, R272). -/
def collAbort (x : Slot) : TrapReq := { code := 0x19, cause := 0, info := BitVec.ofNat 64 (bits x.mod 0 6).toNat }

/-- The state with a gateway circuit changed. -/
def State.modCirc (s : State) (el n : Nat) (f : GwCircuit → GwCircuit) : State :=
  s.modGw el (fun g => match g.circs.find? n with
    | some c => { g with circs := g.circs.put n (f c) }
    | none => g)

/-- A token leaves on a circuit: a credit is spent and a data packet goes to the peer (R190, R312). -/
def State.sendOn (s : State) (el n : Nat) (g : GwCircuit) (t : Token) : State :=
  (s.sendPacket g.peer g.circ 0 [t] 0).modCirc el n (fun c => { c with credits := c.credits - 1, sent := c.sent + 1 })

/-- CSND: opA as one token to the bound peer; COLLABORT on an aborted instance (R72, R190). -/
def execCsnd (x : Slot) (s : State) : Host.Outcome State Fault Refusal :=
  fire .csnd x s (fun s f v =>
    let c := (s.elem f.el).ctx
    if s.circAborted c x then .error (collAbort x)
    else
      let t : Token := match v.ta with | some h => h | none => { ct := x.tago, ft := x.fto, data := v.a }
      let n := (bits x.mod 0 6).toNat
      .ok { eff := fun u => match slotCirc c x with | some g => u.sendOn f.el n g t | none => u })

/-- The oldest token a circuit has received is taken. -/
def State.takeOn (s : State) (el n : Nat) : State := s.modCirc el n (fun c => { c with got := c.got.tail })

/-- The oldest token received on the slot's circuit. -/
def gotToken (c : Ctx) (x : Slot) : W256 :=
  match (slotCirc c x).bind (fun g => g.got.head?) with | some t => t.data | none => 0

/-- CRCV: the next token received, in send order (R190). -/
def execCrcv (x : Slot) (s : State) : Host.Outcome State Fault Refusal :=
  fire .crcv x s (fun s f _ =>
    let c := (s.elem f.el).ctx
    if s.circAborted c x then .error (collAbort x)
    else .ok { out := { val := gotToken c x }, eff := fun u => u.takeOn f.el (bits x.mod 0 6).toNat })

/-- CRED: the next token received combined with opA, the received value first (R190). -/
def execCred (x : Slot) (s : State) : Host.Outcome State Fault Refusal :=
  fire .cred x s (fun s f v =>
    let c := (s.elem f.el).ctx
    let g := fmtAt v.fmttab (immBits x 0 3)
    if s.circAborted c x then .error (collAbort x)
    else if reduceFam g.fam then
      .ok { out := { val := reduceLanes g (immBits x 4 2) (gotToken c x) v.a }, eff := fun u => u.takeOn f.el (bits x.mod 0 6).toNat }
    else .error (fmtBad (immBits x 0 3)))

/-- This rank reaches CBAR of a collective instance: every peer is told (R190). -/
def State.reachBar (s : State) (k : Nat) : State :=
  match s.colls.find? k with
  | none => s
  | some v =>
    if v.atBar.contains v.rank then s
    else (s.modColl k (fun v => { v with atBar := v.atBar ++ [v.rank] })).sendControl .barrier 0 v.gid.toNat (s.collPeers v)

/-- CBAR: completes once every peer has reached CBAR of the instance, or with RC 1 when it aborts or has ended (R190). -/
def execCbar (x : Slot) (s : State) : Host.Outcome State Fault Refusal :=
  fire .cbar x s (fun s f _ =>
    let n := (bits x.mod 0 6).toNat
    let k := (slotCirc (s.elem f.el).ctx x).bind (fun g => g.bound)
    .ok { lat := none, eff := fun u =>
      let u := u.modGw f.el (fun g => { g with cbars := g.cbars ++ [(f.id, n)] })
      match k with | some k => u.reachBar k | none => u })

/-- INSTRUCTION_COMPLETE: an issued firing that has all it waits for writes its result, tokens and result condition (R40). -/
def execInstructionComplete (s : State) : Host.Outcome State Fault Refusal :=
  match s.focus with
  | .event (.instructionComplete el f) => .next (s.completeFlight el f)
  | _ => .next s

/-- TICK_EXPIRE: the idle fc of a TICK have passed and the picker may issue again (R109). -/
def execTickExpire (s : State) : Host.Outcome State Fault Refusal :=
  match s.focus with
  | .event (.tickExpire el) =>
    if (s.elem el).ctx.tick ≤ s.now then .next (s.modCtx el (fun c => { c with tick := 0 })) else .next s
  | _ => .next s

end Sys2Proof.Machine
end

