-- ==== Sys2Proof/Machine/Traps.lean ====
section
/-!
DEFINITION. Traps.lean: Markhor's classification of trap records and their routing (R272, R276-R279), pre-emption and resumption of a region
(R285-R291), and the scrubber (R292).
-/
namespace Sys2Proof.Machine

/-- The FAULT place bound to an object of an image (R194). -/
def Inst.faultPlace (v : Inst) (obj : Nat) : Option Nat := (v.img.places.zipIdx.find? (fun x => pKind x.1 == 2 && pBind x.1 == obj)).map Prod.snd

/-- The FAULT place a trap is routed to: a stream's own, before its section's (R194). -/
def State.faultPlaceOf (s : State) (i sid : Nat) (gen : Option (Nat × Nat)) : Option Nat :=
  match s.inst i, s.region i with
  | some v, some r =>
    let own := gen.bind (fun x => (List.filter (fun (y : Nat × (Nat × Nat)) => y.2 == x) r.gens).findSome? (fun y => v.faultPlace y.1))
    own.or (v.faultPlace sid)
  | _, _ => none

/-- A trap's token will enter its FAULT place at step 2 of the next round (R36, R278). -/
def State.deposit (s : State) (i place code : Nat) : State := s.modInst i (fun v => { v with deposits := v.deposits ++ [place * 256 + code] })

/-- A record whose trap froze its element: one of SRC 0 but a load's ILLOP, or a stream's MEMUE or HOLDOVF (R272, R273). -/
def recFreezes (r : W256) : Bool := (recSrc r == 0 && recCode r != 0x01) || (recSrc r == 1 && (recCode r == 0x12 || recCode r == 0x23))

/-- A context reinitialised from its node record: FCNT and partition kept, port queues emptied, its firings abandoned; one generator may be kept
(R278). -/
def Ctx.reinit (c : Ctx) (r : NodeRec) (snum i : Nat) (asid : BitVec 16) (keep : Option (Nat × Gen)) : Ctx :=
  let n := freshCtx r snum c.mt.spbase.toNat i asid c.regs.fcnt .reset
  match keep with | some (g, v) => { n with mt := { n.mt with gens := n.mt.gens.put g v } } | none => n

/-- The context of an instance at an element, running or set aside, reinitialised from the record of its configuration slot; its held and faulted
accesses are dropped, and it stays frozen for the traps that are still to be resolved (R278, R287). -/
def Elem.reinit (e : Elem) (snum i : Nat) (asid : BitVec 16) (keep : Option (Nat × Gen)) (traps : Nat) : Elem :=
  let e := { e with eq := e.eq.filter (fun a => a.inst != i || !(a.held || a.xlat == Xlat.faulted)) }
  if e.ctx.inst = some i then
    match e.cfg.find? e.run with
    | some r => { e with ctx := e.ctx.reinit r snum i asid keep, frozen := { trap := traps } }
    | none => e
  else
    { e with saved := e.saved.map (fun (x : Nat × Ctx) => match e.cfg.find? x.1 with
        | some r => if x.2.inst = some i then (x.1, { x.2.reinit r snum i asid keep with heldTraps := traps, heldRecs := x.2.heldRecs }) else x
        | none => x) }

/-- The records of an instance's context at an element that wait for earlier firings. -/
def Elem.waiting (e : Elem) (i : Nat) : Nat :=
  if e.ctx.inst = some i then e.traps.length
  else (e.saved.vals.map (fun c => if c.inst = some i then c.heldRecs.length else 0)).sum

/-- The streams that STRMs have started on a section's generators end with the section's invocation, but one that is kept (R201, R278, log 65). -/
def State.cutStreams (s : State) (i : Nat) (els : List Nat) (keep : Option (Nat × Nat)) : State :=
  els.foldl (fun s el => (List.range 4).foldl (fun s g =>
    let v := (s.ctxOf el i).mt.gen g
    match v.owner with
    | .strm _ _ => if keep = some (el, g) ∨ v.state = .idle ∨ v.state = .done then s else s.failStream i v.stream
    | .elem => s) s) s

/-- A collective shadow that runs in a section ends, its CSLOT with outcome 3, before the section is reinitialised. -/
def State.dropC2 (s : State) (i sid : Nat) (x : Section) : State :=
  if s.inC2 i x then
    let s := s.leaveC2 i sid x
    match (s.inst i).bind (fun v => List.find? (fun (y : Nat × FSlot) => y.2.code == 0x10 && y.2.tgt == sid && y.2.deadline.isSome) v.slots) with
    | some (k, _) => s.arrive i k 3
    | none => s
  else s

/-- An access is of the firings and streams of some elements' contexts of an instance, but of one generator's (R278). -/
def Access.abandoned (a : Access) (i : Nat) (els : List Nat) (keep : Option (Nat × Nat)) : Bool :=
  a.inst == i && (match a.by_ with
    | .elem el _ _ _ => els.contains el
    | .gen el g => els.contains el && keep != some (el, g)
    | _ => false)

/-- An access is abandoned where it stands. -/
def Access.abandon (i : Nat) (els : List Nat) (keep : Option (Nat × Nat)) (a : Access) : Access :=
  if a.abandoned i els keep then { a with gone := true } else a

/-- The accesses of a pseudo-channel changed, wherever they stand. -/
def Pch.mapAccesses (p : Pch) (f : Access → Access) : Pch :=
  { p with ibStd := p.ibStd.map f, ibNbl := p.ibNbl.map f, ibBar := p.ibBar.map f, ibRem := p.ibRem.map f,
           cq := p.cq.map (fun c => match c with | .access a => .access (f a) | c => c) }

/-- The accesses that the discarded firings and streams have issued go on and perform, but answer nobody and trap for nobody (R278). -/
def State.abandon (s : State) (i : Nat) (els : List Nat) (keep : Option (Nat × Nat)) : State :=
  let f := Access.abandon i els keep
  { s with elems := s.elems.map (fun (x : Nat × Elem) => (x.1, { x.2 with eq := x.2.eq.map f })),
           pchs := s.pchs.map (fun (x : Nat × Pch) => (x.1, x.2.mapAccesses f)),
           spadq := s.spadq.map (fun (x : Nat × List Access) => (x.1, x.2.map f)),
           dies := s.dies.map (fun (x : Nat × Die) => (x.1, { x.2 with wsq := x.2.wsq.map (fun (y : Nat × List Access) => (y.1, y.2.map f)) })),
           dom := { s.dom with unacked := s.dom.unacked.map (fun w => { w with acc := f w.acc }) } }

/-- A section's invocation is discarded (R27, R278): every element is reinitialised, in the context that runs or that is set aside, an ARM in flight ends
with outcome 3, and the next begins. `keep` is a generator whose own trap is being routed. -/
def State.discardSection (s : State) (i sid : Nat) (keep : Option (Nat × Nat)) : State :=
  match s.sect i sid with
  | none => s
  | some x =>
    let s := (s.dropC2 i sid x).abandon i x.elems keep
    let asid := match s.inst i with | some v => v.asid | none => 0
    let open_ : List W256 := match s.region i with | some r => r.traps.filter recFreezes | none => []
    let bk : List Nat := match s.region i with | some r => r.bkpts | none => []
    let s := x.nodes.foldl (fun s (n : Nat × Nat) =>
      let el := n.2
      let left := (open_.filter (fun r => recElem r == el)).length + (s.elem el).waiting i + bk.count el
      let own := match keep with | some (m, g) => if m = el then some (g, { (s.ctxOf el i).mt.gen g with failed := true }) else none | none => none
      ((s.modElem el (fun e => e.reinit (x.snum.getD 0) i asid own left)).settleTraps el).settleHeld el i) (s.cutStreams i x.elems keep)
    match x.arms with
    | a :: l => ((s.modSect i sid (fun x => { x with arms := l, fin := none, remaining := 0 })).arrive i a.slot 3).beginArm i sid
    | [] => s

/-- A trap of an element is routed: its section's invocation is discarded and a token enters the FAULT place, or the region is killed where none
is bound (R278, R281). -/
def State.routeElem (s : State) (i el code : Nat) (gen : Option Nat) : State :=
  let g := gen.map (fun g => (el, g))
  match (s.region i).bind (fun r => r.sectOf el) with
  | none => s.kill i (BitVec.ofNat 16 code)
  | some sid =>
    match s.faultPlaceOf i sid g with
    | none => s.kill i (BitVec.ofNat 16 code)
    | some p => (s.discardSection i sid g).deposit i p code

/-- A trap of a stream is routed: one that a STRM started completes that with outcome 3 and discards nothing; one that a GRUN started discards
its section's invocation (R278, R279). -/
def State.routeStream (s : State) (i el g code : Nat) : State :=
  let v := (s.ctxOf el i).mt.gen g
  match v.owner with
  | .elem => s.routeElem i el code (some g)
  | .strm _ _ =>
    match ((s.region i).bind (fun r => r.sectOf el)).bind (fun sid => s.faultPlaceOf i sid (some (el, g))) with
    | none => s.kill i (BitVec.ofNat 16 code)
    | some p =>
      ((s.modCtxOf el i (fun c => { c with mt := { c.mt with gens := c.mt.gens.put g { v with failed := true } } })).failStream i v.stream).deposit i p code

/-- A stream that a STRM started (R279). -/
def State.ofStrm (s : State) (i el g : Nat) : Bool := match ((s.ctxOf el i).mt.gen g).owner with | .strm _ _ => true | .elem => false

/-- A stream's MEMUE, which froze its element, is routed: where the invocation is not discarded the element goes on (R272, R279). -/
def State.routeMemue (s : State) (i el g code : Nat) : State :=
  let t := s.routeStream i el g code
  if s.ofStrm i el g then t.resumeElem el i else t

/-- A full hold buffer discards the invocation, whoever started the stream (R177). -/
def State.routeOverflow (s : State) (i el g code : Nat) : State :=
  let s := if s.ofStrm i el g then s.failStream i ((s.ctxOf el i).mt.gen g).stream else s
  s.routeElem i el code (some g)

/-- A trap whose fault the host declined while the region was set aside is routed at its resumption, if its element still waits for it. -/
def State.routeLater (s : State) (i el code : Nat) (gen : Option Nat) : State :=
  if (s.region i).isNone then s
  else match gen with
  | some g => s.routeStream i el g code
  | none => if (s.elem el).issued.any (fun a => a.inst == i && a.ofElem el && a.xlat == .faulted) then s.routeElem i el code none else s

/-- A CE is fenced: the defect map holds it, its section ends every later ARM with outcome 3 and its chain stays frozen until the next CFG (R168,
R278). -/
def State.fence (s : State) (i el : Nat) : State :=
  let s := { s with defects := if s.defects.contains el then s.defects else el :: s.defects }
  match (s.region i).bind (fun r => r.sectOf el) with
  | some sid => s.modSect i sid (fun x => { x with fenced := true })
  | none => s

/-- A classified XLATE of an element waits for the host; where its access is gone with its invocation, the element goes on (R276, R278). -/
def State.holdXlate (s : State) (i el : Nat) : State :=
  if ((s.elem el).issued.any (fun a => a.inst == i && a.ofElem el && a.xlat == .faulted)) then s else s.resumeElem el i

/-- Markhor handles a record that it has taken from the queue (R272, R276). -/
def State.classify (s : State) (i : Nat) (r : W256) : State :=
  let el := recElem r
  let code := recCode r
  match recSrc r, code with
  | 0, 0x01 => s
  | 0, 0x04 => s.modRegion i (fun v => { v with bkpts := v.bkpts ++ [el] })
  | 0, 0x06 => ((((s.fence i el).routeElem i el code none).freezeCtx el i).unhold i).unhold i
  | 0, 0x10 => (s.holdXlate i el).unhold i
  | 0, 0x21 => (match s.linkSegment i el ((recInfo r).toNat % 4) with
    | some t => (t.resumeElem el i).unhold i
    | none => (s.routeElem i el code none).unhold i)
  | 0, _ => (s.routeElem i el code none).unhold i
  | 1, 0x10 => s
  | 1, 0x12 => (s.routeMemue i el (recGen r) code).unhold i
  | 1, 0x23 => (s.routeOverflow i el (recGen r) code).unhold i
  | 1, _ => s.routeStream i el (recGen r) code
  | 5, 0x07 =>
    if (s.region i).any (fun v => v.badLoad) then s.kill i 0x07 else ((s.modRegion i (fun v => { v with frozen := false })).unhold i).payAcks i
  | 5, 0x20 => s.kill i 0x20
  | _, _ => s

/-- TRAP_CLASSIFY: in normal mode Markhor removes the region's oldest record and resolves it, routes it, or holds it for the host, also while the
region is set aside (R274, R276, R287). -/
def execTrapClassify (s : State) : Host.Outcome State Fault Refusal :=
  match s.focus with
  | .event (.trapClassify i) =>
    match s.region i with
    | some v =>
      match v.traps with
      | r :: l =>
        if s.cmd.mode ≠ .normal then .next s
        else .next ((s.modRegion i (fun v => { v with traps := l, given := v.given - 1 })).classify i r)
      | [] => .next s
    | none => .next s
  | _ => .next s

/-! ## Pre-emption -/

/-- A must-drain firing holds back acceptance; a COLL step that a peer has paused does not (R37, R287, R321). -/
def State.mustDrainNow (s : State) (i : Nat) (v : Inst) : Bool :=
  v.slots.vals.any (fun f => mustDrain f.code && !(f.stage == .going && f.code == 0x0F
    && (match s.collOf i f.tgt with | some (_, c) => !c.pausedBy.isEmpty | none => false)))

/-- A store of an instance is still to move into its element's hold buffer: neither its own translation nor one before it in its EQ waits for memory or for
the host (R226, R288). -/
def State.holdMoves (s : State) (el i : Nat) : Bool :=
  (s.elem el).eq.zipIdx.any (fun x => x.1.held && x.1.inst == i && x.1.xlat == .untried
    && !((s.elem el).eq.take x.2).any (fun b => s.sameTarget el b x.1 && (b.xlat == .walking || b.xlat == .faulted)))

/-- Steps 2 to 5 of R288 are done: fixed latencies have completed, but a CMIT that still hands over is a pending result, the matrix units are settled,
held stores that wait for no memory have reached their buffers and tokens on links their ports, and each generator a burst boundary, for which 64 fc are given. A region that
CFGECC has stopped moves no link. -/
def State.quiet (s : State) (i : Nat) (r : Region) (since : Nat) : Bool :=
  r.elems.all (fun el =>
    let e := s.elem el
    let c := e.ctx
    c.flights.all (fun f => f.due.isNone || c.mt.frame.cmit == some f.id) && !c.mxu.a0.unsettled && !c.mxu.a1.unsettled
    && !s.holdMoves el i
    && (c.mt.gens.vals.all (fun g => g.state != .running || g.atBoundary) || decide (since + 64 ≤ s.now)))
  && (r.frozen || s.circs.vals.all (fun c => c.inst != i || (c.passed.isEmpty && (c.via.isSome || c.flying.isEmpty))))

/-- An element's running context is set aside: a TICK keeps the fc it owes, its unresolved traps go with it, and what held for this fc alone is over
(R44, R100, R285, R288). -/
def Elem.setAside (e : Elem) (now : Nat) : Elem :=
  let c := { e.ctx.setDown now with heldTraps := e.frozen.trap, heldRecs := e.traps }
  { e with saved := e.saved.put e.run c, frozen := { trap := 0 }, traps := [], run := 1, ctx := .reset }

/-- The context of an instance comes back to its element; a CMIT that was saved goes on before the element issues (R286, R289). -/
def Elem.bringBack (e : Elem) (i now : Nat) : Elem :=
  match List.find? (fun (x : Nat × Ctx) => x.2.inst == some i) e.saved with
  | some (k, c) =>
    let frame := { c.mt.frame with resumed := c.mt.frame.cmit.isSome }
    { e with ctx := { c.takeUp now with mt := { c.mt with frame }, heldTraps := 0, heldRecs := [] }, run := k,
             saved := e.saved.drop k, cfg := e.cfg.drop 1, frozen := { trap := c.heldTraps }, traps := c.heldRecs }
  | none => e

/-- A firing restarts from the beginning on resumption: CFG, NBLD, SWAP, WSW, and a SIGN or HOSTI whose write has not left (R37). -/
def FSlot.restarts (f : FSlot) : Bool :=
  f.stage == .going && (f.code == 0x02 || f.code == 0x03 || f.code == 0x06 || f.code == 0x08 || f.code == 0x12 || (f.code == 0x09 && !f.left))

/-- The firings that restart are marked RST, and wait for nothing meanwhile (R37, R38). -/
def markRestart (f : FSlot) : FSlot := if f.restarts then { f with rst := true, asked := false, faulted := false } else f

/-- A firing that was marked is issued again from the beginning (R38, R289). -/
def FSlot.reissue (f : FSlot) : FSlot :=
  if f.rst then { f with stage := .issued, left := false, asked := false, faulted := false, waits := [], todo := [], cell := none } else f

/-- The firings of an instance that is saved: those that restart are marked; a HOSTI's record that has not left is withdrawn, and what a CFG has loaded
is invalid (R37, R290). R200 lists a pre-emption during loading among the loads that complete with outcome 3; R37 and R290 restart the CFG, and the model
follows them (log 74). -/
def State.saveFirings (s : State) (i : Nat) (v : Inst) : State :=
  let s := v.slots.foldl (fun s (x : Nat × FSlot) =>
    if x.2.restarts && x.2.code == 0x02 then
      match s.sect i x.2.tgt with
      | some y => s.dropBuffers i x.2.tgt (bits x.2.act 24 2).toNat y
      | none => s
    else s) s
  let s := s.modCmd (fun c => { c with records := c.records.filter (fun r => !r.firing.any (fun f => f.1 == i)) })
  s.modInst i (fun v => { v with slots := v.slots.map (fun (x : Nat × FSlot) => (x.1, markRestart x.2)) })

/-- The stages of a region start in C1 of its tiles, where the context that it pre-empts stands in C0 or has gone (R288, step 8). -/
def State.startSections (s : State) (j : Nat) : State :=
  match s.region j with
  | some r =>
    let s := r.elems.foldl (fun s el => s.modElem el (fun e => { e with run := 1 })) (s.modRegion j (fun r => { r with saved := false }))
    r.sects.foldl (fun s (x : Nat × Section) => match x.2.img with | some l => s.install j x.1 l false | none => s) s
  | none => s

/-- Entries put at the head of a command queue, behind the access that is being served (R257); they wake the PCH (R270), and a command that they push
back is at the head no longer (R253). -/
def Pch.putFirst (p : Pch) (now : Nat) (l : List CqEntry) : Pch :=
  let n := if p.serving.isSome && !p.holding then 1 else 0
  if l.isEmpty then p else { p.wake now with cq := p.cq.take n ++ l ++ p.cq.drop n, limit := none }

/-- The saved runs of an instance at a pseudo-channel that do not stand in its queue. -/
def Pch.outOfQueue (p : Pch) (i : Nat) : List CqEntry :=
  ((List.filter (fun (y : Nat × SavedRun) => y.2.run.inst == i) p.saved).map (fun y => CqEntry.saved y.1)).filter (fun c => !p.cq.contains c)

/-- The saved runs of an instance leave a queue: its region is set aside before they have started again (R257). -/
def Pch.recall (p : Pch) (i : Nat) : Pch :=
  let stays := fun (c : CqEntry) => match c with
    | .saved k => !(p.saved.find? k).any (fun v => v.run.inst == i)
    | _ => true
  { p with cq := p.cq.filter stays, limit := if p.cq.head?.all stays then p.limit else none }

/-- The saved runs of an instance come back to the heads of their PCHs' queues (R257). -/
def State.requeueRuns (s : State) (i : Nat) : State :=
  { s with pchs := s.pchs.map (fun (x : Nat × Pch) =>
      (x.1, x.2.putFirst s.now (x.2.outOfQueue i))) }

/-- The region is saved and the pre-empting context starts on its tiles (R288). -/
def State.setAside (s : State) (i j : Nat) (r : Region) (v : Inst) : State :=
  let s := r.sects.keys.foldl (fun s sid => s.park i sid) s
  let s := r.elems.foldl (fun s el => (s.spill el (s.elem el).run).modElem el (fun e => e.setAside s.now)) s
  let s := { s with pchs := s.pchs.map (fun (x : Nat × Pch) => (x.1, x.2.recall i)) }
  ((s.saveFirings i v).modRegion i (fun r => { r with saved := true, accepted := none })).startSections j

/-- A SWAP of the region installs in this fc (R290). -/
def State.swapsNow (s : State) (r : Region) : Bool := r.sects.vals.any (fun x => x.swapped == some s.now)

/-- PREEMPT_ACCEPT: the request is accepted once no must-drain firing is in flight, but in no fc in which a SWAP installs; the region freezes, its
gateways pause their peers, and once it is quiet it is saved and C1 starts (R287, R288, R290). A region that has gone before leaves its tiles to
the waiting context at once; where the context that asked has gone, the region goes on, its runs and its collective instances with it (R257, R321). -/
def execPreemptAccept (s : State) : Host.Outcome State Fault Refusal :=
  match s.focus with
  | .event (.preemptAccept i) =>
    match s.region i, s.inst i with
    | some r, some v =>
      match r.preempt with
      | none => .next s
      | some j =>
        if r.saved then .next s
        else if (s.region j).isNone then
          .next (((s.modRegion i (fun r => { r with preempt := none, accepted := none })).resumeColls i).requeueRuns i)
        else match r.accepted with
        | none => if s.mustDrainNow i v || s.swapsNow r then .next s else .next ((s.modRegion i (fun r => { r with accepted := some s.now })).pauseColls i)
        | some t => if s.quiet i r t then .next (s.setAside i j r v) else .next s
    | _, _ =>
      match List.find? (fun (x : Nat × Region) => x.2.preempts == some i && x.2.saved) s.regions with
      | some (j, _) => .next (s.startSections j)
      | none => .next s
  | _ => .next s

/-- The save area of a context of an instance cannot be read (R293). -/
def State.lostSave (s : State) (i : Nat) (r : Region) : Bool :=
  r.elems.any (fun el => (List.find? (fun (x : Nat × Ctx) => x.2.inst == some i) (s.elem el).saved).any (fun x => s.saveBad el x.1))

/-- CONTEXT_RESUME: the pre-empting instance has gone, and the saved region is restored on its tiles exactly as it was saved; the firings that restart
are issued again, and a save area that cannot be read ends the region (R289, R293, R298). -/
def execContextResume (s : State) : Host.Outcome State Fault Refusal :=
  match s.focus with
  | .event (.contextResume i) =>
    match s.region i with
    | some r =>
      if r.saved ∧ r.preempts.isNone = true ∧ r.preempt.any (fun j => (s.region j).isNone) = true then
        if s.lostSave i r then .next (s.kill i 0x12)
        else
        let s := r.elems.foldl (fun s el => s.modElem el (fun e => e.bringBack i s.now)) s
        let s := s.modInst i (fun v => { v with slots := v.slots.map (fun (x : Nat × FSlot) => (x.1, x.2.reissue)) })
        let s := r.sects.keys.foldl (fun s sid => s.unpark i sid) s
        let s := ((s.modRegion i (fun r => { r with saved := false, preempt := none, later := [] })).resumeColls i).requeueRuns i
        .next (r.later.foldl (fun s (x : Nat × Nat × Option Nat) => s.routeLater i x.1 x.2.1 x.2.2) s)
      else .next s
    | none => .next s
  | _ => .next s

/-- The C2 image of an instance's section at an element. -/
def State.shadowOf (s : State) (i el : Nat) : Option (List W128) := do
  let r ← s.region i
  let sid ← r.sectOf el
  let x ← s.sect i sid
  x.c2

/-- The instance whose configuration stands in a slot of an element: C2's is that of the running context, also where no CSLOT runs it (R285, R292). -/
def State.ownerOf (s : State) (el slot : Nat) : Option Nat :=
  let e := s.elem el
  if e.run = slot then (if (e.cfg.find? slot).isSome then e.ctx.inst else none)
  else if slot = 2 then e.ctx.inst.filter (fun i => (s.shadowOf i el).isSome)
  else (e.saved.find? slot).bind (fun c => c.inst)

/-- A step of the CRC-64 of R292 with a bit. -/
def crc64Bit (c : W64) (b : Bool) : W64 := if c.msb = b then c <<< 1 else (c <<< 1) ^^^ 0x42F0E1EBA9EA3693#64

/-- The CRC-64 of words, their bytes from the lowest, each bit by bit from its highest: initial value and final inversion all ones (R292, log 67). -/
def crc64 (l : List W128) : W64 :=
  ~~~(l.foldl (fun c w => (List.range 16).foldl (fun c b => (List.range 8).foldl (fun c k => crc64Bit c (w.getLsbD (8 * b + 7 - k))) c) c) (BitVec.allOnes 64))

/-- The slot words of an instance's configurations at an element: those of its C0 or C1, then those of its C2 (R292, log 67). -/
def State.slotWords (s : State) (i el : Nat) : List W128 :=
  let e := s.elem el
  let own := match e.cfg.find? (e.baseSlot i) with | some r => r.slots.vals | none => []
  let shadow := match (s.shadowOf i el).bind parseStage, (s.region i).bind (fun r => (r.sectOf el).bind (fun sid => r.sects.find? sid)) with
    | some v, some x => (List.filter (fun (n : Nat × Nat) => n.2 == el) x.nodes).flatMap (fun n => match v.nodes[n.1]? with | some r => r.slots.vals | none => [])
    | _, _ => []
  own ++ shadow

/-- The signature of a region's configurations, tile by tile (R292, log 67). -/
def State.signature (s : State) (i : Nat) : W64 :=
  let els : Tab Unit := match s.region i with | some r => r.elems.foldl (fun (t : Tab Unit) el => t.put el ()) [] | none => []
  crc64 (els.keys.flatMap (s.slotWords i))

/-- CFGECC: the region freezes until Markhor has reloaded its configurations, which may fail; INFO is log 76's layout (R272, R292). -/
def State.cfgEcc (s : State) (i el slot : Nat) (reloads : Bool) : State :=
  let s := s.modRegion i (fun v => { v with frozen := true, badLoad := v.badLoad || !reloads, holds := v.holds + 1 })
  s.trapNote i { code := 0x07, cause := 0, info := BitVec.ofNat 64 (el + slot * 2 ^ 32) } 5 0 0 0 (s.nsqElem i) 0

/-- SCRUB: an uncorrectable word in a configuration slot, or a signature that is not that of what CFG loaded, raises CFGECC; a corrected word is
rewritten without notice (R292). -/
def execScrub (s : State) : Host.Outcome State Fault Refusal :=
  match s.focus with
  | .event (.scrub el slot finding) =>
    match finding, s.ownerOf el slot with
    | .uncorrectable reloads, some i => .next (s.cfgEcc i el slot reloads)
    | .signature formed reloads, some i => if formed = s.signature i then .next s else .next (s.cfgEcc i el slot reloads)
    | _, _ => .next s
  | _ => .next s

end Sys2Proof.Machine
end

