-- ==== Sys2Proof/Machine/Mailbox.lean ====
section
/-!
DEFINITION. Mailbox.lean: the recovery mailbox's commands (R306, R333) and the host's answer to a translation fault (R279, R280, R283, R290, R295,
R340).
-/
namespace Sys2Proof.Machine

/-- A command completes with a result: 0 done, 1 unknown operation, 2 bad argument, 3 not allowed in the present mode. -/
def State.mbEnd (s : State) (r : Byte) : State := s.modCmd (fun c => { c with busy := false, result := r })

/-- Words returned in MBARG0 upward. -/
def State.mbOut (s : State) (l : List W64) : State :=
  (s.modCmd (fun c => { c with mbarg := l.zipIdx.foldl (fun (t : Tab W64) x => t.put x.2 x.1) c.mbarg })).mbEnd 0

/-- A mailbox command runs, unless the boot ROM's loader serves the mailbox and does not know it (R333). -/
def atMailbox (s : State) (rom : Bool) (f : State → State) : Host.Outcome State Fault Refusal :=
  match s.focus with
  | .mailbox => if s.bar.phase = 15 ∧ rom = false then .next (s.mbEnd 3) else .next (f s)
  | _ => .next s

/-- The number of a mode. -/
def Mode.code : Mode → Nat
  | .normal => 0 | .frozen => 1 | .direct => 2

/-- STATUS: the mode, the heartbeat's age and whether the watchdog has expired (R306, log 26). -/
def execStatus (s : State) : Host.Outcome State Fault Refusal :=
  atMailbox s true (fun s => s.mbOut [Config.mbStatus 0 s.cmd.mode.code, Config.mbStatus 1 (s.now - s.cmd.heart), Config.mbStatus 2 s.cmd.dogFired.toNat])

/-- DIRECT: enters direct mode from the frozen one (R306). -/
def execDirect (s : State) : Host.Outcome State Fault Refusal :=
  atMailbox s false (fun s => if s.cmd.mode = .frozen then (s.modCmd (fun c => { c with mode := .direct })).mbEnd 0 else s.mbEnd 3)

/-- A queue that stands in another slot leaves it. -/
def State.leaveSlot (s : State) (q : Nat) : State :=
  match (s.slotOf q).bind (fun m => (s.cmd.slots.find? m).map (fun h => (m, h))) with
  | some (m, h) => s.unmapSlot m h
  | none => s

/-- MAP: a queue is mapped to a slot of a die, which the strip then serves in direct mode (R306). A slot that holds another queue is a bad
argument. -/
def execMap (qcb die slot : W64) (s : State) : Host.Outcome State Fault Refusal :=
  atMailbox s false (fun s =>
    let n := die.toNat * 64 + slot.toNat
    if s.cmd.mode ≠ .direct then s.mbEnd 3
    else if 65536 ≤ qcb.toNat ∨ 16 ≤ die.toNat ∨ 64 ≤ slot.toNat then s.mbEnd 2
    else match s.cmd.slots.find? n with
    | some h => if h.qcb = qcb.toNat then (s.modHw n (fun h => { h with byMap := true })).mbEnd 0 else s.mbEnd 2
    | none => ((s.leaveSlot qcb.toNat).mapQueue qcb.toNat n true).mbEnd 0)

/-- UNMAP: a queue leaves its slot and its state is saved to the QCB; one in its launch stage leaves that first (R298, R306). -/
def execUnmap (die slot : W64) (s : State) : Host.Outcome State Fault Refusal :=
  atMailbox s false (fun s =>
    let n := die.toNat * 64 + slot.toNat
    if s.cmd.mode ≠ .direct then s.mbEnd 3
    else if 16 ≤ die.toNat ∨ 64 ≤ slot.toNat then s.mbEnd 2
    else match s.cmd.slots.find? n with
    | some h => if h.stage = .launch then s else (s.unmapSlot n h).mbEnd 0
    | none => s.mbEnd 2)

/-- QRESUME: clears a queue error, and the queue goes on at the failing packet (R300, R306). -/
def execQresume (qcb : W64) (s : State) : Host.Outcome State Fault Refusal :=
  atMailbox s false (fun s =>
    let q := qcb.toNat
    if 65536 ≤ q then s.mbEnd 2
    else
      let s := s.modCmd (fun c => { c with errs := c.errs.drop q })
      (match s.slotOf q with
      | some n => s.modHw n (fun h => { h with stage := if h.stage == SlotStage.stopped then SlotStage.fetch else h.stage })
      | none => s).mbEnd 0)

/-- The regions of an ASID. -/
def State.regionsOf (s : State) (asid : W64) : List Nat :=
  (List.filter (fun (x : Nat × Inst) => x.2.asid.toNat == asid.toNat && (s.region x.1).isSome) s.insts).map Prod.fst

/-- KILL: ends the regions of an ASID, with STATUS 0x0100 (R281, R306). -/
def execKill (asid : W64) (s : State) : Host.Outcome State Fault Refusal :=
  atMailbox s false (fun s =>
    match s.regionsOf asid with
    | [] => s.mbEnd 2
    | l => (l.foldl (fun s i => s.kill i 0x0100) s).mbEnd 0)

/-- A BKPT's record (R272). -/
def isBkpt (r : W256) : Bool := recSrc r == 0 && recCode r == 0x04

/-- Records that satisfy a predicate leave a region's queue; the cursor of TRAPGET keeps its place. -/
def Region.dropRecords (r : Region) (p : W256 → Bool) : Region :=
  { r with traps := r.traps.filter (fun x => !p x), given := r.given - ((r.traps.take r.given).filter p).length }

/-- The contexts' BKPT records that wait for earlier firings leave an element; their number. -/
def Elem.takeBkpts (e : Elem) (i : Nat) : Nat × Elem :=
  if e.ctx.inst = some i then ((e.traps.filter isBkpt).length, { e with traps := e.traps.filter (fun r => !isBkpt r) })
  else
    ((e.saved.vals.map (fun c => if c.inst = some i then (c.heldRecs.filter isBkpt).length else 0)).sum,
     { e with saved := e.saved.map (fun (x : Nat × Ctx) =>
        if x.2.inst = some i then (x.1, { x.2 with heldRecs := x.2.heldRecs.filter (fun r => !isBkpt r) }) else x) })

/-- A region's elements that BKPT holds run again, and their records are resolved (R272, R306). -/
def State.resumeBkpts (s : State) (i : Nat) : State :=
  match s.region i with
  | none => s
  | some r =>
    let late := r.elems.flatMap (fun el => List.replicate ((s.elem el).takeBkpts i).1 el)
    let s := r.elems.foldl (fun s el => s.modElem el (fun e => (e.takeBkpts i).2)) s
    let els := r.bkpts ++ (r.traps.filter isBkpt).map recElem ++ late
    let s := s.modRegion i (fun r => { r.dropRecords isBkpt with bkpts := [] })
    els.foldl (fun s el => (s.resumeElem el i).unhold i) s

/-- RESUME: resumes the elements of an ASID's regions that a BKPT holds for the host (R306). -/
def execResume (asid : W64) (s : State) : Host.Outcome State Fault Refusal :=
  atMailbox s false (fun s =>
    match s.regionsOf asid with
    | [] => s.mbEnd 2
    | l => (l.foldl State.resumeBkpts s).mbEnd 0)

/-- TRAPGET: the next unclassified record of an ASID in MBARG0-3 (R306). -/
def execTrapget (asid : W64) (s : State) : Host.Outcome State Fault Refusal :=
  atMailbox s false (fun s =>
    match s.regionsOf asid with
    | [] => s.mbEnd 2
    | l =>
      match l.findSome? (fun i => (s.region i).bind (fun r => r.traps[r.given]?.map (fun t => (i, t)))) with
      | some (i, t) => (s.modRegion i (fun r => { r with given := r.given + 1 })).mbOut ((List.range 4).map (fun n => bits t (64 * n) 64))
      | none => s.mbOut ((List.range 4).map Config.mbEmpty))

/-- The number of a fault's kind. -/
def FaultKind.code : FaultKind → Nat
  | .read => 0 | .write => 1 | .atomic => 2

/-- A word by which FAULTGET tells the host of an entry (log 26). -/
def FaultEntry.word (f : FaultEntry) (n : Nat) : W64 := Config.mbFault n f.num f.page f.asid.toNat f.kind.code f.cause

/-- The entries of every fault FIFO, with their dies. -/
def State.faultList (s : State) : List (Nat × FaultEntry) := s.dies.flatMap (fun (x : Nat × Die) => x.2.faults.map (fun f => (x.1, f)))

/-- FAULTGET: the next entry of the fault FIFOs in MBARG0-3; MBARG0 is what FAULTDONE names it by (R283, R306, log 26). -/
def execFaultget (s : State) : Host.Outcome State Fault Refusal :=
  atMailbox s false (fun s =>
    match s.faultList.find? (fun x => !x.2.given) with
    | some (d, f) =>
      (s.modDie d (fun v => { v with faults := v.faults.map (fun y => if y.num = f.num then { y with given := true } else y) })).mbOut
        ((List.range 4).map f.word)
    | none => s.mbOut ((List.range 4).map Config.mbEmpty))

/-! ## FAULTDONE -/

/-- The element accesses that wait on a fault entry (R283). -/
def State.faultAccesses (s : State) (die : Nat) (f : FaultEntry) : List Access :=
  s.dieAccesses die (fun a => a.xlat == .faulted && a.asid == f.asid && a.va / 65536 == f.page && a.kind.faultKind == f.kind)

/-- An access's record that Markhor has not classified is resolved with its fault: it leaves the queue and its hold ends (R276, R306). -/
def State.dropXlate (s : State) (a : Access) : State :=
  let mine := fun (el : Nat) (r : W256) => recSrc r == 0 && recCode r == 0x10 && recElem r == el && (recInfo r).toNat == a.va
  match a.by_ with
  | .elem el _ _ _ =>
    (match s.region a.inst with
    | some r =>
      if r.traps.any (mine el) then (s.modRegion a.inst (fun r => r.dropRecords (mine el))).unhold a.inst
      else if (s.elem el).traps.any (mine el) then
        (s.modElem el (fun e => { e with traps := e.traps.filter (fun r => !mine el r) })).unhold a.inst
      else if (s.ctxOf el a.inst).heldRecs.any (mine el) then
        (s.modCtxOf el a.inst (fun c => { c with heldRecs := c.heldRecs.filter (fun r => !mine el r) })).unhold a.inst
      else s
    | none => s)
  | _ => s

/-- The code and cause of a declined fault: PROT with CAUSE 3 where the page exists, else XLATE (R283). -/
def State.declinedCode (s : State) (i va : Nat) : Nat :=
  match s.inst i with
  | some v => (match s.walk va 0 v.root 4 with | .leaf _ _ => 0x11 | .fault _ => 0x10)
  | none => 0x10

/-- A declined access is routed, at the region's resumption where that is set aside (R278, R279, R283). -/
def State.declineAccess (s : State) (die : Nat) (f : FaultEntry) (a : Access) : State :=
  if (s.faultAccesses die f).any (fun b => b.id == a.id) then
    let code := s.declinedCode a.inst a.va
    let saved := match s.region a.inst with | some r => r.saved | none => false
    let s := s.dropXlate a
    match a.by_ with
    | .elem el _ _ _ =>
      if saved then s.modRegion a.inst (fun r => { r with later := r.later ++ [(el, code, none)] }) else s.routeElem a.inst el code none
    | .gen el g =>
      if saved then s.modRegion a.inst (fun r => { r with later := r.later ++ [(el, code, some g)] }) else s.routeStream a.inst el g code
    | _ => s
  else s

/-- The NSQ actions and mirrors that wait on a declined fault: an action completes with outcome 3, a CFG's buffers are invalidated, and a
mirror stays at 0 (R280, R290, R340). -/
def State.declineNsq (s : State) (die : Nat) (f : FaultEntry) : State :=
  (s.nsqsOf die f.asid).foldl (fun s x =>
    let s := x.2.slots.foldl (fun s (y : Nat × FSlot) =>
      if y.2.attached x.2.img f then
        let s := if y.2.code = 0x02 then (match s.sect x.1 y.2.tgt with | some v => s.dropBuffers x.1 y.2.tgt (bits y.2.act 24 2).toNat v | none => s) else s
        (s.modSlot x.1 y.1 (fun z => { z with faulted := false })).arrive x.1 y.1 3
      else s) s
    s.modInst x.1 (fun v => { v with mirrors := v.mirrors.map (fun (m : Nat × Mirror) =>
      if m.2.attached x.2.img m.1 f then (m.1, { m.2 with fault := 2 }) else m) })) s

/-- The strip's waits for a declined fault are queue errors of class 7 (R295, R300). -/
def State.declineStrip (s : State) (die : Nat) (f : FaultEntry) : State :=
  let hit := fun (d : Nat) (asid : BitVec 16) (m : Option Miss) => d == die && asid == f.asid && m.any (fun m => m.1 / 65536 == f.page && m.2 == f.kind)
  let va := fun (m : Option Miss) => match m with | some m => m.1 | none => 0
  let slots := List.filter (fun (x : Nat × HwSlot) => hit (x.1 / 64) (s.qAsid x.2.qcb) x.2.miss) s.cmd.slots
  let kids := List.filter (fun (x : Nat × Child) => hit (s.qDie x.2.qcb) x.2.asid x.2.miss) s.cmd.children
  let recs := s.cmd.records.filter (fun r => hit (s.qDie r.qcb) (s.qAsid r.qcb) r.miss)
  let tts : List (Nat × TtEntry × TtJob) := s.cmd.tt.filterMap (fun (x : Nat × TtEntry) => match x.2.queued with
    | some j => if hit (s.qDie j.qcb) (s.qAsid j.qcb) x.2.miss then some (x.1, x.2, j) else none
    | none => none)
  let s := s.modCmd (fun c =>
    { c with records := c.records.filter (fun r => !recs.contains r), children := kids.foldl (fun (t : Tab Child) x => t.drop x.1) c.children,
             tt := tts.foldl (fun (t : Tab TtEntry) x => t.put x.1 { x.2.1 with queued := none, miss := none }) c.tt })
  let s := slots.foldl (fun s (x : Nat × HwSlot) => s.queueError x.2.qcb 7 x.2.head.toNat (va x.2.miss) x.2.tag true) s
  let s := kids.foldl (fun s (x : Nat × Child) => s.queueError x.2.qcb 7 x.2.ring.toNat (va x.2.miss) x.2.hdr.tag true) s
  let s := recs.foldl (fun s r => s.queueError r.qcb 7 r.ring.toNat (va r.miss) r.tag false) s
  tts.foldl (fun s x => s.queueError x.2.2.qcb 7 x.2.2.ring.toNat (va x.2.1.miss) x.2.2.hdr.tag true) s

/-- FAULTDONE: the host has resolved a fault, and every access attached to it goes on, or declines it (R283, R306). -/
def execFaultdone (entry answer : W64) (s : State) : Host.Outcome State Fault Refusal :=
  atMailbox s false (fun s =>
    match s.faultList.find? (fun x => x.2.given && x.2.word 0 == entry) with
    | none => s.mbEnd 2
    | some (d, f) =>
      if 1 < answer.toNat then s.mbEnd 2
      else
        let accs := s.faultAccesses d f
        let s := s.modDie d (fun v => { v with faults := v.faults.filter (fun y => y.num != f.num) })
        if answer = 1 then ((accs.foldl State.dropXlate s).retryFault d f).mbEnd 0
        else (((accs.foldl (fun s a => s.declineAccess d f a) s).declineNsq d f).declineStrip d f).mbEnd 0)

/-- SETSYS: writes FLAGS.SYS of a queue (R295, R306). -/
def execSetsys (qcb value : W64) (s : State) : Host.Outcome State Fault Refusal :=
  atMailbox s false (fun s =>
    let q := qcb.toNat
    if 65536 ≤ q ∨ 1 < value.toNat then s.mbEnd 2
    else
      let w := fun (w : W64) => (w &&& ~~~0x2000000000000#64) ||| (value <<< 49)
      let s := s.qcbWrite q [(6, w ((s.qcbWords q).getD 6 0))]
      (match s.slotOf q with
      | some n => s.modHw n (fun h => { h with rw := h.rw.set 6 (w (h.rw.getD 6 0)) })
      | none => s).mbEnd 0)

/-- RESTART: the boot ROM reloads the firmware; the device returns to normal mode with its mappings, or boots again out of the mailbox loader; the
firmware signals the faults that stand and that the host has not been given (R306, R333). -/
def execRestart (s : State) : Host.Outcome State Fault Refusal :=
  atMailbox s true (fun s =>
    if s.bar.phase = 15 then (s.modBar (fun b => { b with phase := 0, fail := 0 })).mbEnd 0
    else if s.cmd.mode = .normal then s.mbEnd 3
    else
      let t := (s.modCmd (fun c => { c with mode := .normal, heart := s.now, dog := s.now, dogFired := false })).mbEnd 0
      if s.faultList.any (fun x => !x.2.given) then t.raiseMsi 0 else t)

/-- LINKTRAIN: takes a port down and begins its training (R306, R308). -/
def execLinktrain (port : W64) (s : State) : Host.Outcome State Fault Refusal :=
  atMailbox s false (fun s =>
    if 24 ≤ port.toNat then s.mbEnd 2
    else ((s.failPort port.toNat).modPort port.toNat (fun p => { p with state := 1 })).mbEnd 0)

end Sys2Proof.Machine
end

