-- ==== Sys2Proof/Machine/Monitor.lean ====
section
/-!
DEFINITION. Monitor.lean: the MHUs (R330, R336, R337), the lifetime records (R330, R338), power and temperature (R335), and boot (R333).
-/
namespace Sys2Proof.Machine

/-- An MHU, die * 64 + n. -/
def State.mhu (s : State) (k : Nat) : Mhu := s.mon.mhus.getD k .reset

/-- The bin of a sample (R337). -/
def mhuBin (cfg : W64) (v : Nat) : Nat :=
  if cfg.getLsbD 62 then (if v = 0 then 0 else min 31 (Nat.log2 v + 1)) else min 31 (v / 2 ^ (bits cfg 56 6).toNat)

/-- A sample, saturated to 32 bits, updates MIN, MAX, COUNT and one bin (R337). -/
def Mhu.sample (m : Mhu) (v : Nat) : Mhu :=
  let v := Nat.min v (2 ^ 32 - 1)
  let w := BitVec.ofNat 32 v
  let b := mhuBin m.cfg v
  { m with lmin := if w.toNat < m.lmin.toNat then w else m.lmin, lmax := if m.lmax.toNat < w.toNat then w else m.lmax, lcnt := satInc m.lcnt,
           lbins := m.lbins.put b (satInc (m.lbins.getD b 0)) }

/-- The samples of an fc enter the live values as it ends: a SNAP of that fc leaves them to the new period (R337). -/
def Mhu.settle (m : Mhu) : Mhu := { m.fresh.foldl Mhu.sample m with fresh := [] }

/-- The samples of the fc that ends enter the live values of every MHU. -/
def State.settleMhus (s : State) : State :=
  s.modMon (fun m => { m with mhus := m.mhus.map (fun (x : Nat × Mhu) => (x.1, x.2.settle)) })

/-- The live values go into the read registers (R337, SNAP). -/
def Mhu.snap (m : Mhu) : Mhu := { m with min := m.lmin, max := m.lmax, cnt := m.lcnt, bins := m.lbins }

/-- The live values start afresh (R337, CLR). -/
def Mhu.clear (m : Mhu) : Mhu := { m with lmin := 0xFFFFFFFF#32, lmax := 0, lcnt := 0, lbins := [] }

/-- The MHUs of a die that a mask selects are changed. -/
def State.modMhus (s : State) (die : Nat) (mask : W64) (f : Nat → Mhu → Mhu) : State :=
  s.modMon (fun m => { m with mhus := (List.range 64).foldl (fun (t : Tab Mhu) n =>
    if mask.getLsbD n then t.put (die * 64 + n) (f (die * 64 + n) (t.getD (die * 64 + n) .reset)) else t) m.mhus })

/-- The MHU that an LTSEL entry selects (R330). -/
def ltselMhu (w : BitVec 16) : Option Nat := if w.getLsbD 15 then some ((bits w 10 4).toNat * 64 + (bits w 0 6).toNat) else none

/-- The MHUs whose histograms enter the lifetime records, by the LTSEL in force (R338). -/
def Mon.selected (m : Mon) : List Nat := ((List.range 16).filterMap (fun k => ltselMhu (m.inForce.getD k 0))).eraseDups

/-- MHU_SAMPLE: a sample of an enabled MHU's source joins those of the fc (R336, R337). -/
def execMhuSample (s : State) : Host.Outcome State Fault Refusal :=
  match s.focus with
  | .event (.mhuSample die n v) =>
    let k := die * 64 + n
    if (s.mhu k).cfg.getLsbD 63 then .next (s.modMon (fun m => { m with mhus := m.mhus.put k { s.mhu k with fresh := (s.mhu k).fresh ++ [v] } })) else .next s
  | _ => .next s

/-- MHUCTL_SNAP: live values of the selected MHUs go into their read registers, all in one fc (R337). -/
def execMhuctlSnap (s : State) : Host.Outcome State Fault Refusal :=
  match s.focus with
  | .event (.mhuctlSnap die mask) => .next (s.modMhus die mask (fun _ m => m.snap))
  | _ => .next s

/-- MHUCTL_CLR: with SNAP, the live values start afresh, but those of an MHU that the lifetime records select (R337, R338). -/
def execMhuctlClr (s : State) : Host.Outcome State Fault Refusal :=
  match s.focus with
  | .event (.mhuctlClr die mask) => .next (s.modMhus die mask (fun k m => if s.mon.selected.contains k then m else m.clear))
  | _ => .next s

/-! ## Lifetime records -/

/-- An hour in fc. -/
def hourFc : Nat := 5760000000000

/-- Saturating addition. -/
def satAdd {w : Nat} (a b : BitVec w) : BitVec w := if 2 ^ w ≤ a.toNat + b.toNat then BitVec.allOnes w else a + b

/-- An MHU's values of the hour are added to its lifetime values (R338). -/
def LifeVals.add (l : LifeVals) (m : Mhu) : LifeVals :=
  { l with min := if m.lmin.toNat < l.min.toNat then m.lmin else l.min, max := if l.max.toNat < m.lmax.toNat then m.lmax else l.max,
           cnt := satAdd l.cnt m.lcnt,
           bins := m.lbins.foldl (fun (t : Tab W64) (x : Nat × W32) => t.put x.1 (satAdd (t.getD x.1 0) (x.2.setWidth 64))) l.bins }

/-- An MHU's lifetime values before its first hour. -/
def LifeVals.zero (k : Nat) : LifeVals := { mhu := BitVec.ofNat 16 k, min := 0xFFFFFFFF#32, max := 0, cnt := 0, bins := [] }

/-- The snapshot of an hour: every selected MHU is snapped and cleared, and its values added (R338). -/
def State.hourly (s : State) : State :=
  s.mon.selected.foldl (fun s k =>
    let m := s.mhu k
    s.modMon (fun v => { v with life := v.life.put k ((v.life.getD k (.zero k)).add m), mhus := v.mhus.put k m.snap.clear })) s

/-- The hours that have passed are counted (R338). -/
def State.passHours (s : State) (h : Nat) : State :=
  s.modMon (fun m => { m with hour := h, fixed := m.fixed.put 0 (satAdd (m.fixed.getD 0 0) (BitVec.ofNat 64 (h - m.hour))) })

/-- LIFETIME_RECORD: each hour Markhor snapshots the selected MHUs and writes a record, of which flash keeps 8,192; a change of LTSEL takes effect.
An hour in which Markhor has stopped writes none (R338). -/
def execLifetimeRecord (s : State) : Host.Outcome State Fault Refusal :=
  match s.focus with
  | .event .lifetimeRecord =>
    let h := s.now / hourFc
    if h ≤ s.mon.hour then .next s
    else
      let s := s.passHours h
      let next := fun (s : State) => s.modMon (fun m => { m with inForce := m.ltsel })
      if s.bar.phase ≠ 5 ∨ s.cmd.mode ≠ .normal then .next (next s)
      else
        let s := s.hourly
        let r : LifeRec := { hour := h, fwver := s.cmd.fwver, ltsel := s.mon.inForce, vals := s.mon.selected.map (fun k => s.mon.life.getD k (.zero k)),
                             fixed := s.mon.fixed, bad := false }
        .next (next (s.modMon (fun m => { m with recs := (r :: m.recs).take 8192 })))
  | _ => .next s

/-- LTIDX_FETCH: a write of LTIDX clears READY and BAD and starts the fetch (R330). -/
def execLtidxFetch (s : State) : Host.Outcome State Fault Refusal :=
  match s.focus with
  | .event (.ltidxFetch age) => .next (s.modMon (fun m => { m with age, ready := false, bad := false, fetching := true }))
  | _ => .next s

/-- LTWIN_READY: Markhor places the record of the asked age in LTWIN, and sets BAD beside READY where its CRC fails; with none of that age the window is
zeros and BAD is set (R330, R338). -/
def execLtwinReady (s : State) : Host.Outcome State Fault Refusal :=
  match s.focus with
  | .event .ltwinReady =>
    if s.mon.fetching = false ∨ s.cmd.mode ≠ .normal then .next s
    else match s.mon.recs[s.mon.age.toNat]? with
    | some r => .next (s.modMon (fun m => { m with window := some r, ready := true, bad := r.bad, fetching := false }))
    | none => .next (s.modMon (fun m => { m with window := none, bad := true, fetching := false }))
  | _ => .next s

/-! ## Power -/

/-- The mean input power of the last millisecond (R335). -/
def Bar.mean (b : Bar) : Nat := if b.watts.isEmpty then 0 else b.watts.sum / b.watts.length

/-- The level after a measurement: one step up above an enforced LIMIT, else one step down; HOT forces 15 (R335). -/
def Bar.nextLevel (b : Bar) : Nat :=
  if b.hot then 15
  else if b.capEn ∧ b.cap.toNat < b.mean then min 15 (b.level + 1)
  else b.level - 1

/-- POWER_CONTROL: every 100 us input power is measured and LEVEL moves by one step; 10 ms above LIMIT at level 15 set OVER and raise vector 0
(R335). -/
def execPowerControl (s : State) : Host.Outcome State Fault Refusal :=
  match s.focus with
  | .event (.powerControl w) =>
    if s.now < s.bar.measured + 160000 then .next s
    else
      let b := { s.bar with measured := s.now, watts := (w.toNat :: s.bar.watts).take 10 }
      let run := if b.level = 15 ∧ b.cap.toNat < b.mean then b.overFor + 1 else 0
      let set := decide (100 ≤ run)
      let b := { b with level := b.nextLevel, overFor := if set then 0 else run, overCap := b.overCap || set }
      let t : State := { s with bar := b }
      .next (if set && !s.bar.overCap then t.raiseMsi 0 else t)
  | _ => .next s

/-- DIE_TEMPERATURE_HOT: a die sensor crosses 105 degrees: HOT follows it, forces level 15, and is counted (R335, R338). -/
def execDieTemperatureHot (s : State) : Host.Outcome State Fault Refusal :=
  match s.focus with
  | .event (.dieTemperatureHot hot) =>
    let t := s.modBar (fun b => { b with hot, level := if hot then 15 else b.level })
    .next (if hot && !s.bar.hot then t.bump 9 else t)
  | _ => .next s

/-- PWRSTAT_WRITE: a written 1 clears OVER (R335). -/
def execPwrstatWrite (s : State) : Host.Outcome State Fault Refusal :=
  match s.focus with
  | .event (.pwrstatWrite v) => .next (s.modBar (fun b => { b with overCap := b.overCap && !v.getLsbD 27 }))
  | _ => .next s

/-! ## Boot -/

/-- FAIL of the step that follows a phase (R333); the start of Markhor has no failure of its own. -/
def bootFail (phase : Nat) : Option Nat :=
  match phase with
  | 0 => some 1 | 1 => some 2 | 2 => some 3 | 4 => some 4 | _ => none

/-- Step 5 is done: the firmware runs, its watchdog starts, and the reset is counted (R333, R305, R338). -/
def State.ready (s : State) : State :=
  ((s.modBar (fun b => { b with phase := 5 })).modCmd (fun c => { c with heart := s.now, dog := s.now, dogFired := false })).bump 10

/-- BOOT: the next step of the boot succeeds, or fails into the mailbox loader (R333). -/
def execBoot (s : State) : Host.Outcome State Fault Refusal :=
  match s.focus with
  | .event (.boot ok) =>
    if 5 ≤ s.bar.phase then .next s
    else if ok then .next (if s.bar.phase = 4 then s.ready else s.modBar (fun b => { b with phase := b.phase + 1 }))
    else match bootFail s.bar.phase with
    | some f => .next (s.modBar (fun b => { b with fail := f, phase := 15 }))
    | none => .next s
  | _ => .next s

end Sys2Proof.Machine
end

