-- ==== Sys2Proof/Machine/Host.lean ====
section
/-!
DEFINITION. Host.lean: the host's accesses through the three BARs (R327-R329) and the device registers of BAR0 (R329-R335).
-/
namespace Sys2Proof.Machine

/-- The register at an offset of BAR0, mailbox included: its offset and its width in bytes (R306, R329, R330). -/
def regAt (o : Nat) : Option (Nat × Nat) :=
  let one := fun (b w : Nat) => if b ≤ o ∧ o < b + w then some (b, w) else none
  let fixed := [(0x00, 16), (0x10, 8), (0x20, 4), (0x30, 4), (0x34, 4), (0x40, 4), (0x48, 4), (0x50, 4), (0x60, 8), (0x68, 8), (0x70, 4), (0x80, 16), (0x90, 4),
                (0x4020, 4)]
  if o < 0x100 ∨ (0x4020 ≤ o ∧ o < 0x4024) then fixed.findSome? (fun x => one x.1 x.2)
  else if o < 0x200 then (if o % 16 < 12 then some (o / 4 * 4, 4) else none)
  else if o < 0x260 then some (o / 4 * 4, 4)
  else if 0x1000 ≤ o ∧ o < 0x2000 then some (o / 4 * 4, 4)
  else if 0x2000 ≤ o ∧ o < 0x4000 then some (0x2000, 8192)
  else if 0x4000 ≤ o ∧ o < 0x4020 then some (o / 2 * 2, 2)
  else if 0x100000 ≤ o ∧ o < 0x140000 then
    (let b := o / 256 * 256
     let r := o % 256
     if r < 8 then some (b, 8) else if r < 16 then some (o / 4 * 4, 4) else if r < 32 then some (o / 8 * 8, 8)
     else if r < 0xA0 then some (o / 4 * 4, 4) else some (b + 0xA0, 0x60))
  else if 0x140000 ≤ o ∧ o < 0x140100 then some (o / 16 * 16, 16)
  else if 0xF00000 ≤ o ∧ o < 0xF00030 then some (o / 8 * 8, 8)
  else none

/-- The register that an access of a width reaches: its own width, or an aligned 32-bit part of it (R329). -/
def regFor (o width : Nat) : Option (Nat × Nat) :=
  match regAt o with
  | some (b, w) => if (o = b ∧ width = w) ∨ (width = 4 ∧ o % 4 = 0 ∧ o + 4 ≤ b + w) then some (b, w) else none
  | none => none

/-- The usable tiles of a type (R9). -/
def State.usable (s : State) (t : ElemType) : Nat := 16384 - (s.defects.filter (fun el => elType el == t)).length

/-- DEVCAP (R331). -/
def State.devcap (s : State) : Nat :=
  s.wsOffset s.bar.wsdie.toNat * 2 ^ 111 + s.bar.wsdie.toNat * 2 ^ 104 + s.usable .mt * 2 ^ 88 + s.usable .ce * 2 ^ 72 + 3 * 2 ^ 64 + 2 ^ 48 + 2 ^ 32
    + 0x0100003F

/-- PWRSTAT (R335). -/
def Bar.pwrstat (b : Bar) : Nat := b.level * 2 ^ 28 + b.overCap.toNat * 2 ^ 27 + b.hot.toNat * 2 ^ 26 + b.mean % 2 ^ 13

/-- TTSTAT (R302). -/
def Ptp.ttstat (p : Ptp) : Nat := p.miss.toNat * 2 ^ 16 + p.setp.toNat * 4 + p.valid.toNat * 2 + p.lock.toNat

/-- FPSTAT of a port (R308). -/
def Port.fpstat (p : Port) : Nat := p.retry.toNat * 2 ^ 16 + p.ver.toNat * 2 ^ 8 + p.lanes.toNat * 4 + p.state.toNat

/-- A word of an MHU by its offset (R330). -/
def Mhu.word (m : Mhu) (r : Nat) : Nat :=
  if r = 0 then m.cfg.toNat else if r = 8 then m.min.toNat else if r = 12 then m.max.toNat else if r = 16 then m.cnt.toNat
  else if 32 ≤ r ∧ r < 0xA0 then (m.bins.getD ((r - 32) / 4) 0).toNat else 0

/-- The value that a register reads as (R302, R306, R329-R335). -/
def State.regValue (s : State) (b : Nat) : Nat :=
  if b < 0x100 then
    (match b with
    | 0x00 => s.devcap
    | 0x10 => s.bar.hostneg.toNat + s.bar.errNeg.toNat * 4 + s.bar.okNeg.toNat * 2
    | 0x20 => s.bar.fail * 256 + s.bar.phase
    | 0x30 => s.bar.capEn.toNat * 2 ^ 31 + s.bar.cap.toNat
    | 0x34 => s.bar.pwrstat
    | 0x48 => s.cmd.kickerr.toNat
    | 0x50 => s.dom.self.toNat
    | 0x68 => s.ptpNow
    | 0x70 => s.ptp.ttstat
    | 0x80 => s.bar.tlbVa.toNat * 2 ^ 16 + s.bar.tlbAsid.toNat
    | 0x90 => s.bar.tlbSize.toNat * 4 + s.bar.tlbDone.toNat * 2
    | _ => 0)
  else if b < 0x200 then
    (let r := s.stk ((b - 0x100) / 16)
     match b % 16 with
     | 0 => r.arb.toNat
     | 4 => r.alerts.toNat * 2 ^ 16 + r.thr.toNat
     | _ => r.sren.toNat * 2 + r.pden.toNat)
  else if b < 0x260 then (s.port ((b - 0x200) / 4)).fpstat
  else if b < 0x2000 then (s.dom.routes.getD ((b - 0x1000) / 4) 0).toNat
  else if b < 0x4000 then s.cmd.pendmap.foldl (fun n q => n ||| 2 ^ q) 0
  else if b < 0x4020 then (s.mon.ltsel.getD ((b - 0x4000) / 2) 0).toNat
  else if b = 0x4020 then s.mon.ready.toNat * 2 ^ 31 + s.mon.bad.toNat * 2 ^ 30 + s.mon.age.toNat
  else if 0x100000 ≤ b ∧ b < 0x140000 then (s.mhu ((b - 0x100000) / 0x4000 * 64 + b / 256 % 64)).word (b % 256)
  else if b = 0xF00000 then s.cmd.mbcmd.toNat
  else if 0xF00008 ≤ b ∧ b ≤ 0xF00020 then (s.cmd.mbarg.getD ((b - 0xF00008) / 8) 0).toNat
  else if b = 0xF00028 then s.cmd.result.toNat * 256 + s.cmd.busy.toNat
  else 0

/-- What an access of a width at an offset reads of a register. -/
def State.regPart (s : State) (b o width : Nat) : Nat := s.regValue b / 2 ^ (8 * (o - b)) % 2 ^ (8 * width)

/-- A register's value with a part written; a write-only register's other bits are 0 but for PTPSET's TIME. -/
def State.regMerge (s : State) (b o width v : Nat) : Nat :=
  let old := if b = 0x60 then s.ptp.setv.toNat else if 0x140000 ≤ b ∧ b < 0x140100 then 0 else s.regValue b
  let sh := 2 ^ (8 * (o - b))
  old - old / sh % 2 ^ (8 * width) * sh + v % 2 ^ (8 * width) * sh

/-- The host's read is answered. -/
def State.answerHost (s : State) (v : Nat) : State := s.modBar (fun b => { b with reply := some v, readNo := 0 })

/-- A read ends as an unsupported request (R327). -/
def State.unsupported (s : State) : State := s.modBar (fun b => { b with reply := none, readNo := 0 })

/-! ## Registers that change on a read -/

/-- KICKERR_READ: the count is returned and cleared (R329). -/
def execKickerrRead (s : State) : Host.Outcome State Fault Refusal :=
  match s.focus with
  | .event .kickerrRead => .next ((s.answerHost (s.regValue 0x48)).modCmd (fun c => { c with kickerr := 0 }))
  | _ => .next s

/-- TTSTAT_READ: TTSTAT is returned and MISS cleared (R302). -/
def execTtstatRead (s : State) : Host.Outcome State Fault Refusal :=
  match s.focus with
  | .event .ttstatRead =>
    let t := s.answerHost (s.regValue 0x70)
    .next { t with ptp := { t.ptp with miss := 0 } }
  | _ => .next s

/-- STKRAM_READ: STKRAM is returned and ALERTS cleared (R267). -/
def execStkramRead (s : State) : Host.Outcome State Fault Refusal :=
  match s.focus with
  | .event (.stkramRead d) =>
    let t := s.answerHost (s.regValue (0x104 + 16 * d))
    .next { t with stkRegs := t.stkRegs.put d { t.stk d with alerts := 0 } }
  | _ => .next s

/-- FPSTAT_READ: FPSTAT is returned and RETRY cleared (R308). -/
def execFpstatRead (s : State) : Host.Outcome State Fault Refusal :=
  match s.focus with
  | .event (.fpstatRead n) => .next ((s.answerHost (s.regValue (0x200 + 4 * n))).modPort n (fun p => { p with retry := 0 }))
  | _ => .next s

/-! ## Register writes -/

/-- The versions that DEVCAP offers accept those of a GO (R331, R332). -/
def versionsOk (v : W64) : Bool := bits v 56 8 == 1 && bits v 48 8 == 0 && bits v 40 8 == 1 && bits v 32 8 == 0 && bits v 24 8 == 1 && bits v 16 8 == 0

/-- HOSTNEG_GO: the versions come into force, or ERR is set; refused while any instance runs (R332). -/
def execHostnegGo (s : State) : Host.Outcome State Fault Refusal :=
  match s.focus with
  | .event (.hostnegGo v) =>
    let f := v &&& 0xFFFFFFFFFFFF0000#64
    if versionsOk v && s.insts.isEmpty then .next (s.modBar (fun b => { b with hostneg := f, inForce := f, okNeg := true, errNeg := false }))
    else .next (s.modBar (fun b => { b with hostneg := f, errNeg := true }))
  | _ => .next s

/-- MHUCFG as written: reserved bits read 0, and a reserved SRC leaves EN clear (R336). -/
def mhuCfg (v : W64) : W64 :=
  let v := v &&& ~~~0x00FF000000000000#64
  if 6 < (bits v 40 8).toNat then v &&& 0x7FFFFFFFFFFFFFFF#64 else v

/-- A register takes a value (R254, R267, R269, R284, R306, R330-R332, R335, R336); one that the host may not write keeps its own. -/
def State.regSet (s : State) (b m : Nat) : State :=
  let w := BitVec.ofNat 128 m
  if b < 0x100 then
    (match b with
    | 0x00 => s.modBar (fun v => { v with wsdie := bits w 104 4 })
    | 0x10 => s.modBar (fun v => { v with hostneg := bits w 0 64 &&& 0xFFFFFFFFFFFF0000#64 })
    | 0x30 => s.modBar (fun v => { v with capEn := w.getLsbD 31, cap := if 1500 ≤ (bits w 0 13).toNat ∧ (bits w 0 13).toNat ≤ 5600 then bits w 0 13 else v.cap })
    | 0x80 => s.modBar (fun v => { v with tlbVa := bits w 16 56, tlbAsid := bits w 0 16 })
    | 0x90 => s.modBar (fun v => { v with tlbSize := bits w 2 2 })
    | _ => s)
  else if b < 0x200 then
    (let d := (b - 0x100) / 16
     let r := s.stk d
     let thr := (bits w 0 13).toNat
     let r := match b % 16 with
       | 0 => { r with arb := bits w 0 3 }
       | 4 => { r with thr := if 16 ≤ thr ∧ thr ≤ 4096 then bits w 0 13 else r.thr }
       | _ => { r with sren := w.getLsbD 1, pden := w.getLsbD 0 }
     { s with stkRegs := s.stkRegs.put d r })
  else if 0x4000 ≤ b ∧ b < 0x4020 then s.modMon (fun v => { v with ltsel := v.ltsel.put ((b - 0x4000) / 2) (bits w 0 16 &&& 0xBC3F#16) })
  else if 0x100000 ≤ b ∧ b < 0x140000 ∧ b % 256 = 0 then
    (let k := (b - 0x100000) / 0x4000 * 64 + b / 256 % 64
     s.modMon (fun v => { v with mhus := v.mhus.put k { v.mhus.getD k .reset with cfg := mhuCfg (bits w 0 64) } }))
  else if 0xF00008 ≤ b ∧ b ≤ 0xF00020 then s.modCmd (fun c => { c with mbarg := c.mbarg.put ((b - 0xF00008) / 8) (bits w 0 64) })
  else s

/-- REGISTER_WRITE: a host write to a device register with no behaviour of its own (R329). -/
def execRegisterWrite (s : State) : Host.Outcome State Fault Refusal :=
  match s.focus with
  | .event (.registerWrite o width v) =>
    match regFor o width with
    | some (b, _) => .next (s.regSet b (s.regMerge b o width v.toNat))
    | none => .next s
  | _ => .next s

/-- A write to MBCMD starts a command unless one is in progress; [63:8] read 0 (R7, R306). -/
def State.mbStart (s : State) (m : Nat) : State :=
  if s.cmd.busy then s else (s.modCmd (fun c => { c with mbcmd := BitVec.ofNat 64 (m % 256), busy := true })).push [.mailbox]

/-- A register write does what its register says: an event of its own, or the plain write (R329). -/
def State.regWrite (s : State) (b o width v : Nat) : State :=
  let m := s.regMerge b o width v
  let plain : Event := .registerWrite o width (BitVec.ofNat 128 v)
  if b = 0x10 ∧ m % 2 = 1 then s.push [.event (.hostnegGo (BitVec.ofNat 64 m))]
  else if b = 0x34 then s.push [.event (.pwrstatWrite (BitVec.ofNat 32 m &&& (if o = b ∧ width = 4 then BitVec.ofNat 32 v else 0)))]
  else if b = 0x40 then s.push [.event (.wdpet false)]
  else if b = 0x60 then s.push [.event (.ptpset (BitVec.ofNat 64 m))]
  else if b = 0x90 ∧ m % 2 = 1 then s.push [.event plain, .event (.tlbinvGo (BitVec.ofNat 2 (m / 4)))]
  else if b = 0x4020 then s.push [.event (.ltidxFetch (BitVec.ofNat 13 m))]
  else if 0x140000 ≤ b ∧ b < 0x140100 then
    (let d := (b - 0x140000) / 16
     if m / 2 ^ 64 % 2 = 0 then s
     else s.push (.event (.mhuctlSnap d (BitVec.ofNat 64 m)) :: (if m / 2 ^ 65 % 2 = 1 then [.event (.mhuctlClr d (BitVec.ofNat 64 m))] else [])))
  else if b = 0xF00000 then s.mbStart m
  else s.push [.event plain]

/-- A register read: its value, with the event of a register that a read changes. -/
def State.regRead (s : State) (b o width : Nat) : State :=
  if b = 0x48 then s.push [.event .kickerrRead]
  else if b = 0x70 then s.push [.event .ttstatRead]
  else if 0x100 ≤ b ∧ b < 0x200 ∧ b % 16 = 4 then s.push [.event (.stkramRead ((b - 0x100) / 16))]
  else if 0x200 ≤ b ∧ b < 0x260 then s.push [.event (.fpstatRead ((b - 0x200) / 4))]
  else s.answerHost (s.regPart b o width)

/-! ## The BARs -/

/-- Part of a host access, the bytes from `done` on that lie in one token: an access by PA in the BAR aperture (R221, R223). A read's part carries its
place in what the read returns. -/
def State.hostPart (s : State) (a : HostAccess) (pa no done n : Nat) : State :=
  let id := s.fresh
  let c := stdCell (pa + done)
  id.2.toIngress
    { id := id.1, by_ := .host a.req, kind := if a.write.isSome then .write else .read, tgt := .dram, inst := 0, asid := 0, va := pa + done, bytes := n,
      data := BitVec.ofNat 256 (match a.write with | some v => v / 2 ^ (8 * done) % 2 ^ (8 * n) | none => done), data2 := 0, xlat := .done, ap := .bar,
      pch := c.1, off := c.2, held := false, scope := 0, work := no, sent := s.now, waited := 0, leaf := 0, gone := false }

/-- The parts of a host access from `done` on, token by token, at most k of them. -/
def State.hostParts (s : State) (a : HostAccess) (pa no : Nat) : Nat → Nat → State
  | 0, _ => s
  | k + 1, done =>
    if a.width ≤ done then s
    else
      let n := min (a.width - done) (32 - (pa + done) % 32)
      (s.hostPart a pa no done n).hostParts a pa no k (done + n)

/-- An access through a window to DRAM: it goes to the BAR aperture as accesses by PA, token by token, and a read returns what they read together (R221,
R223, R327). -/
def State.hostDram (s : State) (pa : Nat) (a : HostAccess) : State :=
  let s := if a.write.isSome then s else s.modBar (fun b => { b with reply := some 0, readNo := s.nextId })
  s.hostParts a pa s.nextId (a.width / 32 + 2) 0

/-- The MSI-X table is read and written in naturally aligned parts of 4, 8 or 16 bytes (R327, log 27). -/
def State.msixAccess (s : State) (o : Nat) (a : HostAccess) : State :=
  if (a.width = 4 ∨ a.width = 8 ∨ a.width = 16) ∧ o % a.width = 0 then
    let e := o / 16
    let old := (s.bar.msixTab.getD e 0).toNat
    let sh := 2 ^ (8 * (o % 16))
    let n := 2 ^ (8 * a.width)
    match a.write with
    | some v => s.modBar (fun b => { b with msixTab := b.msixTab.put e (BitVec.ofNat 128 (old - old / sh % n * sh + v % n * sh)) })
    | none => s.answerHost (old / sh % n)
  else if a.write.isSome then s else s.unsupported

/-- Free values, 32 bytes each, side by side. -/
def State.freeBytes (s : State) : Nat → Nat × State
  | 0 => (0, s)
  | k + 1 =>
    let r := s.freeVal.2.freeBytes k
    (s.freeVal.1.toNat + 2 ^ 256 * r.1, r.2)

/-- A read of a place whose contents the spec does not lay out returns a free value (log 27). -/
def State.answerFree (s : State) (width : Nat) : State :=
  let r := s.freeBytes ((width + 31) / 32)
  r.2.answerHost (r.1 % 2 ^ (8 * width))

/-- The bytes of LTWIN: the record, or zeros where there is none (R330, log 27). -/
def State.ltwin (s : State) (o : Nat) : Nat → Nat
  | 0 => 0
  | n + 1 => (match s.mon.window with | some r => (Config.ltwinByte o r.nums).toNat | none => 0) + 256 * s.ltwin (o + 1) n

/-- An access to BAR0 (R297, R327, R329). -/
def State.bar0 (s : State) (a : HostAccess) : State :=
  let o := a.off
  let drop := if a.write.isSome then s else s.unsupported
  if o < 0xF01000 then
    (match regFor o a.width with
    | some (b, _) => (match a.write with
      | some v => s.regWrite b o a.width v
      | none => s.regRead b o a.width)
    | none => drop)
  else if 0x1000000 ≤ o ∧ o < 0x1100000 then
    (match a.write with
    | some v => if a.width = 8 ∧ o % 4096 ≤ 4088 then s.push [.event (.kick a.req ((o - 0x1000000) / 4096) (BitVec.ofNat 64 v))] else s
    | none => s.answerFree a.width)
  else if 0x1100000 ≤ o ∧ o + a.width ≤ 0x1101000 then s.msixAccess (o - 0x1100000) a
  else if 0x1101000 ≤ o ∧ o + a.width ≤ 0x1104000 then (if a.write.isSome then s else s.answerFree a.width)
  else if 0x1104000 ≤ o ∧ o + a.width ≤ 0x1105000 then (if a.write.isSome then s else s.answerHost (s.ltwin (o - 0x1104000) a.width))
  else drop

/-- HOST_BAR_ACCESS: a host access reaches its BAR's range; outside, a read completes as an unsupported request and a write is dropped (R327). -/
def execHostBarAccess (s : State) : Host.Outcome State Fault Refusal :=
  match s.focus with
  | .event (.hostBarAccess a) =>
    let drop := if a.write.isSome then s else s.unsupported
    if a.width = 0 then .next s
    else match a.bar with
    | 0 => if a.off < 2 ^ 25 then .next (s.bar0 a) else .next drop
    | 2 => if a.off + a.width ≤ 2 ^ 40 then .next (s.hostDram a.off a) else .next drop
    | 4 => if a.off + a.width ≤ 2 ^ 26 then .next (s.hostDram (0xFFC000000 + a.off) a) else .next drop
    | _ => .next drop
  | _ => .next s

end Sys2Proof.Machine
end

