-- ==== Sys2Proof/Machine/Matrix.lean ====
section
/-!
DEFINITION. Matrix.lean: class 0x8, the matrix unit (R62, R63, R157-R169). A step's cells are updated at its issue and its
bank settles 63 fc later (R157, log 18).
-/
namespace Sys2Proof.Machine

/-- Cell (i, j) of a bank. -/
def AccBank.cell (b : AccBank) (i j : Nat) : W32 := b.cells.getD (32 * i + j) 0

/-- A table of the 1,024 cells, zeros left out. -/
def cellTab (f : Nat → Nat → W32) : Tab W32 :=
  (List.range 1024).filterMap (fun n => let v := f (n / 32) (n % 32); if v = 0 then none else some (n, v))

/-- A bank emptied (R159, R165). -/
def AccBank.zero (_ : AccBank) : AccBank := .reset

/-- The state with the bank of MOD[0] changed. -/
def State.modBank (s : State) (el : Nat) (one : Bool) (f : AccBank → AccBank) : State :=
  s.modMxu el (fun m => if one then { m with a1 := f m.a1 } else { m with a0 := f m.a0 })

/-- How a step covers a bank and reads its operands (R158). -/
inductive StepMode where
  | eight | paired | mixed | sixteen
  deriving DecidableEq, Repr

/-- An 8-bit family: binary8, unsigned binary8 or INT8. -/
def isByteFam (f : Fam) : Bool := f == .b8 || f == .b8u || f == .i8

/-- The mode of a step from its head families and H; none: FMTBAD (R158). -/
def stepMode (h : Bool) (a b : Fam) : Option StepMode :=
  if h then (if (a == .f16 || a == .bf16) && (b == .f16 || b == .bf16) then some .sixteen else none)
  else if isByteFam a && isByteFam b then some .eight
  else if a == .i4 && b == .i4 then some .paired
  else if (a == .i4 && isByteFam b) || (b == .i4 && isByteFam a) then some .mixed
  else none

/-- The k values a step consumes. -/
def StepMode.kvals : StepMode → Nat
  | .paired => 2
  | _ => 1

/-- A step runs in integer mode: both operands INT8 or INT4 with MX = 0 (R63). -/
def integerStep (a b : Fmt) : Bool :=
  (a.fam == .i8 || a.fam == .i4) && (b.fam == .i8 || b.fam == .i4) && !a.mx && !b.mx

/-- The scale exponents of an operand in force: 127 where its descriptor has MX = 0 (R62). -/
def mxScaleOf (f : Fmt) (t : Tab Byte) (l : Nat) : Nat := if f.mx then (t.getD l 127).toNat else 127

/-- Value of index i of an operand at k value q in a mode (R54, R158). -/
def stepValue (m : StepMode) (f : Fmt) (v : W256) (i q : Nat) : FVal :=
  match m with
  | .sixteen => f.decode (lane 16 v i)
  | .eight => f.decode (lane 8 v i)
  | .paired => f.decode (lane 4 v (2 * i + q))
  | .mixed => if f.fam = .i4 then f.decode (lane 4 v (2 * i)) else f.decode (lane 8 v i)

/-- The integer value of an integer operand. -/
def FVal.toInt : FVal → Int
  | .fin s m e => (if s then -1 else 1) * (shiftNat m e : Nat)
  | _ => 0

/-- A product with its scales, 0xFF making it NaN (R62, R63). -/
def scaledProduct (a b : FVal) (sa sb : Nat) : FVal :=
  if sa = 255 ∨ sb = 255 then .nan else (a.mul b).scale ((sa : Int) + sb - 254)

/-- A cell plus an exact sum: one rounding in float mode, wrapped with a sticky overflow in integer mode (R63). The Bool says
that the exact sum left INT32. -/
def accumulate (int : Bool) (c : W32) (sum : FVal) : W32 × Bool :=
  if int then
    let v := c.toInt + sum.toInt
    (BitVec.ofInt 32 v, decide (v < intMin 32) || decide (intMax 32 < v))
  else (BitVec.ofNat 32 (f32Code ((fmt32.decodeF c.toNat).add .rne sum)), false)

/-- A bank with some cells accumulated into: `p i j` is the sum for a cell, none where the step does not reach it. -/
def AccBank.step (b : AccBank) (int : Bool) (now : Nat) (p : Nat → Nat → Option FVal) : AccBank :=
  let upd := fun i j => match p i j with | some v => accumulate int (b.cell i j) v | none => (b.cell i j, false)
  { b with cells := cellTab (fun i j => (upd i j).1)
           ovf := b.ovf || (List.range 1024).any (fun n => (upd (n / 32) (n % 32)).2)
           mode := if int then .integer else .float
           settles := some (now + 63) }

/-- The checks of a step that need its mode: the bank's mode and the scales that remain (R158); the FT that FMTBAD names. -/
def stepBad (m : Mxu) (b : AccBank) (fa fb : Fmt) (k fta ftb : Nat) (fresh : Bool) : Option Nat :=
  if fa.mx ∧ m.arem < k then some fta
  else if fb.mx ∧ m.brem < k then some ftb
  else if !fresh && b.mode != .zeroed && (b.mode == .integer) != integerStep fa fb then some fta
  else none

/-- The scale counts after a step (R159). -/
def Mxu.spend (m : Mxu) (fa fb : Fmt) (k : Nat) : Mxu :=
  { m with arem := if fa.mx then m.arem - k else m.arem, brem := if fb.mx then m.brem - k else m.brem }

/-- The heads a step reads, with their formats and FTs. -/
structure StepIn where
  a   : W256
  b   : W256
  fa  : Fmt
  fb  : Fmt
  fta : Nat
  ftb : Nat

/-- The heads of opA and opB decoded by their own FTs (R158). -/
def stepIn (v : Opnds) : StepIn :=
  let fta := match v.ta with | some t => t.ft.toNat | none => 0
  let ftb := match v.tb with | some t => t.ft.toNat | none => 0
  { a := v.a, b := v.b, fa := fmtAt v.fmttab fta, fb := fmtAt v.fmttab ftb, fta, ftb }

/-- The sum a step gives cell (i, j) in a mode; none outside the quadrant in 16-bit mode (R158, R159). -/
def stepSum (m : Mxu) (y : StepIn) (sm : StepMode) (q : Nat) (i j : Nat) : Option FVal :=
  match sm with
  | .sixteen =>
    let r := 16 * (q / 2)
    let c := 16 * (q % 2)
    if r ≤ i ∧ i < r + 16 ∧ c ≤ j ∧ j < c + 16 then
      some ((stepValue sm y.fa y.a (i - r) 0).mul (stepValue sm y.fb y.b (j - c) 0))
    else none
  | _ =>
    let term := fun k => scaledProduct (stepValue sm y.fa y.a i k) (stepValue sm y.fb y.b j k)
      (mxScaleOf y.fa m.scaleA i) (mxScaleOf y.fb m.scaleB j)
    some (if sm = .paired then (term 0).add .rne (term 1) else term 0)

/-- MMA and MMAZ (R159). -/
def mmaAct (x : Slot) (zeroFirst : Bool) : ActFn := fun s f v =>
  let y := stepIn v
  let m := (s.elem f.el).ctx.mxu
  let one := x.mod.getLsbD 0
  match stepMode (x.mod.getLsbD 1) y.fa.fam y.fb.fam with
  | none => .error (fmtBad (if stepMode (x.mod.getLsbD 1) y.fa.fam y.fa.fam = none then y.fta else y.ftb))
  | some sm =>
    match stepBad m (m.bank one) y.fa y.fb sm.kvals y.fta y.ftb zeroFirst with
    | some t => .error (fmtBad t)
    | none =>
      let upd := fun (b : AccBank) =>
        (if zeroFirst then b.zero else b).step (integerStep y.fa y.fb) s.now (stepSum m y sm (bits x.mod 2 2).toNat)
      .ok { eff := fun t => (t.modBank f.el one upd).modMxu f.el (fun m => m.spend y.fa y.fb sm.kvals) }

/-- MMA: one step into a bank (R159). -/
def execMma (x : Slot) (s : State) : Host.Outcome State Fault Refusal := fire .mma x s (mmaAct x false)
/-- MMAZ: the bank zeroed, then one step (R159). -/
def execMmaz (x : Slot) (s : State) : Host.Outcome State Fault Refusal := fire .mmaz x s (mmaAct x true)

/-- A step in 8-bit mode whose sums are given; INT4 and wider heads raise FMTBAD (R160, R161). -/
def byteStep (x : Slot) (s : State) (f : Firing) (v : Opnds) (p : Mxu → StepIn → Nat → Nat → Option FVal) : Except TrapReq Act :=
  let y := stepIn v
  let m := (s.elem f.el).ctx.mxu
  let one := x.mod.getLsbD 0
  if !isByteFam y.fa.fam then .error (fmtBad y.fta)
  else if !isByteFam y.fb.fam then .error (fmtBad y.ftb)
  else match stepBad m (m.bank one) y.fa y.fb 1 y.fta y.ftb false with
  | some t => .error (fmtBad t)
  | none =>
    let upd := fun (b : AccBank) => b.step (integerStep y.fa y.fb) s.now (p m y)
    .ok { eff := fun t => (t.modBank f.el one upd).modMxu f.el (fun m => m.spend y.fa y.fb 1) }

/-- MMV: column 0 of the bank, with lane opC[4:0] of opB (R160). -/
def execMmv (x : Slot) (s : State) : Host.Outcome State Fault Refusal :=
  fire .mmv x s (fun s f v => byteStep x s f v (fun m y i j =>
    if j = 0 then some (scaledProduct (stepValue .eight y.fa y.a i 0) (stepValue .eight y.fb y.b (bits v.c 0 5).toNat 0)
      (mxScaleOf y.fa m.scaleA i) (mxScaleOf y.fb m.scaleB 0))
    else none))

/-- MMSP: each value of opB goes to the column its coordinate byte names; a coordinate 32-254 raises FMTBAD (R161). -/
def execMmsp (x : Slot) (s : State) : Host.Outcome State Fault Refusal :=
  fire .mmsp x s (fun s f v =>
    let co := fun q => lane 8 v.c q
    if (List.range 32).any (fun q => decide (31 < co q) && co q != 255) then .error (fmtBad (stepIn v).ftb)
    else byteStep x s f v (fun m y i j =>
      match (List.range 32).filter (fun q => co q == j) with
      | [] => none
      | q :: l =>
        let term := fun q => scaledProduct (stepValue .eight y.fa y.a i 0) (stepValue .eight y.fb y.b q 0)
          (mxScaleOf y.fa m.scaleA i) (mxScaleOf y.fb m.scaleB j)
        some (l.foldl (fun sum q => sum.add .rne (term q)) (term q))))

/-- MXB: the head's bytes become the scales of an operand's next 32 k values (R62, R162). -/
def execMxb (x : Slot) (s : State) : Host.Outcome State Fault Refusal :=
  fire .mxb x s (fun _ f v =>
    let t : Tab Byte := (List.range 32).filterMap (fun l =>
      let b : Byte := BitVec.ofNat 8 (lane 8 v.a l)
      if b = 127 then none else some (l, b))
    let load := fun (m : Mxu) => if x.mod.getLsbD 1 then { m with scaleB := t, brem := 32 } else { m with scaleA := t, arem := 32 }
    .ok { eff := fun s => s.modMxu f.el load })

/-- The value of a cell under its bank's mode (R163). -/
def AccBank.value (b : AccBank) (i j : Nat) : FVal :=
  if b.mode = .integer then .ofInt (b.cell i j).toInt else fmt32.decodeF (b.cell i j).toNat

/-- Conv of ACCR for one cell (R164). -/
def accConv (b : AccBank) (t : Fmt) (e : Nat) (rm : RM) (sat : Bool) (i j : Nat) (srng : W32) : Rounded :=
  if e = 255 then
    (if t.fam.isFloat then t.roundTo .nan rm sat srng else { code := 0, out := false, srng := srng })
  else
    let v := (b.value i j).scale ((e : Int) - 127)
    if t.fam.isFloat then t.roundTo v rm sat srng
    else if b.mode = .integer ∧ e = 127 then t.narrowInt (b.cell i j).toInt sat srng
    else t.roundToInt v rm srng

/-- The tokens of a row in a format (R164). -/
def rowTokens (t : Fmt) : Nat := if t.fam.width ≤ 8 then 1 else t.fam.width / 8

/-- ACCR: the next part of the lowest row not sent, converted to slot T; nothing once every row has been sent (R164). Where PART
was left by a slot of another width and names columns past 31, the result, and under SR the draws, are free (log 16). -/
def execAccr (x : Slot) (s : State) : Host.Outcome State Fault Refusal :=
  fire .accr x s (fun s f v =>
    let one := x.mod.getLsbD 0
    let b := (s.elem f.el).ctx.mxu.bank one
    let t := fmtAt v.fmttab (slotF x)
    match (List.range 32).find? (fun i => !b.rmask.getLsbD i) with
    | none =>
      -- the result is not stated: a free value reaches a register, and no token is emitted (log 16)
      .ok { out := { val := (s.freeVal).1, rc := true, ports := some [] }, lat := some 2, eff := fun t => (t.freeVal).2 }
    | some i =>
      let tr := rowTokens t
      let n := 32 / tr
      let r := mapLanes t.fam.width n (fun c g =>
        let w := accConv b t (immBits x 8 8) (RM.ofCode (immBits x 0 3)) (slotSat x) i (b.part * n + c) g
        { code := w.code, flag := false, srng := w.srng }) v.srng
      let last := b.part + 1 == tr
      let mask : W32 := if last then b.rmask ||| (1#32 <<< i) else b.rmask
      let upd := fun (b : AccBank) => { b with rmask := mask, part := if last then 0 else (b.part + 1) % 4 }
      if 32 < (b.part + 1) * n then
        let a := s.freeVal
        let d := a.2.freeVal
        .ok { out := { val := a.1, rc := mask == 0xFFFFFFFF#32,
                       srng := if RM.ofCode (immBits x 0 3) = .sr then some (bits d.1 0 32) else none },
              lat := some 2, eff := fun t => (((t.freeVal).2.freeVal).2).modBank f.el one upd }
      else .ok { out := { val := r.1, rc := mask == 0xFFFFFFFF#32, srng := some r.2.2 }, lat := some 2,
                 eff := fun t => t.modBank f.el one upd })

/-- ACCW: eight raw cells of row IMM[4:0], part IMM[6:5]; a bank in the other mode raises FMTBAD (R165). -/
def execAccw (x : Slot) (s : State) : Host.Outcome State Fault Refusal :=
  fire .accw x s (fun s f v =>
    let one := x.mod.getLsbD 0
    let mode : AccMode := if x.mod.getLsbD 1 then .integer else .float
    let b := (s.elem f.el).ctx.mxu.bank one
    if b.mode ≠ .zeroed ∧ b.mode ≠ mode then .error (fmtBad 0)
    else
      let row := immBits x 0 5
      let col := 8 * immBits x 5 2
      let upd := fun (b : AccBank) =>
        { b with mode := mode, cells := cellTab (fun i j =>
            if i = row ∧ col ≤ j ∧ j < col + 8 then BitVec.ofNat 32 (lane 32 v.a (j - col)) else b.cell i j) }
      .ok { eff := fun t => t.modBank f.el one upd })

/-- ACCZ: the bank zeroed, with RMASK, PART, OVF and MODE (R165). -/
def execAccz (x : Slot) (s : State) : Host.Outcome State Fault Refusal :=
  fire .accz x s (fun _ f _ => .ok { eff := fun t => t.modBank f.el (x.mod.getLsbD 0) AccBank.zero })

/-- A cell times 2^n under its bank's mode, and whether an exact integer left INT32 (R166). -/
def AccBank.scaleCell (b : AccBank) (n : Int) (i j : Nat) : W32 × Bool :=
  match b.mode with
  | .zeroed => (b.cell i j, false)
  | .float => (BitVec.ofNat 32 (f32Code ((b.value i j).scale n)), false)
  | .integer =>
    let c := (b.cell i j).toInt
    if 0 ≤ n then
      let v := c * 2 ^ n.toNat
      (BitVec.ofInt 32 v, decide (v < intMin 32) || decide (intMax 32 < v))
    else (BitVec.ofInt 32 (c / 2 ^ (-n).toNat), false)

/-- A bank with every cell replaced, unsettled for 33 fc (R157). -/
def AccBank.whole (b : AccBank) (now : Nat) (g : Nat → Nat → W32 × Bool) : AccBank :=
  { b with cells := cellTab (fun i j => (g i j).1)
           ovf := b.ovf || (List.range 1024).any (fun n => (g (n / 32) (n % 32)).2)
           settles := some (now + 33) }

/-- ACCS: every cell times 2^n, n = IMM[7:0] signed (R166). -/
def execAccs (x : Slot) (s : State) : Host.Outcome State Fault Refusal :=
  fire .accs x s (fun s f _ =>
    let upd := fun (b : AccBank) => b.whole s.now (b.scaleCell (bits x.imm 0 8).toInt)
    .ok { lat := some 33, busy := 32, eff := fun t => t.modBank f.el (x.mod.getLsbD 0) upd })

/-- ACCA: bank t takes t + (1 - t), cell by cell; two different modes raise FMTBAD (R166). -/
def execAcca (x : Slot) (s : State) : Host.Outcome State Fault Refusal :=
  fire .acca x s (fun s f _ =>
    let one := x.mod.getLsbD 0
    let m := (s.elem f.el).ctx.mxu
    let b := m.bank one
    let o := m.bank (!one)
    if b.mode ≠ .zeroed ∧ o.mode ≠ .zeroed ∧ b.mode ≠ o.mode then .error (fmtBad 0)
    else
      let sum := fun i j => accumulate (b.mode == .integer) (b.cell i j) (o.value i j)
      let new : AccBank :=
        if o.mode = .zeroed then b
        else if b.mode = .zeroed then { b with cells := o.cells, mode := o.mode }
        else b.whole s.now sum
      let due := some (s.now + 33)
      .ok { lat := some 33, busy := 32,
            eff := fun t => (t.modBank f.el one (fun _ => { new with settles := due })).modBank f.el (!one)
              (fun b => { b with settles := due }) })

/-- TRNS: the bank transposed; RMASK and PART cleared (R166). -/
def execTrns (x : Slot) (s : State) : Host.Outcome State Fault Refusal :=
  fire .trns x s (fun s f _ =>
    let upd := fun (b : AccBank) => { b.whole s.now (fun i j => (b.cell j i, false)) with rmask := 0, part := 0 }
    .ok { lat := some 33, busy := 32, eff := fun t => t.modBank f.el (x.mod.getLsbD 0) upd })

/-- MDRN: RC is OVF of A0 or OVF of A1 (R167). -/
def execMdrn (x : Slot) (s : State) : Host.Outcome State Fault Refusal :=
  fire .mdrn x s (fun s f _ =>
    let m := (s.elem f.el).ctx.mxu
    .ok { out := { rc := m.a0.ovf || m.a1.ovf } })

/-- MSTAT: the bank's MSTAT word; RC is OVF, which CLR then clears (R167). -/
def execMstat (x : Slot) (s : State) : Host.Outcome State Fault Refusal :=
  fire .mstat x s (fun s f _ =>
    let b := (s.elem f.el).ctx.mxu.bank (x.mod.getLsbD 0)
    let clr := fun (b : AccBank) => if x.mod.getLsbD 1 then { b with ovf := false } else b
    .ok { out := { val := BitVec.ofNat 256 b.mstat, rc := b.ovf }, eff := fun t => t.modBank f.el (x.mod.getLsbD 0) clr })

/-- MTEST: 128 fc with the picker idle, then judged (R168). -/
def execMtest (x : Slot) (s : State) : Host.Outcome State Fault Refusal :=
  fire .mtest x s (fun _ _ _ => .ok { lat := some 128, busy := 128, fin := .mtest })

/-- RAST: the section's next rasterisation entry as a HEAD's layout, RC 1; 0 with RC 0 once the table is exhausted (R169). -/
def execRast (x : Slot) (s : State) : Host.Outcome State Fault Refusal :=
  fire .rast x s (fun s f _ =>
    match s.sectOf f.el with
    | none => .ok { lat := some 8 }
    | some (i, sid) =>
      match (s.sect i sid).bind (fun v => v.rast[v.cur]?) with
      | none => .ok { lat := some 8 }
      | some e => .ok { out := { val := (bits e 0 48).setWidth 256, rc := true }, lat := some 8,
                        eff := fun t => t.modSect i sid (fun v => { v with cur := v.cur + 1 }) })

/-- BANK_SETTLED: a bank whose 63 or 33 fc have passed is settled (R157). -/
def execBankSettled (s : State) : Host.Outcome State Fault Refusal :=
  match s.focus with
  | .event (.bankSettled el b) =>
    match ((s.elem el).ctx.mxu.bank (b == 1)).settles with
    | some t => if t ≤ s.now then .next (s.modBank el (b == 1) (fun v => { v with settles := none })) else .next s
    | none => .next s
  | _ => .next s

end Sys2Proof.Machine
end

