-- ==== Sys2Proof/Machine/Special.lean ====
section
/-!
DEFINITION. Special.lean: class 0x6, special functions (R141-R148).
-/
namespace Sys2Proof.Machine

/-- A special function of one operand in every lane, its final rounding the only one that draws (R141). -/
def special (g : Sfn) : PureFn := fun x i => do
  let f ← floatFmt x i
  floatLanes i f (fun l s => (f.roundTo (g.val (fl f i.a l)) (slotMode x) (slotSat x) s).nanLane f)

/-- FRCP (R144). -/
def valFrcp : PureFn := special .rcp
/-- FRSQ (R145). -/
def valFrsq : PureFn := special .rsq
/-- FSQRT (R145). -/
def valFsqrt : PureFn := special .sqrt
/-- FEXP2 (R142). -/
def valFexp2 : PureFn := special .exp2
/-- FLOG2 (R143). -/
def valFlog2 : PureFn := special .log2
/-- FSIN (R146). -/
def valFsin : PureFn := special .sin
/-- FCOS (R146). -/
def valFcos : PureFn := special .cos
/-- FTANH (R147). -/
def valFtanh : PureFn := special .tanh
/-- FSIGM (R147). -/
def valFsigm : PureFn := special .sigm
/-- FERF (R147). -/
def valFerf : PureFn := special .erf
/-- FEXP (R142). -/
def valFexp : PureFn := special .exp
/-- FDIV (R141, R144). -/
def valFdiv : PureFn := fun x i => do
  let f ← floatFmt x i
  floatLanes i f (fun l s => (f.roundTo (divVal (fl f i.a l) (fl f i.b l)) (slotMode x) (slotSat x) s).nanLane f)

/-- FRCP: lane-wise reciprocal by the stated steps (R144). -/
def execFrcp (x : Slot) (s : State) : Host.Outcome State Fault Refusal := firePure .frcp x s valFrcp
/-- FRSQ: lane-wise reciprocal square root (R145). -/
def execFrsq (x : Slot) (s : State) : Host.Outcome State Fault Refusal := firePure .frsq x s valFrsq
/-- FSQRT: lane-wise square root (R145). -/
def execFsqrt (x : Slot) (s : State) : Host.Outcome State Fault Refusal := firePure .fsqrt x s valFsqrt
/-- FEXP2: lane-wise base-2 exponential (R142). -/
def execFexp2 (x : Slot) (s : State) : Host.Outcome State Fault Refusal := firePure .fexp2 x s valFexp2
/-- FLOG2: lane-wise base-2 logarithm (R143). -/
def execFlog2 (x : Slot) (s : State) : Host.Outcome State Fault Refusal := firePure .flog2 x s valFlog2
/-- FSIN: lane-wise sine (R146). -/
def execFsin (x : Slot) (s : State) : Host.Outcome State Fault Refusal := firePure .fsin x s valFsin
/-- FCOS: lane-wise cosine (R146). -/
def execFcos (x : Slot) (s : State) : Host.Outcome State Fault Refusal := firePure .fcos x s valFcos
/-- FTANH: lane-wise hyperbolic tangent (R147). -/
def execFtanh (x : Slot) (s : State) : Host.Outcome State Fault Refusal := firePure .ftanh x s valFtanh
/-- FSIGM: lane-wise logistic sigmoid (R147). -/
def execFsigm (x : Slot) (s : State) : Host.Outcome State Fault Refusal := firePure .fsigm x s valFsigm
/-- FERF: lane-wise error function (R147). -/
def execFerf (x : Slot) (s : State) : Host.Outcome State Fault Refusal := firePure .ferf x s valFerf
/-- FEXP: lane-wise natural exponential (R142). -/
def execFexp (x : Slot) (s : State) : Host.Outcome State Fault Refusal := firePure .fexp x s valFexp
/-- FDIV: lane-wise floating-point division (R144). -/
def execFdiv (x : Slot) (s : State) : Host.Outcome State Fault Refusal := firePure .fdiv x s valFdiv

end Sys2Proof.Machine
end

