-- ==== Sys2Proof/Machine/Dispatch.lean ====
section
/-!
DEFINITION. Dispatch.lean: what each instruction does, one arm per constructor: a direct call of its meaning.
-/
namespace Sys2Proof.Machine
open Sys2Proof

def exec (i : Instr) (s : State) : Host.Outcome State Fault Refusal :=
  match i with
  | .nop x => Sys2Proof.Machine.execNop x s
  | .outc x => Sys2Proof.Machine.execOutc x s
  | .trap x => Sys2Proof.Machine.execTrap x s
  | .bkpt x => Sys2Proof.Machine.execBkpt x s
  | .rdsr x => Sys2Proof.Machine.execRdsr x s
  | .wrsr x => Sys2Proof.Machine.execWrsr x s
  | .kset x => Sys2Proof.Machine.execKset x s
  | .kdec x => Sys2Proof.Machine.execKdec x s
  | .kadd x => Sys2Proof.Machine.execKadd x s
  | .plog x => Sys2Proof.Machine.execPlog x s
  | .evnt x => Sys2Proof.Machine.execEvnt x s
  | .fmtw x => Sys2Proof.Machine.execFmtw x s
  | .tick x => Sys2Proof.Machine.execTick x s
  | .tickExpire => Sys2Proof.Machine.execTickExpire s
  | .mov x => Sys2Proof.Machine.execMov x s
  | .movi x => Sys2Proof.Machine.execMovi x s
  | .lane x => Sys2Proof.Machine.execLane x s
  | .insl x => Sys2Proof.Machine.execInsl x s
  | .bcst x => Sys2Proof.Machine.execBcst x s
  | .perm x => Sys2Proof.Machine.execPerm x s
  | .rotl x => Sys2Proof.Machine.execRotl x s
  | .zipl x => Sys2Proof.Machine.execZipl x s
  | .unzl x => Sys2Proof.Machine.execUnzl x s
  | .tagr x => Sys2Proof.Machine.execTagr x s
  | .fwd x => Sys2Proof.Machine.execFwd x s
  | .steer x => Sys2Proof.Machine.execSteer x s
  | .merge x => Sys2Proof.Machine.execMerge x s
  | .ctag x => Sys2Proof.Machine.execCtag x s
  | .ftag x => Sys2Proof.Machine.execFtag x s
  | .add x => Sys2Proof.Machine.execAdd x s
  | .sub x => Sys2Proof.Machine.execSub x s
  | .mul x => Sys2Proof.Machine.execMul x s
  | .mulh x => Sys2Proof.Machine.execMulh x s
  | .mad x => Sys2Proof.Machine.execMad x s
  | .div x => Sys2Proof.Machine.execDiv x s
  | .rem x => Sys2Proof.Machine.execRem x s
  | .min x => Sys2Proof.Machine.execMin x s
  | .max x => Sys2Proof.Machine.execMax x s
  | .abs x => Sys2Proof.Machine.execAbs x s
  | .neg x => Sys2Proof.Machine.execNeg x s
  | .adds x => Sys2Proof.Machine.execAdds x s
  | .subs x => Sys2Proof.Machine.execSubs x s
  | .clmp x => Sys2Proof.Machine.execClmp x s
  | .qmul x => Sys2Proof.Machine.execQmul x s
  | .ired x => Sys2Proof.Machine.execIred x s
  | .and x => Sys2Proof.Machine.execAnd x s
  | .or x => Sys2Proof.Machine.execOr x s
  | .xor x => Sys2Proof.Machine.execXor x s
  | .andn x => Sys2Proof.Machine.execAndn x s
  | .shl x => Sys2Proof.Machine.execShl x s
  | .shr x => Sys2Proof.Machine.execShr x s
  | .sha x => Sys2Proof.Machine.execSha x s
  | .rotb x => Sys2Proof.Machine.execRotb x s
  | .popc x => Sys2Proof.Machine.execPopc x s
  | .clz x => Sys2Proof.Machine.execClz x s
  | .bsel x => Sys2Proof.Machine.execBsel x s
  | .bfx x => Sys2Proof.Machine.execBfx x s
  | .bfi x => Sys2Proof.Machine.execBfi x s
  | .crc x => Sys2Proof.Machine.execCrc x s
  | .pack x => Sys2Proof.Machine.execPack x s
  | .unpk x => Sys2Proof.Machine.execUnpk x s
  | .cmpeq x => Sys2Proof.Machine.execCmpeq x s
  | .cmpne x => Sys2Proof.Machine.execCmpne x s
  | .cmplt x => Sys2Proof.Machine.execCmplt x s
  | .cmple x => Sys2Proof.Machine.execCmple x s
  | .cmpgt x => Sys2Proof.Machine.execCmpgt x s
  | .cmpge x => Sys2Proof.Machine.execCmpge x s
  | .tstz x => Sys2Proof.Machine.execTstz x s
  | .tstnz x => Sys2Proof.Machine.execTstnz x s
  | .fcmeq x => Sys2Proof.Machine.execFcmeq x s
  | .fcmlt x => Sys2Proof.Machine.execFcmlt x s
  | .fcmle x => Sys2Proof.Machine.execFcmle x s
  | .fcmun x => Sys2Proof.Machine.execFcmun x s
  | .anyl x => Sys2Proof.Machine.execAnyl x s
  | .alll x => Sys2Proof.Machine.execAlll x s
  | .sel x => Sys2Proof.Machine.execSel x s
  | .firstl x => Sys2Proof.Machine.execFirstl x s
  | .fadd x => Sys2Proof.Machine.execFadd x s
  | .fsub x => Sys2Proof.Machine.execFsub x s
  | .fmul x => Sys2Proof.Machine.execFmul x s
  | .fma x => Sys2Proof.Machine.execFma x s
  | .fms x => Sys2Proof.Machine.execFms x s
  | .fnma x => Sys2Proof.Machine.execFnma x s
  | .fmin x => Sys2Proof.Machine.execFmin x s
  | .fmax x => Sys2Proof.Machine.execFmax x s
  | .fabs x => Sys2Proof.Machine.execFabs x s
  | .fneg x => Sys2Proof.Machine.execFneg x s
  | .fred x => Sys2Proof.Machine.execFred x s
  | .fdot2 x => Sys2Proof.Machine.execFdot2 x s
  | .fscl x => Sys2Proof.Machine.execFscl x s
  | .fcls x => Sys2Proof.Machine.execFcls x s
  | .frnd x => Sys2Proof.Machine.execFrnd x s
  | .osm x => Sys2Proof.Machine.execOsm x s
  | .frcp x => Sys2Proof.Machine.execFrcp x s
  | .frsq x => Sys2Proof.Machine.execFrsq x s
  | .fsqrt x => Sys2Proof.Machine.execFsqrt x s
  | .fexp2 x => Sys2Proof.Machine.execFexp2 x s
  | .flog2 x => Sys2Proof.Machine.execFlog2 x s
  | .fsin x => Sys2Proof.Machine.execFsin x s
  | .fcos x => Sys2Proof.Machine.execFcos x s
  | .ftanh x => Sys2Proof.Machine.execFtanh x s
  | .fsigm x => Sys2Proof.Machine.execFsigm x s
  | .ferf x => Sys2Proof.Machine.execFerf x s
  | .fexp x => Sys2Proof.Machine.execFexp x s
  | .fdiv x => Sys2Proof.Machine.execFdiv x s
  | .cvt x => Sys2Proof.Machine.execCvt x s
  | .cvti x => Sys2Proof.Machine.execCvti x s
  | .cvtf x => Sys2Proof.Machine.execCvtf x s
  | .qnt x => Sys2Proof.Machine.execQnt x s
  | .dqnt x => Sys2Proof.Machine.execDqnt x s
  | .mxsc x => Sys2Proof.Machine.execMxsc x s
  | .srnd x => Sys2Proof.Machine.execSrnd x s
  | .narw x => Sys2Proof.Machine.execNarw x s
  | .widn x => Sys2Proof.Machine.execWidn x s
  | .pk4 x => Sys2Proof.Machine.execPk4 x s
  | .upk4 x => Sys2Proof.Machine.execUpk4 x s
  | .seed x => Sys2Proof.Machine.execSeed x s
  | .mma x => Sys2Proof.Machine.execMma x s
  | .mmaz x => Sys2Proof.Machine.execMmaz x s
  | .mmsp x => Sys2Proof.Machine.execMmsp x s
  | .mmv x => Sys2Proof.Machine.execMmv x s
  | .mxb x => Sys2Proof.Machine.execMxb x s
  | .accr x => Sys2Proof.Machine.execAccr x s
  | .accw x => Sys2Proof.Machine.execAccw x s
  | .accz x => Sys2Proof.Machine.execAccz x s
  | .accs x => Sys2Proof.Machine.execAccs x s
  | .acca x => Sys2Proof.Machine.execAcca x s
  | .mdrn x => Sys2Proof.Machine.execMdrn x s
  | .mstat x => Sys2Proof.Machine.execMstat x s
  | .mtest x => Sys2Proof.Machine.execMtest x s
  | .trns x => Sys2Proof.Machine.execTrns x s
  | .rast x => Sys2Proof.Machine.execRast x s
  | .lds x => Sys2Proof.Machine.execLds x s
  | .sts x => Sys2Proof.Machine.execSts x s
  | .ldsx x => Sys2Proof.Machine.execLdsx x s
  | .stsx x => Sys2Proof.Machine.execStsx x s
  | .satm x => Sys2Proof.Machine.execSatm x s
  | .gset x => Sys2Proof.Machine.execGset x s
  | .grun x => Sys2Proof.Machine.execGrun x s
  | .gsus x => Sys2Proof.Machine.execGsus x s
  | .gres x => Sys2Proof.Machine.execGres x s
  | .sbar x => Sys2Proof.Machine.execSbar x s
  | .hold x => Sys2Proof.Machine.execHold x s
  | .cmit x => Sys2Proof.Machine.execCmit x s
  | .disc x => Sys2Proof.Machine.execDisc x s
  | .dcxc x => Sys2Proof.Machine.execDcxc x s
  | .qapp x => Sys2Proof.Machine.execQapp x s
  | .qtak x => Sys2Proof.Machine.execQtak x s
  | .gld x => Sys2Proof.Machine.execGld x s
  | .gst x => Sys2Proof.Machine.execGst x s
  | .gatm x => Sys2Proof.Machine.execGatm x s
  | .gprf x => Sys2Proof.Machine.execGprf x s
  | .wsld x => Sys2Proof.Machine.execWsld x s
  | .sigw x => Sys2Proof.Machine.execSigw x s
  | .sigr x => Sys2Proof.Machine.execSigr x s
  | .fnc x => Sys2Proof.Machine.execFnc x s
  | .nbq x => Sys2Proof.Machine.execNbq x s
  | .nbr x => Sys2Proof.Machine.execNbr x s
  | .nbst x => Sys2Proof.Machine.execNbst x s
  | .fltr x => Sys2Proof.Machine.execFltr x s
  | .rdce x => Sys2Proof.Machine.execRdce x s
  | .csnd x => Sys2Proof.Machine.execCsnd x s
  | .crcv x => Sys2Proof.Machine.execCrcv x s
  | .cred x => Sys2Proof.Machine.execCred x s
  | .cbar x => Sys2Proof.Machine.execCbar x s
  | .instructionComplete => Sys2Proof.Machine.execInstructionComplete s
  | .nbuNop => Sys2Proof.Machine.execNbuNop s
  | .act off => Sys2Proof.Machine.execAct off s
  | .pre inc => Sys2Proof.Machine.execPre inc s
  | .rd off col => Sys2Proof.Machine.execRd off col s
  | .wr off col => Sys2Proof.Machine.execWr off col s
  | .zv a => Sys2Proof.Machine.execZv a s
  | .macq a b bf => Sys2Proof.Machine.execMacq a b bf s
  | .axpy a b fromS k bf => Sys2Proof.Machine.execAxpy a b fromS k bf s
  | .dotq b acc bf => Sys2Proof.Machine.execDotq b acc bf s
  | .smx vmask => Sys2Proof.Machine.execSmx vmask s
  | .maxs => Sys2Proof.Machine.execMaxs s
  | .exps => Sys2Proof.Machine.execExps s
  | .scal a b fromS k bf => Sys2Proof.Machine.execScal a b fromS k bf s
  | .addv a b => Sys2Proof.Machine.execAddv a b s
  | .loop reload second target => Sys2Proof.Machine.execLoop reload second target s
  | .sync => Sys2Proof.Machine.execSync s
  | .emit a ft hi => Sys2Proof.Machine.execEmit a ft hi s
  | .halt => Sys2Proof.Machine.execHalt s
  | .movq b => Sys2Proof.Machine.execMovq b s
  | .mask str inc => Sys2Proof.Machine.execMask str inc s
  | .cvtl a sat bf => Sys2Proof.Machine.execCvtl a sat bf s
  | .stv a addLc0 src k => Sys2Proof.Machine.execStv a addLc0 src k s
  | .netNop => Sys2Proof.Machine.execNetNop s
  | .arm tgt stg reg n scope => Sys2Proof.Machine.execArm tgt stg reg n scope s
  | .cfg tgt img shadow => Sys2Proof.Machine.execCfg tgt img shadow s
  | .swap tgt shadow => Sys2Proof.Machine.execSwap tgt shadow s
  | .strm tgt desc reg scope => Sys2Proof.Machine.execStrm tgt desc reg scope s
  | .sbarAction scope mask => Sys2Proof.Machine.execSbarAction scope mask s
  | .nbld tgt prog => Sys2Proof.Machine.execNbld tgt prog s
  | .nbrun tgt prog rport scope lc0 lc1 row0 len => Sys2Proof.Machine.execNbrun tgt prog rport scope lc0 lc1 row0 len s
  | .wsw tgt va => Sys2Proof.Machine.execWsw tgt va s
  | .sign tgt add scope value => Sys2Proof.Machine.execSign tgt add scope value s
  | .watch tgt cmp scope value timeout => Sys2Proof.Machine.execWatch tgt cmp scope value timeout s
  | .nset n value => Sys2Proof.Machine.execNset n value s
  | .nadd n value => Sys2Proof.Machine.execNadd n value s
  | .ncmp n unsigned value => Sys2Proof.Machine.execNcmp n unsigned value s
  | .ndec n => Sys2Proof.Machine.execNdec n s
  | .collBind tgt => Sys2Proof.Machine.execCollBind tgt s
  | .collStep tgt k => Sys2Proof.Machine.execCollStep tgt k s
  | .collEnd tgt => Sys2Proof.Machine.execCollEnd tgt s
  | .cslot tgt length => Sys2Proof.Machine.execCslot tgt length s
  | .cslotExpire => Sys2Proof.Machine.execCslotExpire s
  | .tail tgt => Sys2Proof.Machine.execTail tgt s
  | .hosti vec reg value => Sys2Proof.Machine.execHosti vec reg value s
  | .timer count => Sys2Proof.Machine.execTimer count s
  | .timerExpire => Sys2Proof.Machine.execTimerExpire s
  | .watchTimeout => Sys2Proof.Machine.execWatchTimeout s
  | .nrdp n place => Sys2Proof.Machine.execNrdp n place s
  | .done status => Sys2Proof.Machine.execDone status s
  | .rkey gen timeout => Sys2Proof.Machine.execRkey gen timeout s
  | .extend tgt a b c d => Sys2Proof.Machine.execExtend tgt a b c d s
  | .transitionStart => Sys2Proof.Machine.execTransitionStart s
  | .firingCompletion => Sys2Proof.Machine.execFiringCompletion s
  | .nsqRound => Sys2Proof.Machine.execNsqRound s
  | .timeTick => Sys2Proof.Machine.execTimeTick s
  | .wsRefresh => Sys2Proof.Machine.execWsRefresh s
  | .mirrorUpdate => Sys2Proof.Machine.execMirrorUpdate s
  | .watchRecheck => Sys2Proof.Machine.execWatchRecheck s
  | .finApply => Sys2Proof.Machine.execFinApply s
  | .swapInstall => Sys2Proof.Machine.execSwapInstall s
  | .instanceRetire => Sys2Proof.Machine.execInstanceRetire s
  | .tailChildLaunch => Sys2Proof.Machine.execTailChildLaunch s
  | .deadlock => Sys2Proof.Machine.execDeadlock s
  | .accessGenerate => Sys2Proof.Machine.execAccessGenerate s
  | .accessHold => Sys2Proof.Machine.execAccessHold s
  | .accessLeave => Sys2Proof.Machine.execAccessLeave s
  | .accessIngress => Sys2Proof.Machine.execAccessIngress s
  | .accessPerform => Sys2Proof.Machine.execAccessPerform s
  | .tokenDeliver => Sys2Proof.Machine.execTokenDeliver s
  | .linkReplay => Sys2Proof.Machine.execLinkReplay s
  | .linkTraining => Sys2Proof.Machine.execLinkTraining s
  | .dcxBlockCheck => Sys2Proof.Machine.execDcxBlockCheck s
  | .dcxEmit => Sys2Proof.Machine.execDcxEmit s
  | .pageWalk => Sys2Proof.Machine.execPageWalk s
  | .trapClassify => Sys2Proof.Machine.execTrapClassify s
  | .preemptAccept => Sys2Proof.Machine.execPreemptAccept s
  | .contextResume => Sys2Proof.Machine.execContextResume s
  | .scrub => Sys2Proof.Machine.execScrub s
  | .runStart => Sys2Proof.Machine.execRunStart s
  | .runResume => Sys2Proof.Machine.execRunResume s
  | .ebufDrain => Sys2Proof.Machine.execEbufDrain s
  | .runEnd => Sys2Proof.Machine.execRunEnd s
  | .segmentTimeout => Sys2Proof.Machine.execSegmentTimeout s
  | .refresh => Sys2Proof.Machine.execRefresh s
  | .refreshDue => Sys2Proof.Machine.execRefreshDue s
  | .alert => Sys2Proof.Machine.execAlert s
  | .backoffEnd => Sys2Proof.Machine.execBackoffEnd s
  | .powerDownEntry => Sys2Proof.Machine.execPowerDownEntry s
  | .selfRefreshEntry => Sys2Proof.Machine.execSelfRefreshEntry s
  | .pchWake => Sys2Proof.Machine.execPchWake s
  | .fjoisPacketReceive => Sys2Proof.Machine.execFjoisPacketReceive s
  | .pauseReceive => Sys2Proof.Machine.execPauseReceive s
  | .collResumeReceive => Sys2Proof.Machine.execCollResumeReceive s
  | .abortReceive => Sys2Proof.Machine.execAbortReceive s
  | .barrierReceive => Sys2Proof.Machine.execBarrierReceive s
  | .switchResponse => Sys2Proof.Machine.execSwitchResponse s
  | .stepTimeout => Sys2Proof.Machine.execStepTimeout s
  | .leaseExpire => Sys2Proof.Machine.execLeaseExpire s
  | .rkeyTimeout => Sys2Proof.Machine.execRkeyTimeout s
  | .membershipChange => Sys2Proof.Machine.execMembershipChange s
  | .spdmExchange => Sys2Proof.Machine.execSpdmExchange s
  | .kick => Sys2Proof.Machine.execKick s
  | .queueMap => Sys2Proof.Machine.execQueueMap s
  | .ageing => Sys2Proof.Machine.execAgeing s
  | .pktNop h => Sys2Proof.Machine.execPktNop h s
  | .launch h image root interval dmask ndm1 => Sys2Proof.Machine.execLaunch h image root interval dmask ndm1 s
  | .waitall h timeout conds => Sys2Proof.Machine.execWaitall h timeout conds s
  | .waitany h timeout conds => Sys2Proof.Machine.execWaitany h timeout conds s
  | .waitTimeout => Sys2Proof.Machine.execWaitTimeout s
  | .signal h va add value => Sys2Proof.Machine.execSignal h va add value s
  | .netload h image => Sys2Proof.Machine.execNetload h image s
  | .fence h => Sys2Proof.Machine.execFence h s
  | .marker h value => Sys2Proof.Machine.execMarker h value s
  | .timed h entry rule valid period start image root => Sys2Proof.Machine.execTimed h entry rule valid period start image root s
  | .ttSlot => Sys2Proof.Machine.execTtSlot s
  | .ppsEdge => Sys2Proof.Machine.execPpsEdge s
  | .ppsLoss => Sys2Proof.Machine.execPpsLoss s
  | .ptpset => Sys2Proof.Machine.execPtpset s
  | .heartbeatCheck => Sys2Proof.Machine.execHeartbeatCheck s
  | .watchdog => Sys2Proof.Machine.execWatchdog s
  | .wdpet => Sys2Proof.Machine.execWdpet s
  | .status => Sys2Proof.Machine.execStatus s
  | .direct => Sys2Proof.Machine.execDirect s
  | .map qcb die slot => Sys2Proof.Machine.execMap qcb die slot s
  | .unmap die slot => Sys2Proof.Machine.execUnmap die slot s
  | .qresume qcb => Sys2Proof.Machine.execQresume qcb s
  | .kill asid => Sys2Proof.Machine.execKill asid s
  | .resume asid => Sys2Proof.Machine.execResume asid s
  | .trapget asid => Sys2Proof.Machine.execTrapget asid s
  | .faultget => Sys2Proof.Machine.execFaultget s
  | .faultdone entry answer => Sys2Proof.Machine.execFaultdone entry answer s
  | .setsys qcb value => Sys2Proof.Machine.execSetsys qcb value s
  | .restart => Sys2Proof.Machine.execRestart s
  | .linktrain port => Sys2Proof.Machine.execLinktrain port s
  | .tlbinvGo => Sys2Proof.Machine.execTlbinvGo s
  | .tlbinvDone => Sys2Proof.Machine.execTlbinvDone s
  | .hostnegGo => Sys2Proof.Machine.execHostnegGo s
  | .mhuctlSnap => Sys2Proof.Machine.execMhuctlSnap s
  | .mhuctlClr => Sys2Proof.Machine.execMhuctlClr s
  | .mhuSample => Sys2Proof.Machine.execMhuSample s
  | .ltidxFetch => Sys2Proof.Machine.execLtidxFetch s
  | .ltwinReady => Sys2Proof.Machine.execLtwinReady s
  | .lifetimeRecord => Sys2Proof.Machine.execLifetimeRecord s
  | .powerControl => Sys2Proof.Machine.execPowerControl s
  | .kickerrRead => Sys2Proof.Machine.execKickerrRead s
  | .ttstatRead => Sys2Proof.Machine.execTtstatRead s
  | .stkramRead => Sys2Proof.Machine.execStkramRead s
  | .fpstatRead => Sys2Proof.Machine.execFpstatRead s
  | .pwrstatWrite => Sys2Proof.Machine.execPwrstatWrite s
  | .registerWrite => Sys2Proof.Machine.execRegisterWrite s
  | .hostBarAccess => Sys2Proof.Machine.execHostBarAccess s
  | .boot => Sys2Proof.Machine.execBoot s
  | .bankSettled => Sys2Proof.Machine.execBankSettled s
  | .bindTimeout => Sys2Proof.Machine.execBindTimeout s
  | .waitConditionReread => Sys2Proof.Machine.execWaitConditionReread s
  | .refreshEnd => Sys2Proof.Machine.execRefreshEnd s
  | .dieTemperatureHot => Sys2Proof.Machine.execDieTemperatureHot s

end Sys2Proof.Machine
end

