-- ==== Sys2Proof/Machine/Sched.lean ====
section
/-!
DEFINITION. Sched.lean: what moves next (log 2): the instruction that a move runs, what an fc makes every agent do, and what passes with an fc.
-/
namespace Sys2Proof.Machine

/-! ## The element picker -/

/-- The slot an element's picker issues: the lowest-numbered one that is ready, or at a follower the index that has arrived (R40, R44). -/
def State.pickSlot (s : State) (el : Nat) : Option (Nat × Op × Slot) :=
  let e := s.elem el
  let try_ := fun n => (e.slotAt n).bind (fun (d : Op × Slot) => if s.mayIssue el n d.1 d.2 then some (n, d.1, d.2) else none)
  match s.leader el with
  | some _ => e.ctx.coming.head?.bind (fun i => try_ i.1)
  | none => (List.range 32).findSome? try_

/-- The firings of an element that complete now, by number (R40, R98). -/
def State.dueFlight (s : State) (el : Nat) : Option Nat := ((s.elem el).ctx.flights.find? (s.flightDone el)).map (fun f => f.id)

/-- What an element owes in this fc before its picker's turn: a TICK that ends, a bank that settles, a completion (R40, R109, R157). -/
def State.elemOwes (s : State) (el : Nat) : Option Move :=
  let c := (s.elem el).ctx
  if c.tick ≠ 0 ∧ c.tick ≤ s.now then some (.event (.tickExpire el))
  else if c.mxu.a0.settles.any (fun t => decide (t ≤ s.now)) then some (.event (.bankSettled el 0))
  else if c.mxu.a1.settles.any (fun t => decide (t ≤ s.now)) then some (.event (.bankSettled el 1))
  else (s.dueFlight el).map (fun f => .event (.instructionComplete el f))

/-- The picker may take its turn: once in an fc, after what its element owes in that fc (R40, R109, R157). -/
def State.mayPick (s : State) (el : Nat) : Bool :=
  (s.elem el).ctx.inst.isSome && (s.elem el).turn != some s.now && (s.elemOwes el).isNone

/-- The stall counter of an fc in which an element issues nothing (R46, R109, R168): by the lowest-numbered valid slot. -/
def State.stallReason (s : State) (el : Nat) : Nat :=
  let e := s.elem el
  if (s.leader el).isSome then 0x1C
  else match (List.range 32).findSome? (fun n => (e.slotAt n).map (fun d => (n, d))) with
  | none => 0x1C
  | some (n, d) => if e.ctx.idled then 0x1A else (s.waits el n d.1 d.2).getD 0x1A

/-- One more in a stall counter, but for one that a write reached in this fc (R46, R100). -/
def Regs.countStall (r : Regs) (k : Nat) : Regs :=
  { r with reason := BitVec.ofNat 8 k, stall := if r.written.contains k then r.stall else r.stall.put k (satInc (r.stall.getD k 0)) }

/-- An element's picker has had its turn and issued nothing: it counts a stall unless it is frozen (R46). -/
def State.idleTurn (s : State) (el : Nat) : State :=
  let s := s.modElem el (fun e => { e with turn := some s.now })
  if s.isFrozen el then s else s.modRegs el (fun r => r.countStall (s.stallReason el))

/-- An element has issued: its region's detector sees it, and the fc since its last issue are a sample (R50, R336). -/
def State.noteIssue (s : State) (el : Nat) : State :=
  let last := s.mon.lastIssue.find? el
  let s := (s.modMon (fun m => { m with lastIssue := m.lastIssue.put el s.now }))
  let s := match (s.elem el).ctx.inst with | some i => s.modRegion i (fun r => { r with moved := true }) | none => s
  match last with
  | some t => s.push (s.samplesAny 3 (fun c => (bits c 0 32).toNat == el) (s.now - t))
  | none => s

/-- After a picker's turn in which a slot was tried: it has issued where FCNT has moved. -/
def State.afterPick (s : State) (el : Nat) (before : BitVec 48) : State :=
  let s := s.modElem el (fun e => { e with turn := some s.now })
  if (s.elem el).ctx.regs.fcnt = before then s else s.noteIssue el

/-! ## Moves -/

/-- The instruction a move runs, and what it belongs to; none where nothing stands there. -/
def State.instrOf (s : State) (m : Move) : Option (Instr × Focus) :=
  match m with
  | .issue el => (s.pickSlot el).map (fun x => (x.2.1.instr x.2.2, .elem el x.1))
  | .micro p => (s.pch p).run.bind (fun r => (decodeMicro ((s.pch p).is.getD r.mpc 0x44000000#32)).toOption.map (fun i => (i, .pch p)))
  | .action i k => (s.slot i k).bind (fun f => (decodeAction f.act).toOption.map (fun a => (a, .nsq i k)))
  | .packet n => (s.cmd.slots.find? n).bind (fun h => (decodePacket h.pkt).toOption.map (fun i => (i, .strip n)))
  | .mailbox =>
    if s.cmd.busy then (decodeMailbox s.cmd.mbcmd (s.cmd.mbarg.getD 0 0) (s.cmd.mbarg.getD 1 0) (s.cmd.mbarg.getD 2 0)).toOption.map (fun i => (i, .mailbox))
    else none
  | .event e => some (e.instr, .event e)
  | .env _ | .tick => none

/-- The move may be made at all: a picker takes one turn in an fc. -/
def State.mayMove (s : State) (m : Move) : Bool :=
  match m with
  | .issue el => s.mayPick el
  | _ => true

/-- Tokens sent again from the n-th on: each starts anew, in order (R224, R226). -/
def sendAgain (l : List (Nat × Token)) (n now : Nat) : List (Nat × Token) := l.take n ++ (l.drop n).map (fun x => (now, x.2))

/-- The flits on a circuit's way, which stand in the RBs of its tile links and die crossings until they are acknowledged, are sent again from the n-th
on, counted from the one that has come farthest (R224, R226). -/
def Circuit.replay (c : Circuit) (n now : Nat) : Circuit :=
  { c with passed := sendAgain c.passed n now, flying := sendAgain c.flying (n - c.passed.length) now }

/-- What befalls the machine from outside happens (log 54): an error of a memory, a flit or a flash record, or Markhor's write of DBGCTL of a frozen
element (R101, R226, R293, R338). -/
def State.befall (s : State) (o : Outside) : State :=
  let add := fun (l : List Nat) (n : Nat) => if l.contains n then l else n :: l
  match o with
  | .dramError t => { s with mem := { s.mem with dramErr := add s.mem.dramErr t } }
  | .spadError g => { s with mem := { s.mem with spadErr := add s.mem.spadErr g } }
  | .wsError d g => s.modDie d (fun v => { v with wsErr := add v.wsErr g })
  | .holdError el n => s.modMt el (fun m => match m.frame.held[n]? with
      | some a => { m with frame := { m.frame with bad := add m.frame.bad a.id } }
      | none => m)
  | .saveError el k => if (elType el == .bn || elType el == .gw) && ((s.elem el).saved.find? k).isSome then
      s.modElem el (fun e => { e with saveErr := add e.saveErr k }) else s
  | .corrected c => if c < 3 then s.bump (1 + 2 * c) else s
  | .flashError age => s.modMon (fun m => match m.recs[age]? with
      | some r => { m with recs := m.recs.set age { r with bad := true } }
      | none => m)
  | .linkError k n => { s with circs := s.circs.map (fun (x : Nat × Circuit) => if x.1 = k then (k, x.2.replay n s.now) else x) }
  | .dbgctl el v => if s.isFrozen el then s.modRegs el (fun r => { r with dbgctl := v &&& dbgMask }) else s

/-- A move with no instruction: the picker's turn passes, an unknown mailbox command completes with result 1 (R306), or something befalls the machine. -/
def State.noInstr (s : State) (m : Move) : State :=
  match m with
  | .issue el => s.idleTurn el
  | .env o => s.befall o
  | .mailbox => if s.cmd.busy then s.mbEnd (if s.bar.phase = 15 then 3 else 1) else s
  | _ => s

/-- What follows an instruction: the focus is left, and a picker's turn is noted. -/
def State.after (s : State) (m : Move) (before : State) : State :=
  let s := { s with focus := .none }
  match m with
  | .issue el => s.afterPick el (before.elem el).ctx.regs.fcnt
  | _ => s

/-- A move other than the passing of an fc: its instruction runs. -/
def State.move (s : State) (m : Move) : Host.Outcome State Fault Refusal :=
  if s.mayMove m then
    match s.instrOf m with
    | some (i, f) =>
      match exec i { s with focus := f } with
      | .next t => .next (t.after m s)
      | .fault e => .fault e
      | .refused r => .refused r
    | none => .next (s.noInstr m)
  else .next s

/-! ## What an fc owes -/

/-- What a bank owes in this fc once the pickers have had their turns: an instruction's access leaves for its scratchpad bank or weight store, and a
bank that is free performs it (R13, R170, R186). -/
def State.bankOwes (s : State) (el : Nat) : Option Move :=
  match ((s.elem el).eq.zipIdx.find? (fun x => (x.1.tgt == .ws || (x.1.tgt == .spad && !s.instrAtBank el)) && x.1.xlat == .untried && !x.1.held)) with
  | some x => some (.event (.accessLeave el 0 x.2))
  | none =>
    if elType el = .mt then
      ((List.range 4).find? (fun b => let k := spadBank (spadBase el) + b
        s.bankFree k && (s.spadq.getD k []).any Access.ofInstr)).map (fun b => .event (.accessPerform (.spad el b)))
    else none

/-- A weight store's bank outside its refresh window serves the reads that wait there, at the store's rate (R12, R13). -/
def State.wsOwes (s : State) (d : Nat) : Option Move :=
  if s.wsRoom d then
    (s.wsNext d).map (fun b => .event (.accessPerform (.ws d b)))
  else none

/-- What a firing owes: its action, or the end of its deadline. -/
def State.slotOwes (s : State) (i : Nat) (k : Nat) (f : FSlot) : Option Move :=
  match f.stage with
  | .issued => if actInstant f.code then none else some (.action i k)
  | .going =>
    if f.deadline.any (fun t => decide (t ≤ s.now)) then
      (match f.code with
      | 0x13 => some (.event (.timerExpire i k))
      | 0x0A => some (.event (.watchTimeout i k))
      | 0x16 => some (.event (.rkeyTimeout i k))
      | 0x10 => if s.cslotOver i f then some (.event (.cslotExpire i k)) else none
      | _ => none)
    else none
  | .arrived _ => none

/-- What an instance owes: its firings', its round (R33). -/
def State.instOwes (s : State) (i : Nat) (v : Inst) : Option Move :=
  match s.region i with
  | none => none
  | some r =>
    if r.saved then none
    else (v.slots.findSome? (fun (x : Nat × FSlot) => s.slotOwes i x.1 x.2)).or
      (if v.turn = some s.now then none else some (.event (.nsqRound i)))

/-- A run owes its end: its segment has taken more than 640 fc (R250). -/
def State.runOwes (s : State) : Option Move :=
  (List.find? (fun (x : Nat × Pch) => x.2.overdue s.now5) s.pchs).map (fun x => .event (.segmentTimeout x.1))

/-- What this fc still owes, in order: completions, pickers, the banks that serve them, rounds, runs. An fc passes only once it owes nothing. -/
def State.owes (s : State) : Option Move :=
  let els := s.elems.keys.filter (fun el => (s.elem el).ctx.inst.isSome)
  ((((els.findSome? s.elemOwes).or ((els.find? s.mayPick).map Move.issue)).or ((s.elems.keys.findSome? s.bankOwes).or (s.dies.keys.findSome? s.wsOwes))).or
    (s.insts.findSome? (fun (x : Nat × Inst) => s.instOwes x.1 x.2))).or s.runOwes

/-! ## The passing of an fc -/

/-- Tokens in landing entries enter their queues where there is room (R17); while an index is on its way to a follower they are late (R44). -/
def Ports.settle (p : Ports) (onWay : Bool) : Ports :=
  (List.range 4).foldl (fun p j =>
    let q := p.inq.getD j []
    let l := p.land.getD j []
    let n := 4 - q.length
    if l.isEmpty then p
    else { p with inq := p.inq.put j (q ++ l.take n), land := p.land.put j (l.drop n),
                  late := if onWay then p.late.put j (p.late.getD j 0 + (l.take n).length) else p.late }) p

/-- The end of an fc at an element: streams emit, a CMIT hands over a store, landing entries drain, and what was late is seen; while a freeze stands, the
indices on their way to it are owed from then on (R17, R44, R100, R175, R177). -/
def State.endElem (s : State) (el : Nat) : State :=
  let s := (List.range 4).foldl (fun s g => (s.emitStream el g).endStream el g) s
  let s := if (((s.elem el).ctx.inst.bind s.region).any (fun r => r.accepted.isSome)) then s else s.handOver el
  let frozen := s.isFrozen el
  s.modCtx el (fun c =>
    let p := c.ports.settle (!c.coming.isEmpty)
    { c with coming := if frozen then c.owed s.now else c.coming, ports := { p with late := if c.coming.isEmpty then [] else p.late }, regs := { c.regs with written := [], armed := false } })

/-- Every circuit takes the token at the front of its output port, and every channel passes one on (R90, R226). -/
def State.moveTokens (s : State) : State :=
  let s := s.circs.foldl (fun s (x : Nat × Circuit) => match s.circs.find? x.1 with
    | some c => s.drainChannel x.1 c
    | none => s) s
  s.circs.keys.foldl (fun s k => match s.circs.find? k with
    | some c => if s.maySendOn c then s.sendToken k c else s
    | none => s) s

/-- The detector of a region counts an fc (R50). -/
def State.watchRegion (s : State) (i : Nat) (v : Inst) (r : Region) : State :=
  let idle := if s.detectorHeld i v r then r.idle else if r.moved || s.regionBusy i then 0 else r.idle + 1
  s.modRegion i (fun r => { r with idle, moved := false })

/-- An instance's fc: the detector's count, and the time toward its TIME quantum, which stands while it is set aside (R35, R50). -/
def State.passInst (s : State) (i : Nat) : State :=
  match s.inst i, s.region i with
  | some v, some r =>
    let s := s.watchRegion i v r
    if r.saved ∨ v.img.timeq = 0 then s else s.modInst i (fun v => { v with time := v.time + 1 })
  | _, _ => s

/-- A pseudo-channel's fc, which ends at `now`: its accesses wait in a back-off, and its idle count begins with the fc behind the last in which it was busy
(R268, R269, R336). -/
def Pch.pass (p : Pch) (now : Nat) : Pch :=
  let p := if p.backoff.isSome then
      { p with cq := p.cq.map (fun c => match c with | .access a => .access { a with waited := a.waited + 1 } | c => c) }
    else p
  if p.idle (5 * now - 5) || p.fromPd then p else { p with idleAt := now }

/-- The refreshes that fall due in an fc (R265). -/
def State.dueRefreshes (s : State) : List Move :=
  (List.range 1024).filterMap (fun p => if s.refPhase (p / 64) = dueOffset p then some (.event (.refreshDue p)) else none)

/-- The samples of an fc: the depth of each command queue every 64 fc, the flit replays of each port every millisecond (R336). -/
def State.timedSamples (s : State) : List Move :=
  let dies := List.range 16
  (if s.now % 64 = 0 then
    (List.range 1024).flatMap (fun p => s.samples (p / 64) 2 (fun c => (bits c 0 6).toNat == p % 64) (s.depth p)) else [])
  ++ (if s.now % 1600000 = 0 then
    (List.range 24).flatMap (fun n => dies.flatMap (fun d => s.samples d 6 (fun c => (bits c 0 5).toNat == n) (s.port n).replays)) else [])

/-- The strip's fc: the changes of QCBs that are under way, fetches, kicks, ageing, records (R294-R299). -/
def State.passStrip (s : State) : State := ((s.stepQcbs.stripFetch.lateKicks).keepAges).writeRecords s.ptpNow

/-- The throttle level changes at a window boundary (R335). -/
def State.passPower (s : State) : State := if s.now % 16 = 0 then s.modBar (fun b => { b with levelIn := b.level }) else s

/-- One fc passes. -/
def State.pass (s : State) : State :=
  let s := (s.elems.keys.foldl State.endElem s).moveTokens
  let s := ((s.passStrip).tickColls).advanceRkey
  let s := s.insts.keys.foldl State.passInst s
  let s := { s with now := s.now + 1 }
  let s := { s with pchs := s.pchs.map (fun (x : Nat × Pch) => (x.1, x.2.pass s.now)) }
  let s := s.passPower.settleMhus
  let s := s.pchs.keys.foldl State.beginService s
  let s := s.push (s.dueRefreshes ++ s.timedSamples)
  if s.now % 1600000 = 0 then { s with ports := s.ports.map (fun (x : Nat × Port) => (x.1, { x.2 with replays := 0 })) } else s

/-! ## The moves tried where none is given -/

/-- The moves of an element's accesses and generators (R226). -/
def State.elemMoves (s : State) (el : Nat) : List Move :=
  let e := s.elem el
  let at_ := fun src idx => [.event (.accessHold el src idx), .event (.accessLeave el src idx)]
  (List.range e.eq.length).flatMap (at_ 0)
    ++ (List.range 4).flatMap (fun g =>
      (if (s.gen el g).sq.isEmpty then [] else at_ (g + 1) 0)
      ++ (if (s.gen el g).state == .running && (s.gen el g).made != some s.now then [.event (.accessGenerate el g)] else [])
      ++ (if dDcx (s.gen el g).desc then [.event (.dcxBlockCheck el g), .event (.dcxEmit el g)] else []))

/-- The moves of a pseudo-channel (R226, R239, R265-R270). -/
def pchMoves (p : Nat) : List Move :=
  [Event.pchWake p, .backoffEnd p, .refreshEnd p, .refresh p, .alert p, .accessPerform (.pch p), .accessIngress p .std, .accessIngress p .nbl,
   .accessIngress p .bar, .accessIngress p .remote, .runStart p, .runResume p, .segmentTimeout p, .ebufDrain p, .runEnd p, .powerDownEntry p,
   .selfRefreshEntry p].map Move.event ++ [.micro p]

/-- The moves of an instance and its region. -/
def instMoves (i : Nat) (v : Inst) (r : Region) : List Move :=
  (r.sects.keys.map (fun sid => .event (.finApply i sid)))
    ++ (v.slots.keys.flatMap (fun k => [.event (.swapInstall i k), .event (.cslotExpire i k), .event (.watchRecheck i k)]))
    ++ (v.mirrors.keys.map (fun p => .event (.mirrorUpdate i p)))
    ++ [.event (.trapClassify i), .event (.preemptAccept i), .event (.contextResume i), .event (.instanceRetire i), .event (.deadlock i)]

/-- The moves of the strip, Markhor and the mailbox. -/
def State.cmdMoves (s : State) : List Move :=
  (if s.cmd.busy then [.mailbox] else [])
    ++ (s.cmd.slots.keys.flatMap (fun n => [.packet n, .event (.waitConditionReread n), .event (.waitTimeout n)]))
    ++ (if s.cmd.pendmap.isEmpty then [] else (List.range 16).map (fun d => .event (.queueMap d)))
    ++ (s.cmd.ages.keys.map (fun q => .event (.ageing q))) ++ (s.cmd.children.keys.map (fun i => .event (.tailChildLaunch i)))
    ++ (s.cmd.tt.keys.map (fun k => .event (.ttSlot k)))

/-- The moves of links, collectives, translation, registers, and Markhor's own. -/
def State.otherMoves (s : State) : List Move :=
  (s.circs.keys.map (fun k => .event (.tokenDeliver k)))
    ++ (s.spadq.keys.map (fun b => .event (.accessPerform (.spad (tileId (b / 8192) (b / 4 % 64) (b / 256 % 32)) (b % 4)))))
    ++ (s.dies.keys.flatMap (fun d => ((List.range (min 8 (s.die d).walks.length)).map (fun k => .event (.pageWalk d k))) ++ [.event (.wsRefresh d)]
      ++ ((s.die d).wsq.keys.map (fun b => .event (.accessPerform (.ws d b))))))
    ++ (s.colls.keys.flatMap (fun c => [.event (.stepTimeout c), .event (.bindTimeout c), .event (.leaseExpire c), .event (.switchResponse c .deny)]))
    ++ [.event .tlbinvDone, .event .ltwinReady, .event .lifetimeRecord]
    ++ (if s.bar.phase < 5 then [.event (.boot true)] else [])
    ++ (if s.cmd.mode = .normal ∧ s.cmd.dog + 1600000 ≤ s.now then [.event (.wdpet true)] else [])

/-- Every move that the agents could make now, in the order tried. -/
def State.moves (s : State) : List Move :=
  s.elems.keys.flatMap s.elemMoves ++ s.pchs.keys.flatMap pchMoves
    ++ s.insts.flatMap (fun (x : Nat × Inst) => match s.region x.1 with | some r => instMoves x.1 x.2 r | none => [])
    ++ s.cmdMoves ++ s.otherMoves

/-- A move that changes nothing. -/
def State.idleMove (s : State) (m : Move) : Bool := match s.move m with | .next t => decide (t = s) | _ => false

/-- What comes next where no move is given: what the fc owes, the first agent that has something to do, or the passing of an fc. -/
def State.eager (s : State) : Move := (s.owes.or (s.moves.find? (fun m => !s.idleMove m))).getD .tick

/-- A move, or the passing of an fc: that waits until the fc owes nothing. -/
def State.run (s : State) (m : Move) : Host.Outcome State Fault Refusal :=
  match m with
  | .tick => (match s.owes with
    | some m => { s with sched := .tick :: s.sched }.move m
    | none => .next s.pass)
  | m => s.move m

/-- A run of PCH 0 at entry 0 on bank 0, with nothing done yet (log 28). -/
def firstRun : NbRun :=
  { mpc := 0, lc0 := 0, lc1 := 0, lr0 := 0, lr1 := 0, row := 0, pos := 0, len := 0, wcnt := 0, bmask := 1, rport := 0, ebuf := [], banks := [], asid := 0,
    inst := 0, owner := .elem 0x40000000 0, segAt := 0, ended := none, waitAt := none }

/-- A micro-instruction's word in entry 0 of PCH 0, and a run that takes it next. -/
def State.placeMicro (s : State) (w : W32) : State :=
  { s with pchs := s.pchs.put 0 { s.pch 0 with is := (s.pch 0).is.put 0 w, run := some firstRun, phase := .running },
           sched := .micro 0 :: s.sched }

/-- An element of a type that has an operation: 0.0.0, the MT 0.1.0, the BN of PCH 0, or the GW at 0.0.0. -/
def elemFor (o : Op) : Nat :=
  if opOn o .ce then elemId .ce 0 0 0 else if opOn o .mt then elemId .mt 0 1 0 else if opOn o .bn then elemId .bn 0 0 0 else elemId .gw 0 0 0

/-- A node record with one valid slot, slot 0. -/
def oneSlot (w : W128) : NodeRec := { hdr := (1#128 <<< 96), ctr := 0, dvals := [], slots := [(0, w)], ext := [], circs := [] }

/-- An element instruction's word in slot 0 of C0 of an element that has it, and that element's turn. -/
def State.placeElem (s : State) (w : W128) : State :=
  let el := match decodeSlot w with | .ok d => elemFor d.1 | .error _ => 0
  { s with elems := s.elems.put el { s.elem el with cfg := (s.elem el).cfg.put 0 (oneSlot w), run := 0, turn := none,
                                                    ctx := { Ctx.reset with inst := some 0 }, frozen := { trap := 0 } },
           sched := .issue el :: s.sched }

/-- An instruction word placed where the next step takes it (log 28). -/
def State.placeWord (s : State) (nbits w : Nat) : State :=
  if nbits = 32 then s.placeMicro (BitVec.ofNat 32 w) else if nbits = 128 then s.placeElem (BitVec.ofNat 128 w) else s

/-- One step: the move at the head of `sched`, or the one that comes next by itself. -/
def State.advanceStep (s : State) : Host.Outcome State Fault Refusal :=
  match s.sched with
  | m :: l => { s with sched := l }.run m
  | [] => s.run s.eager

end Sys2Proof.Machine
end

