-- ==== Sys2Proof/Machine/Step.lean ====
section
/-!
DEFINITION. Step.lean: one step of the machine, and an instruction placed where the next step runs it.
-/
namespace Sys2Proof.Machine

/-- One step: the next move (log 2). -/
def step (s : State) : Host.Outcome State Fault Refusal := s.advanceStep

/-- The instruction of nbits bits w placed so that the next step runs it: a micro-instruction of 32 bits as the first of a run of PCH 0, an element
instruction of 128 bits in slot 0 of C0 of an element that has it (log 28). -/
def State.withFetchWord (s : State) (nbits w : Nat) : State := s.placeWord nbits w

end Sys2Proof.Machine
end

