-- ==== Sys2Proof/Safety.lean ====
section
/-!
DEFINITION. Safety.lean: the terms in which claims are stated: what memory, a firing and a step must satisfy.
-/
namespace Sys2Proof.Machine

/-- Memory stands in its canonical form: addresses rise and no entry is 0. -/
def Mem.wf (m : Mem) : Bool := m.dram.wf && m.ws.wf && m.spad.wf

/-- The tables of instances, regions, dies and hardware slots list their keys in rising order, no element serves a region twice, and a mapped queue keeps
the words of its control block: what every step keeps and every run starts with. -/
def State.Sound (s : State) : Prop :=
  s.insts.risesFrom none = true ∧ s.regions.risesFrom none = true ∧ s.dies.risesFrom none = true ∧ s.cmd.slots.risesFrom none = true
  ∧ (∀ x ∈ s.regions, x.2.elems.Nodup) ∧ (∀ x ∈ s.cmd.slots, x.2.rw.length = 16)

/-- A step goes on: it ends neither in a fault nor in a refusal. -/
def State.goesOn (s : State) : Prop := ∃ t, step s = .next t

/-- Slot k of element el may issue instruction o with fields x and is what runs: it is ready (R39), nothing freezes its element, and
no port that it reads or pops is empty (R41). -/
def State.Ready (s : State) (el k : Nat) (o : Op) (x : Slot) : Prop :=
  s.focus = .elem el k ∧ s.mayIssue el k o x = true ∧ (s.elem el).ctx.emptyPort o x = none

/-- The operands an instruction reads as it issues. -/
def State.opndsOf (s : State) (el : Nat) (o : Op) (x : Slot) : Opnds := (s.elem el).ctx.opnds o x

/-- What issuing changes nowhere: the frame of R40 outside the element that issues. The other members of a chain learn the index (R44), and
the section of an entry element its invocation (R277). -/
structure IssueFrame (s t : State) (el : Nat) : Prop where
  others : ∀ e, e ≠ el → t.elem e = { s.elem e with ctx := { (s.elem e).ctx with coming := (t.elem e).ctx.coming } }
  mem : t.mem = s.mem
  pchs : t.pchs = s.pchs
  stkRegs : t.stkRegs = s.stkRegs
  dies : t.dies = s.dies
  insts : t.insts = s.insts
  circs : t.circs = s.circs
  cmd : t.cmd = s.cmd
  ptp : t.ptp = s.ptp
  bar : t.bar = s.bar
  mon : t.mon = s.mon
  fjois : t.ports = s.ports
  dom : t.dom = s.dom
  colls : t.colls = s.colls
  defects : t.defects = s.defects
  spadq : t.spadq = s.spadq
  now : t.now = s.now

/-- f is e but for what every issue changes: registers, ports, firings, units, and the indices of a chain. -/
def Elem.keeps (e f : Elem) : Prop :=
  f = { e with ctx := { e.ctx with regs := f.ctx.regs, ports := f.ctx.ports, flights := f.ctx.flights, busy := f.ctx.busy,
                                   coming := f.ctx.coming } }

/-- f is e but for what every issue changes, and the matrix unit. -/
def Elem.keepsButMxu (e f : Elem) : Prop := Elem.keeps { e with ctx := { e.ctx with mxu := f.ctx.mxu } } f

/-- f is e but for what every issue changes, and the parts of a memory tile. -/
def Elem.keepsButMt (e f : Elem) : Prop := Elem.keeps { e with ctx := { e.ctx with mt := f.ctx.mt } } f

/-- f is e but for what every issue changes, and the accesses queued. -/
def Elem.keepsButEq (e f : Elem) : Prop := Elem.keeps { e with eq := f.eq } f

/-- What issuing leaves unchanged of the element's own registers: the result arrives at completion (R40, R98). -/
def RegsKept (r q : Regs) : Prop :=
  q = { r with fcnt := q.fcnt, p := q.p, pend := q.pend, pendD := q.pendD, pendK := q.pendK }

/-- t is s after slot k of element el has issued instruction o: FCNT has advanced, the predicates are as PSET and PCLR leave them, and firing f is
in flight, which completes lat fc later. -/
structure Begun (s t : State) (el k : Nat) (o : Op) (x : Slot) (lat : Option Nat) (f : Flight) : Prop where
  fcnt : (t.elem el).ctx.regs.fcnt = (s.elem el).ctx.regs.fcnt + 1
  pred : (t.elem el).ctx.regs.p = ((s.elem el).ctx.regs.p &&& ~~~x.pclr) ||| x.pset
  flights : (t.elem el).ctx.flights = (s.elem el).ctx.flights ++ [f]
  slot : f.slot = k
  op : f.op = o
  fields : f.x = x
  fires : f.fcnt = (s.elem el).ctx.regs.fcnt + 1
  due : f.due = lat.map (s.now + ·)

/-- Instruction o answers a next state wherever a slot of it is ready and ok holds: it issues, and states and firing stand in relation P. -/
def Fires (o : Op) (lat : Slot → Opnds → Option Nat) (ok : State → Nat → Slot → Opnds → Prop)
    (P : State → State → Nat → Slot → Opnds → Flight → Prop) : Prop :=
  ∀ (s : State) (el k : Nat) (x : Slot), s.Ready el k o x → ok s el x (s.opndsOf el o x) →
    ∃ t f, exec (o.instr x) s = .next t ∧ Begun s t el k o x (lat x (s.opndsOf el o x)) f ∧ P s t el x (s.opndsOf el o x) f

/-- Nothing changes but what every issue changes. -/
def Quiet (s t : State) (el : Nat) : Prop :=
  IssueFrame s t el ∧ (s.elem el).keeps (t.elem el) ∧ RegsKept (s.elem el).ctx.regs (t.elem el).ctx.regs

/-- Nothing changes but what every issue changes, and SRNG is q: roundings draw at issue (R61). -/
def Drawn (s t : State) (el : Nat) (q : W32) : Prop :=
  IssueFrame s t el ∧ (s.elem el).keeps (t.elem el) ∧ RegsKept { (s.elem el).ctx.regs with srng := q } (t.elem el).ctx.regs

/-- A bank of an element's matrix unit, A1 for true. -/
def State.bankAt (s : State) (el : Nat) (one : Bool) : AccBank := (s.elem el).ctx.mxu.bank one

/-- Nothing changes but what every issue changes, and the matrix unit. -/
def OnlyMxu (s t : State) (el : Nat) : Prop :=
  IssueFrame s t el ∧ (s.elem el).keepsButMxu (t.elem el) ∧ RegsKept (s.elem el).ctx.regs (t.elem el).ctx.regs

/-- Nothing changes but what every issue changes, the matrix unit, and SRNG, which is q. -/
def OnlyMxuDrawn (s t : State) (el : Nat) (q : W32) : Prop :=
  IssueFrame s t el ∧ (s.elem el).keepsButMxu (t.elem el) ∧ RegsKept { (s.elem el).ctx.regs with srng := q } (t.elem el).ctx.regs

/-- Nothing changes but what every issue changes, and the parts of a memory tile. -/
def OnlyMt (s t : State) (el : Nat) : Prop :=
  IssueFrame s t el ∧ (s.elem el).keepsButMt (t.elem el) ∧ RegsKept (s.elem el).ctx.regs (t.elem el).ctx.regs

/-- No granule with an uncorrectable error lies in n bytes of scratchpad from an address (R293). -/
def State.spadGood (s : State) (a n : Nat) : Prop := ∀ g ∈ s.mem.spadErr, 8 * g + 8 ≤ a ∨ a + n ≤ 8 * g

/-- The scratchpad holds a value in n bytes from an address, little-endian, and what it held everywhere else. -/
def SpadHolds (s t : State) (a n v : Nat) : Prop :=
  (∀ k, k < n → (t.mem.spad.read (a + k)).toNat = v / 256 ^ k % 256)
  ∧ (∀ b, b < a ∨ a + n ≤ b → t.mem.spad.read b = s.mem.spad.read b) ∧ t.mem.dram = s.mem.dram ∧ t.mem.ws = s.mem.ws

/-- Nothing changes but what every issue changes, and scratchpad contents. -/
def OnlySpad (s t : State) (el : Nat) : Prop :=
  IssueFrame { s with mem := t.mem } t el ∧ (s.elem el).keeps (t.elem el) ∧ RegsKept (s.elem el).ctx.regs (t.elem el).ctx.regs

/-- Nothing changes but what every issue changes, and the element's queue of accesses. -/
def OnlyEq (s t : State) (el : Nat) : Prop :=
  IssueFrame s t el ∧ (s.elem el).keepsButEq (t.elem el) ∧ RegsKept (s.elem el).ctx.regs (t.elem el).ctx.regs

/-- An address operand names a place that may be accessed: no bit above the VA, a reachable module where REM is 1, the alignment (R183, R309). -/
def State.addrOk (s : State) (a : W256) (align : Nat) : Prop :=
  bits a 56 8 = 0 ∧ (a.getLsbD 95 = true → s.reachable (bits a 64 10).toNat = true) ∧ a.toNat % 2 ^ 56 % align = 0

/-- An access has joined the tail of the element's queue: of this kind, of n bytes at this place, for the firing f (R224). -/
def Queued (s t : State) (el : Nat) (f : Flight) (a : W256) (kind : AccKind) (n : Nat) (v w : Nat) (held : Bool) (scope : Nat) : Prop :=
  ∃ q : Access, (t.elem el).eq = (s.elem el).eq ++ [q] ∧ q.kind = kind ∧ q.bytes = n ∧ q.va = a.toNat % 2 ^ 56 / n * n ∧ q.id = f.id
    ∧ q.tgt = (if a.getLsbD 95 then .remote (bits a 64 10).toNat else .dram) ∧ q.asid = (s.elem el).ctx.regs.asid
    ∧ q.data.toNat = v ∧ q.data2.toNat = w ∧ q.held = held ∧ q.scope = scope ∧ q.xlat = .untried

/-- A scratchpad access has joined the tail of the element's queue: of this kind, to the token at an offset of the partition, for the firing f (R170, R224). -/
def SpadQueued (s t : State) (el : Nat) (f : Flight) (kind : AccKind) (off : Nat) (data : W256) : Prop :=
  ∃ q : Access, (t.elem el).eq = (s.elem el).eq ++ [q] ∧ q.kind = kind ∧ q.tgt = .spad ∧ q.bytes = 32 ∧ q.off = s.spadAt el off ∧ q.data = data
    ∧ q.by_ = .elem el f.id f.slot f.fcnt ∧ q.held = false ∧ q.xlat = .untried

/-- The unit of an instruction is held for its interval from now on (R98, R132). -/
def Holds (s t : State) (el : Nat) (o : Op) (x : Slot) (i : Opnds) : Prop :=
  (t.elem el).ctx.busy.getD (opUnit o).idx 0 = s.now + opBusy o x (slotLanes o x i.fmttab)

/-- Instruction o gives a value and a result condition and has no other effect of its own: the firing's value and condition stand in relation P to
fields and operands. -/
def Gives (o : Op) (lat : Slot → Opnds → Nat) (ok : Slot → Opnds → Prop) (P : Slot → Opnds → W256 → Bool → Prop) : Prop :=
  Fires o (fun x i => some (lat x i)) (fun _ _ x i => ok x i)
    (fun s t el x i f => Quiet s t el ∧ Holds s t el o x i ∧ f.fin = .plain ∧ P x i f.val f.rc)

/-- Instruction o gives a value and a result condition, and its roundings take SRNG to a new value: all three stand in relation P to fields and operands. -/
def Rounds (o : Op) (lat : Slot → Opnds → Nat) (ok : Slot → Opnds → Prop) (P : Slot → Opnds → W256 → Bool → W32 → Prop) : Prop :=
  Fires o (fun x i => some (lat x i)) (fun _ _ x i => ok x i)
    (fun s t el x i f => ∃ q, Drawn s t el q ∧ Holds s t el o x i ∧ f.fin = .plain ∧ P x i f.val f.rc q)

/-- n lanes of w bits that round in ascending order: lane l holds the code of g l from the SRNG state that the lanes before it left, a lane that g flags
sets RC, and SRNG goes from a to b (R61, R133). -/
def DrawLanes (w n : Nat) (g : Nat → W32 → LaneOut) (a : W32) (v : W256) (rc : Bool) (b : W32) : Prop :=
  ∃ d : Nat → W32, d 0 = a ∧ d n = b
    ∧ (∀ l, l < n → lane w v l = (g l (d l)).code % 2 ^ w ∧ d (l + 1) = (g l (d l)).srng)
    ∧ (rc = true ↔ ∃ l, l < n ∧ (g l (d l)).flag = true)

/-- When the step of a run begins. -/
def State.stepAt (s : State) (p ready : Nat) : Nat := max ((s.pch p).startAt s.now5) ready

/-- The run r of pseudo-channel p may take its next step, whose DRAM constraint passes at a time in fifths of an fc and which takes dur of them: its segment
is not over before the step's end (R239, R250, R252). -/
def State.MicroReady (s : State) (p : Nat) (r : NbRun) (ready dur : Nat) : Prop :=
  s.focus = .pch p ∧ (s.pch p).run = some r ∧ (s.pch p).mayStep r ready s.now5 = true ∧ r.inTime (s.stepAt p ready) dur = true

/-- The run of pseudo-channel p is now r and the step ends at a time; nothing else changes anywhere. -/
def RunBecomes (s t : State) (p : Nat) (r : NbRun) (ends : Nat) : Prop :=
  t = { s with pchs := t.pchs } ∧ (∀ q, q ≠ p → t.pch q = s.pch q) ∧ t.pch p = { s.pch p with run := some r, freeAt := ends }

/-- Pseudo-channel p is now q; nothing else changes anywhere. -/
def PchBecomes (s t : State) (p : Nat) (q : Pch) : Prop :=
  t = { s with pchs := t.pchs } ∧ (∀ r, r ≠ p → t.pch r = s.pch r) ∧ t.pch p = q

/-- The registers of each participating bank n become g n of what they were; those of the others, and everything of the run but MPC, stay. -/
def BanksBecome (r q : NbRun) (g : Nat → NbBank → NbBank → Prop) : Prop :=
  q = { r with mpc := r.mpc + 1, banks := q.banks } ∧ (∀ n, n < 64 → r.bmask.getLsbD n = true → g n (r.bank n) (q.bank n))
  ∧ (∀ n, (64 ≤ n ∨ r.bmask.getLsbD n = false) → q.bank n = r.bank n)

/-- Micro-instruction i completes wherever a run not at the last entry may take its step: in dur fifths of an fc, bank by bank. -/
def MicroGives (i : Instr) (dur : Nat) (g : Tab W256 → NbRun → Nat → NbBank → NbBank → Prop) : Prop :=
  ∀ (s : State) (p : Nat) (r : NbRun), s.MicroReady p r 0 dur → r.mpc < 63 →
    ∃ t q, exec i s = .next t ∧ RunBecomes s t p q (s.stepAt p 0 + dur) ∧ BanksBecome r q (fun n x y => g (s.pch p).q r n x y)

/-- Vector register V[a] alone changes, lane i to the binary32 rounding of g i. -/
def VecBecomes (a : Nat) (g : Nat → FVal) (x y : NbBank) : Prop :=
  y = x.setV a (y.v a) ∧ ∀ i, i < 16 → vLane (y.v a) i = (fmt32.roundTo (g i) .rne false 0).code % 2 ^ 32

/-- Slot k of instance i, in state v, holds firing x, whose action has been issued and not yet run; the action is what runs (R32, R33). -/
def State.ActionReady (s : State) (i k : Nat) (v : Inst) (x : FSlot) : Prop :=
  s.focus = .nsq i k ∧ s.inst i = some v ∧ v.slots.find? k = some x ∧ x.stage = .issued

/-- Firing x of slot k has completed with outcome o: its slot is free, and every place has the tokens that its output arcs deposit under o and no
longer their reservation (R32). What the action itself changes of the instance, its registers, DONE and TAIL, w says. -/
def Completes (s t : State) (i k o : Nat) (v : Inst) (x : FSlot) (w : Inst) : Prop :=
  t.inst i = some w ∧ w = { v with slots := v.slots.drop k, count := w.count, rsv := w.rsv, n := w.n, done := w.done, tail := w.tail }
  ∧ (∀ r, v.img.trans[x.trans]? = some r → ∀ p, w.count.getD p 0 = v.count.getD p 0 + tDeposits r o p
      ∧ w.rsv.getD p 0 = v.rsv.getD p 0 - tMaxDeposit r p)
  ∧ (∀ j, j ≠ i → t.inst j = s.inst j) ∧ t.mem = s.mem ∧ t.elems = s.elems ∧ t.pchs = s.pchs ∧ t.circs = s.circs

/-- The outcome o of slot k has arrived; the next round applies it (R33). -/
def Arrives (t : State) (i k o : Nat) : Prop := ∃ f, t.slot i k = some f ∧ f.stage = .arrived o

/-- Event e answers the bind of collective instance c, in state v and slot k, as a denied switch request does where ALG allows a ring: the ring binds where
the circuits of the ranks match, and else the bind fails with outcome 1 (R319). -/
def RingAnswers (s : State) (c : Nat) (v : Coll) (k : Nat) (e : Instr) : Prop :=
  ∃ t, exec e s = .next t ∧ t.mem = s.mem
    ∧ (circsMatch (s.ownAnnounce v :: s.heardOf v.gid) = true → Arrives t v.inst k 0
        ∧ ∃ w, t.colls.find? c = some w ∧ w.stage = .bound ∧ w.bound = 1 ∧ w.held = false)
    ∧ (circsMatch (s.ownAnnounce v :: s.heardOf v.gid) = false → t.colls = s.colls.drop c ∧ Arrives t v.inst k 1)

/-- Slot k waits for what its action has begun. -/
def Waits (t : State) (i k : Nat) (P : FSlot → Prop) : Prop := ∃ f, t.slot i k = some f ∧ f.stage = .going ∧ P f

/-- The strip dispatches the packet of hardware slot n, in state h, now (R294). -/
def State.StripReady (s : State) (n : Nat) (h : HwSlot) : Prop :=
  s.focus = .strip n ∧ s.cmd.slots.find? n = some h ∧ s.dispatchNext (n / 64) = some n

/-- The packet p of hardware slot n has completed with a value and a status: the slot goes on at the ring's next packet, unless its queue stands with an
error, a record joins those to be
written where CMPL asks for one, and a vector is raised where only IRQ does (R299). -/
structure PacketEnds (s t : State) (n : Nat) (h : HwSlot) (p : PktHdr) (value : W64) (status : BitVec 16) : Prop where
  slot : ∃ g, t.cmd.slots.find? n = some g ∧ g.head = h.head + BitVec.ofNat 32 (h.pkt.length / 8)
    ∧ g.stage = (if (s.cmd.errs.find? h.qcb).isSome then .stopped else .fetch) ∧ g.pkt = [] ∧ g.qcb = h.qcb
    ∧ g.tail = h.tail
  record : p.cmpl = true → t.bar.msix = s.bar.msix
    ∧ t.cmd.records = s.cmd.records ++ [⟨h.qcb, value, status, 0, p.tag, h.head, if p.irq then some 0 else none, none, none⟩]
  silent : p.cmpl = false → t.cmd.records = s.cmd.records ∧ (p.irq = false → t.bar.msix = s.bar.msix) ∧ (p.irq = true → ∃ v, t.bar.msix = s.bar.msix ++ [v])

/-- The WAITALL or WAITANY of hardware slot n waits, its dependency check having begun at an fc (R299). -/
def StillWaits (s t : State) (n since : Nat) : Prop :=
  ∃ g, t.cmd.slots.find? n = some g ∧ g.stage = .waiting ∧ g.since = since ∧ t.cmd.records = s.cmd.records ∧ t.mem = s.mem

/-- The recovery mailbox runs a command, and the firmware serves it (R306, R333). -/
def State.MailboxReady (s : State) : Prop := s.focus = .mailbox ∧ s.bar.phase ≠ 15

/-- A mailbox command has completed with a result (R306). -/
def MbDone (t : State) (r : Byte) : Prop := t.cmd.busy = false ∧ t.cmd.result = r

/-- A mailbox command ends with a result and has no effect. -/
def OnlyResult (s t : State) (r : Byte) : Prop := t = { s with cmd := { s.cmd with busy := false, result := r } }

/-- The step from s, whose move m has been taken off the schedule in u, runs instruction i for what it belongs to: it ends as i ends, leaves the focus and
notes a picker's turn. -/
def StepRuns (s u : State) (m : Move) (i : Instr) (f : Focus) : Prop :=
  step s = match exec i { u with focus := f } with
    | .next t => .next (t.after m u)
    | .fault e => .fault e
    | .refused r => .refused r

/-- The fields of a slot with no guard, no operand, no destination and no effect: what a NOP with DST NULL holds (R67). -/
def emptySlot : Slot :=
  { pval := 0, pcare := 0, ic0 := .any, ic1 := .any, ic2 := .any, ic3 := .any, room := 0, pop := 0, dst := .null, sa := .zero, sb := .zero, sc := .zero,
    outm := 0, pset := 0, pclr := 0, pres := none, mod := 0, tago := .data, fto := 0, imm := 0 }

/-- A word that decodes to o sets no bit of MOD but those of a mask (R74, R78). -/
def ModWithin (o : Op) (mask : Nat) : Prop :=
  ∀ (x : Slot) (b : Nat), wordRow o x = none → b < 7 → mask.testBit b = false → x.mod.getLsbD b = false

/-- No condition on fields or operands. -/
def always (_ : Slot) (_ : Opnds) : Prop := True

/-- A result lane by lane at the slot's width (R97): lane l is f l, and RC is NZ(result). -/
def LanesNz (f : Slot → Opnds → Nat → Nat) (x : Slot) (i : Opnds) (v : W256) (rc : Bool) : Prop :=
  (∀ l, l < 256 / slotW x → lane (slotW x) v l = f x i l) ∧ rc = (v != 0)

/-- A whole result with RC NZ(result). -/
def WholeNz (f : Slot → Opnds → W256) (x : Slot) (i : Opnds) (v : W256) (rc : Bool) : Prop := v = f x i ∧ rc = (v != 0)

/-- A mask lane by lane: all ones where c holds; RC is 1 when any lane is true (R126). -/
def MaskAny (w : Slot → Opnds → Nat) (c : Slot → Opnds → Nat → Prop) (x : Slot) (i : Opnds) (v : W256) (rc : Bool) : Prop :=
  (∀ l, l < 256 / w x i → (c x i l → lane (w x i) v l = 2 ^ w x i - 1) ∧ (¬ c x i l → lane (w x i) v l = 0))
  ∧ (rc = true ↔ ∃ l, l < 256 / w x i ∧ c x i l)

/-- Slot f holds a floating family (R131). -/
def floatSlot (x : Slot) (i : Opnds) : Prop := (fmtAt i.fmttab (slotF x)).fam.isFloat = true

/-- Lane l of an operand in slot f's format. -/
def flx (x : Slot) (i : Opnds) (v : W256) (l : Nat) : FVal := fl (fmtAt i.fmttab (slotF x)) v l

/-- Floating results (R133, R134): lane l is the exact value g l rounded once, under RM and SAT; RC is 1 when a lane so rounded is NaN. -/
def FloatLanes (g : Slot → Opnds → Nat → FVal) (x : Slot) (i : Opnds) : W256 → Bool → W32 → Prop :=
  let f := fmtAt i.fmttab (slotF x)
  DrawLanes f.fam.width f.lanes (fun l d => (f.roundTo (g x i l) (slotMode x) (slotSat x) d).nanLane f) i.srng

/-- Results on the codes of slot f's format (R135): each lane stands in relation g to the lanes of opA and opB. -/
def CodeLanes (g : Fmt → Nat → Nat → Nat → Prop) (x : Slot) (i : Opnds) (v : W256) (_ : Bool) : Prop :=
  let f := fmtAt i.fmttab (slotF x)
  ∀ l, l < f.lanes → g f (lane f.fam.width i.a l) (lane f.fam.width i.b l) (lane f.fam.width v l)

/-- The families and Q of a conversion are right for the source that its head or S names (R149, R150). -/
def convOk (o : Op) (x : Slot) (i : Opnds) : Prop :=
  let s := fmtAt i.fmttab (sourceSlot x x.sa i.ta)
  let t := fmtAt i.fmttab (slotF x)
  srcFamOk o s.fam = true ∧ dstFamOk o t.fam = true ∧ famPairOk o s.fam t.fam = true ∧ partOk o (immBits x 4 3) s t = true

/-- Converted lanes (R150): a result lane is g of the source lane that the lane map gives it, or 0. -/
def ConvLanes (g : Slot → Opnds → Fmt → Fmt → Nat → W32 → LaneOut) (x : Slot) (i : Opnds) : W256 → Bool → W32 → Prop :=
  let s := fmtAt i.fmttab (sourceSlot x x.sa i.ta)
  let t := fmtAt i.fmttab (slotF x)
  let q := immBits x 4 3
  DrawLanes t.fam.width t.lanes (fun l d =>
    if t.lanes ≤ s.lanes then g x i s t (lane s.fam.width i.a (q * t.lanes + l)) d
    else if q * s.lanes ≤ l ∧ l < q * s.lanes + s.lanes then g x i s t (lane s.fam.width i.a (l - q * s.lanes)) d
    else { code := 0, flag := false, srng := d }) i.srng

end Sys2Proof.Machine
end

