-- ==== Sys2Proof/Certificates/Slice0/Obligations.lean ====
section
/-!
DEFINITION. Obligations.lean: the claims about the model, each with the rules of spec/ that it states.
-/
section
open Sys2Proof Sys2Proof.Machine

/-! ## Movement and the integer classes -/

/-- R61, R72, R112, R113, R114, R115, R116: The lane movers, MOVI and MOV among them, complete with the result of the table and RC NZ(result), in one fc.
Their words set no bit of MOD but those of the table, and an IMM lane of 64 bits is read as signed. FWD carries the head's data, TAGR its tags, STEER
and MERGE the operand that their control lane chooses, with that choice as RC; MERGE may find the port not chosen empty. CTAG, FTAG and SEED act at
completion, by the ending their firing carries: the head of opA's port takes opB[1:0] as CT or opB[2:0] as FT; SRNG takes opA[31:0]. The tags and
ports of the tokens that a movement-class firing will emit: under KEEP the tags of the head that opA reads (MERGE: of the chosen one), else TAGO and
FTO; STEER emits on the one port that its control lane chooses, every other on all that the slot writes. -/
def Obligations.MovementCompletes : Prop :=
  (Gives .mov (fun _ _ => 1) always (WholeNz (fun _ i => i.a))
    ∧ Gives .movi (fun _ _ => 1) always
        (WholeNz (fun x _ => BitVec.ofNat 256 (x.imm.toNat * 2 ^ (32 * (bits x.mod 2 3).toNat))))
    ∧ Gives .lane (fun _ _ => 1) always
        (WholeNz (fun x i => BitVec.ofNat 256 (lane (slotW x) i.a (lane (slotW x) i.b 0 % (256 / slotW x)))))
    ∧ Gives .insl (fun _ _ => 1) always (LanesNz (fun x i l =>
        if l = lane (slotW x) i.c 0 % (256 / slotW x) then lane (slotW x) i.b 0 else lane (slotW x) i.a l))
    ∧ Gives .bcst (fun _ _ => 1) always (LanesNz (fun x i _ =>
        lane (slotW x) i.a (lane (slotW x) i.b 0 % (256 / slotW x))))
    ∧ Gives .perm (fun _ _ => 1) always (LanesNz (fun x i l =>
        if 2 ^ (slotW x - 1) ≤ lane (slotW x) i.b l then 0 else lane (slotW x) i.a (lane (slotW x) i.b l % (256 / slotW x))))
    ∧ Gives .rotl (fun _ _ => 1) always (LanesNz (fun x i l =>
        lane (slotW x) i.a ((l + 256 / slotW x - lane (slotW x) i.b 0 % (256 / slotW x)) % (256 / slotW x))))
    ∧ Gives .zipl (fun _ _ => 1) always (LanesNz (fun x i l =>
        lane (slotW x) (if l % 2 = 0 then i.a else i.b) (l / 2 + (if x.mod.getLsbD 5 then 256 / slotW x / 2 else 0))))
    ∧ Gives .unzl (fun _ _ => 1) always (LanesNz (fun x i l =>
        if l < 256 / slotW x / 2 then lane (slotW x) i.a (2 * l + (if x.mod.getLsbD 5 then 1 else 0))
        else lane (slotW x) i.b (2 * (l - 256 / slotW x / 2) + (if x.mod.getLsbD 5 then 1 else 0))))
    ∧ (∀ o ∈ [Op.mov, .lane, .insl, .bcst, .perm, .rotl], ModWithin o 0x43) ∧ ModWithin .movi 0x1C ∧ ModWithin .zipl 0x63 ∧ ModWithin .unzl 0x63
    ∧ (∀ o ∈ [Op.mov, .lane, .insl, .bcst, .perm, .rotl, .zipl, .unzl], ∀ x, operandUnsigned o x = false))
  ∧ (Gives .fwd (fun _ _ => 1) always (fun _ i v rc => v = i.a ∧ rc = false)
    ∧ Gives .tagr (fun _ _ => 1) (fun _ i => i.ta.isSome = true) (fun _ i v rc =>
        (∀ h, i.ta = some h → v = BitVec.ofNat 256 (h.ct.code.toNat * 8 + h.ft.toNat)) ∧ rc = (v != 0))
    ∧ Gives .steer (fun _ _ => 1) always (fun x i v rc => v = i.a ∧ rc = (lane (slotW x) i.b 0 != 0))
    ∧ Gives .merge (fun _ _ => 1) always (fun x i v rc =>
        v = (if lane (slotW x) i.c 0 = 0 then i.a else i.b) ∧ rc = (lane (slotW x) i.c 0 != 0)))
  ∧ (Fires .ctag (fun _ _ => some 1) (fun _ _ x _ => ∃ n, x.sa = .i n) (fun s t el x i f => Quiet s t el
        ∧ ∀ n, x.sa = .i n → f.fin = .retagCt n.val (Tag.ofCode (bits i.b 0 2)))
    ∧ Fires .ftag (fun _ _ => some 1) (fun _ _ x _ => ∃ n, x.sa = .i n) (fun s t el x i f => Quiet s t el
        ∧ ∀ n, x.sa = .i n → f.fin = .retagFt n.val (bits i.b 0 3))
    ∧ Fires .seed (fun _ _ => some 1) (fun _ _ _ _ => True) (fun s t el _ i f => Quiet s t el ∧ f.fin = .seed (bits i.a 0 32)))
  ∧ ((∀ o ∈ [Op.mov, .lane, .insl, .bcst, .perm, .rotl, .zipl, .unzl, .fwd, .tagr, .merge],
      Fires o (fun _ _ => some 1) (fun _ _ x _ => x.mod.getLsbD 6 = true → (∃ n, x.sa = .i n) ∧ (o = .merge → ∃ n, x.sb = .i n))
        (fun _ _ _ x i f => f.ports = writePorts o x
          ∧ (x.mod.getLsbD 6 = false → f.tags = (x.tago, x.fto))
          ∧ (x.mod.getLsbD 6 = true → ∃ h, (if o = .merge ∧ lane (slotW x) i.c 0 ≠ 0 then i.tb else i.ta) = some h ∧ f.tags = (h.ct, h.ft))))
    ∧ Fires .steer (fun _ _ => some 1) (fun _ _ x _ => ∃ n, x.dst = .o n) (fun _ _ _ x i f => ∀ n, x.dst = .o n →
        f.ports = [if lane (slotW x) i.b 0 = 0 then n.val else (bits x.mod 4 2).toNat]
        ∧ (x.mod.getLsbD 6 = false → f.tags = (x.tago, x.fto)) ∧ (x.mod.getLsbD 6 = true → ∀ h, i.ta = some h → f.tags = (h.ct, h.ft))))

/-- R65, R117, R119, R120: The ordinary integer family, exact before Put, with the latencies of the table and RC NZ(result). Words set no bit of MOD but
K's and those of the table. The scaled forms put the rounded shift of the exact sum, difference or product; IRED leaves the value of its tree, each
node one sum, minimum, maximum or exclusive or, in lane 0, the other lanes 0. SAT is defined only with .add. -/
def Obligations.IntegerArithmeticCompletes : Prop :=
  (Gives .add (fun _ _ => 1) always (LanesNz (fun x i l => putInt x (getX x i.a l + getX x i.b l)))
    ∧ Gives .sub (fun _ _ => 1) always (LanesNz (fun x i l => putInt x (getX x i.a l - getX x i.b l)))
    ∧ Gives .mul (fun _ _ => 3) always (LanesNz (fun x i l => putInt x (getX x i.a l * getX x i.b l)))
    ∧ Gives .mulh (fun _ _ => 3) always (LanesNz (fun x i l =>
        ((getX x i.a l * getX x i.b l) / 2 ^ slotW x % 2 ^ slotW x).toNat))
    ∧ Gives .mad (fun _ _ => 3) always (LanesNz (fun x i l => putInt x (getX x i.a l * getX x i.b l + getX x i.c l)))
    ∧ Gives .min (fun _ _ => 1) always (LanesNz (fun x i l => wrap (slotW x) (min (getX x i.a l) (getX x i.b l))))
    ∧ Gives .max (fun _ _ => 1) always (LanesNz (fun x i l => wrap (slotW x) (max (getX x i.a l) (getX x i.b l))))
    ∧ Gives .abs (fun _ _ => 1) always (LanesNz (fun x i l => putInt x |getX x i.a l|))
    ∧ Gives .neg (fun _ _ => 1) always (LanesNz (fun x i l => putInt x (-getX x i.a l)))
    ∧ Gives .clmp (fun _ _ => 1) always (LanesNz (fun x i l =>
        wrap (slotW x) (min (max (getX x i.a l) (getX x i.b l)) (getX x i.c l))))
    ∧ (∀ o ∈ [Op.add, .sub, .mul, .mad], ModWithin o 0x4F) ∧ (∀ o ∈ [Op.mulh, .min, .max, .clmp], ModWithin o 0x47) ∧ ModWithin .abs 0x4B ∧ ModWithin .neg 0x4B)
  ∧ (Gives .adds (fun _ _ => 1) always (LanesNz (fun x i l =>
      putInt x (roundShift x (getX x i.a l + getX x i.b l) (lane (slotW x) i.c l))))
    ∧ Gives .subs (fun _ _ => 1) always (LanesNz (fun x i l =>
      putInt x (roundShift x (getX x i.a l - getX x i.b l) (lane (slotW x) i.c l))))
    ∧ Gives .qmul (fun _ _ => 3) always (LanesNz (fun x i l =>
      putInt x (roundShift x (getX x i.a l * getX x i.b l) (lane (slotW x) i.c l))))
    ∧ Gives .ired (fun _ _ => 3) always (fun x i v rc => rc = (v != 0)
        ∧ (let g := fun (n : Nat) => if slotU x then (n : Int) else sext (slotW x) n
           let op := fun (a b : Nat) => match (bits x.mod 4 2).toNat with
             | 0 => putInt x (g a + g b)
             | 1 => wrap (slotW x) (min (g a) (g b))
             | 2 => wrap (slotW x) (max (g a) (g b))
             | _ => a ^^^ b
           let n := 256 / slotW x
           ∃ tr : Nat → Nat → Nat, (∀ l, l < n → tr 0 l = lane (slotW x) i.a l)
             ∧ (∀ h, h < Nat.log2 n → ∀ j, j < n / 2 ^ (h + 1) → tr (h + 1) j = op (tr h (2 * j)) (tr h (2 * j + 1)))
             ∧ v = BitVec.ofNat 256 (tr (Nat.log2 n) 0)))
    ∧ (∀ x : Slot, wordRow .ired x = none → slotM54 x ≠ 0 → slotSat x = false))

/-- R97, R118, R119: Put wraps without SAT and saturates with it, to the signed or the unsigned range of the lane. The rounded shift is exact division by
a power of two, rounding half toward plus infinity, or down under T, for every count that a lane can hold. DIV and REM complete on every operand, zero
divisors and the one overflow among them, with the results of the table; RC is 1 when any lane of opB is 0; the latency is 8, 12, 20 or 36 fc. DIV
alone defines SAT. That the rounded shift follows its pseudocode at twice the width of the lane, where the prose has 0, is the model's reading (log
38). -/
def Obligations.IntegerResultsAreExact : Prop :=
  (∀ (x : Slot) (v : Int), putInt x v < 2 ^ slotW x
      ∧ (slotSat x = false → (putInt x v : Int) = v % 2 ^ slotW x)
      ∧ (slotSat x = true → slotU x = true → (putInt x v : Int) = min (max v 0) (2 ^ slotW x - 1))
      ∧ (slotSat x = true → slotU x = false →
          sext (slotW x) (putInt x v) = min (max v (-(2 ^ (slotW x - 1)))) (2 ^ (slotW x - 1) - 1)))
  ∧ (∀ (x : Slot) (v : Int) (c : Nat), |v| < 2 ^ (2 * slotW x) →
      (c = 0 → roundShift x v c = v)
      ∧ (0 < c → x.mod.getLsbD 5 = true → roundShift x v c = v / 2 ^ c)
      ∧ (0 < c → x.mod.getLsbD 5 = false → roundShift x v c = (v + 2 ^ (c - 1)) / 2 ^ c))
  ∧ (Gives .div (fun x _ => match (bits x.mod 0 2).toNat with | 0 => 8 | 1 => 12 | 2 => 20 | _ => 36) always (fun x i v rc =>
        (rc = true ↔ ∃ l, l < 256 / slotW x ∧ getX x i.b l = 0)
        ∧ ∀ l, l < 256 / slotW x →
          (getX x i.b l ≠ 0 → ¬ (slotU x = false ∧ getX x i.a l = -(2 ^ (slotW x - 1)) ∧ getX x i.b l = -1) →
            lane (slotW x) v l = wrap (slotW x) (Int.tdiv (getX x i.a l) (getX x i.b l)))
          ∧ (getX x i.b l = 0 → slotU x = true → lane (slotW x) v l = 2 ^ slotW x - 1)
          ∧ (getX x i.b l = 0 → slotU x = false → slotSat x = false → lane (slotW x) v l = 2 ^ slotW x - 1)
          ∧ (getX x i.b l = 0 → slotU x = false → slotSat x = true → 0 ≤ getX x i.a l → lane (slotW x) v l = 2 ^ (slotW x - 1) - 1)
          ∧ (getX x i.b l = 0 → slotU x = false → slotSat x = true → getX x i.a l < 0 → lane (slotW x) v l = 2 ^ (slotW x - 1))
          ∧ (slotU x = false → getX x i.a l = -(2 ^ (slotW x - 1)) → getX x i.b l = -1 → slotSat x = false →
              lane (slotW x) v l = 2 ^ (slotW x - 1))
          ∧ (slotU x = false → getX x i.a l = -(2 ^ (slotW x - 1)) → getX x i.b l = -1 → slotSat x = true →
              lane (slotW x) v l = 2 ^ (slotW x - 1) - 1))
    ∧ Gives .rem (fun x _ => match (bits x.mod 0 2).toNat with | 0 => 8 | 1 => 12 | 2 => 20 | _ => 36) always (fun x i v rc =>
        (rc = true ↔ ∃ l, l < 256 / slotW x ∧ getX x i.b l = 0)
        ∧ ∀ l, l < 256 / slotW x →
          (getX x i.b l = 0 → lane (slotW x) v l = wrap (slotW x) (getX x i.a l))
          ∧ (getX x i.b l ≠ 0 → lane (slotW x) v l = wrap (slotW x) (getX x i.a l - getX x i.b l * Int.tdiv (getX x i.a l) (getX x i.b l))))
    ∧ ModWithin .div 0x4F ∧ ModWithin .rem 0x47)

/-- R121, R122, R123, R124, R125: The bitwise instructions, shifts, rotates and counts complete in one fc with the results of the tables and RC
NZ(result). They define W alone. Bit fields within the lane, the CRC step over the bytes of opB, and packing and unpacking at half and double width. -/
def Obligations.LogicAndFieldsComplete : Prop :=
  (Gives .and (fun _ _ => 1) always (WholeNz (fun _ i => i.a &&& i.b))
    ∧ Gives .or (fun _ _ => 1) always (WholeNz (fun _ i => i.a ||| i.b))
    ∧ Gives .xor (fun _ _ => 1) always (WholeNz (fun _ i => i.a ^^^ i.b))
    ∧ Gives .andn (fun _ _ => 1) always (WholeNz (fun _ i => i.a &&& ~~~i.b))
    ∧ Gives .bsel (fun _ _ => 1) always (WholeNz (fun _ i => (i.a &&& i.c) ||| (i.b &&& ~~~i.c)))
    ∧ Gives .shl (fun _ _ => 1) always (LanesNz (fun x i l => lane (slotW x) i.a l * 2 ^ lane (slotW x) i.b l % 2 ^ slotW x))
    ∧ Gives .shr (fun _ _ => 1) always (LanesNz (fun x i l => lane (slotW x) i.a l / 2 ^ lane (slotW x) i.b l))
    ∧ Gives .sha (fun _ _ => 1) always (LanesNz (fun x i l =>
        wrap (slotW x) (laneS (slotW x) i.a l / 2 ^ lane (slotW x) i.b l)))
    ∧ Gives .rotb (fun _ _ => 1) always (LanesNz (fun x i l =>
        let c := lane (slotW x) i.b l % slotW x
        lane (slotW x) i.a l * 2 ^ c % 2 ^ slotW x + lane (slotW x) i.a l / 2 ^ (slotW x - c)))
    ∧ Gives .popc (fun _ _ => 1) always (LanesNz (fun x i l =>
        ((List.range (slotW x)).filter (fun b => (lane (slotW x) i.a l).testBit b)).length))
    ∧ Gives .clz (fun _ _ => 1) always (LanesNz (fun x i l =>
        if lane (slotW x) i.a l = 0 then slotW x else slotW x - 1 - Nat.log2 (lane (slotW x) i.a l)))
    ∧ (∀ o ∈ [Op.and, .or, .xor, .andn, .bsel, .shl, .shr, .sha, .rotb, .popc, .clz], ModWithin o 3))
  ∧ (Gives .bfx (fun _ _ => 1) (fun x _ => wordRow .bfx x = none) (LanesNz (fun x i l =>
      let f := lane (slotW x) i.a l / 2 ^ immBits x 0 8 % 2 ^ immBits x 8 8
      if slotU x then f else wrap (slotW x) (sext (immBits x 8 8) f)))
    ∧ Gives .bfi (fun _ _ => 1) (fun x _ => wordRow .bfi x = none) (LanesNz (fun x i l =>
        let p := immBits x 0 8
        let n := immBits x 8 8
        lane (slotW x) i.a l % 2 ^ p + lane (slotW x) i.b l % 2 ^ n * 2 ^ p + lane (slotW x) i.a l / 2 ^ (p + n) * 2 ^ (p + n)))
    ∧ Gives .crc (fun x _ => if x.mod.getLsbD 5 then 4 else 2) always (WholeNz (fun x i => BitVec.ofNat 256
        (((List.range (if x.mod.getLsbD 5 then 32 else slotW x / 8)).map (fun k => lane 8 i.b k)).foldl crcByte (i.a.toNat % 2 ^ 32))))
    ∧ Gives .pack (fun _ _ => 1) (fun x _ => wordRow .pack x = none) (fun x i v rc => rc = (v != 0)
        ∧ ∀ l, l < 256 / slotW x → lane (slotW x / 2) v l = narrowHalf x (getX x i.a l)
          ∧ lane (slotW x / 2) v (l + 256 / slotW x) = narrowHalf x (getX x i.b l))
    ∧ Gives .unpk (fun _ _ => 1) (fun x _ => wordRow .unpk x = none) (fun x i v rc => rc = (v != 0)
        ∧ ∀ l, l < 256 / slotW x / 2 → lane (2 * slotW x) v l
            = wrap (2 * slotW x) (getX x i.a (l + (if x.mod.getLsbD 5 then 256 / slotW x / 2 else 0)))))

/-- R126, R127, R128, R129: The integer compares and bit tests give all ones where their condition holds, 0 elsewhere, and RC 1 when any lane is true.
They define U and W, the bit tests W. The float compares by value; NaN makes every compare false but FCMUN, which is true exactly then. Where slot f
holds an integer family they trap instead (FMTBAD), which SlotFamilyTraps states. SEL takes opA where opC's lane is nonzero; ANYL, ALLL and FIRSTL
place their result in lane 0 and 0 elsewhere. They define W. -/
def Obligations.ComparesAndSelectsComplete : Prop :=
  (Gives .cmpeq (fun _ _ => 1) always (MaskAny (fun x _ => slotW x) (fun x i l => getX x i.a l = getX x i.b l))
    ∧ Gives .cmpne (fun _ _ => 1) always (MaskAny (fun x _ => slotW x) (fun x i l => getX x i.a l ≠ getX x i.b l))
    ∧ Gives .cmplt (fun _ _ => 1) always (MaskAny (fun x _ => slotW x) (fun x i l => getX x i.a l < getX x i.b l))
    ∧ Gives .cmple (fun _ _ => 1) always (MaskAny (fun x _ => slotW x) (fun x i l => getX x i.a l ≤ getX x i.b l))
    ∧ Gives .cmpgt (fun _ _ => 1) always (MaskAny (fun x _ => slotW x) (fun x i l => getX x i.a l > getX x i.b l))
    ∧ Gives .cmpge (fun _ _ => 1) always (MaskAny (fun x _ => slotW x) (fun x i l => getX x i.a l ≥ getX x i.b l))
    ∧ Gives .tstz (fun _ _ => 1) always (MaskAny (fun x _ => slotW x) (fun x i l => lane (slotW x) (i.a &&& i.b) l = 0))
    ∧ Gives .tstnz (fun _ _ => 1) always (MaskAny (fun x _ => slotW x) (fun x i l => lane (slotW x) (i.a &&& i.b) l ≠ 0))
    ∧ (∀ o ∈ [Op.cmpeq, .cmpne, .cmplt, .cmple, .cmpgt, .cmpge], ModWithin o 7) ∧ ModWithin .tstz 3 ∧ ModWithin .tstnz 3)
  ∧ (Gives .fcmeq (fun _ _ => 1) floatSlot (MaskAny (fun x i => (fmtAt i.fmttab (slotF x)).fam.width) (fun x i l =>
        (fl (fmtAt i.fmttab (slotF x)) i.a l).cmp (fl (fmtAt i.fmttab (slotF x)) i.b l) = some 0))
    ∧ Gives .fcmlt (fun _ _ => 1) floatSlot (MaskAny (fun x i => (fmtAt i.fmttab (slotF x)).fam.width) (fun x i l =>
        (fl (fmtAt i.fmttab (slotF x)) i.a l).cmp (fl (fmtAt i.fmttab (slotF x)) i.b l) = some (-1)))
    ∧ Gives .fcmle (fun _ _ => 1) floatSlot (MaskAny (fun x i => (fmtAt i.fmttab (slotF x)).fam.width) (fun x i l =>
        ∃ c, (fl (fmtAt i.fmttab (slotF x)) i.a l).cmp (fl (fmtAt i.fmttab (slotF x)) i.b l) = some c ∧ c ≤ 0))
    ∧ Gives .fcmun (fun _ _ => 1) floatSlot (MaskAny (fun x i => (fmtAt i.fmttab (slotF x)).fam.width) (fun x i l =>
        (fl (fmtAt i.fmttab (slotF x)) i.a l).isNan = true ∨ (fl (fmtAt i.fmttab (slotF x)) i.b l).isNan = true)))
  ∧ (Gives .sel (fun _ _ => 1) always (LanesNz (fun x i l =>
      if lane (slotW x) i.c l ≠ 0 then lane (slotW x) i.a l else lane (slotW x) i.b l))
    ∧ Gives .anyl (fun _ _ => 1) always (fun x i v rc =>
        (rc = true ↔ ∃ l, l < 256 / slotW x ∧ lane (slotW x) i.a l ≠ 0) ∧ v = BitVec.ofNat 256 (if rc then 2 ^ slotW x - 1 else 0))
    ∧ Gives .alll (fun _ _ => 1) always (fun x i v rc =>
        (rc = true ↔ ∀ l, l < 256 / slotW x → lane (slotW x) i.a l ≠ 0) ∧ v = BitVec.ofNat 256 (if rc then 2 ^ slotW x - 1 else 0))
    ∧ Gives .firstl (fun _ _ => 1) always (fun x i v rc =>
        (rc = true → v.toNat < 256 / slotW x ∧ lane (slotW x) i.a v.toNat ≠ 0 ∧ ∀ l, l < v.toNat → lane (slotW x) i.a l = 0)
        ∧ (rc = false → v = BitVec.ofNat 256 (256 / slotW x) ∧ ∀ l, l < 256 / slotW x → lane (slotW x) i.a l = 0))
    ∧ (∀ o ∈ [Op.sel, .anyl, .alll, .firstl], ModWithin o 3))

/-! ## Floating point and conversions -/

/-- R134, R135, R136, R137: FADD, FSUB, FMUL, FMA, FMS and FNMA round the exact value of each lane once, under RM and SAT; RC is 1 when a result lane is
NaN (R133). FMIN and FMAX give the code of the lesser or greater lane, -0 below +0, the other lane's code beside a NaN, the canonical NaN for two;
FABS and FNEG clear and invert the sign bit of an IEEE or signed binary8 lane. None rounds. FSCL scales by a power of two before its one rounding
(counts beyond 1,024 act as 1,024); FRND gives RoundTo of the integer that RM chooses, keeps infinities, and makes a NaN canonical; FCLS gives one
class bit to a lane. FRND of an integer without a code is the model's reading (log 13). -/
def Obligations.FloatArithmeticCompletes : Prop :=
  (Rounds .fadd (fun _ _ => 4) floatSlot (FloatLanes (fun x i l => (flx x i i.a l).add (slotMode x) (flx x i i.b l)))
    ∧ Rounds .fsub (fun _ _ => 4) floatSlot (FloatLanes (fun x i l => (flx x i i.a l).add (slotMode x) (flx x i i.b l).neg))
    ∧ Rounds .fmul (fun _ _ => 4) floatSlot (FloatLanes (fun x i l => (flx x i i.a l).mul (flx x i i.b l)))
    ∧ Rounds .fma (fun _ _ => 4) floatSlot (FloatLanes (fun x i l =>
        ((flx x i i.a l).mul (flx x i i.b l)).add (slotMode x) (flx x i i.c l)))
    ∧ Rounds .fms (fun _ _ => 4) floatSlot (FloatLanes (fun x i l =>
        ((flx x i i.a l).mul (flx x i i.b l)).add (slotMode x) (flx x i i.c l).neg))
    ∧ Rounds .fnma (fun _ _ => 4) floatSlot (FloatLanes (fun x i l =>
        ((flx x i i.a l).mul (flx x i i.b l)).neg.add (slotMode x) (flx x i i.c l))))
  ∧ (Gives .fmin (fun _ _ => 2) floatSlot (CodeLanes (fun f a b r =>
        ((f.decodeF a).isNan = true → (f.decodeF b).isNan = true → r = f.nanCode)
        ∧ ((f.decodeF a).isNan = true → (f.decodeF b).isNan = false → r = b)
        ∧ ((f.decodeF a).isNan = false → (f.decodeF b).isNan = true → r = a)
        ∧ ((f.decodeF a).cmp (f.decodeF b) = some (-1) → r = a) ∧ ((f.decodeF a).cmp (f.decodeF b) = some 1 → r = b)
        ∧ ((f.decodeF a).cmp (f.decodeF b) = some 0 → r = if (f.decodeF a).sign then a else b)))
    ∧ Gives .fmax (fun _ _ => 2) floatSlot (CodeLanes (fun f a b r =>
        ((f.decodeF a).isNan = true → (f.decodeF b).isNan = true → r = f.nanCode)
        ∧ ((f.decodeF a).isNan = true → (f.decodeF b).isNan = false → r = b)
        ∧ ((f.decodeF a).isNan = false → (f.decodeF b).isNan = true → r = a)
        ∧ ((f.decodeF a).cmp (f.decodeF b) = some (-1) → r = b) ∧ ((f.decodeF a).cmp (f.decodeF b) = some 1 → r = a)
        ∧ ((f.decodeF a).cmp (f.decodeF b) = some 0 → r = if (f.decodeF a).sign then b else a)))
    ∧ Gives .fabs (fun _ _ => 2) floatSlot (CodeLanes (fun f a _ r =>
        ((f.decodeF a).isNan = true → r = f.nanCode)
        ∧ ((f.decodeF a).isNan = false → f.fam = .b8u → r = a)
        ∧ ((f.decodeF a).isNan = false → f.fam ≠ .b8u → r = a % 2 ^ (f.fam.width - 1))))
    ∧ Gives .fneg (fun _ _ => 2) floatSlot (CodeLanes (fun f a _ r =>
        ((f.decodeF a).isNan = true → r = f.nanCode)
        ∧ ((f.decodeF a).isNan = false → f.fam ≠ .b8u → (f.fam = .b8 → a ≠ 0) → r = a ^^^ 2 ^ (f.fam.width - 1))
        ∧ (f.fam = .b8u → (f.decodeF a).isNan = false → a ≠ 0 → r = f.nanCode)
        ∧ (f.fam = .b8 ∨ f.fam = .b8u → a = 0 → r = 0))))
  ∧ (Rounds .fscl (fun _ _ => 4) floatSlot (FloatLanes (fun x i l =>
        (flx x i i.a l).scale (clampInt (-1024) 1024 (laneS (fmtAt i.fmttab (slotF x)).fam.width i.b l))))
    ∧ Rounds .frnd (fun _ _ => 4) floatSlot (fun x i v rc q =>
        let f := fmtAt i.fmttab (slotF x)
        (rc = true ↔ ∃ l, l < f.lanes ∧ (f.decodeF (lane f.fam.width v l)).isNan = true)
        ∧ ∃ d : Nat → W32, d 0 = i.srng ∧ d f.lanes = q ∧ ∀ l, l < f.lanes →
          let r := lane f.fam.width v l
          match flx x i i.a l with
          | .nan => r = f.nanCode ∧ d (l + 1) = d l
          | .inf _ => r = lane f.fam.width i.a l ∧ d (l + 1) = d l
          | .fin neg m e =>
            let n := roundInt neg m e (slotMode x) (d l)
            d (l + 1) = n.2 ∧ r = (f.roundTo (.fin neg n.1.natAbs 0) (slotMode x) false n.2).code % 2 ^ f.fam.width)
    ∧ Gives .fcls (fun _ _ => 2) floatSlot (fun x i v rc =>
        (∀ l, l < (fmtAt i.fmttab (slotF x)).lanes →
          lane (fmtAt i.fmttab (slotF x)).fam.width v l = classBit (fmtAt i.fmttab (slotF x)) (flx x i i.a l))
        ∧ (rc = true ↔ ∃ l, l < (fmtAt i.fmttab (slotF x)).lanes ∧ (flx x i i.a l).isNan = true)))

/-- R65, R138, R139, R140: FRED leaves the value of its tree in lane 0, drawing level by level; FDOT2 rounds two products and an addend once to binary32;
OSM.m gives the greater maximum, the merged weight and the two factors, OSM.a applies them. R141 to R147: every special function rounds the value of
its steps once in each lane, under RM and SAT. -/
def Obligations.ReductionsAndSpecialFunctionsComplete : Prop :=
  (Rounds .fred (fun x i => let n := (fmtAt i.fmttab (slotF x)).lanes; if n = 8 then 8 else if n = 16 then 10 else 12) floatSlot
        (fun x i v rc q =>
          let f := fmtAt i.fmttab (slotF x)
          let op := fun (a b : Nat) (d : W32) =>
            if immBits x 0 2 = 0 then f.roundTo ((f.decodeF a).add (slotMode x) (f.decodeF b)) (slotMode x) (slotSat x) d
            else { code := minMaxCode f (immBits x 0 2 == 1) a b, out := false, srng := d }
          ∃ (tr : Nat → Nat → Nat) (d : Nat → Nat → W32), (∀ l, l < f.lanes → tr 0 l = lane f.fam.width i.a l) ∧ d 0 0 = i.srng
            ∧ (∀ h, h < Nat.log2 f.lanes → d (h + 1) 0 = d h (f.lanes / 2 ^ (h + 1)) ∧ ∀ j, j < f.lanes / 2 ^ (h + 1) →
                tr (h + 1) j = (op (tr h (2 * j)) (tr h (2 * j + 1)) (d h j)).code ∧ d h (j + 1) = (op (tr h (2 * j)) (tr h (2 * j + 1)) (d h j)).srng)
            ∧ v = BitVec.ofNat 256 (tr (Nat.log2 f.lanes) 0) ∧ rc = (f.decodeF (tr (Nat.log2 f.lanes) 0)).isNan ∧ q = d (Nat.log2 f.lanes) 0)
    ∧ Rounds .fdot2 (fun _ _ => 5) (fun x i => (fmtAt i.fmttab (slotF x)).fam = .f16 ∨ (fmtAt i.fmttab (slotF x)).fam = .bf16)
        (fun x i => DrawLanes 32 8 (fun l d => (fmt32.roundTo
            ((((flx x i i.a (2 * l)).mul (flx x i i.b (2 * l))).add (slotMode x)
              ((flx x i i.a (2 * l + 1)).mul (flx x i i.b (2 * l + 1)))).add (slotMode x) (fl fmt32 i.c l))
            (slotMode x) (slotSat x) d).nanLane fmt32) i.srng)
    ∧ Rounds .osm (fun x _ => if x.imm.getLsbD 0 then 5 else 24) (fun x i => (fmtAt i.fmttab (slotF x)).fam = .f32) (fun x i v rc q =>
        (x.imm.getLsbD 0 = true → DrawLanes 32 8 (fun l d => (fmt32.roundTo
            (((fl fmt32 i.a l).mul (fl fmt32 i.c 2)).add (slotMode x) ((fl fmt32 i.b l).mul (fl fmt32 i.c 3)))
            (slotMode x) (slotSat x) d).nanLane fmt32) i.srng v rc q)
        ∧ (x.imm.getLsbD 0 = false →
            let z := fmt32.roundTo (((fl fmt32 i.a 1).mul (fl fmt32 v 2)).add (slotMode x) ((fl fmt32 i.b 1).mul (fl fmt32 v 3)))
              (slotMode x) (slotSat x) i.srng
            let factor := fun (m : FVal) => if m.cmp (fl fmt32 v 0) = some 0 then 0x3F800000 else f32Code (exp2Of (m.add .rne (fl fmt32 v 0).neg))
            lane 32 v 1 = z.code ∧ q = z.srng ∧ (∀ l, 4 ≤ l → l < 8 → lane 32 v l = lane 32 i.a l ||| lane 32 i.b l)
            ∧ (rc = true ↔ ∃ l, l < 8 ∧ (fl fmt32 v l).isNan = true)
            ∧ (((fl fmt32 i.a 0).isNan || (fl fmt32 i.b 0).isNan) = true →
                lane 32 v 0 = fmt32.nanCode ∧ lane 32 v 2 = fmt32.nanCode ∧ lane 32 v 3 = fmt32.nanCode)
            ∧ (((fl fmt32 i.a 0).isNan || (fl fmt32 i.b 0).isNan) = false →
                (lane 32 v 0 = lane 32 i.a 0 ∨ lane 32 v 0 = lane 32 i.b 0) ∧ lane 32 v 2 = factor (fl fmt32 i.a 0) ∧ lane 32 v 3 = factor (fl fmt32 i.b 0))
            ∧ ((fl fmt32 i.a 0).cmp (fl fmt32 i.b 0) = some 1 → lane 32 v 0 = lane 32 i.a 0)
            ∧ ((fl fmt32 i.a 0).cmp (fl fmt32 i.b 0) = some (-1) → lane 32 v 0 = lane 32 i.b 0))))
  ∧ (Rounds .frcp (fun _ _ => 16) floatSlot (FloatLanes (fun x i l => Sfn.rcp.val (flx x i i.a l)))
    ∧ Rounds .frsq (fun _ _ => 16) floatSlot (FloatLanes (fun x i l => Sfn.rsq.val (flx x i i.a l)))
    ∧ Rounds .fsqrt (fun _ _ => 16) floatSlot (FloatLanes (fun x i l => Sfn.sqrt.val (flx x i i.a l)))
    ∧ Rounds .fexp2 (fun _ _ => 16) floatSlot (FloatLanes (fun x i l => Sfn.exp2.val (flx x i i.a l)))
    ∧ Rounds .flog2 (fun _ _ => 16) floatSlot (FloatLanes (fun x i l => Sfn.log2.val (flx x i i.a l)))
    ∧ Rounds .fsin (fun _ _ => 20) floatSlot (FloatLanes (fun x i l => Sfn.sin.val (flx x i i.a l)))
    ∧ Rounds .fcos (fun _ _ => 20) floatSlot (FloatLanes (fun x i l => Sfn.cos.val (flx x i i.a l)))
    ∧ Rounds .ftanh (fun _ _ => 28) floatSlot (FloatLanes (fun x i l => Sfn.tanh.val (flx x i i.a l)))
    ∧ Rounds .fsigm (fun _ _ => 28) floatSlot (FloatLanes (fun x i l => Sfn.sigm.val (flx x i i.a l)))
    ∧ Rounds .ferf (fun _ _ => 32) floatSlot (FloatLanes (fun x i l => Sfn.erf.val (flx x i i.a l)))
    ∧ Rounds .fexp (fun _ _ => 20) floatSlot (FloatLanes (fun x i l => Sfn.exp.val (flx x i i.a l)))
    ∧ Rounds .fdiv (fun _ _ => 20) floatSlot (FloatLanes (fun x i l => divVal (flx x i i.a l) (flx x i i.b l))))

/-- R150, R151, R152, R153, R154: The one-operand conversions and the scaled ones convert lane by lane under the lane map, where the families and Q are
right; an E8M0 scale of 0xFF makes every lane NaN, or 0 in an integer format, with RC 1. SRND rounds to the target's values and back into the source's
format; MXSC gives the running maximum and its scale; NARW and PK4 narrow two sources of one slot, UPK4 spreads nibbles. SRND's target families and
the width of a counter operand are the model's reading (log 57). -/
def Obligations.ConversionsComplete : Prop :=
  (Rounds .cvt (fun _ _ => 2) (convOk .cvt) (ConvLanes (fun x _ s t c d => cvtLane t (t.roundTo (s.decode c) (slotMode x) (slotSat x) d)))
    ∧ Rounds .cvti (fun _ _ => 2) (convOk .cvti) (ConvLanes (fun x _ s t c d => cvtLane t (t.roundToInt (s.decode c) (slotMode x) d)))
    ∧ Rounds .cvtf (fun _ _ => 2) (convOk .cvtf) (ConvLanes (fun x _ s t c d => cvtLane t (t.roundTo (s.decode c) (slotMode x) (slotSat x) d)))
    ∧ Rounds .widn (fun _ _ => 2) (convOk .widn) (ConvLanes (fun _ _ s t c d =>
        if t.fam.isFloat then cvtLane t (t.roundTo (s.decode c) .rne false d) else { code := wrap t.fam.width (sext s.fam.width c), flag := false, srng := d }))
    ∧ Rounds .qnt (fun _ _ => 2) (convOk .qnt) (fun x i v rc q =>
        (lane 8 i.b 0 ≠ 0xFF → ConvLanes (fun x i s t c d => cvtLane t (intoFmt x t ((s.decode c).scale (127 - (lane 8 i.b 0 : Int))) d)) x i v rc q)
        ∧ (lane 8 i.b 0 = 0xFF → rc = true ∧ q = i.srng ∧ ∀ l, l < (fmtAt i.fmttab (slotF x)).lanes →
            lane (fmtAt i.fmttab (slotF x)).fam.width v l = (fmtAt i.fmttab (slotF x)).nanCode))
    ∧ Rounds .dqnt (fun _ _ => 2) (convOk .dqnt) (fun x i v rc q =>
        (lane 8 i.b 0 ≠ 0xFF → ConvLanes (fun x i s t c d => cvtLane t (intoFmt x t ((s.decode c).scale ((lane 8 i.b 0 : Int) - 127)) d)) x i v rc q)
        ∧ (lane 8 i.b 0 = 0xFF → rc = true ∧ q = i.srng ∧ ∀ l, l < (fmtAt i.fmttab (slotF x)).lanes →
            lane (fmtAt i.fmttab (slotF x)).fam.width v l = (fmtAt i.fmttab (slotF x)).nanCode)))
  ∧ (Rounds .srnd (fun _ _ => 2) (convOk .srnd) (fun x i =>
        let s := fmtAt i.fmttab (sourceSlot x x.sa i.ta)
        let t := fmtAt i.fmttab (slotF x)
        DrawLanes s.fam.width s.lanes (fun l d =>
          let a := t.roundTo (s.decodeF (lane s.fam.width i.a l)) (slotMode x) (slotSat x) d
          let b := s.roundTo (t.decodeF a.code) .rne false a.srng
          { code := b.code, flag := a.out || cvtFlag s b, srng := a.srng }) i.srng)
    ∧ Gives .mxsc (fun _ _ => 3) (convOk .mxsc) (fun x i v rc =>
        let s := fmtAt i.fmttab (sourceSlot x x.sa i.ta)
        let t := fmtAt i.fmttab (slotF x)
        let amax := maxAbs (((List.range s.lanes).map (fun l => (s.decodeF (lane s.fam.width i.a l)).abs)).foldl maxAbs (.fin false 0 0)) (fl fmt32 i.b 0)
        v = BitVec.ofNat 256 (f32Code amax + 2 ^ 32 * scaleOf t amax) ∧ (rc = true ↔ scaleOf t amax = 0xFF))
    ∧ Rounds .narw (fun _ _ => 2) (fun x i => convOk .narw x i ∧ sourceSlot x x.sa i.ta = sourceSlot x x.sb i.tb) (fun x i =>
        let s := fmtAt i.fmttab (sourceSlot x x.sa i.ta)
        let t := fmtAt i.fmttab (slotF x)
        DrawLanes t.fam.width t.lanes (fun l d =>
          narrowInto x s t (if l < s.lanes then lane s.fam.width i.a l else lane s.fam.width i.b (l - s.lanes)) d) i.srng)
    ∧ Rounds .pk4 (fun _ _ => 2) (fun x i => convOk .pk4 x i ∧ sourceSlot x x.sa i.ta = sourceSlot x x.sb i.tb) (fun x i =>
        DrawLanes 4 64 (fun l d => narrowInto x (fmtAt i.fmttab (sourceSlot x x.sa i.ta)) (fmtAt i.fmttab (slotF x))
          (lane 8 (if l % 2 = 0 then i.a else i.b) (l / 2)) d) i.srng)
    ∧ Rounds .upk4 (fun _ _ => 2) (convOk .upk4) (fun x i =>
        let t := fmtAt i.fmttab (slotF x)
        DrawLanes 8 32 (fun l d =>
          let n := sext 4 (lane 4 i.a (2 * l + immBits x 4 3))
          if t.fam.isFloat then cvtLane t (t.roundTo (.ofInt n) (slotMode x) (slotSat x) d) else { code := wrap 8 n, flag := false, srng := d }) i.srng))

/-- R127, R131, R139, R140, R149, R150, R153: an instruction whose slot f an FMTW has given another family raises FMTBAD at issue, and its issue effects
do not take place: FCNT and the predicates stay. The same for FDOT2 and OSM on another floating family, for a conversion whose source, target or part
is not right, and for NARW and PK4 of two sources. The slot is what INFO names, but in a conversion (the model's choice of the slot there, log 37). -/
def Obligations.SlotFamilyTraps : Prop :=
  ∀ (s : State) (el k : Nat) (x : Slot),
    (∀ (o : Op), o ∈ [Op.fcmeq, .fcmlt, .fcmle, .fcmun, .fadd, .fsub, .fmul, .fma, .fms, .fnma, .fmin, .fmax, .fabs, .fneg, .fscl, .frnd, .fcls,
        .fred, .fdot2, .osm, .frcp, .frsq, .fsqrt, .fexp2, .flog2, .fsin, .fcos, .ftanh, .fsigm, .ferf, .fexp, .fdiv] → s.Ready el k o x →
      (let a := (fmtAt (s.opndsOf el o x).fmttab (slotF x)).fam
       (a.isFloat = false ∨ (o = .fdot2 ∧ a ≠ .f16 ∧ a ≠ .bf16) ∨ (o = .osm ∧ a ≠ .f32))) →
      exec (o.instr x) s = .next (s.trapElem el k ((s.elem el).ctx.regs.fcnt + 1)
        { code := 0x05, cause := 0, info := BitVec.ofNat 64 (slotF x) }))
    ∧ (∀ (o : Op), o ∈ [Op.cvt, .cvti, .cvtf, .widn, .srnd, .qnt, .dqnt, .mxsc, .narw, .pk4, .upk4] → s.Ready el k o x →
      (let i := s.opndsOf el o x
       (¬ convOk o x i
        ∨ ((o = .narw ∨ o = .pk4) ∧ sourceSlot x x.sa i.ta ≠ sourceSlot x x.sb i.tb))) →
      ∃ n, exec (o.instr x) s = .next (s.trapElem el k ((s.elem el).ctx.regs.fcnt + 1) { code := 0x05, cause := 0, info := n }))

/-! ## Control, issue, completion and traps -/

/-- R102, R103, R105, R106, R107, R108, R109, R111: NOP does nothing but its guard and effect fields; RDSR gives the special register that IMM names, FCNT
with its own firing counted, WRSR carries opA[63:0] to it; KSET, KDEC and KADD give the counter's new value with RC 1 when it is 0, KDEC leaving a 0;
PLOG's RC is the truth table. OUTC without FIN counts one tile off its section's RemainingTiles; with FIN it posts opA[1:0] to the oldest ARM in
flight there, and nothing where none is. Other sections and the machine outside the region stay. FMTW of a valid descriptor replaces FMTTAB[N] at
completion, of an invalid one raises FMTBAD; TICK holds the picker for the n fc that follow; EVNT counts EVC[e], saturating, where DBGCTL.EVEN is 1
and does nothing where it is 0. That an outcome, once waiting, is not replaced is the model's reading (log 39), as is that FMTBAD of a descriptor that
is not valid has the slot in INFO (log 40); EVNT counts at issue by log 9, and CYCLE's phase is log 6. -/
def Obligations.ControlCompletes : Prop :=
  (Fires .nop (fun _ _ => some 1) (fun _ _ _ _ => True) (fun s t el _ _ f => Quiet s t el ∧ f.fin = .plain)
    ∧ Fires .rdsr (fun _ _ => some 1) (fun _ _ _ _ => True) (fun s t el x _ f => Quiet s t el ∧ f.fin = .plain
        ∧ f.val = BitVec.ofNat 256 ((s.modRegs el (fun r => { r with fcnt := r.fcnt + 1 })).readSrg el (slotSrg x)) ∧ f.rc = (f.val != 0))
    ∧ Gives .wrsr (fun _ _ => 1) always (fun _ i v rc => v.toNat = i.a.toNat % 2 ^ 64 ∧ rc = false)
    ∧ Gives .kset (fun _ _ => 1) always (fun _ i v rc => v.toNat = i.a.toNat % 2 ^ 32 ∧ rc = (v == 0))
    ∧ Gives .kdec (fun _ _ => 1) always (fun _ i v rc => v.toNat = i.k.toNat - 1 ∧ rc = (v == 0))
    ∧ Gives .kadd (fun _ _ => 1) always (fun _ i v rc => v.toNat = (i.k.toNat + i.a.toNat) % 2 ^ 32 ∧ rc = (v == 0))
    ∧ Fires .plog (fun _ _ => some 1) (fun _ _ _ _ => True) (fun s t el x _ f => Quiet s t el ∧ f.fin = .plain
        ∧ f.rc = x.imm.getLsbD ((if (s.elem el).ctx.regs.p.getLsbD (immBits x 4 3) then 2 else 0)
            + (if (s.elem el).ctx.regs.p.getLsbD (immBits x 8 3) then 1 else 0))))
  ∧ (Fires .outc (fun _ _ => some 1) (fun s el _ _ => ∃ i sid v, s.sectOf el = some (i, sid) ∧ s.sect i sid = some v)
      (fun s t el x a f => Quiet s t el ∧ f.fin = .plain
        ∧ ∀ i sid v, s.sectOf el = some (i, sid) → s.sect i sid = some v → ∃ w, t.sect i sid = some w
          ∧ w.arms = v.arms
          ∧ (x.mod.getLsbD 0 = false → w.remaining = v.remaining - 1 ∧ w.fin = v.fin)
          ∧ (x.mod.getLsbD 0 = true → w.remaining = v.remaining
              ∧ w.fin = (if v.arms = [] then v.fin else some (v.fin.getD (a.a.toNat % 4))))
          ∧ ∀ j q, (j, q) ≠ (i, sid) → t.sect j q = s.sect j q))
  ∧ (Fires .fmtw (fun _ _ => some 1) (fun _ _ _ i => (Fmt.ofByte (bits i.a 0 8)).valid = true)
        (fun s t el x i f => Quiet s t el ∧ f.fin = .fmttab (bits x.mod 3 3).toNat (bits i.a 0 8))
    ∧ (∀ (s : State) (el k : Nat) (x : Slot), s.Ready el k .fmtw x → (Fmt.ofByte (bits (s.opndsOf el .fmtw x).a 0 8)).valid = false →
        exec (.fmtw x) s = .next (s.trapElem el k ((s.elem el).ctx.regs.fcnt + 1)
          { code := 0x05, cause := 0, info := BitVec.ofNat 64 (bits x.mod 3 3).toNat }))
    ∧ Fires .tick (fun _ _ => some 1) (fun _ _ _ _ => True) (fun s t el x _ f => IssueFrame s t el ∧ f.fin = .plain
        ∧ RegsKept (s.elem el).ctx.regs (t.elem el).ctx.regs
        ∧ (t.elem el).ctx.tick = (if immBits x 0 16 = 0 then (s.elem el).ctx.tick else s.now + immBits x 0 16 + 1)
        ∧ Elem.keeps { s.elem el with ctx := { (s.elem el).ctx with tick := (t.elem el).ctx.tick } } (t.elem el))
    ∧ Fires .evnt (fun _ _ => some 1) (fun _ _ _ _ => True) (fun s t el x _ f => IssueFrame s t el ∧ f.fin = .plain
        ∧ (s.elem el).keeps (t.elem el)
        ∧ RegsKept { (s.elem el).ctx.regs with evc := (t.elem el).ctx.regs.evc } (t.elem el).ctx.regs
        ∧ ((s.elem el).ctx.regs.dbgctl.getLsbD 1 = false → (t.elem el).ctx.regs.evc = (s.elem el).ctx.regs.evc)
        ∧ ((s.elem el).ctx.regs.dbgctl.getLsbD 1 = true → ∀ e,
            ((t.elem el).ctx.regs.evc.getD e 0).toNat = (if e = (bits x.mod 0 2).toNat
              then min (((s.elem el).ctx.regs.evc.getD e 0).toNat + 1) (2 ^ 32 - 1) else ((s.elem el).ctx.regs.evc.getD e 0).toNat))))

/-- R39, R40, R41, R98, R132, R339: What issue does beside the instruction's own effect: the popped heads leave, each reservation adds one entry to its
output port, PRES and a register destination become pending and nothing else does, and the unit is busy for the issue interval. The unit of each
instruction, and the interval of those of classes 0 to 8, are those of the tables. At an element, an instruction that is not ready or whose element is
frozen or idled changes nothing, and one that reads or pops a port holding no token raises PORTEMPTY (0x02) with the port in INFO and none of its
issue effects. Which port PORTEMPTY names is the model's reading (log 29). -/
def Obligations.IssueEffectsAndWaits : Prop :=
  ((∀ (s : State) (el k : Nat) (o : Op) (x : Slot) (g : ActFn) (a : Act), (s.elem el).ctx.emptyPort o x = none →
      g s { el, slot := k, id := s.nextId, fcnt := (s.elem el).ctx.regs.fcnt + 1 } ((s.elem el).ctx.opnds o x) = .ok a → a.eff = id → a.after = none →
      let c := (s.elem el).ctx
      let d := ((s.issue o x el k g).elem el).ctx
      (∀ j, d.ports.inq.getD j [] = (if j ∈ c.portsPopped o x then (c.ports.inq.getD j []).tail else c.ports.inq.getD j []))
      ∧ (∀ j, d.ports.outq.getD j [] = c.ports.outq.getD j [] ++ List.replicate ((writePorts o x).count j) { firing := s.nextId, tok := none })
      ∧ d.regs.pend = (match x.pres with | some n => c.regs.pend ||| (1#8 <<< n.val) | none => c.regs.pend)
      ∧ d.regs.pendD = (match x.dst with | .d n => c.regs.pendD ||| (1#8 <<< n.val) | _ => c.regs.pendD)
      ∧ d.busy.getD (opUnit o).idx 0 = s.now + a.busy
      ∧ (∀ u, u ≠ (opUnit o).idx → d.busy.getD u 0 = c.busy.getD u 0))
    ∧ (∀ o : Op,
        (o ∈ [Op.mul, .mulh, .mad, .qmul] → opUnit o = .mul) ∧ (o ∈ [Op.div, .rem] → opUnit o = .div) ∧ (o = .fltr → opUnit o = .alu)
        ∧ (o = .rdce → opUnit o = .fpu)
        ∧ (o ∉ [Op.mul, .mulh, .mad, .qmul, .div, .rem, .fltr, .rdce] →
            opUnit o = [FUnit.ctl, .move, .alu, .alu, .alu, .fpu, .sfu, .cvt, .mxu, .mem, .mem, .coll].getD (o.code / 16) .ctl))
    ∧ (∀ (o : Op) (x : Slot) (n : Nat), o.code / 16 ≤ 8 →
        (o ∈ [Op.div, .rem] → opBusy o x n = [8, 12, 20, 36].getD (bits x.mod 0 2).toNat 0) ∧ (o = .osm → opBusy o x n = if x.imm.getLsbD 0 then 1 else 2)
        ∧ (o.code / 16 = 6 → opBusy o x n = n / 8) ∧ (o ∈ [Op.accs, .acca, .trns] → opBusy o x n = 32) ∧ (o = .mtest → opBusy o x n = 128)
        ∧ (o.code / 16 ≠ 6 → o ∉ [Op.div, .rem, .osm, .accs, .acca, .trns, .mtest] → opBusy o x n = 1)))
  ∧ (∀ (s : State) (el k : Nat) (o : Op) (x : Slot), s.focus = .elem el k →
      (s.mayIssue el k o x = false → exec (o.instr x) s = .next s)
      ∧ (∀ j, s.mayIssue el k o x = true → (s.elem el).ctx.emptyPort o x = some j →
          exec (o.instr x) s = .next (s.trapElem el k ((s.elem el).ctx.regs.fcnt + 1) { code := 0x02, cause := 0, info := BitVec.ofNat 64 j })))

/-- R40, R57, R61, R99, R100, R114: At completion the result reaches its data register, whose pending mark clears; the predicate that PRES names takes the
result condition, and its mark clears; on each port that the slot writes, the entry reserved for the firing takes the token, with the firing's tags
and value, where the firing emits on that port, and leaves where it does not, while the entries of other firings and the other ports stay; the firing
is gone. Registers that the slot does not name stay, and K0 keeps what an ARM loaded in this fc (R106). The endings of FMTW, SEED, CTAG and FTAG take
place at completion, and so does a result written to a special register: PRED, DBGCTL (its defined bits), the event and the stall counters. That a
completion precedes the issue turn of its fc is the model's reading (log 32). -/
def Obligations.CompletionDelivers : Prop :=
  (∀ (s : State) (el id : Nat) (f : Flight), s.focus = .event (.instructionComplete el id) → (s.elem el).ctx.flights.find? (fun g => g.id == id) = some f →
      s.flightDone el f = true → f.fin = .plain → f.op ≠ .cbar → f.x.dst ≠ .srg → (s.elem el).traps = [] →
      ∃ t, exec .instructionComplete s = .next t
        ∧ (∀ n, f.x.dst = .d n → (t.elem el).ctx.regs.d.getD n.val 0 = f.val ∧ (t.elem el).ctx.regs.pendD.getLsbD n.val = false)
        ∧ (∀ n : Fin 8, f.x.dst ≠ .d n → (t.elem el).ctx.regs.d.getD n.val 0 = (s.elem el).ctx.regs.d.getD n.val 0)
        ∧ (f.x.dst = .k → slotM6 f.x = false → (t.elem el).ctx.regs.k0 = (if (s.elem el).ctx.regs.armed then (s.elem el).ctx.regs.k0 else bits f.val 0 32) ∧ (t.elem el).ctx.regs.k1 = (s.elem el).ctx.regs.k1)
        ∧ (f.x.dst = .k → slotM6 f.x = true → (t.elem el).ctx.regs.k1 = bits f.val 0 32 ∧ (t.elem el).ctx.regs.k0 = (s.elem el).ctx.regs.k0)
        ∧ (∀ n : Fin 8, f.x.pres = some n → (t.elem el).ctx.regs.p.getLsbD n.val = f.rc ∧ (t.elem el).ctx.regs.pend.getLsbD n.val = false)
        ∧ (∀ n : Fin 8, f.x.pres ≠ some n → (t.elem el).ctx.regs.p.getLsbD n.val = (s.elem el).ctx.regs.p.getLsbD n.val)
        ∧ (∀ j pre e post, (writePorts f.op f.x).count j = 1 → (s.elem el).ctx.ports.outq.getD j [] = pre ++ e :: post → e.firing = f.id → e.tok = none →
            (∀ q ∈ pre, ¬ (q.firing = f.id ∧ q.tok = none)) →
            (t.elem el).ctx.ports.outq.getD j [] =
              (if j ∈ f.ports then pre ++ { e with tok := some { ct := f.tags.1, ft := f.tags.2, data := f.val } } :: post else pre ++ post))
        ∧ (∀ j, ((t.elem el).ctx.ports.outq.getD j []).filter (fun q => q.firing != f.id) = ((s.elem el).ctx.ports.outq.getD j []).filter (fun q => q.firing != f.id))
        ∧ (∀ j, j ∉ writePorts f.op f.x → (t.elem el).ctx.ports.outq.getD j [] = (s.elem el).ctx.ports.outq.getD j [])
        ∧ (t.elem el).ctx.flights = (s.elem el).ctx.flights.filter (fun g => g.id != f.id)
        ∧ (t.elem el).ctx.regs.fcnt = (s.elem el).ctx.regs.fcnt ∧ (t.elem el).ctx.regs.fmttab = (s.elem el).ctx.regs.fmttab
        ∧ (t.elem el).ctx.regs.srng = (s.elem el).ctx.regs.srng ∧ (t.elem el).ctx.ports.inq = (s.elem el).ctx.ports.inq
        ∧ (∀ e, e ≠ el → t.elem e = s.elem e) ∧ t.mem = s.mem ∧ t.regions = s.regions ∧ t.insts = s.insts)
  ∧ (∀ (s : State) (el id : Nat) (f : Flight), s.focus = .event (.instructionComplete el id) → (s.elem el).ctx.flights.find? (fun g => g.id == id) = some f →
      s.flightDone el f = true → f.op ≠ .cbar → f.x.pres = none → (s.elem el).traps = [] →
      ∃ t, exec .instructionComplete s = .next t ∧ t.mem = s.mem
        ∧ (∀ n b, f.x.dst = .null → f.fin = .fmttab n b → n < 8 → ∀ m, m < 8 →
            bits (t.elem el).ctx.regs.fmttab (8 * m) 8 = if m = n then b else bits (s.elem el).ctx.regs.fmttab (8 * m) 8)
        ∧ (∀ v, f.x.dst = .null → f.fin = .seed v → (t.elem el).ctx.regs.srng = if v = 0 then 1 else v)
        ∧ (∀ j c h q, f.x.dst = .null → f.fin = .retagCt j c → (s.elem el).ctx.ports.inq.getD j [] = h :: q →
            (t.elem el).ctx.ports.inq.getD j [] = { h with ct := c } :: q)
        ∧ (∀ j c h q, f.x.dst = .null → f.fin = .retagFt j c → (s.elem el).ctx.ports.inq.getD j [] = h :: q →
            (t.elem el).ctx.ports.inq.getD j [] = { h with ft := c } :: q)
        ∧ (f.x.dst = .srg → f.fin = .plain → slotSrg f.x = 5 → (t.elem el).ctx.regs.p = bits f.val 0 8)
        ∧ (f.x.dst = .srg → f.fin = .plain → slotSrg f.x = 8 → (t.elem el).ctx.regs.dbgctl = bits f.val 0 32 &&& 3)
        ∧ (∀ e, e < 4 → f.x.dst = .srg → f.fin = .plain → slotSrg f.x = 0x0C + e → (t.elem el).ctx.regs.evc.getD e 0 = bits f.val 0 32)
        ∧ (∀ e, e < 13 → f.x.dst = .srg → f.fin = .plain → slotSrg f.x = 0x10 + e →
            (t.elem el).ctx.regs.stall.getD (0x10 + e) 0 = bits f.val 0 32))

/-- R104, R273, R275, R276: TRAP raises SWTRAP (0x03) with IMM[15:0] after its issue effects, and BKPT raises BKPT (0x04) so when DBGCTL.BKEN is 1; else
BKPT acts as a NOP. Taking a trap: the element freezes and its region starts no firing, both until the trap is resolved; the record, with code, INFO,
FCNT and ELEMID in their fields, enters the trap queue once no firing before the point is in flight, and waits until then; the element's registers and
ports stay. The return from a trap: one trap of the element is resolved, and its element, with no other member of its chain frozen, is frozen no
longer once none is left and its region is not frozen, else it stays frozen; registers, ports and firings are as the trap left them. -/
def Obligations.TrapsAreTakenAndReturnedFrom : Prop :=
  ((∀ (s : State) (el k : Nat) (x : Slot), s.Ready el k .trap x → ∃ u f,
        exec (.trap x) s = .next (u.trapElem el k ((s.elem el).ctx.regs.fcnt + 1) { code := 0x03, cause := 0, info := BitVec.ofNat 64 (immBits x 0 16) })
        ∧ Begun s u el k .trap x (some 1) f ∧ Quiet s u el)
    ∧ (∀ (s : State) (el k : Nat) (x : Slot), s.Ready el k .bkpt x → (s.elem el).ctx.regs.dbgctl.getLsbD 0 = true → ∃ u f,
        exec (.bkpt x) s = .next (u.trapElem el k ((s.elem el).ctx.regs.fcnt + 1) { code := 0x04, cause := 0, info := BitVec.ofNat 64 (immBits x 0 16) })
        ∧ Begun s u el k .bkpt x (some 1) f ∧ Quiet s u el)
    ∧ Fires .bkpt (fun _ _ => some 1) (fun s el _ _ => (s.elem el).ctx.regs.dbgctl.getLsbD 0 = false)
        (fun s t el _ _ f => Quiet s t el ∧ f.fin = .plain))
  ∧ (∀ (s : State) (el k i : Nat) (fc : BitVec 48) (q : TrapReq) (v : Region), (s.elem el).ctx.inst = some i → s.region i = some v → v.traps.length < 256 →
      (s.elem el).traps = [] → q.code < 256 → q.cause < 256 → k < 256 → el < 2 ^ 32 →
      let t := s.trapElem el k fc q
      (t.elem el).frozen.trap = (s.elem el).frozen.trap + 1 ∧ (t.elem el).ctx = (s.elem el).ctx ∧ t.isFrozen el = true ∧ t.mem = s.mem
      ∧ (∀ e, e ≠ el → t.elem e = s.elem e)
      ∧ ∃ w r, t.region i = some w ∧ w.holds = v.holds + 1
          ∧ ((∀ f ∈ (s.elem el).ctx.flights, ¬ f.fcnt < fc) → w.traps = v.traps ++ [r] ∧ (t.elem el).traps = [])
          ∧ ((∃ f ∈ (s.elem el).ctx.flights, f.fcnt < fc) → w.traps = v.traps ∧ (t.elem el).traps = [r])
          ∧ recCode r = q.code ∧ recInfo r = q.info ∧ recFcnt r = fc ∧ recElem r = el ∧ recSrc r = 0
          ∧ (bits r 184 8).toNat = q.cause ∧ (bits r 40 8).toNat = k ∧ bits r 160 16 = (s.elem el).ctx.regs.asid
          ∧ bits r 112 48 = s.ivecOf el)
  ∧ (∀ (s : State) (el i : Nat), (s.elem el).ctx.inst = some i →
      let t := s.resumeElem el i
      (t.elem el).frozen.trap = (s.elem el).frozen.trap - 1 ∧ (t.elem el).ctx = (s.elem el).ctx ∧ t.mem = s.mem ∧ t.regions = s.regions
      ∧ (∀ e, e ≠ el → t.elem e = s.elem e)
      ∧ (∀ v, s.region i = some v → v.frozen = false → v.accepted = none → (s.elem el).frozen.trap ≤ 1 →
          (∀ m ∈ s.chain el, m ≠ el → (s.elem m).frozen.trap = 0 ∨ s.leftChain m = true) → t.isFrozen el = false)
      ∧ (1 < (s.elem el).frozen.trap → t.isFrozen el = true)
      ∧ (∀ v, s.region i = some v → v.frozen = true → t.isFrozen el = true))

/-- R100, R101, R163, R175, R177, R180, R181, R182, R188, R190, R318: the special registers read as the state holds them: those that every element has
(ELEMID, STAGEBASE, ASID, FCNT, CYCLE from the die's own reset, by log 6, PRED, FMTTAB, SRNG, DBGCTL, the event and the stall counters); of a CE the
words of both banks, the k values of both scales that remain, and its section's next rasterisation entry; of an MT GSTAT, HSTAT, DCXST, QCFG, QPTR,
SPBASE and SPSIZE; of a BN PCHST; of a GW CSTAT and COLLST. What GSTAT.MISS counts (log 56) and how many fc are left of a back-off that ends inside
one (log 50) are the model's readings. -/
def Obligations.SpecialRegistersRead : Prop :=
  (∀ (s : State) (el : Nat),
    let r := (s.elem el).ctx.regs
    s.readSrg el 0 = el ∧ s.readSrg el 1 = r.stage.toNat ∧ s.readSrg el 2 = r.asid.toNat ∧ s.readSrg el 3 = r.fcnt.toNat
    ∧ s.readSrg el 4 = (s.now + (s.die (elDie el)).phase) % 2 ^ 64 ∧ s.readSrg el 5 = r.p.toNat ∧ s.readSrg el 6 = r.fmttab.toNat ∧ s.readSrg el 7 = r.srng.toNat
    ∧ s.readSrg el 8 = r.dbgctl.toNat ∧ (∀ e, e < 4 → s.readSrg el (0x0C + e) = (r.evc.getD e 0).toNat)
    ∧ (∀ e, e < 13 → s.readSrg el (0x10 + e) = (r.stall.getD (0x10 + e) 0).toNat))
  ∧ (∀ (s : State) (el : Nat), elType el = .ce →
    let m := (s.elem el).ctx.mxu
    (∀ n b, (n = 0x40 ∧ b = m.a0) ∨ (n = 0x41 ∧ b = m.a1) →
      s.readSrg el n = b.rmask.toNat + 2 ^ 34 * (b.part % 4) + (if b.settles.isSome then 2 ^ 36 else 0) + (if b.ovf then 2 ^ 37 else 0)
        + 2 ^ 38 * (match b.mode with | .zeroed => 0 | .float => 1 | .integer => 2))
    ∧ s.readSrg el 0x42 = m.arem + 256 * m.brem
    ∧ (∀ i sid x, s.sectOf el = some (i, sid) → s.sect i sid = some x → s.readSrg el 0x43 = x.cur))
  ∧ (∀ (s : State) (el : Nat), elType el = .mt →
    let m := (s.elem el).ctx.mt
    (∀ g, g < 4 → (s.gen el g).dv = true →
      s.readSrg el (0x40 + g) = (match (s.gen el g).state with | .idle => 0 | .running => 1 | .suspended => 2 | .faulted => 3 | .done => 4) + 8
        + 256 * s.genMisses el g + 2 ^ 16 * ((dCount (s.gen el g).desc - (s.gen el g).done) % 2 ^ 48))
    ∧ s.readSrg el 0x44 = (if m.frame.opened then 1 else 0) + 2 * m.frame.held.length + 2 ^ 16 * m.frame.ivec.toNat
    ∧ s.readSrg el 0x45 = m.dcx.ver.toNat + (if m.dcx.ftsrc then 256 else 0)
        + (if m.gens.vals.any (fun g => dDcx g.desc && g.state == .running) then 512 else 0) + 2 ^ 16 * m.dcx.blks.toNat
    ∧ (∀ q, q < 4 → s.readSrg el (0x48 + q) = (m.queue q).cfg.toNat)
    ∧ (∀ q, q < 4 → s.readSrg el (0x4C + q) = (m.queue q).head + 2 ^ 16 * ((m.queue q).count % 2 ^ 16) + 2 ^ 32 * ((m.queue q).segs % 256))
    ∧ s.readSrg el 0x50 = m.spbase.toNat ∧ s.readSrg el 0x51 = m.spsize.toNat)
  ∧ (∀ (s : State) (el : Nat), elType el = .bn →
    let c := s.pch (bnPch el)
    s.readSrg el 0x40 = (if c.refEnd.isSome then 3 else c.pwr) + (if c.run.isSome then 4 else 0) + 8 * (c.saved.length % 4) + 256 * (s.depth (bnPch el) % 256)
      + 2 ^ 16 * (match c.backoff with | some t => min ((t + 4) / 5 - s.now) 65535 | none => 0)
      + (if c.limit.isSome then 2 ^ 32 else 0) + 2 ^ 33 * ((s.now + (s.die (bnPch el / 64)).phase) % 6240))
  ∧ (∀ (s : State) (el : Nat), elType el = .gw →
    let l := (s.elem el).ctx.gw.circs.vals
    (∀ k c, (∀ g ∈ l, g.bound = none ∨ g.bound = some k) → (∃ g ∈ l, g.bound = some k) → s.colls.find? k = some c →
      s.readSrg el 0x40 = (if c.paused = true ∨ c.pausedBy ≠ [] then 1 else 0) + (if c.isAborted then 2 else 0)
        + 256 * (if s.dom.members = [] then 0 else s.dom.gen % 256)
      ∧ (c.stage = .bound → s.readSrg el 0x41 = 1 + 256 * (c.bound % 4) + 2 ^ 16 * c.lease.toNat + 2 ^ 32 * (c.step % 2 ^ 16) + 2 ^ 48 * (c.num % 2 ^ 16))
      ∧ (c.stage ≠ .bound → s.readSrg el 0x41 = 0))
    ∧ ((∀ g ∈ l, g.bound = none) → s.readSrg el 0x40 = 256 * (if s.dom.members = [] then 0 else s.dom.gen % 256) ∧ s.readSrg el 0x41 = 0))

/-! ## The matrix unit -/

/-- R157, R158, R159, R160, R161: MMA and MMAZ, where the heads' formats have a step mode and the scales and the bank's mode allow it, add the step's sum
to each cell that it reaches, MMAZ to 0; the bank takes the step's mode, keeps a sticky overflow, and settles 63 fc later; the other bank stays. MMV
adds to column 0 with lane opC[4:0] of opB, MMSP each value of opB to the column that its coordinate byte names; both take 8-bit heads alone. That the
cells change at issue is the model's reading (log 18). -/
def Obligations.MatrixStepsAccumulate : Prop :=
  (∀ z : Bool, Fires (if z then .mmaz else .mma) (fun _ _ => some 1)
      (fun s el x i => ∃ sm, stepMode (x.mod.getLsbD 1) (stepIn i).fa.fam (stepIn i).fb.fam = some sm
        ∧ stepBad (s.elem el).ctx.mxu (s.bankAt el (x.mod.getLsbD 0)) (stepIn i).fa (stepIn i).fb sm.kvals (stepIn i).fta (stepIn i).ftb z = none)
      (fun s t el x i f => OnlyMxu s t el ∧ f.fin = .plain
        ∧ ∀ sm, stepMode (x.mod.getLsbD 1) (stepIn i).fa.fam (stepIn i).fb.fam = some sm →
          let one := x.mod.getLsbD 0
          let int := integerStep (stepIn i).fa (stepIn i).fb
          let old := fun p q => if z then (0 : W32) else (s.bankAt el one).cell p q
          let sum := stepSum (s.elem el).ctx.mxu (stepIn i) sm (bits x.mod 2 2).toNat
          (∀ p q, p < 32 → q < 32 → (t.bankAt el one).cell p q = (match sum p q with | some v => (accumulate int (old p q) v).1 | none => old p q))
          ∧ (t.bankAt el one).mode = (if int then .integer else .float) ∧ (t.bankAt el one).settles = some (s.now + 63)
          ∧ ((t.bankAt el one).ovf = true ↔ (z = false ∧ (s.bankAt el one).ovf = true)
              ∨ ∃ p q v, p < 32 ∧ q < 32 ∧ sum p q = some v ∧ (accumulate int (old p q) v).2 = true)
          ∧ t.bankAt el (!one) = s.bankAt el (!one)
          ∧ (t.elem el).ctx.mxu.arem = (if (stepIn i).fa.mx then (s.elem el).ctx.mxu.arem - sm.kvals else (s.elem el).ctx.mxu.arem)
          ∧ (t.elem el).ctx.mxu.brem = (if (stepIn i).fb.mx then (s.elem el).ctx.mxu.brem - sm.kvals else (s.elem el).ctx.mxu.brem)))
  ∧ ((∀ o ∈ [Op.mmv, .mmsp], Fires o (fun _ _ => some 1)
      (fun s el x i => isByteFam (stepIn i).fa.fam = true ∧ isByteFam (stepIn i).fb.fam = true
        ∧ stepBad (s.elem el).ctx.mxu (s.bankAt el (x.mod.getLsbD 0)) (stepIn i).fa (stepIn i).fb 1 (stepIn i).fta (stepIn i).ftb false = none
        ∧ (o = .mmsp → ∀ q, q < 32 → lane 8 i.c q < 32 ∨ lane 8 i.c q = 255))
      (fun s t el x i f =>
        let one := x.mod.getLsbD 0
        let m := (s.elem el).ctx.mxu
        let y := stepIn i
        let int := integerStep y.fa y.fb
        let va := fun p => y.fa.decode (lane 8 y.a p)
        let vb := fun q => y.fb.decode (lane 8 y.b q)
        OnlyMxu s t el ∧ f.fin = .plain ∧ t.bankAt el (!one) = s.bankAt el (!one)
        ∧ (t.bankAt el one).mode = (if int then .integer else .float) ∧ (t.bankAt el one).settles = some (s.now + 63)
        ∧ (o = .mmv → ∀ p, p < 32 → (t.bankAt el one).cell p 0 = (accumulate int ((s.bankAt el one).cell p 0)
              (scaledProduct (va p) (vb (lane 8 i.c 0 % 32)) (mxScaleOf y.fa m.scaleA p) (mxScaleOf y.fb m.scaleB 0))).1)
        ∧ (o = .mmv → ∀ p q, p < 32 → 0 < q → q < 32 → (t.bankAt el one).cell p q = (s.bankAt el one).cell p q)
        ∧ (o = .mmsp → ∀ p q n, p < 32 → q < 32 → n < 32 → lane 8 i.c n = q → (∀ k, k < 32 → lane 8 i.c k = q → k = n) →
            (t.bankAt el one).cell p q = (accumulate int ((s.bankAt el one).cell p q)
              (scaledProduct (va p) (vb n) (mxScaleOf y.fa m.scaleA p) (mxScaleOf y.fb m.scaleB q))).1)
        ∧ (o = .mmsp → ∀ p q, p < 32 → q < 32 → (∀ k, k < 32 → lane 8 i.c k ≠ q) →
            (t.bankAt el one).cell p q = (s.bankAt el one).cell p q)))
    ∧ (∀ (s : State) (el k : Nat) (x : Slot), s.Ready el k .mmsp x → (∃ q, q < 32 ∧ 31 < lane 8 (s.opndsOf el .mmsp x).c q
          ∧ lane 8 (s.opndsOf el .mmsp x).c q ≠ 255) →
        exec (.mmsp x) s = .next (s.trapElem el k ((s.elem el).ctx.regs.fcnt + 1)
          { code := 0x05, cause := 0, info := BitVec.ofNat 64 (stepIn (s.opndsOf el .mmsp x)).ftb })))

/-- R63: what a step adds: in float mode the exact sum rounded once, to nearest, in binary32; in integer mode the sum modulo 2^32, and the overflow flag
says that the exact sum left INT32. -/
def Obligations.AccumulationIsExact : Prop :=
  (∀ (c : W32) (v : Int), (accumulate true c (.ofInt v)).1 = BitVec.ofInt 32 (c.toInt + v)
    ∧ ((accumulate true c (.ofInt v)).2 = true ↔ (accumulate true c (.ofInt v)).1.toInt ≠ c.toInt + v))
  ∧ (∀ (c : W32) (v : FVal), (accumulate false c v).2 = false
      ∧ (accumulate false c v).1.toNat = (fmt32.roundTo ((fmt32.decodeF c.toNat).add .rne v) .rne false 0).code % 2 ^ 32)

/-- R109, R157, R162, R163, R164, R165, R166, R167, R168, R169: MXB loads the 32 scales of its operand and sets that operand's count to 32; ACCR converts
the next part of the lowest row not sent and marks the row sent with its last part, RC 1 when every row has been sent, and emits nothing, with RC 1,
where none is left; ACCW writes eight raw cells of one row under its mode, into a zeroed bank or one of that mode, and raises FMTBAD with a bank of
the other; ACCZ empties the bank. ACCS multiplies every cell by 2^n (an integer one modulo 2^32, or toward minus infinity; a zeroed bank stays), ACCA
adds the other bank in, or takes it over where its own is zeroed, and raises FMTBAD between two modes; TRNS transposes and forgets what was sent; OVF
notes an integer that left INT32 and otherwise stays. Each takes 33 fc, until the end of which its bank, for ACCA both, is unsettled. MDRN's RC is the
overflow of either bank; MSTAT gives the bank's MSTAT word with RC its OVF, and clears OVF under CLR; MTEST is in flight for 128 fc, and while it is,
no slot of its element may issue; RAST gives I, J and K of the section's next rasterisation entry with RC 1 and moves the cursor on, or 0 with RC 0
where the table holds no more; BANK_SETTLED settles a bank whose time has come, and TICK_EXPIRE ends a TICK's hold that is over. That cells change at
issue (log 18), a row read beyond those left (log 16), MTEST's verdict (log 17) and INFO 0 of FMTBAD (log 37) are the model's choices. -/
def Obligations.AccumulatorAccessAndStatus : Prop :=
  (Fires .mxb (fun _ _ => some 1) (fun _ _ _ _ => True) (fun s t el x i f => OnlyMxu s t el ∧ f.fin = .plain
      ∧ (t.elem el).ctx.mxu.a0 = (s.elem el).ctx.mxu.a0 ∧ (t.elem el).ctx.mxu.a1 = (s.elem el).ctx.mxu.a1
      ∧ (x.mod.getLsbD 1 = false → (t.elem el).ctx.mxu.arem = 32 ∧ (t.elem el).ctx.mxu.brem = (s.elem el).ctx.mxu.brem
          ∧ (t.elem el).ctx.mxu.scaleB = (s.elem el).ctx.mxu.scaleB
          ∧ ∀ l, l < 32 → ((t.elem el).ctx.mxu.scaleA.getD l 127).toNat = lane 8 i.a l)
      ∧ (x.mod.getLsbD 1 = true → (t.elem el).ctx.mxu.brem = 32 ∧ (t.elem el).ctx.mxu.arem = (s.elem el).ctx.mxu.arem
          ∧ (t.elem el).ctx.mxu.scaleA = (s.elem el).ctx.mxu.scaleA
          ∧ ∀ l, l < 32 → ((t.elem el).ctx.mxu.scaleB.getD l 127).toNat = lane 8 i.a l))
    ∧ Fires .accr (fun _ _ => some 2)
        (fun s el x i => ∃ r, r < 32 ∧ (s.bankAt el (x.mod.getLsbD 0)).rmask.getLsbD r = false
          ∧ (s.bankAt el (x.mod.getLsbD 0)).part < rowTokens (fmtAt i.fmttab (slotF x)))
        (fun s t el x i f =>
          let one := x.mod.getLsbD 0
          let b := s.bankAt el one
          let g := fmtAt i.fmttab (slotF x)
          let n := 32 / rowTokens g
          ∃ d : Nat → W32, f.fin = .plain ∧ f.val.toNat < 2 ^ (n * g.fam.width) ∧ OnlyMxuDrawn s t el (d n) ∧ d 0 = i.srng ∧ t.bankAt el (!one) = s.bankAt el (!one)
          ∧ ∀ r, r < 32 → b.rmask.getLsbD r = false → (∀ q, q < r → b.rmask.getLsbD q = true) →
            (∀ c, c < n →
              let w := accConv b g (immBits x 8 8) (RM.ofCode (immBits x 0 3)) (slotSat x) r (b.part * n + c) (d c)
              lane g.fam.width f.val c = w.code % 2 ^ g.fam.width ∧ d (c + 1) = w.srng)
            ∧ (b.part + 1 < rowTokens g → (t.bankAt el one).rmask = b.rmask ∧ (t.bankAt el one).part = b.part + 1)
            ∧ (b.part + 1 = rowTokens g → (t.bankAt el one).rmask = b.rmask ||| (1#32 <<< r) ∧ (t.bankAt el one).part = 0)
            ∧ (f.rc = true ↔ (t.bankAt el one).rmask = 0xFFFFFFFF) ∧ (t.bankAt el one).cells = b.cells ∧ (t.bankAt el one).mode = b.mode)
    ∧ Fires .accr (fun _ _ => some 2) (fun s el x _ => (s.bankAt el (x.mod.getLsbD 0)).rmask = 0xFFFFFFFF)
        (fun s t el _ _ f => Quiet s t el ∧ f.rc = true ∧ f.ports = [])
    ∧ Fires .accw (fun _ _ => some 1)
        (fun s el x _ => (s.bankAt el (x.mod.getLsbD 0)).mode = .zeroed
          ∨ (s.bankAt el (x.mod.getLsbD 0)).mode = (if x.mod.getLsbD 1 then .integer else .float))
        (fun s t el x i f =>
          let one := x.mod.getLsbD 0
          OnlyMxu s t el ∧ f.fin = .plain ∧ t.bankAt el (!one) = s.bankAt el (!one)
          ∧ (t.bankAt el one).mode = (if x.mod.getLsbD 1 then .integer else .float)
          ∧ (t.bankAt el one).rmask = (s.bankAt el one).rmask ∧ (t.bankAt el one).part = (s.bankAt el one).part
          ∧ (t.bankAt el one).ovf = (s.bankAt el one).ovf
          ∧ ∀ p q, p < 32 → q < 32 → ((t.bankAt el one).cell p q).toNat
              = (if p = immBits x 0 5 ∧ q / 8 = immBits x 5 2 then lane 32 i.a (q % 8) else ((s.bankAt el one).cell p q).toNat))
    ∧ (∀ (s : State) (el k : Nat) (x : Slot), s.Ready el k .accw x → (s.bankAt el (x.mod.getLsbD 0)).mode ≠ .zeroed →
        (s.bankAt el (x.mod.getLsbD 0)).mode ≠ (if x.mod.getLsbD 1 then .integer else .float) →
        exec (.accw x) s = .next (s.trapElem el k ((s.elem el).ctx.regs.fcnt + 1) { code := 0x05, cause := 0, info := 0 }))
    ∧ Fires .accz (fun _ _ => some 1) (fun _ _ _ _ => True) (fun s t el x _ f => OnlyMxu s t el ∧ f.fin = .plain
        ∧ t.bankAt el (x.mod.getLsbD 0) = .reset ∧ t.bankAt el (!x.mod.getLsbD 0) = s.bankAt el (!x.mod.getLsbD 0)))
  ∧ (Fires .accs (fun _ _ => some 33) (fun _ _ _ _ => True) (fun s t el x _ f =>
        let one := x.mod.getLsbD 0
        let n := (bits x.imm 0 8).toInt
        OnlyMxu s t el ∧ f.fin = .plain ∧ t.bankAt el (!one) = s.bankAt el (!one) ∧ (t.bankAt el one).mode = (s.bankAt el one).mode
        ∧ (t.bankAt el one).settles = some (s.now + 33)
        ∧ (t.bankAt el one).rmask = (s.bankAt el one).rmask ∧ (t.bankAt el one).part = (s.bankAt el one).part
        ∧ ((s.bankAt el one).mode = .zeroed → ∀ p q, p < 32 → q < 32 → (t.bankAt el one).cell p q = (s.bankAt el one).cell p q)
        ∧ ((t.bankAt el one).ovf = true ↔ (s.bankAt el one).ovf = true ∨ ((s.bankAt el one).mode = .integer ∧ 0 ≤ n
            ∧ ∃ p q, p < 32 ∧ q < 32 ∧ ((t.bankAt el one).cell p q).toInt ≠ ((s.bankAt el one).cell p q).toInt * 2 ^ n.toNat))
        ∧ ((s.bankAt el one).mode = .integer → ∀ p q, p < 32 → q < 32 → (t.bankAt el one).cell p q
            = BitVec.ofInt 32 (if 0 ≤ n then ((s.bankAt el one).cell p q).toInt * 2 ^ n.toNat else ((s.bankAt el one).cell p q).toInt / 2 ^ (-n).toNat))
        ∧ ((s.bankAt el one).mode = .float → ∀ p q, p < 32 → q < 32 → (t.bankAt el one).cell p q
            = BitVec.ofNat 32 (f32Code ((fmt32.decodeF ((s.bankAt el one).cell p q).toNat).scale n))))
    ∧ Fires .acca (fun _ _ => some 33)
        (fun s el x _ => (s.bankAt el (x.mod.getLsbD 0)).mode = .zeroed ∨ (s.bankAt el (!x.mod.getLsbD 0)).mode = .zeroed
          ∨ (s.bankAt el (x.mod.getLsbD 0)).mode = (s.bankAt el (!x.mod.getLsbD 0)).mode)
        (fun s t el x _ f =>
          let one := x.mod.getLsbD 0
          let b := s.bankAt el one
          let o := s.bankAt el (!one)
          OnlyMxu s t el ∧ f.fin = .plain ∧ (t.bankAt el one).settles = some (s.now + 33) ∧ t.bankAt el (!one) = { o with settles := some (s.now + 33) }
          ∧ (t.bankAt el one).rmask = b.rmask ∧ (t.bankAt el one).part = b.part
          ∧ ((t.bankAt el one).ovf = true ↔ b.ovf = true ∨ (b.mode = .integer ∧ o.mode = .integer
              ∧ ∃ p q, p < 32 ∧ q < 32 ∧ ((t.bankAt el one).cell p q).toInt ≠ (b.cell p q).toInt + (o.cell p q).toInt))
          ∧ (o.mode = .zeroed → (t.bankAt el one).cells = b.cells ∧ (t.bankAt el one).mode = b.mode)
          ∧ (b.mode = .zeroed → o.mode ≠ .zeroed → (t.bankAt el one).cells = o.cells ∧ (t.bankAt el one).mode = o.mode)
          ∧ (b.mode = .integer → o.mode = .integer → ∀ p q, p < 32 → q < 32 →
              (t.bankAt el one).cell p q = b.cell p q + o.cell p q)
          ∧ (b.mode = .float → o.mode = .float → ∀ p q, p < 32 → q < 32 →
              ((t.bankAt el one).cell p q).toNat = f32Code ((fmt32.decodeF (b.cell p q).toNat).add .rne (fmt32.decodeF (o.cell p q).toNat)) % 2 ^ 32))
    ∧ (∀ (s : State) (el k : Nat) (x : Slot), s.Ready el k .acca x → (s.bankAt el true).mode ≠ .zeroed → (s.bankAt el false).mode ≠ .zeroed →
        (s.bankAt el true).mode ≠ (s.bankAt el false).mode →
        exec (.acca x) s = .next (s.trapElem el k ((s.elem el).ctx.regs.fcnt + 1) { code := 0x05, cause := 0, info := 0 }))
    ∧ Fires .trns (fun _ _ => some 33) (fun _ _ _ _ => True) (fun s t el x _ f =>
        let one := x.mod.getLsbD 0
        OnlyMxu s t el ∧ f.fin = .plain ∧ t.bankAt el (!one) = s.bankAt el (!one) ∧ (t.bankAt el one).mode = (s.bankAt el one).mode
        ∧ (t.bankAt el one).rmask = 0 ∧ (t.bankAt el one).part = 0 ∧ (t.bankAt el one).ovf = (s.bankAt el one).ovf ∧ (t.bankAt el one).settles = some (s.now + 33)
        ∧ ∀ p q, p < 32 → q < 32 → (t.bankAt el one).cell p q = (s.bankAt el one).cell q p))
  ∧ (Fires .mdrn (fun _ _ => some 1) (fun _ _ _ _ => True) (fun s t el _ _ f => Quiet s t el ∧ f.fin = .plain
        ∧ f.rc = ((s.elem el).ctx.mxu.a0.ovf || (s.elem el).ctx.mxu.a1.ovf))
    ∧ Fires .mstat (fun _ _ => some 1) (fun _ _ _ _ => True) (fun s t el x _ f =>
        let b := s.bankAt el (x.mod.getLsbD 0)
        OnlyMxu s t el ∧ f.fin = .plain ∧ f.rc = b.ovf
        ∧ bits f.val 0 32 = b.rmask ∧ (bits f.val 34 2).toNat = b.part % 4 ∧ f.val.getLsbD 36 = b.settles.isSome ∧ f.val.getLsbD 37 = b.ovf ∧ f.val.toNat < 2 ^ 40 ∧ bits f.val 32 2 = 0
        ∧ (bits f.val 38 2).toNat = (match b.mode with | .zeroed => 0 | .float => 1 | .integer => 2)
        ∧ t.bankAt el (!x.mod.getLsbD 0) = s.bankAt el (!x.mod.getLsbD 0)
        ∧ t.bankAt el (x.mod.getLsbD 0) = (if x.mod.getLsbD 1 then { b with ovf := false } else b))
    ∧ Fires .mtest (fun _ _ => some 128) (fun _ _ _ _ => True) (fun s t el _ _ f => Quiet s t el ∧ f.fin = .mtest
        ∧ ∀ k o x, t.mayIssue el k o x = false)
    ∧ Fires .rast (fun _ _ => some 8) (fun _ _ _ _ => True) (fun s t el _ _ f => Quiet s t el ∧ f.fin = .plain
        ∧ ∀ i sid v, s.sectOf el = some (i, sid) → s.sect i sid = some v →
            (∀ e, v.rast[v.cur]? = some e → f.val.toNat = e.toNat % 2 ^ 48 ∧ f.rc = true ∧ ∃ w, t.sect i sid = some w ∧ w.cur = v.cur + 1 ∧ w.rast = v.rast)
            ∧ (v.rast[v.cur]? = none → f.val = 0 ∧ f.rc = false ∧ ∃ w, t.sect i sid = some w ∧ w.cur = v.cur))
    ∧ (∀ (s : State) (el : Nat) (b : Nat) (n : Nat), s.focus = .event (.bankSettled el b) → (s.bankAt el (b == 1)).settles = some n → n ≤ s.now →
        ∃ t, exec .bankSettled s = .next t ∧ t.bankAt el (b == 1) = { s.bankAt el (b == 1) with settles := none }
          ∧ t.bankAt el (b != 1) = s.bankAt el (b != 1) ∧ (t.elem el).ctx.regs = (s.elem el).ctx.regs ∧ t.mem = s.mem)
    ∧ (∀ (s : State) (el : Nat), s.focus = .event (.tickExpire el) → (s.elem el).ctx.tick ≤ s.now →
        ∃ t, exec .tickExpire s = .next t ∧ t.elem el = { s.elem el with ctx := { (s.elem el).ctx with tick := 0 } }
          ∧ (∀ e, e ≠ el → t.elem e = s.elem e) ∧ t.mem = s.mem))

/-! ## Memory tiles -/

/-- R170, R171, R172, R234: LDS, STS and SATM put an access to the token at opA[31:0], its low five bits ignored, at the tail of the element's queue, LDSX
and STSX one for each token that a lane touches, with the lanes' bytes in it, and complete in the table's latency; nothing else changes at issue. A
bank performs at most one access in an fc, the one at the head of its queue; a generator's access comes into that queue only where none waits there
and no instruction's comes before it. A read gives the token, SATM its old value while it leaves the token combined lane by lane with opB, LDSX the
lanes of the token; a store leaves every other byte of memory, and of two lanes at one address the higher stays. The address of lane l: opA[31:0] plus
the lane's index times its bytes, rounded down to them. An offset beyond the partition raises PROT with CAUSE 4 at issue, with none of the issue
effects, and memory stays. What a range trap's INFO holds (log 40), and that a bank grants at the entry to its queue (log 69), are the model's
readings. -/
def Obligations.ScratchpadAccessesCompleteOrTrap : Prop :=
  (
    let off := fun (i : Opnds) => i.a.toNat % 2 ^ 32 / 32 * 32
    let ok := fun (s : State) el (_ : Slot) (i : Opnds) => off i < s.spsize el
    let okl := fun (s : State) el (x : Slot) (i : Opnds) => ∀ l, l < 256 / slotW x → 0 ≤ laneAddr x i l ∧ laneAddr x i l < s.spsize el
    let each := fun (s t : State) (el : Nat) (x : Slot) (i : Opnds) (f : Flight) (kind : Nat → AccKind) (data : W256) =>
      ∃ l : List Access, (t.elem el).eq = (s.elem el).eq ++ l
        ∧ l.map (fun q => (q.kind, q.off)) = (laneTokens x i).map (fun k => (kind k, s.spadAt el (32 * k)))
        ∧ ∀ q ∈ l, q.tgt = .spad ∧ q.bytes = 32 ∧ q.by_ = .elem el f.id f.slot f.fcnt ∧ q.data = data ∧ q.held = false ∧ q.xlat = .untried
    Fires .lds (fun _ _ => some 4) ok (fun s t el _ i f => OnlyEq s t el ∧ f.fin = .plain ∧ SpadQueued s t el f .read (off i) 0)
    ∧ Fires .sts (fun _ _ => some 2) ok (fun s t el _ i f => OnlyEq s t el ∧ f.fin = .plain ∧ SpadQueued s t el f .write (off i) i.b)
    ∧ Fires .satm (fun _ _ => some 5) ok (fun s t el x i f => OnlyEq s t el ∧ f.fin = .plain
        ∧ SpadQueued s t el f (.combine (slotM54 x) (slotW x) (slotU x)) (off i) i.b)
    ∧ Fires .ldsx (fun x i => some (3 + (laneTokens x i).length)) okl (fun s t el x i f => OnlyEq s t el ∧ f.fin = .plain
        ∧ each s t el x i f (fun k => .gather (slotW x) (lanesAt x i k)) 0)
    ∧ Fires .stsx (fun x i => some (2 + (laneTokens x i).length)) okl (fun s t el x i f => OnlyEq s t el ∧ f.fin = .plain
        ∧ each s t el x i f (fun k => .scatter (slotW x) (lanesAt x i k)) i.c)
    ∧ ∀ (x : Slot) (i : Opnds) (l : Nat), l < 256 / slotW x → (laneAddr x i l).toNat / 32 ∈ laneTokens x i
        ∧ (l, (laneAddr x i l).toNat % 32) ∈ lanesAt x i ((laneAddr x i l).toNat / 32))
  ∧ (
    let good := fun (s : State) (a : Access) => s.mem.spad.wf = true ∧ s.spadGood a.off 32
    (∀ (s : State) (mt bank : Nat), s.focus = .event (.accessPerform (.spad mt bank)) →
      let b := spadBank (spadBase mt) + bank
      (s.bankFree b = false → exec .accessPerform s = .next s)
      ∧ ∀ a g, s.bankFree b = true → s.nextAtBank mt b = some (a, g) → ∃ t r u, exec .accessPerform s = .next t ∧ t.bankFree b = false
        ∧ State.performSpad { s.useBank b g with spadq := s.spadq.put b (s.spadq.getD b []).tail } a = (r, u) ∧ t = u.answerElem a r
        ∧ (s.spadq.getD b []).head? = some a)
    ∧ (∀ (s : State) (el g b : Nat), s.granted el g b = true → s.spadq.getD b [] = [] ∧ s.instrFirst el b = false)
    ∧ (∀ (s : State) (a : Access), good s a → a.bytes = 32 → a.kind = .read ∨ a.kind = .take → ∃ rc,
        s.performSpad a = (.done (BitVec.ofNat 256 (s.mem.spad.readN a.off 32)) rc, s))
    ∧ (∀ (s : State) (a : Access), good s a → a.bytes = 32 → a.kind = .write → ∃ t,
        s.performSpad a = (.done 0 false, t) ∧ t = { s with mem := t.mem } ∧ SpadHolds s t a.off 32 a.data.toNat)
    ∧ (∀ (s : State) (a : Access) (op w : Nat) (uns : Bool), good s a → a.bytes = 32 → a.kind = .combine op w uns → w ∈ [8, 16, 32, 64] →
        ∃ t rc, s.performSpad a = (.done (BitVec.ofNat 256 (s.mem.spad.readN a.off 32)) rc, t) ∧ t = { s with mem := t.mem }
        ∧ ∃ v : W256, SpadHolds s t a.off 32 v.toNat ∧ ∀ l, l < 256 / w →
            let old := getLane uns w (BitVec.ofNat 256 (s.mem.spad.readN a.off 32)) l
            let new := getLane uns w a.data l
            lane w v l = wrap w (match op with | 0 => old + new | 1 => min old new | 2 => max old new | _ => new))
    ∧ (∀ (s : State) (a : Access) (x : Slot) (i : Opnds) (k : Nat), good s a → a.kind = .gather (slotW x) (lanesAt x i k) →
        ∃ v rc, s.performSpad a = (.done v rc, s) ∧ ∀ l, l < 256 / slotW x → lane (slotW x) v l
          = if (laneAddr x i l).toNat / 32 = k then s.mem.spad.readN (a.off + (laneAddr x i l).toNat % 32) (slotW x / 8) else 0)
    ∧ (∀ (s : State) (a : Access) (x : Slot) (i : Opnds) (k : Nat), good s a → a.kind = .scatter (slotW x) (lanesAt x i k) →
        ∃ t, s.performSpad a = (.done 0 false, t) ∧ t = { s with mem := t.mem } ∧ t.mem.dram = s.mem.dram ∧ t.mem.ws = s.mem.ws
        ∧ (∀ l, l < 256 / slotW x → (laneAddr x i l).toNat / 32 = k →
            (∀ m, l < m → m < 256 / slotW x → (laneAddr x i m).toNat ≠ (laneAddr x i l).toNat) →
            t.mem.spad.readN (a.off + (laneAddr x i l).toNat % 32) (slotW x / 8) = lane (slotW x) a.data l)
        ∧ ∀ b, (∀ l, l < 256 / slotW x → (laneAddr x i l).toNat / 32 = k →
              b < a.off + (laneAddr x i l).toNat % 32 ∨ a.off + (laneAddr x i l).toNat % 32 + slotW x / 8 ≤ b) →
            t.mem.spad.read b = s.mem.spad.read b))
  ∧ (∀ (x : Slot) (i : Opnds) (l : Nat), laneAddr x i l % (slotW x / 8 : Nat) = 0
      ∧ laneAddr x i l ≤ (i.a.toNat % 2 ^ 32 : Nat) + getX x i.b l * (slotW x / 8 : Nat)
      ∧ (i.a.toNat % 2 ^ 32 : Nat) + getX x i.b l * (slotW x / 8 : Nat) < laneAddr x i l + (slotW x / 8 : Nat))
  ∧ ((∀ o ∈ [Op.lds, .sts, .satm], ∀ (s : State) (el k : Nat) (x : Slot), s.Ready el k o x →
      s.spsize el ≤ (s.opndsOf el o x).a.toNat % 2 ^ 32 / 32 * 32 →
      exec (o.instr x) s = .next (s.trapElem el k ((s.elem el).ctx.regs.fcnt + 1)
        { code := 0x11, cause := 4, info := BitVec.ofNat 64 ((s.opndsOf el o x).a.toNat % 2 ^ 32) }))
    ∧ (∀ o ∈ [Op.ldsx, .stsx], ∀ (s : State) (el k l : Nat) (x : Slot), s.Ready el k o x → l < 256 / slotW x →
      (∀ m, m < l → 0 ≤ laneAddr x (s.opndsOf el o x) m ∧ laneAddr x (s.opndsOf el o x) m < s.spsize el) →
      (laneAddr x (s.opndsOf el o x) l < 0 ∨ s.spsize el ≤ laneAddr x (s.opndsOf el o x) l) →
      ∃ q : TrapReq, exec (o.instr x) s = .next (s.trapElem el k ((s.elem el).ctx.regs.fcnt + 1) q) ∧ q.code = 0x11 ∧ q.cause = 4
        ∧ q.info.toNat = (laneAddr x (s.opndsOf el o x) l % 2 ^ 32).toNat))

/-- R51, R170, R174, R175, R176, R177, R180, R181: GSET loads a valid descriptor and leaves its generator idle at the first element, GRUN starts it there,
GSUS lets no burst start after the current one with RC 1 where it ran, GRES resumes a suspended or faulted one; GSET of an invalid descriptor and GRUN
without one raise PROT with CAUSE 8. The other generators stay. SBAR holds the generators of IMM[7:4] where those of IMM[3:0] have accesses still to
perform; HOLD opens the frame with its IVEC and raises PROT with CAUSE 9 where one is open; CMIT hands over the held stores in CNT + 1 fc, closing a
frame that holds none at once; DISC drops them and closes it; DCXC takes version 1 and FTSRC, and raises DCXFMT for another version or a reserved bit.
QAPP adds a token to its queue, the data of opA with its head's tags, or DATA with FT 0: its tags in the ring's next place, its data in an access to
that place, or the whole of it behind the ring's last where the ring is full and segments may be linked; QTAK takes the oldest one with its tags, RC 1
when the queue is then empty, its data by an access to its place, and the first token behind the ring moves into it; a full extensible queue raises
QFULL, a place beyond the partition PROT with CAUSE 4. The times of QTAK and QAPP (log 9), a held store's own (log 33) and FMTBAD's INFO (log 37) are
the model's readings. -/
def Obligations.GeneratorsHoldsAndQueues : Prop :=
  (
    let kept := fun (s t : State) (el : Nat) (x : Slot) => OnlyMt s t el ∧ ∀ g, g ≠ slotGen x → t.gen el g = s.gen el g
    Fires .gset (fun _ _ => some 1) (fun _ el _ i => descOk (elType el) i.a = true) (fun s t el x i f => kept s t el x ∧ f.fin = .plain
        ∧ (t.gen el (slotGen x)).desc = i.a ∧ (t.gen el (slotGen x)).dv = true ∧ (t.gen el (slotGen x)).state = .idle)
    ∧ Fires .grun (fun _ _ => some 1) (fun s el x _ => (s.gen el (slotGen x)).dv = true) (fun s t el x _ f => kept s t el x ∧ f.fin = .plain
        ∧ (t.gen el (slotGen x)).desc = (s.gen el (slotGen x)).desc ∧ (t.gen el (slotGen x)).dv = true
        ∧ (t.gen el (slotGen x)).state = .running ∧ (t.gen el (slotGen x)).pos = 0 ∧ (t.gen el (slotGen x)).done = 0
        ∧ (t.gen el (slotGen x)).owner = .elem ∧ (t.gen el (slotGen x)).sq = [] ∧ (t.gen el (slotGen x)).reads = [])
    ∧ Fires .gsus (fun _ _ => some 1) (fun _ _ _ _ => True) (fun s t el x _ f => kept s t el x ∧ f.fin = .plain
        ∧ (f.rc = true ↔ (s.gen el (slotGen x)).state = .running)
        ∧ ((s.gen el (slotGen x)).state ≠ .running → (s.gen el (slotGen x)).state ≠ .faulted → t.gen el (slotGen x) = s.gen el (slotGen x))
        ∧ ((s.gen el (slotGen x)).state = .faulted → t.gen el (slotGen x) = { s.gen el (slotGen x) with susp := true })
        ∧ ((s.gen el (slotGen x)).state = .running → (s.gen el (slotGen x)).atBoundary = true →
            t.gen el (slotGen x) = { s.gen el (slotGen x) with state := .suspended })
        ∧ ((s.gen el (slotGen x)).state = .running → (s.gen el (slotGen x)).atBoundary = false →
            t.gen el (slotGen x) = { s.gen el (slotGen x) with susp := true }))
    ∧ Fires .gres (fun _ _ => some 1) (fun _ _ _ _ => True) (fun s t el x _ f => kept s t el x ∧ f.fin = .plain
        ∧ ((s.gen el (slotGen x)).state = .suspended ∨ (s.gen el (slotGen x)).state = .faulted → (t.gen el (slotGen x)).state = .running
            ∧ (t.gen el (slotGen x)).pos = (s.gen el (slotGen x)).pos ∧ (t.gen el (slotGen x)).done = (s.gen el (slotGen x)).done
            ∧ (t.gen el (slotGen x)).desc = (s.gen el (slotGen x)).desc)
        ∧ ((s.gen el (slotGen x)).state ≠ .suspended → (s.gen el (slotGen x)).state ≠ .faulted → t.gen el (slotGen x) = s.gen el (slotGen x)))
    ∧ (∀ (s : State) (el k : Nat) (x : Slot), s.Ready el k .gset x → descOk (elType el) (s.opndsOf el .gset x).a = false →
        exec (.gset x) s = .next (s.trapElem el k ((s.elem el).ctx.regs.fcnt + 1) { code := 0x11, cause := 8, info := BitVec.ofNat 64 (slotGen x) }))
    ∧ (∀ (s : State) (el k : Nat) (x : Slot), s.Ready el k .grun x → (s.gen el (slotGen x)).dv = false →
        exec (.grun x) s = .next (s.trapElem el k ((s.elem el).ctx.regs.fcnt + 1) { code := 0x11, cause := 8, info := BitVec.ofNat 64 (slotGen x) })))
  ∧ (
    let fr := fun (s : State) (el : Nat) => (s.elem el).ctx.mt.frame
    Fires .sbar (fun _ _ => some 1) (fun _ _ _ _ => True) (fun s t el x _ f => OnlyMt s t el ∧ f.fin = .plain
        ∧ (t.elem el).ctx.mt.gens = (s.elem el).ctx.mt.gens
        ∧ (s.genAccesses el (immBits x 0 4) = [] → (t.elem el).ctx.mt.sbars = (s.elem el).ctx.mt.sbars)
        ∧ (s.genAccesses el (immBits x 0 4) ≠ [] → (t.elem el).ctx.mt.sbars
            = (s.elem el).ctx.mt.sbars ++ [{ held := bits x.imm 4 4, waits := s.genAccesses el (immBits x 0 4) }]))
    ∧ Fires .hold (fun _ _ => some 1) (fun s el _ _ => (fr s el).opened = false) (fun s t el _ i f => OnlyMt s t el ∧ f.fin = .plain
        ∧ (fr t el).opened = true ∧ (fr t el).ivec.toNat = i.a.toNat % 2 ^ 48 ∧ (fr t el).held = (fr s el).held)
    ∧ (∀ (s : State) (el k : Nat) (x : Slot), s.Ready el k .hold x → (fr s el).opened = true →
        exec (.hold x) s = .next (s.trapElem el k ((s.elem el).ctx.regs.fcnt + 1) { code := 0x11, cause := 9, info := (fr s el).ivec.setWidth 64 }))
    ∧ (∀ (s : State) (el k : Nat) (x : Slot), s.Ready el k .cmit x →
        ∃ t f, exec (.cmit x) s = .next t ∧ Begun s t el k .cmit x (some ((fr s el).held.length + 1)) f ∧ OnlyMt s t el
        ∧ ((fr s el).opened = true → (fr s el).held = [] → (fr t el).opened = false ∧ (fr t el).held = [])
        ∧ ((fr s el).opened = true → (fr s el).held ≠ [] → fr t el = { fr s el with cmit := some f.id })
        ∧ ((fr s el).opened = false → fr t el = fr s el))
    ∧ Fires .disc (fun _ _ => some 1) (fun _ _ _ _ => True) (fun s t el _ _ f => f.fin = .plain ∧ IssueFrame s t el
        ∧ Elem.keeps { s.elem el with eq := (t.elem el).eq, ctx := { (s.elem el).ctx with mt := (t.elem el).ctx.mt } } (t.elem el)
        ∧ (fr t el).opened = false ∧ (fr t el).held = [] ∧ (t.elem el).eq = (s.elem el).eq.filter (fun a => !a.held)
        ∧ (t.elem el).ctx.mt = { (s.elem el).ctx.mt with frame := fr t el })
    ∧ Fires .dcxc (fun _ _ => some 1) (fun _ _ _ i => i.a.toNat % 256 = 1 ∧ i.a.toNat / 512 % 2 ^ 23 = 0) (fun s t el _ i f => OnlyMt s t el
        ∧ f.fin = .plain ∧ (t.elem el).ctx.mt.dcx = { (s.elem el).ctx.mt.dcx with ver := 1, ftsrc := i.a.getLsbD 8 })
    ∧ (∀ (s : State) (el k : Nat) (x : Slot), s.Ready el k .dcxc x →
        ¬ ((s.opndsOf el .dcxc x).a.toNat % 256 = 1 ∧ (s.opndsOf el .dcxc x).a.toNat / 512 % 2 ^ 23 = 0) →
        ∃ q : TrapReq, q.code = 0x15 ∧ exec (.dcxc x) s = .next (s.trapElem el k ((s.elem el).ctx.regs.fcnt + 1) q)))
  ∧ (
    let q := fun (s : State) (el : Nat) (x : Slot) => (s.elem el).ctx.mt.queue (bits x.mod 0 2).toNat
    let frame := fun (s t : State) (el : Nat) (x : Slot) (f : Flight) => f.fin = .plain ∧ IssueFrame s t el
      ∧ Elem.keeps { s.elem el with eq := (t.elem el).eq, ctx := { (s.elem el).ctx with mt := (t.elem el).ctx.mt } } (t.elem el)
      ∧ RegsKept (s.elem el).ctx.regs (t.elem el).ctx.regs
      ∧ (t.elem el).ctx.mt = { (s.elem el).ctx.mt with queues := (t.elem el).ctx.mt.queues }
      ∧ ∀ n, n ≠ (bits x.mod 0 2).toNat → (t.elem el).ctx.mt.queue n = (s.elem el).ctx.mt.queue n
    let tags := fun (i : Opnds) => match i.ta with | some h => (h.ct, h.ft) | none => (Tag.data, 0)
    Fires .qapp (fun _ _ => some 1) (fun s el x _ => (q s el x).full = false ∧ (q s el x).count < (q s el x).size
        ∧ 32 * (q s el x).place (q s el x).count < s.spsize el)
        (fun s t el x i f => frame s t el x f ∧ (∃ d, SpadQueued s t el f .write (32 * (q s el x).place (q s el x).count) d ∧ d = (match i.ta with | some h => h.data | none => i.a))
        ∧ (q t el x).count = (q s el x).count + 1 ∧ (q t el x).head = (q s el x).head ∧ (q t el x).cfg = (q s el x).cfg ∧ (q t el x).extra = (q s el x).extra
        ∧ (q t el x).tags.getD ((q s el x).place (q s el x).count) (.data, 0) = tags i)
    ∧ Fires .qapp (fun _ _ => some 1) (fun s el x _ => (q s el x).full = false ∧ (q s el x).size ≤ (q s el x).count)
        (fun s t el x i f => frame s t el x f ∧ (t.elem el).eq = (s.elem el).eq ∧ (q t el x).count = (q s el x).count + 1 ∧ (q t el x).head = (q s el x).head
        ∧ ∃ k, (q t el x).extra = (q s el x).extra ++ [k] ∧ (k.ct, k.ft) = tags i ∧ k.data = (match i.ta with | some h => h.data | none => i.a))
    ∧ Fires .qtak (fun _ _ => some 1) (fun s el x _ => 32 * (q s el x).head < s.spsize el)
        (fun s t el x _ f => frame s t el x f
        ∧ f.tags = (q s el x).tags.getD (q s el x).head (.data, 0) ∧ (f.rc = true ↔ (q s el x).count = 1)
        ∧ (q t el x).count = (q s el x).count - 1 ∧ (q t el x).head = (q s el x).place 1
        ∧ ∃ a l, (t.elem el).eq = (s.elem el).eq ++ a :: l ∧ a.kind = .take ∧ a.tgt = .spad ∧ a.off = s.spadAt el (32 * (q s el x).head) ∧ a.bytes = 32
            ∧ a.by_ = .elem el f.id f.slot f.fcnt
            ∧ ((q s el x).extra = [] → l = [] ∧ (q t el x).extra = [])
            ∧ ∀ k r, (q s el x).extra = k :: r → (q t el x).extra = r ∧ ∃ w, l = [w] ∧ w.kind = .write ∧ w.tgt = .spad ∧ w.data = k.data)
    ∧ (∀ (s : State) (el k : Nat) (x : Slot), s.Ready el k .qapp x → (q s el x).full = true →
        exec (.qapp x) s = .next (s.trapElem el k ((s.elem el).ctx.regs.fcnt + 1)
          { code := 0x21, cause := 0, info := BitVec.ofNat 64 (bits x.mod 0 2).toNat }))
    ∧ (∀ (s : State) (el k : Nat) (x : Slot), s.Ready el k .qtak x → s.spsize el ≤ 32 * (q s el x).head → ∃ r : TrapReq, r.code = 0x11 ∧ r.cause = 4
        ∧ r.info.toNat = 32 * (q s el x).head % 2 ^ 32 ∧ exec (.qtak x) s = .next (s.trapElem el k ((s.elem el).ctx.regs.fcnt + 1) r))
    ∧ (∀ (s : State) (el k : Nat) (x : Slot), s.Ready el k .qapp x → (q s el x).full = false → (q s el x).count < (q s el x).size →
        s.spsize el ≤ 32 * (q s el x).place (q s el x).count → ∃ r : TrapReq, r.code = 0x11 ∧ r.cause = 4
        ∧ r.info.toNat = 32 * (q s el x).place (q s el x).count % 2 ^ 32 ∧ exec (.qapp x) s = .next (s.trapElem el k ((s.elem el).ctx.regs.fcnt + 1) r)))

/-- R177, R183, R184, R185, R186, R187, R270: GLD, GST and GATM put their access at the tail of the element's queue, 32 bytes with the VA's low bits
ignored or the lane's width; GST completes at once, held in an MT where its frame is open and has room. SIGW and SIGR queue a release or an acquire of
a 64-bit word with their scope, SIGR and FNC holding back later accesses; WSLD reads a weight-store token that a weight image covers, and raises PROT
with CAUSE 4 for another; GPRF delivers nothing and wakes the pseudo-channel that holds its VA. What a firing's accesses still owe (log 32) and the
cause of a WSLD outside every image (log 34) are the model's readings; GPRF of a remote address does nothing (log 62). -/
def Obligations.GlobalAccessesAndSignals : Prop :=
  (Fires .gld (fun _ _ => none) (fun s _ _ i => s.addrOk i.a 1) (fun s t el _ i f => OnlyEq s t el ∧ f.fin = .plain ∧ Queued s t el f i.a .read 32 0 0 false 0)
    ∧ Fires .gst (fun _ _ => some 1)
        (fun s el _ i => s.addrOk i.a 1 ∧ (elType el = .mt → (s.elem el).ctx.mt.frame.opened = true ∧ s.heldCount el < 1024))
        (fun s t el _ i f => OnlyEq s t el ∧ f.fin = .plain ∧ Queued s t el f i.a .write 32 i.b.toNat 0 (elType el == .mt) 0)
    ∧ Fires .gatm (fun _ _ => none) (fun s _ x i => s.addrOk i.a (slotW x / 8))
        (fun s t el x i f => OnlyEq s t el ∧ f.fin = .plain ∧ Queued s t el f i.a (.atomic (bits x.mod 4 3).toNat (slotW x) (slotU x)) (slotW x / 8)
          (lane (slotW x) i.b 0) (lane (slotW x) i.c 0) false 0))
  ∧ (
    let fenced := fun (s t : State) (el : Nat) (f : Flight) (sc : Nat) (w : List Nat) =>
      (t.elem el).ctx.mt = { (s.elem el).ctx.mt with fences := (s.elem el).ctx.mt.fences ++ [{ flight := f.id, scope := sc, waits := w }] }
    let keptQ := fun (s t : State) (el : Nat) => IssueFrame s t el
      ∧ Elem.keeps { s.elem el with eq := (t.elem el).eq, ctx := { (s.elem el).ctx with mt := (t.elem el).ctx.mt } } (t.elem el)
      ∧ RegsKept (s.elem el).ctx.regs (t.elem el).ctx.regs
    Fires .sigw (fun _ _ => none) (fun s _ _ i => s.addrOk i.a 8) (fun s t el x i f => OnlyEq s t el ∧ f.fin = .plain
        ∧ Queued s t el f i.a (.sigw (slotM54 x == 1)) 8 (i.b.toNat % 2 ^ 64) 0 false (slotRm x))
    ∧ Fires .sigr (fun _ _ => none) (fun s _ _ i => s.addrOk i.a 8) (fun s t el x i f => keptQ s t el ∧ f.fin = .plain
        ∧ Queued s t el f i.a (.sigr (Cmp.ofCode (slotM54 x))) 8 (i.b.toNat % 2 ^ 64) 0 false (slotRm x) ∧ fenced s t el f (slotRm x) [])
    ∧ Fires .fnc (fun _ _ => none) (fun _ _ _ _ => True) (fun s t el x _ f => OnlyMt s t el ∧ f.fin = .plain
        ∧ fenced s t el f (slotRm x) (s.outstanding el))
    ∧ Fires .wsld (fun _ _ => none) (fun s el _ i => s.wsAllowed ((s.elem el).ctx.inst.getD 0) (elDie el) (i.a.toNat % 2 ^ 30 / 32 * 32) = true)
        (fun s t el _ i f => keptQ s t el ∧ f.fin = .plain ∧ (t.elem el).ctx.mt = { (s.elem el).ctx.mt with wsDraw := some s.now }
        ∧ ∃ q : Access, (t.elem el).eq = (s.elem el).eq ++ [q] ∧ q.kind = .read ∧ q.tgt = .ws ∧ q.va = i.a.toNat % 2 ^ 30 / 32 * 32 ∧ q.bytes = 32
          ∧ q.id = f.id)
    ∧ (∀ (s : State) (el k : Nat) (x : Slot), s.Ready el k .wsld x →
        s.wsAllowed ((s.elem el).ctx.inst.getD 0) (elDie el) ((s.opndsOf el .wsld x).a.toNat % 2 ^ 30 / 32 * 32) = false →
        exec (.wsld x) s = .next (s.trapElem el k ((s.elem el).ctx.regs.fcnt + 1)
          { code := 0x11, cause := 4, info := BitVec.ofNat 64 ((s.opndsOf el .wsld x).a.toNat % 2 ^ 30) }))
    ∧ Fires .gprf (fun _ _ => some 1) (fun _ _ _ _ => True) (fun s t el _ _ f => f.fin = .plain ∧ IssueFrame { s with pchs := t.pchs } t el
        ∧ (s.elem el).keeps (t.elem el) ∧ RegsKept (s.elem el).ctx.regs (t.elem el).ctx.regs)
    ∧ Fires .gprf (fun _ _ => some 1) (fun s el _ i => i.a.getLsbD 95 = false ∧ ∃ j v size e, (s.elem el).ctx.inst = some j ∧ s.inst j = some v
          ∧ s.walk (i.a.toNat % 2 ^ 56) 0 v.root 4 = .leaf size e)
        (fun s t el _ i _ => ∃ p, (∀ q, q ≠ p → t.pch q = s.pch q) ∧ t.pch p = (s.pch p).wake s.now
          ∧ ∀ j v size e, (s.elem el).ctx.inst = some j → s.inst j = some v → s.walk (i.a.toNat % 2 ^ 56) 0 v.root 4 = .leaf size e →
            p = (leafCell size e (i.a.toNat % 2 ^ 56)).2.1))

/-- R177, R183, R185, R187, R309: An address operand with a bit above its VA raises PROT with CAUSE 4, one of a module that is not reachable CAUSE 6, a
misaligned atomic or signal CAUSE 5, in that order, at issue and with none of the issue effects. A store of a memory tile raises PROT with CAUSE 7
where no frame is open, and HOLDOVF where the hold buffer has no room. The cause of a misaligned signal word is the model's reading (log 34). -/
def Obligations.GlobalAccessTraps : Prop :=
  (∀ o ∈ [Op.gld, .gst, .gatm, .sigw, .sigr], ∀ (s : State) (el k : Nat) (x : Slot), s.Ready el k o x →
      let a := (s.opndsOf el o x).a
      let n := if o = .gatm then slotW x / 8 else if o = .sigw ∨ o = .sigr then 8 else 1
      ∀ c, ((bits a 56 8 ≠ 0 ∧ c = 4)
          ∨ (bits a 56 8 = 0 ∧ a.getLsbD 95 = true ∧ s.reachable (bits a 64 10).toNat = false ∧ c = 6)
          ∨ (bits a 56 8 = 0 ∧ (a.getLsbD 95 = true → s.reachable (bits a 64 10).toNat = true) ∧ a.toNat % 2 ^ 56 % n ≠ 0 ∧ c = 5)) →
        exec (o.instr x) s = .next (s.trapElem el k ((s.elem el).ctx.regs.fcnt + 1) { code := 0x11, cause := c, info := bits a 0 64 }))
  ∧ (∀ (s : State) (el k : Nat) (x : Slot), s.Ready el k .gst x → elType el = .mt → s.addrOk (s.opndsOf el .gst x).a 1 →
      ((s.elem el).ctx.mt.frame.opened = false → exec (.gst x) s = .next (s.trapElem el k ((s.elem el).ctx.regs.fcnt + 1)
        { code := 0x11, cause := 7, info := bits (s.opndsOf el .gst x).a 0 64 }))
      ∧ ((s.elem el).ctx.mt.frame.opened = true → 1024 ≤ s.heldCount el → exec (.gst x) s = .next (s.trapElem el k ((s.elem el).ctx.regs.fcnt + 1)
        { code := 0x23, cause := 0, info := BitVec.ofNat 64 (s.elem el).ctx.mt.frame.held.length })))

/-- R188, R189: NBQ and NBR queue their command for the element's pseudo-channel, NBR raising NBERR at issue for a reserved bit; NBST reads PCHST with RC
1 where a run is active. FLTR packs the lanes of opA whose lane of opB is nonzero, in order, and emits no token where there is none; RDCE combines
lane by lane in slot f, a float sum rounded once to nearest, an INT32 one modulo 2^32; it raises FMTBAD for another family. -/
def Obligations.NearBankCommandsAndFilters : Prop :=
  (
    let cmd := fun (s t : State) (el : Nat) (k : AccKind) (v : W256) => ∃ q : Access, (t.elem el).eq = (s.elem el).eq ++ [q] ∧ q.kind = k
      ∧ q.tgt = .nearBank ∧ q.data = v ∧ q.pch = bnPch el
    Fires .nbq (fun _ _ => some 1) (fun _ _ _ _ => True) (fun s t el x i f => OnlyEq s t el ∧ f.fin = .plain ∧ cmd s t el (.nbq (immBits x 0 3)) i.a)
    ∧ Fires .nbr (fun _ _ => some 1) (fun _ _ _ i => nbrReserved i.a = false) (fun s t el _ i f => OnlyEq s t el ∧ f.fin = .plain ∧ cmd s t el .nbr i.a)
    ∧ (∀ (s : State) (el k : Nat) (x : Slot), s.Ready el k .nbr x → nbrReserved (s.opndsOf el .nbr x).a = true →
        exec (.nbr x) s = .next (s.trapElem el k ((s.elem el).ctx.regs.fcnt + 1) { code := 0x13, cause := 0, info := BitVec.ofNat 64 (8 + bnPch el % 64 * 256) }))
    ∧ Fires .nbst (fun _ _ => some 1) (fun _ _ _ _ => True) (fun s t el _ _ f => Quiet s t el ∧ f.fin = .plain
        ∧ f.val = BitVec.ofNat 256 (s.pchst (bnPch el)) ∧ f.rc = (s.pch (bnPch el)).run.isSome))
  ∧ (Fires .fltr (fun _ _ => some 1) (fun _ _ _ _ => True) (fun s t el x i f => Quiet s t el ∧ f.fin = .plain
        ∧ (f.rc = true ↔ ∃ l, l < 256 / slotW x ∧ lane (slotW x) i.b l ≠ 0) ∧ (f.rc = false → f.ports = [])
        ∧ (f.rc = true → f.ports = writePorts .fltr x)
        ∧ ∀ l, l < 256 / slotW x → lane (slotW x) i.b l ≠ 0 →
            lane (slotW x) f.val ((List.range l).filter (fun m => lane (slotW x) i.b m != 0)).length = lane (slotW x) i.a l)
    ∧ Fires .rdce (fun _ _ => some 2) (fun _ _ x i => reduceFam (fmtAt i.fmttab (slotF x)).fam = true) (fun s t el x i f => Quiet s t el ∧ f.fin = .plain
        ∧ let g := fmtAt i.fmttab (slotF x)
          ∀ l, l < g.lanes →
            let a := lane g.fam.width i.a l
            let b := lane g.fam.width i.b l
            let r := lane g.fam.width f.val l
            (g.fam = .i32 → immBits x 0 2 = 0 → (r : Int) = (sext 32 a + sext 32 b) % 2 ^ 32)
            ∧ (g.fam = .i32 → immBits x 0 2 = 1 → sext 32 r = max (sext 32 a) (sext 32 b))
            ∧ (g.fam = .i32 → immBits x 0 2 = 2 → sext 32 r = min (sext 32 a) (sext 32 b))
            ∧ (g.fam ≠ .i32 → immBits x 0 2 = 0 → r = (g.roundTo ((g.decodeF a).add .rne (g.decodeF b)) .rne false 0).code % 2 ^ g.fam.width))
    ∧ (∀ (s : State) (el k : Nat) (x : Slot), s.Ready el k .rdce x → reduceFam (fmtAt (s.opndsOf el .rdce x).fmttab (slotF x)).fam = false →
        exec (.rdce x) s = .next (s.trapElem el k ((s.elem el).ctx.regs.fcnt + 1) { code := 0x05, cause := 0, info := BitVec.ofNat 64 (slotF x) })))

/-- R190: CSND spends a credit and sends opA as a token to the bound peer on its circuit, CRCV takes the next token received, CRED combines it with opA,
CBAR joins the barrier; on an instance that has aborted the first three raise COLLABORT. A second CBAR of an instance is log 61. -/
def Obligations.GatewayInstructions : Prop :=
  let circ := fun (s : State) (el : Nat) (x : Slot) => (s.elem el).ctx.gw.circs.find? (bits x.mod 0 6).toNat
  let ok := fun (s : State) (el : Nat) (x : Slot) (_ : Opnds) => s.circAborted (s.elem el).ctx x = false ∧ ∃ g, circ s el x = some g
  let taken := fun (s t : State) (el : Nat) (x : Slot) (f : Flight) (g : GwCircuit) => IssueFrame s t el ∧ f.fin = .plain
    ∧ RegsKept (s.elem el).ctx.regs (t.elem el).ctx.regs ∧ circ t el x = some { g with got := g.got.tail }
    ∧ ∀ n, n ≠ (bits x.mod 0 6).toNat → (t.elem el).ctx.gw.circs.find? n = (s.elem el).ctx.gw.circs.find? n
  Fires .csnd (fun _ _ => some 1) ok (fun s t el x i f => IssueFrame { s with dom := t.dom } t el ∧ f.fin = .plain
      ∧ ∀ g, circ s el x = some g → circ t el x = some { g with credits := g.credits - 1, sent := g.sent + 1 }
        ∧ (s.dom.members ≠ [] → ∃ p : Packet, t.dom.out = s.dom.out ++ [{ pkt := p, bytes := sealPacket (s.linkKey g.peer p.src p.dst) p }] ∧ p.circ = BitVec.ofNat 16 g.circ ∧ p.dst = BitVec.ofNat 10 g.peer
            ∧ p.payload = [match i.ta with | some h => h | none => { ct := x.tago, ft := x.fto, data := i.a }]))
  ∧ Fires .crcv (fun _ _ => some 1) ok (fun s t el x _ f => ∀ g h, circ s el x = some g → g.got.head? = some h → taken s t el x f g ∧ f.val = h.data)
  ∧ Fires .cred (fun _ _ => some 1) (fun s el x i => ok s el x i ∧ reduceFam (fmtAt i.fmttab (immBits x 0 3)).fam = true)
      (fun s t el x i f => ∀ g h, circ s el x = some g → g.got.head? = some h → taken s t el x f g
        ∧ f.val = reduceLanes (fmtAt i.fmttab (immBits x 0 3)) (immBits x 4 2) h.data i.a)
  ∧ Fires .cbar (fun _ _ => none) (fun _ _ _ _ => True) (fun s t el x _ f => f.fin = .plain
      ∧ (t.elem el).ctx.gw = { (s.elem el).ctx.gw with cbars := (s.elem el).ctx.gw.cbars ++ [(f.id, (bits x.mod 0 6).toNat)] }
      ∧ IssueFrame { s with dom := t.dom, colls := t.colls } t el
      ∧ ∀ g k v, circ s el x = some g → g.bound = some k → s.colls.find? k = some v → ∃ w, t.colls.find? k = some w ∧ v.rank ∈ w.atBar)
  ∧ (∀ o ∈ [Op.csnd, .crcv, .cred], ∀ (s : State) (el k : Nat) (x : Slot), s.Ready el k o x → s.circAborted (s.elem el).ctx x = true →
      exec (o.instr x) s = .next (s.trapElem el k ((s.elem el).ctx.regs.fcnt + 1) { code := 0x19, cause := 0, info := BitVec.ofNat 64 (bits x.mod 0 6).toNat }))

/-! ## Near-bank microprograms -/

/-- R244, R246, R247: The vector micro-instructions complete in one tCCD step on each participating bank's own registers, each lane one rounding of the
exact value; AXPY by the S of a masked position, 0, adds nothing where the latch is no finite number (R260, R263). The softmax micro-instructions
where neither M nor S is NaN: M takes the greater, SMX scales Z and the chosen vectors by the factor of the old maximum and leaves the score's factor
in S, 0 for the score of a masked position (R260); MASK writes minus infinity from LEN on and moves POS. What a masked score contributes is the
model's reading (log 58), and the sign of a maximum of zeros (log 36). -/
def Obligations.NearBankVectorAndSoftmaxSteps : Prop :=
  (MicroGives .nbuNop 16 (fun _ _ _ x y => y = x)
    ∧ (∀ a : BitVec 3, a.toNat < 4 → MicroGives (.zv a) 16 (fun _ _ _ x y => y = x.setV a.toNat 0))
    ∧ MicroGives (.zv 4) 16 (fun _ _ _ x y => y = { x with s := 0, m := 0xFF800000, z := 0, masked := false })
    ∧ (∀ a b bf, MicroGives (.macq a b bf) 16 (fun q _ _ x y => VecBecomes a.toNat (fun i =>
        ((hLane bf x.l i).mul (hLane bf (q.getD b.toNat 0) i)).add .rne (x.vf a.toNat i)) x y))
    ∧ (∀ a b k bf, MicroGives (.axpy a b false k bf) 16 (fun q _ _ x y => VecBecomes a.toNat (fun i =>
        ((hLane bf (q.getD b.toNat 0) k.toNat).mul (hLane bf x.l i)).add .rne (x.vf a.toNat i)) x y))
    ∧ (∀ a b k bf, MicroGives (.axpy a b true k bf) 16 (fun _ _ _ x y => VecBecomes a.toNat (fun i =>
        (if x.masked = true ∧ (x.s = 0 ∨ x.s = 0x80000000) ∧ ((fmt32.decodeF x.s.toNat).mul (hLane bf x.l i)).isNan = true then FVal.fin false 0 0
          else (fmt32.decodeF x.s.toNat).mul (hLane bf x.l i)).add .rne (x.vf a.toNat i)) x y))
    ∧ (∀ a b k bf, MicroGives (.scal a b false k bf) 16 (fun q _ _ x y => VecBecomes a.toNat (fun i =>
        (x.vf a.toNat i).mul (hLane bf (q.getD b.toNat 0) k.toNat)) x y))
    ∧ (∀ a b k bf, MicroGives (.scal a b true k bf) 16 (fun _ _ _ x y => VecBecomes a.toNat (fun i =>
        (x.vf a.toNat i).mul (fmt32.decodeF x.s.toNat)) x y))
    ∧ (∀ a b, MicroGives (.addv a b) 16 (fun _ _ _ x y => VecBecomes a.toNat (fun i => (x.vf a.toNat i).add .rne (x.vf b.toNat i)) x y))
    ∧ (∀ b bf acc, MicroGives (.dotq b acc bf) 16 (fun q _ _ x y => y = { x with s := y.s, masked := false } ∧ y.s.toNat = (fmt32.roundTo
        ((dotSum bf x.l (q.getD b.toNat 0)).add .rne (if acc then fmt32.decodeF x.s.toNat else .fin false 0 0)) .rne false 0).code % 2 ^ 32))
    ∧ (∀ b, MicroGives (.movq b) 16 (fun q _ _ x y => y = { x with l := q.getD b.toNat 0 }))
    ∧ (∀ a sat bf, MicroGives (.cvtl a sat bf) 16 (fun _ _ _ x y => y = { x with l := y.l } ∧ ∀ i, i < 16 →
        lane 16 y.l i = ((fmt16 bf).roundTo (x.vf a.toNat i) .rne sat 0).code % 2 ^ 16))
    ∧ (∀ a add (src : BitVec 2) k, MicroGives (.stv a add src k) 16 (fun _ r _ x y => y = x.setV a.toNat (y.v a.toNat) ∧ ∀ i, i < 16 →
        vLane (y.v a.toNat) i = (if i = (k.toNat + (if add then r.lc0.toNat else 0)) % 16
          then (if src = 0 then x.s.toNat else if src = 1 then x.m.toNat else x.z.toNat) else vLane (x.v a.toNat) i))))
  ∧ (
    let good := fun (x : NbBank) => (fmt32.decodeF x.m.toNat).isNan = false ∧ (fmt32.decodeF x.s.toNat).isNan = false
    let greater := fun (x : NbBank) (m : W32) => (m = x.m ∨ m = x.s) ∧ ∀ c, c = x.m ∨ c = x.s → (fmt32.decodeF c.toNat).cmp (fmt32.decodeF m.toNat) ≠ some 1
    MicroGives .maxs 16 (fun _ _ _ x y => y = { x with m := y.m } ∧ (good x → greater x y.m) ∧ (¬ good x → y.m.toNat = fmt32.nanCode))
    ∧ MicroGives .exps 32 (fun _ _ _ x y => y = { x with s := y.s } ∧ (¬ good x → y.s.toNat = fmt32.nanCode)
        ∧ (good x → y.s = (if x.masked = true ∧ x.s = 0xFF800000 then 0 else BitVec.ofNat 32 (osmFactor (fmt32.decodeF x.s.toNat) (fmt32.decodeF x.m.toNat)))))
    ∧ (∀ v : BitVec 4, MicroGives (.smx v) 48 (fun _ _ _ x y => y.l = x.l ∧ y.eb = x.eb ∧ y.open_ = x.open_
        ∧ (good x → greater x y.m ∧ y.s = (if x.masked = true ∧ x.s = 0xFF800000 then 0 else BitVec.ofNat 32 (osmFactor (fmt32.decodeF x.s.toNat) (fmt32.decodeF y.m.toNat)))
            ∧ y.z.toNat = (fmt32.roundTo (((fmt32.decodeF x.z.toNat).mul (fmt32.decodeF (osmFactor (fmt32.decodeF x.m.toNat) (fmt32.decodeF y.m.toNat)))).add .rne
                (fmt32.decodeF y.s.toNat)) .rne false 0).code % 2 ^ 32
            ∧ ∀ n, n < 4 → (v.getLsbD n = false → y.v n = x.v n) ∧ (v.getLsbD n = true → ∀ i, i < 16 → vLane (y.v n) i
                = (fmt32.roundTo ((x.vf n i).mul (fmt32.decodeF (osmFactor (fmt32.decodeF x.m.toNat) (fmt32.decodeF y.m.toNat)))) .rne false 0).code % 2 ^ 32))))
    ∧ (∀ (str : BitVec 6) (inc : BitVec 14) (s : State) (p : Nat) (r : NbRun), s.MicroReady p r 0 16 → r.mpc < 63 →
        ∃ t q, exec (.mask str inc) s = .next t ∧ RunBecomes s t p q (s.stepAt p 0 + 16) ∧ q.mpc = r.mpc + 1
          ∧ q.pos = r.pos + inc.setWidth 32 ∧ q = { r with mpc := q.mpc, pos := q.pos, banks := q.banks }
          ∧ ∀ n, n < 64 → r.bmask.getLsbD n = true → q.bank n
              = (if r.len.toNat ≤ r.pos.toNat + str.toNat * n then { r.bank n with s := 0xFF800000, masked := true } else r.bank n)))

/-- R245, R248, R249, R250, R251, R254, R256, R257, R272: ACT opens row ROW + off in each bank where none is open and a grant covers it, and counts its
activation; PRE closes every row and moves ROW; RD takes a column of each open row into the latch, or the NaN pattern with EB set where its token is
bad; WR puts the latch there under a write grant, and no other byte changes. LOOP counts down to its target or falls through, reloading where asked;
SYNC begins a new segment where nothing asks for a suspension, suspends where a refresh or an alert is due or ARB + 1 segments have passed with
accesses waiting, and moves the run into a context slot while its region is set aside; EMIT adds a DATA token for each participating bank where EBUF
has room, and waits where it has none, with no row open outside its segment's time; HALT ends the run with code 0. A run that ends holds its code
until EBUF has drained, with every row closed; a code other than 0 raises NBERR with the code and the pseudo-channel. The steps that end their run
with a fault code: ACT with a row open (1) or no grant (6), RD and WR with a row closed (2), WR without a write grant (7), SYNC with a row open (4),
every micro-instruction, SYNC and HALT among them, whose end would come more than 640 fc after its segment's beginning (3), and every
micro-instruction that leaves entry 63 otherwise than by a taken LOOP (5). Fields of the NBERR record that the spec does not give are the model's
reading (log 40), and grants log 50, and the end of a segment log 66. -/
def Obligations.NearBankRowControlAndFaults : Prop :=
  ((∀ (off : BitVec 14) (s : State) (p : Nat) (r : NbRun), s.MicroReady p r 0 16 → r.mpc < 63 → r.anyOpen = false →
        (s.pch p).granted r.asid (r.row + off).toNat false = true →
        ∃ t q, exec (.act off) s = .next t ∧ (t.pch p).run = some q ∧ (t.pch p).freeAt = s.stepAt p 0 + 16 ∧ t.mem = s.mem ∧ t.elems = s.elems
          ∧ (∀ c, c ≠ p → t.pch c = s.pch c) ∧ BanksBecome r q (fun _ x y => y = { x with open_ := some (r.row + off), actAt := s.stepAt p 0 })
          ∧ ∀ n, n < 64 → r.bmask.getLsbD n = true →
              (t.pch p).acts.getD (n * 16384 + (r.row + off).toNat) 0 = (s.pch p).acts.getD (n * 16384 + (r.row + off).toNat) 0 + 1)
    ∧ (∀ (inc : BitVec 14) (s : State) (p : Nat) (r : NbRun), s.MicroReady p r (if r.anyOpen then r.preAt else 0) (if r.anyOpen then 112 else 16) → r.mpc < 63 →
        ∃ t q, exec (.pre inc) s = .next t
          ∧ RunBecomes s t p q (s.stepAt p (if r.anyOpen then r.preAt else 0) + (if r.anyOpen then 112 else 16)) ∧ q.row = r.row + inc
          ∧ BanksBecome { r with row := r.row + inc } q (fun _ x y => y = { x with open_ := none }))
    ∧ (∀ (off : BitVec 2) (col : BitVec 5) (s : State) (p : Nat) (r : NbRun), s.MicroReady p r r.columnAt 16 → r.mpc < 63 → r.anyClosed = false →
        ∃ t q, exec (.rd off col) s = .next t ∧ RunBecomes s t p q (s.stepAt p r.columnAt + 16) ∧ BanksBecome r q (fun n x y => ∀ row, x.open_ = some row →
            let c := columnCell p n row.toNat (r.column off col)
            (s.mem.dramErr.contains (c / 32) = false → y = { x with l := BitVec.ofNat 256 (s.mem.dram.readN c 32) })
            ∧ (s.mem.dramErr.contains (c / 32) = true → y = { x with eb := true, l := y.l } ∧ ∀ i, i < 16 → lane 16 y.l i = 0x7FC0)))
    ∧ (∀ (off : BitVec 2) (col : BitVec 5) (s : State) (p : Nat) (r : NbRun), s.MicroReady p r r.columnAt 16 → r.mpc < 63 → r.anyClosed = false →
        s.mem.dram.wf = true → (∀ n row, n ∈ r.part → (r.bank n).open_ = some row → (s.pch p).granted r.asid row.toNat true = true) →
        ∃ t q, exec (.wr off col) s = .next t ∧ (t.pch p).run = some q ∧ BanksBecome r q (fun _ x y => y = { x with wrEnd := s.stepAt p r.columnAt + 16 })
          ∧ t.elems = s.elems ∧ t.mem.spad = s.mem.spad ∧ t.mem.ws = s.mem.ws ∧ (∀ c, c ≠ p → t.pch c = s.pch c)
          ∧ (∀ n row, n ∈ r.part → (r.bank n).open_ = some row →
              t.mem.dram.readN (columnCell p n row.toNat (r.column off col)) 32 = (r.bank n).l.toNat)
          ∧ ∀ a, (∀ n row, n ∈ r.part → (r.bank n).open_ = some row →
                a < columnCell p n row.toNat (r.column off col) ∨ columnCell p n row.toNat (r.column off col) + 32 ≤ a) →
              t.mem.dram.read a = s.mem.dram.read a))
  ∧ ((∀ (reload second : Bool) (target : BitVec 6) (s : State) (p : Nat) (r : NbRun), s.MicroReady p r 0 16 →
        let c := if second then r.lc1 else r.lc0
        (c ≠ 0 → ∃ t q, exec (.loop reload second target) s = .next t ∧ RunBecomes s t p q (s.stepAt p 0 + 16) ∧ q.mpc = target.toNat
          ∧ q = (if second then { r with mpc := q.mpc, lc1 := r.lc1 - 1 } else { r with mpc := q.mpc, lc0 := r.lc0 - 1 }))
        ∧ (c = 0 → r.mpc < 63 → ∃ t q, exec (.loop reload second target) s = .next t ∧ RunBecomes s t p q (s.stepAt p 0 + 16) ∧ q.mpc = r.mpc + 1
          ∧ q = (if reload then (if second then { r with mpc := q.mpc, lc1 := r.lr1 } else { r with mpc := q.mpc, lc0 := r.lr0 }) else { r with mpc := q.mpc })))
    ∧ (∀ (s : State) (p : Nat) (r : NbRun), s.MicroReady p r 0 16 → r.mpc < 63 → r.anyOpen = false →
        let n := min (r.wcnt + 1) 15
        let full := (s.stk (p / 64)).arb.toNat + 1 ≤ n ∧ 0 < (s.pch p).chosen
        (s.regionSaved r.inst = false → (s.pch p).due = false → ¬ full → ∃ t q, exec .sync s = .next t ∧ RunBecomes s t p q (s.stepAt p 0 + 16)
            ∧ q = { r with mpc := r.mpc + 1, wcnt := n, segAt := s.stepAt p 0 + 16 })
        ∧ (s.regionSaved r.inst = false → ((s.pch p).due = true ∨ full) → ∃ t, exec .sync s = .next t ∧ (t.pch p).phase = .suspended (s.pch p).chosen false
            ∧ (t.pch p).run = some { r with mpc := r.mpc + 1, wcnt := n } ∧ t.mem = s.mem)
        ∧ (s.regionSaved r.inst = true → ∃ t k, exec .sync s = .next t ∧ (t.pch p).run = none ∧ (t.pch p).q = (s.pch p).q
            ∧ (t.pch p).saved.find? k = some ⟨{ r with mpc := r.mpc + 1, wcnt := n }, (s.pch p).q⟩ ∧ t.mem = s.mem))
    ∧ (∀ (a ft : BitVec 3) (hi : Bool) (s : State) (p : Nat) (r : NbRun),
        (s.MicroReady p r 0 16 → r.mpc < 63 → r.ebuf.length + r.part.length ≤ 128 → ∃ t q, exec (.emit a ft hi) s = .next t
          ∧ RunBecomes s t p q (s.stepAt p 0 + 16)
          ∧ q.mpc = r.mpc + 1 ∧ q.banks = r.banks ∧ q.ebuf = r.ebuf ++ r.part.map (fun n => ({ ct := .data, ft, data := emitData a.toNat hi n (r.bank n) } : Token)))
        ∧ (s.focus = .pch p → (s.pch p).run = some r → 128 < r.ebuf.length + r.part.length → r.anyOpen = true → exec (.emit a ft hi) s = .next s)
        ∧ (s.focus = .pch p → (s.pch p).run = some r → (s.pch p).mayStep r 0 s.now5 = true → 128 < r.ebuf.length + r.part.length → r.anyOpen = false →
            s.regionSaved r.inst = false → (s.pch p).due = false → (s.pch p).chosen = 0 → ∃ t, exec (.emit a ft hi) s = .next t
            ∧ PchBecomes s t p { s.pch p with run := some { r with waitAt := some (r.waitAt.getD (s.stepAt p 0)) } }))
    ∧ (∀ (s : State) (p : Nat) (r : NbRun), s.MicroReady p r 0 16 → exec .halt s = .next (s.endRun p 0 (s.stepAt p 0 + 16))))
  ∧ (∀ (s : State) (p code n : Nat) (r : NbRun), (s.pch p).run = some r → code < 8 → (∀ v, s.region r.inst = some v → v.traps.length < 256) →
      ∃ q, ((s.endRun p code n).pch p).run = some q ∧ q.ended = some code ∧ q.anyOpen = false ∧ q.ebuf = r.ebuf ∧ q.mpc = r.mpc
        ∧ (s.endRun p code n).mem = s.mem
        ∧ (code = 0 → (s.endRun p code n).regions = s.regions)
        ∧ (∀ v, code ≠ 0 → s.region r.inst = some v → ∃ w rec, (s.endRun p code n).region r.inst = some w ∧ w.traps = v.traps ++ [rec]
            ∧ recCode rec = 0x13 ∧ recSrc rec = 3 ∧ (recInfo rec).toNat = code + p % 64 * 256))
  ∧ (∀ (s : State) (p : Nat) (r : NbRun),
      let ends := fun (i : Instr) (c ready dur : Nat) => exec i s = .next (s.endRun p c (s.stepAt p ready + dur))
      let late := fun (i : Instr) (ready dur : Nat) => s.focus = .pch p → (s.pch p).run = some r → (s.pch p).mayStep r ready s.now5 = true →
        r.inTime (s.stepAt p ready) dur = false → ends i 3 ready dur
      let past := fun (i : Instr) => ∃ t q, exec i s = .next t ∧ (t.pch p).run = some q ∧ q.ended = some 5 ∧ q.mpc = 64
      (∀ off, s.MicroReady p r 0 16 → r.anyOpen = true → ends (.act off) 1 0 16)
      ∧ (∀ off, s.MicroReady p r 0 16 → r.anyOpen = false → (s.pch p).granted r.asid (r.row + off).toNat false = false → ends (.act off) 6 0 16)
      ∧ (∀ off col, s.MicroReady p r r.columnAt 16 → r.anyClosed = true → ends (.rd off col) 2 r.columnAt 16 ∧ ends (.wr off col) 2 r.columnAt 16)
      ∧ (∀ off col n row, s.MicroReady p r r.columnAt 16 → r.anyClosed = false → n ∈ r.part → (r.bank n).open_ = some row →
          (s.pch p).granted r.asid row.toNat true = false → ends (.wr off col) 7 r.columnAt 16)
      ∧ (s.MicroReady p r 0 16 → r.anyOpen = true → ends .sync 4 0 16)
      ∧ (s.MicroReady p r 0 16 → r.anyOpen = false → r.mpc = 63 → ends .sync 5 0 16)
      ∧ (∀ a b bf k v sel acc, (∀ i ∈ [Instr.nbuNop, .maxs, .movq b, .zv a, .dotq b acc bf, .macq v b bf, .axpy v b sel k bf, .scal v b sel k bf], late i 0 16)
          ∧ (∀ w add src j str inc, ∀ i ∈ [Instr.addv v w, .cvtl v sel bf, .stv v add src j, .mask str inc], late i 0 16)
          ∧ late .exps 0 32 ∧ (∀ m, late (.smx m) 0 48) ∧ (∀ off, late (.act off) 0 16) ∧ (∀ reload second target, late (.loop reload second target) 0 16)
          ∧ (∀ inc, late (.pre inc) (if r.anyOpen then r.preAt else 0) (if r.anyOpen then 112 else 16))
          ∧ (∀ off col, late (.rd off col) r.columnAt 16 ∧ late (.wr off col) r.columnAt 16)
          ∧ (∀ c ft hi, r.ebuf.length + r.part.length ≤ 128 → late (.emit c ft hi) 0 16))
      ∧ late .sync 0 16 ∧ late .halt 0 16
      ∧ (r.mpc = 63 → (∀ v, s.region r.inst = some v → v.traps.length < 256) →
          (∀ a b bf k v sel acc, s.MicroReady p r 0 16 →
            (∀ i ∈ [Instr.nbuNop, .maxs, .movq b, .zv a, .dotq b acc bf, .macq v b bf, .axpy v b sel k bf, .scal v b sel k bf], past i)
            ∧ (∀ w add src j str inc, ∀ i ∈ [Instr.addv v w, .cvtl v sel bf, .stv v add src j, .mask str inc], past i)
            ∧ (∀ off, r.anyOpen = false → (s.pch p).granted r.asid (r.row + off).toNat false = true → past (.act off))
            ∧ (∀ reload second target, (if second then r.lc1 else r.lc0) = 0 → past (.loop reload second target))
            ∧ (∀ c ft hi, r.ebuf.length + r.part.length ≤ 128 → past (.emit c ft hi)))
          ∧ (s.MicroReady p r 0 32 → past .exps) ∧ (∀ m, s.MicroReady p r 0 48 → past (.smx m))
          ∧ (∀ inc, s.MicroReady p r (if r.anyOpen then r.preAt else 0) (if r.anyOpen then 112 else 16) → past (.pre inc))
          ∧ (∀ off col, s.MicroReady p r r.columnAt 16 → r.anyClosed = false → past (.rd off col)
              ∧ ((∀ n row, n ∈ r.part → (r.bank n).open_ = some row → (s.pch p).granted r.asid row.toNat true = true) → past (.wr off col)))))

/-! ## Net actions and the sequencer -/

/-- R45, R198, R205, R207: the actions that act at their completion complete in the round after their start: NOP; NSET, NADD, NCMP, NDEC and NRDP on the
net registers with the outcomes of their rules; TAIL with its child's VA, outcome 3 for a second one; DONE with its status. -/
def Obligations.InstantActionsComplete : Prop :=
  ∀ (s : State) (i k : Nat) (v : Inst) (x : FSlot), s.ActionReady i k v x → v.turn ≠ some s.now →
    let gives := fun (a : Instr) (o : Nat) (P : Inst → Prop) => ∃ t w, exec a s = .next t ∧ Completes s t i k o v x w ∧ P w
    let setTo := fun (n : Fin 16) (q : W64) (w : Inst) => w.n.getD n.val 0 = q ∧ (∀ m, m ≠ n.val → w.n.getD m 0 = v.n.getD m 0) ∧ w.done = v.done ∧ w.tail = v.tail
    let kept := fun (w : Inst) => w.n = v.n ∧ w.done = v.done ∧ w.tail = v.tail
    gives .netNop 0 kept
    ∧ (∀ n q, gives (.nset n q) 0 (setTo n q))
    ∧ (∀ n q, gives (.nadd n q) 0 (setTo n (v.n.getD n.val 0 + q)))
    ∧ (∀ n u q, (v.n.getD n.val 0 = q → gives (.ncmp n u q) 1 kept)
        ∧ (u = true → (v.n.getD n.val 0).toNat < q.toNat → gives (.ncmp n u q) 0 kept) ∧ (u = true → q.toNat < (v.n.getD n.val 0).toNat → gives (.ncmp n u q) 2 kept)
        ∧ (u = false → (v.n.getD n.val 0).toInt < q.toInt → gives (.ncmp n u q) 0 kept) ∧ (u = false → q.toInt < (v.n.getD n.val 0).toInt → gives (.ncmp n u q) 2 kept))
    ∧ (∀ n, (v.n.getD n.val 0 = 0 → gives (.ndec n) 1 kept) ∧ (v.n.getD n.val 0 = 1 → gives (.ndec n) 1 (setTo n 0))
        ∧ (2 ≤ (v.n.getD n.val 0).toNat → gives (.ndec n) 0 (setTo n (v.n.getD n.val 0 - 1))))
    ∧ (∀ n p, gives (.nrdp n p) 0 (setTo n (BitVec.ofNat 64 (v.count.getD p.toNat 0))))
    ∧ (∀ c, gives (.done c) 0 (fun w => w.done = some c ∧ w.n = v.n ∧ w.tail = v.tail))
    ∧ (∀ g o, v.img.objs[g.toNat]? = some o → v.tail = none → gives (.tail g) 0 (fun w => w.tail = some ((bits o 8 56).setWidth 64) ∧ w.n = v.n ∧ w.done = v.done))
    ∧ (∀ g, v.tail.isSome = true → gives (.tail g) 3 kept)

/-- R26, R103, R199, R200, R206, R226, R231, R278, R293, R323: ARM of a section that holds stage s loads K0 of every element and RemainingTiles with n,
waits behind an earlier ARM, and completes at once for 0 tiles; it has outcome 3 for more than 65,535 tiles, for another stage, and at a fenced
section. FIN_APPLY completes the oldest ARM with the posted outcome, and the next one begins. CFG waits for the writes that have left for DRAM before
its fetch; it puts a correct image behind its slot, outcome 0, and has outcome 3, with its records, where the image breaks a rule, an MT has no room
for it, or a token of it is uncorrectable; SWAP without a loaded image has outcome 3, with one it waits and SWAP_INSTALL installs it once the section
is drained and, for C0, its queues are empty and no C2 is in force; CSLOT without a shadow has outcome 3, with one it waits to run it for B fc, and
CSLOT_EXPIRE ends that and brings C0's context back. That a fetch waits for the writes before it (log 78), and a SWAP or CSLOT for C2 and for held
stores (log 65), are the model's readings. -/
def Obligations.ArmAndConfigurationActions : Prop :=
  (
    let takesK0 := fun (m : Nat) (c : Ctx) => { c with regs := { c.regs with k0 := BitVec.ofNat 32 m, armed := true } }
    let loaded := fun (s t : State) (i : Nat) (y : Section) (m : Nat) => (∀ el, el ∉ y.nodes.vals → t.elem el = s.elem el)
      ∧ (∀ el, el ∈ y.nodes.vals → ((s.elem el).ctx.inst = some i ∧ (s.elem el).run ≠ 2 → t.elem el = { s.elem el with ctx := takesK0 m (s.elem el).ctx })
        ∧ (¬((s.elem el).ctx.inst = some i ∧ (s.elem el).run ≠ 2) → (t.elem el).ctx = (s.elem el).ctx
          ∧ (t.elem el).saved = (s.elem el).saved.map (fun z => if z.2.inst = some i then (z.1, takesK0 m z.2) else z)))
    (∀ (s : State) (i k : Nat) (v : Inst) (x : FSlot) (g st : BitVec 8) (reg : Option (Fin 16)) (n : BitVec 16) (sc : Scope) (y : Section),
      s.ActionReady i k v x → s.sect i g.toNat = some y →
      let m := match reg with | some _ => x.operand.toNat | none => n.toNat
      let mine : ArmRec := { slot := k, n := m, scope := sc.code.toNat }
      ((65535 < m ∨ y.snum ≠ some st.toNat) → ∃ t, exec (.arm g st reg n sc) s = .next t ∧ Arrives t i k 3 ∧ t.mem = s.mem ∧ t.elems = s.elems)
      ∧ (m ≤ 65535 → y.snum = some st.toNat → y.arms ≠ [] → ∃ t, exec (.arm g st reg n sc) s = .next t ∧ Waits t i k (fun _ => True) ∧ t.mem = s.mem
          ∧ t.elems = s.elems ∧ t.sect i g.toNat = some { y with arms := y.arms ++ [mine] })
      ∧ (m ≤ 65535 → y.snum = some st.toNat → y.arms = [] → y.fenced = true → ∃ t, exec (.arm g st reg n sc) s = .next t ∧ Arrives t i k 3
          ∧ t.sect i g.toNat = some y ∧ t.elems = s.elems)
      ∧ (m ≤ 65535 → y.snum = some st.toNat → y.arms = [] → y.fenced = false → ∃ t z, exec (.arm g st reg n sc) s = .next t
          ∧ (if m = 0 then Arrives t i k 0 else Waits t i k (fun _ => True)) ∧ t.sect i g.toNat = some z ∧ z.remaining = m ∧ z.ivec = 0 ∧ z.fin = none
          ∧ z.arms = (if m = 0 then [] else [mine]) ∧ (y.kept = none → z.cur = 0) ∧ (∀ w, y.kept = some w → z.cur = y.cur ∧ z.kept = some (w.1, 0))
          ∧ t.mem = s.mem ∧ loaded s t i y m))
    ∧ (∀ (s : State) (i sid : Nat) (y : Section) (a : ArmRec) (l : List ArmRec) (o : Nat) (f : FSlot), s.focus = .event (.finApply i sid) →
        s.sect i sid = some y → y.arms = a :: l → y.fin = some o → s.asideNow i = false → s.noneHeld y = true →
        s.pendingAt a.scope false (Access.storeOf y.elems) = false → s.slot i a.slot = some f →
        (l = [] → ∃ t, exec .finApply s = .next t ∧ Arrives t i a.slot o ∧ t.sect i sid = some { y with arms := [], fin := none } ∧ t.mem = s.mem
          ∧ t.elems = s.elems)
        ∧ (∀ b r, l = b :: r → b.n ≠ 0 → y.fenced = false → ∃ t z, exec .finApply s = .next t ∧ Arrives t i a.slot o ∧ t.sect i sid = some z ∧ z.arms = l
          ∧ z.fin = none ∧ z.remaining = b.n ∧ t.mem = s.mem ∧ loaded s t i y b.n)))
  ∧ ((∀ (s : State) (i k : Nat) (v : Inst) (x : FSlot) (g : BitVec 8) (y : Section), s.ActionReady i k v x → s.sect i g.toNat = some y →
      (∀ (im : BitVec 8) (shadow : Bool), s.writesAhead ≠ [] → ∃ t, exec (.cfg g im shadow) s = .next t ∧ Waits t i k (fun f => f.waits = s.writesAhead)
          ∧ t.mem = s.mem ∧ t.elems = s.elems)
      ∧ (∀ (im : BitVec 8) (shadow : Bool) (l : List W128), s.writesAhead = [] → s.fetchStage v.root v.img im.toNat = .ok l →
        s.vaBad v.root (v.img.objVa im.toNat) (16 * l.length) = none →
        let slot := if shadow then 2 else 0
        (stageBreaches y.nodes l = [] → (s.keepParts i slot y l).isSome = true → ∃ t z, exec (.cfg g im shadow) s = .next t ∧ Arrives t i k 0 ∧ t.mem = s.mem
          ∧ t.sect i g.toNat = some z ∧ z.bufs.find? slot = some l ∧ z.fenced = false ∧ z.img = y.img ∧ (∀ el, (t.elem el).ctx = (s.elem el).ctx)
          ∧ ∀ p n el r, parseStage l = some p → y.nodes.vals.Nodup → (n, el) ∈ y.nodes → p.nodes[n]? = some r →
              (t.elem el).buf.find? slot = some { r with circs := p.circsOf n })
        ∧ (stageBreaches y.nodes l = [] → s.keepParts i slot y l = none → ∃ t z, exec (.cfg g im shadow) s = .next t ∧ Arrives t i k 3
          ∧ t.sect i g.toNat = some z ∧ z = { y with bufs := y.bufs.drop slot } ∧ (∀ el, (t.elem el).ctx = (s.elem el).ctx))
        ∧ (∀ r, stageBreaches y.nodes l ≠ [] → s.region i = some r → r.traps.length + (stageBreaches y.nodes l).length ≤ 256 → ∃ t q z,
          exec (.cfg g im shadow) s = .next t ∧ Arrives t i k 3 ∧ t.region i = some q ∧ q.traps.length = r.traps.length + (stageBreaches y.nodes l).length
          ∧ t.sect i g.toNat = some z ∧ z = { y with bufs := y.bufs.drop slot } ∧ (∀ el, (t.elem el).ctx = (s.elem el).ctx)))
      ∧ (∀ (im : BitVec 8) (shadow : Bool) (l : List W128) (a : Nat) (r : Region), s.writesAhead = [] → s.fetchStage v.root v.img im.toNat = .ok l →
          s.vaBad v.root (v.img.objVa im.toNat) (16 * l.length) = some a → s.region i = some r → r.traps.length < 256 → ∃ t q rec,
          exec (.cfg g im shadow) s = .next t ∧ Arrives t i k 3 ∧ t.region i = some q ∧ q.traps = r.traps ++ [rec] ∧ recCode rec = 0x12)
      ∧ (∀ (shadow : Bool), y.bufs.find? (if shadow then 2 else 0) = none → ∃ t, exec (.swap g shadow) s = .next t ∧ Arrives t i k 3 ∧ t.elems = s.elems)
      ∧ (∀ (shadow : Bool) (l : List W128), y.bufs.find? (if shadow then 2 else 0) = some l → ∃ t, exec (.swap g shadow) s = .next t
          ∧ Waits t i k (fun f => f.act = x.act) ∧ t.elems = s.elems)
      ∧ (∀ b, y.c2 = none → ∃ t, exec (.cslot g b) s = .next t ∧ Arrives t i k 3 ∧ t.elems = s.elems)
      ∧ (∀ b l, y.c2 = some l → ∃ t, exec (.cslot g b) s = .next t ∧ Waits t i k (fun f => f.remaining = b.toNat) ∧ t.elems = s.elems))
    ∧ (∀ (s : State) (i k n : Nat) (x : FSlot) (y : Section), s.focus = .event (.swapInstall i k) → s.slot i k = some x → x.code = 0x03 →
        x.stage = .going → n = (bits x.act 16 2).toNat → s.sect i x.tgt = some y → s.mayReplace i = true →
        (∀ l, y.bufs.find? n = some l → s.drained y = true → (n = 0 → s.emptied i x.tgt y = true ∧ s.inC2 i y = false) → ∃ t z, exec .swapInstall s = .next t ∧ Arrives t i k 0 ∧ t.sect i x.tgt = some z
          ∧ z.bufs = y.bufs.drop n ∧ (n ≠ 0 → z.img = y.img ∧ ((parseStage l).isSome = true → z.c2 = some l)) ∧ (n = 0 → ∀ p, parseStage l = some p → z.img = some l ∧ z.rast = p.rast ∧ z.cur = 0))
        ∧ (∀ l, y.bufs.find? n = some l → (s.drained y = false ∨ (n = 0 ∧ (s.emptied i x.tgt y = false ∨ s.inC2 i y = true))) → exec .swapInstall s = .next s)
        ∧ (y.bufs.find? n = none → ∃ t, exec .swapInstall s = .next t ∧ Arrives t i k 3 ∧ t.elems = s.elems))
    ∧ (∀ (s : State) (i k : Nat) (x : FSlot) (y : Section), s.focus = .event (.cslotExpire i k) → s.slot i k = some x → s.cslotOver i x = true →
        s.sect i x.tgt = some y → y.elems.Nodup → (∀ el ∈ y.elems, s.saveBad el ((s.elem el).baseSlot i) = false) →
        ∃ t, exec .cslotExpire s = .next t ∧ Arrives t i k 0 ∧ t.mem = s.mem ∧ (∀ el, el ∉ y.elems → t.elem el = s.elem el)
          ∧ ∀ el n c, el ∈ y.elems → (s.elem el).run = 2 → (s.elem el).saved = [(n, c)] → c.inst = some i → (t.elem el).ctx = c.takeUp s.now ∧ (t.elem el).run = n
            ∧ (t.elem el).saved = []))

/-- R51, R201, R202, R203, R204, R207, R208: STRM starts its generator from its descriptor, or from the register's base, waits while that is busy, and has
outcome 3 for an invalid one; SBAR waits for the streams it names; NBLD writes a correct program, its LOOP targets moved by ENTRY, into every
pseudo-channel of its set, and nothing where one has a run or the program is incorrect; NBRUN posts a run to each that has room, outcome 3 for an
empty set or a missing program; WSW copies its bytes into the weight store, outcome 3 where a running net holds them; the fetch of NBLD and of WSW
waits for the writes that have left for DRAM before it. SIGN waits for the stores it covers and sends its write once its word is translated, WATCH its
read, with a deadline, each with outcome 3 for an object that is no signal; TIMER waits B fc; HOSTI sends a record of KIND 1; EXTEND links a segment,
outcome 3 where it cannot. The events of their deadlines and of a changed word follow. EXTEND's operands (log 22), the pool (log 12) and the cause of
a misaligned SIGN (log 34) are the model's choices, as is a STRM beside C2 (log 65); NBLD and WSW read behind the writes before them (log 78). -/
def Obligations.StreamSignalAndTimerActions : Prop :=
  (∀ (s : State) (i k : Nat) (v : Inst) (x : FSlot), s.ActionReady i k v x →
      (∀ (g ds : BitVec 8) (reg : Option (Fin 16)) (sc : Scope) (el q : Nat) (o d : W256), s.genOf i g.toNat = some (el, q) → v.img.objs[ds.toNat]? = some o →
        v.img.data[(bits o 8 16).toNat]? = some d →
        let e : W256 := if reg.isSome then (d >>> 56 <<< 56) ||| ((bits d 0 56 + bits x.operand 0 56).setWidth 256) else d
        let free := (s.gen el q).busy = false ∧ (s.elem el).ctx.coming = [] ∧ (s.elem el).run ≠ 2
        (¬free → ∃ t, exec (.strm g ds reg sc) s = .next t ∧ Waits t i k (fun f => f.left = x.left) ∧ t.mem = s.mem ∧ t.elems = s.elems)
        ∧ (free → (s.gen el q).state = .faulted → ∃ t, exec (.strm g ds reg sc) s = .next t ∧ Waits t i k (fun f => f.left = true) ∧ t.mem = s.mem
          ∧ (t.gen el q).state = .running ∧ (t.gen el q).owner = .strm i k ∧ (t.gen el q).desc = (s.gen el q).desc ∧ (t.gen el q).pos = (s.gen el q).pos)
        ∧ (free → (s.gen el q).state ≠ .faulted → descOk (elType el) e = true → ∃ t, exec (.strm g ds reg sc) s = .next t
          ∧ Waits t i k (fun f => f.left = true ∧ f.remaining = (t.gen el q).stream) ∧ t.mem = s.mem
          ∧ (t.gen el q).desc = e ∧ (t.gen el q).state = .running ∧ (t.gen el q).owner = .strm i k ∧ (t.gen el q).pos = 0)
        ∧ (free → (s.gen el q).state ≠ .faulted → descOk (elType el) e = false → ∃ t, exec (.strm g ds reg sc) s = .next t ∧ Arrives t i k 3
          ∧ t.elems = s.elems))
      ∧ (∀ (sc : Scope) (mask : W64), ∃ t, exec (.sbarAction sc mask) s = .next t ∧ t.elems = s.elems ∧ t.mem = s.mem ∧ Waits t i k (fun f =>
          f.remaining = sc.code.toNat
          ∧ (∀ j y, (j, y) ∈ v.slots → j ≠ k → y.strmIn mask = true → (y.left = true → y.remaining % 2 = 1 → y.remaining ∈ f.waits)
              ∧ (y.left = false → j * 2 ^ 32 + y.round.toNat ∈ f.todo))
          ∧ (∀ n el q a, n < 64 → mask.getLsbD n = true → s.genOf i n = some (el, q) → a ∈ s.genPending el q → a.work % 2 = 1 → a.work ∈ f.waits)
          ∧ (f.left = true ↔ ∃ n el q, n < 64 ∧ mask.getLsbD n = true ∧ s.genOf i n = some (el, q) ∧ (s.gen el q).failed = true ∧ (s.gen el q).stream % 2 = 1)))
      ∧ (∀ (g pr : BitVec 8) (o : W256) (l : List W32), v.img.objs[pr.toNat]? = some o →
          (s.writesAhead ≠ [] → ∃ t, exec (.nbld g pr) s = .next t ∧ Waits t i k (fun f => f.waits = s.writesAhead) ∧ t.pchs = s.pchs)
          ∧ (s.writesAhead = [] → (∃ p ∈ s.pchsOf i g.toNat, ¬((s.pch p).run = none ∧ (s.pch p).saved = [])) → ∃ t, exec (.nbld g pr) s = .next t ∧ Arrives t i k 3 ∧ t.pchs = s.pchs)
          ∧ ((∀ p ∈ s.pchsOf i g.toNat, (s.pch p).run = none ∧ (s.pch p).saved = []) →
            s.writesAhead = [] → s.fetchProg v.root (v.img.objVa pr.toNat) (bits o 64 8).toNat = .ok l → s.vaBad v.root (v.img.objVa pr.toNat) (4 * l.length) = none →
            ((∀ w ∈ l, progWordOk l.length w = true) → ∃ t, exec (.nbld g pr) s = .next t ∧ Arrives t i k 0 ∧ t.mem = s.mem ∧ t.elems = s.elems
              ∧ ∀ p ∈ s.pchsOf i g.toNat, (t.pch p).progs.find? (bits o 8 6).toNat = some l.length
                ∧ ∀ n w, l[n]? = some w → (t.pch p).is.find? ((bits o 8 6).toNat + n) = some (relocate (bits o 8 6).toNat w))
            ∧ ((∃ w ∈ l, progWordOk l.length w = false) → ∃ t, exec (.nbld g pr) s = .next t ∧ Arrives t i k 3 ∧ t.pchs = s.pchs)))
      ∧ (∀ (g pr : BitVec 8) (rp : BitVec 2) (sc : Scope) (a b : W32) (row : BitVec 14) (len : BitVec 16) (o : W256), v.img.objs[pr.toNat]? = some o →
          let held := fun p => ((s.pch p).progs.find? (bits o 8 6).toNat).isSome = true
          ((s.pchsOf i g.toNat = [] ∨ ∃ p ∈ s.pchsOf i g.toNat, ¬held p) → ∃ t, exec (.nbrun g pr rp sc a b row len) s = .next t ∧ Arrives t i k 3
            ∧ t.pchs = s.pchs)
          ∧ (s.pchsOf i g.toNat ≠ [] → (∀ p ∈ s.pchsOf i g.toNat, held p) → (s.pchsOf i g.toNat).Nodup → ∃ t, exec (.nbrun g pr rp sc a b row len) s = .next t
            ∧ Waits t i k (fun f => f.waits = s.pchsOf i g.toNat ∧ ∀ p, p ∈ f.todo ↔ p ∈ s.pchsOf i g.toNat ∧ 64 ≤ s.depth p) ∧ t.mem = s.mem
            ∧ ∀ p ∈ s.pchsOf i g.toNat, (s.depth p < 64 → (t.pch p).cq = (s.pch p).cq ++ [.run (nbRunOf (bits o 8 6).toNat rp a b row len v.asid i k)])
              ∧ (64 ≤ s.depth p → t.pch p = s.pch p)))
      ∧ (∀ (g : BitVec 8) (va : BitVec 56) (o : W256) (r : Region) (die n : Nat), v.img.objs[g.toNat]? = some o → s.region i = some r →
          r.dies[(bits o 96 4).toNat]? = some die → s.mem.ws.wf = true →
          (s.writesAhead ≠ [] → ∃ t, exec (.wsw g va) s = .next t ∧ Waits t i k (fun f => f.waits = s.writesAhead) ∧ t.mem = s.mem)
          ∧ (s.writesAhead = [] → s.wsHeld die o = true → ∃ t, exec (.wsw g va) s = .next t ∧ Arrives t i k 3 ∧ t.mem = s.mem)
          ∧ (s.writesAhead = [] → s.wsHeld die o = false → s.vaRead v.root va.toNat (bits o 64 32).toNat = .ok n →
              s.vaBad v.root va.toNat (bits o 64 32).toNat = none → ∃ t, exec (.wsw g va) s = .next t ∧ Arrives t i k 0
              ∧ t.mem.ws.readN (die * 2 ^ 30 + (bits o 12 26).toNat * 16) (bits o 64 32).toNat = n % 256 ^ (bits o 64 32).toNat
              ∧ (∀ a, (a < die * 2 ^ 30 + (bits o 12 26).toNat * 16 ∨ die * 2 ^ 30 + (bits o 12 26).toNat * 16 + (bits o 64 32).toNat ≤ a) →
                  t.mem.ws.read a = s.mem.ws.read a) ∧ t.mem.dram = s.mem.dram ∧ t.mem.spad = s.mem.spad)))
  ∧ (
    let word := fun (s : State) (i : Nat) (v : Inst) (obj : Nat) (kind : AccKind) => lookLeaf (s.die (s.nsqDie i)).tlb2 kind v.asid (v.img.signalVa obj)
    let sent := fun (s t : State) (p o : Nat) (kind : AccKind) (data : W64) =>
      ∃ a ∈ (t.pch p).ingress, a.id = s.nextId ∧ a.kind = kind ∧ a.off = o ∧ a.bytes = 8 ∧ a.data = data.setWidth 256
    (∀ (s : State) (i k : Nat) (v : Inst) (x : FSlot), s.ActionReady i k v x →
      (∀ (g : BitVec 8) (add : Bool) (sc : Scope) (w : W64),
        (v.img.isKind g.toNat 7 = false → ∃ t, exec (.sign g add sc w) s = .next t ∧ Arrives t i k 3 ∧ t.mem = s.mem)
        ∧ (v.img.isKind g.toNat 7 = true → x.left = false → x.faulted = false →
          let owed := s.pendingAt sc.code.toNat false (fun a => (s.covered i).contains a.id)
          (owed = true → ∃ t, exec (.sign g add sc w) s = .next t ∧ t.mem = s.mem ∧ t.pchs = s.pchs
            ∧ Waits t i k (fun f => f.left = false ∧ f.todo = s.covered i))
          ∧ (owed = false → ∀ ap p o, word s i v g.toNat (.sigw add) = .cell ap p o → ∃ t, exec (.sign g add sc w) s = .next t ∧ t.mem = s.mem
            ∧ Waits t i k (fun f => f.left = true ∧ f.waits = [s.nextId] ∧ f.cell = some (p, o)) ∧ sent s t p o (.sigw add) w)
          ∧ (owed = false → word s i v g.toNat (.sigw add) = .miss → ∃ t, exec (.sign g add sc w) s = .next t ∧ t.mem = s.mem ∧ t.pchs = s.pchs
            ∧ Waits t i k (fun f => f.left = false ∧ f.asked = true))))
      ∧ (∀ (g : BitVec 8) (c : Cmp) (sc : Scope) (w : W64) (d : W32),
        let limit := if d = 0 then none else some (s.now + d.toNat)
        (v.img.isKind g.toNat 7 = false → ∃ t, exec (.watch g c sc w d) s = .next t ∧ Arrives t i k 3 ∧ t.mem = s.mem)
        ∧ (v.img.isKind g.toNat 7 = true → x.waits = [] → x.faulted = false →
          (∀ ap p o, word s i v g.toNat .read = .cell ap p o → ∃ t, exec (.watch g c sc w d) s = .next t ∧ t.mem = s.mem
            ∧ Waits t i k (fun f => f.waits = [s.nextId] ∧ f.cell = some (p, o) ∧ f.deadline = limit) ∧ sent s t p o .read 0)
          ∧ (word s i v g.toNat .read = .miss → ∃ t, exec (.watch g c sc w d) s = .next t ∧ t.mem = s.mem ∧ t.pchs = s.pchs
            ∧ Waits t i k (fun f => f.waits = [] ∧ f.asked = true ∧ f.deadline = limit))))
      ∧ (∀ n : W32, ∃ t, exec (.timer n) s = .next t ∧ Waits t i k (fun f => f.deadline = some (s.now + n.toNat)) ∧ t.mem = s.mem)
      ∧ (∀ (vec : BitVec 8) (reg : Option (Fin 16)) (w : W64) (r : Region), s.region i = some r → ∃ t q, exec (.hosti vec reg w) s = .next t
          ∧ t.cmd.records = s.cmd.records ++ [q] ∧ q.kind = 1 ∧ q.value = (match reg with | some _ => x.operand | none => w) ∧ q.irq = some vec.toNat
          ∧ q.qcb = r.qcb ∧ q.ring = r.ring ∧ q.firing = some (i, k) ∧ t.mem = s.mem)
      ∧ (∀ (a : BitVec 16) (b : W32) (u : State), s.linkSegment i b.toNat (bits a 0 2).toNat = some u →
          ((s.elem b.toNat).ctx.inst = some i ∨ ∃ z ∈ (s.elem b.toNat).saved, z.2.inst = some i) → ∃ t, exec (.extend 0 a b 0 0) s = .next t
          ∧ Arrives t i k 0 ∧ t.mem = s.mem
          ∧ ((t.ctxOf b.toNat i).mt.queue (bits a 0 2).toNat).segs = ((s.ctxOf b.toNat i).mt.queue (bits a 0 2).toNat).segs + 1)
      ∧ (∀ (g : BitVec 8) (a : BitVec 16) (b c d : W32), (g ≠ 0 ∨ c ≠ 0 ∨ d ≠ 0 ∨ s.linkSegment i b.toNat (bits a 0 2).toNat = none) →
          ∃ t, exec (.extend g a b c d) s = .next t ∧ Arrives t i k 3 ∧ t.elems = s.elems))
    ∧ (∀ (s : State) (i k d : Nat) (f : FSlot), s.slot i k = some f → f.stage = .going → f.deadline = some d → d ≤ s.now →
        (s.focus = .event (.timerExpire i k) → f.code = 0x13 → ∃ t, exec .timerExpire s = .next t ∧ Arrives t i k 0 ∧ t.mem = s.mem ∧ t.elems = s.elems)
        ∧ (s.focus = .event (.watchTimeout i k) → f.code = 0x0A → ∃ t, exec .watchTimeout s = .next t ∧ Arrives t i k 1 ∧ t.mem = s.mem ∧ t.elems = s.elems))
    ∧ (∀ (s : State) (i k : Nat) (v : Inst) (f : FSlot), s.focus = .event (.watchRecheck i k) → s.inst i = some v → s.slot i k = some f → s.watchDue f = true →
        ∀ ap p o, word s i v f.tgt .read = .cell ap p o → ∃ t, exec .watchRecheck s = .next t ∧ t.mem = s.mem
          ∧ Waits t i k (fun g => g.waits = [s.nextId] ∧ g.cell = some (p, o)) ∧ sent s t p o .read 0))

/-- R314, R318, R319: the collective actions: a bind of an object with a valid rank makes an instance that binds, and one without, or one already used,
has outcome 1; a step of an object with no bound instance has outcome 1, of a bound one with none in flight gives each send circuit its t credits, and
of one bound to the switch that has had a step outcome 0 at once; an end of a bound or aborted one frees its key with outcome 0, its step in flight
ending with outcome 1, and one that still binds gives outcome 1; RKEY to another than the next generation has outcome 3, to the next closes admission.
RKEY_TIMEOUT leaves the domain, and its RKEY completes with outcome 1 unless the accesses lost with it end its region. Corners of collectives (log 55)
and steps at COLL.end (log 72) are the model's reading. -/
def Obligations.CollectiveActions : Prop :=
  (∀ (s : State) (i k : Nat) (v : Inst) (x : FSlot), s.ActionReady i k v x →
    (∀ (g : BitVec 8) (o : W256), v.img.objs[g.toNat]? = some o → ((bits o 40 6).toNat + 1 < 2 ∨ (bits o 40 6).toNat + 1 ≤ (bits o 32 6).toNat
        ∨ (s.collOf i g.toNat).isSome = true) → ∃ t, exec (.collBind g) s = .next t ∧ Arrives t i k 1 ∧ t.colls = s.colls)
    ∧ (∀ (g : BitVec 8) (o : W256), v.img.objs[g.toNat]? = some o → (bits o 32 6).toNat < (bits o 40 6).toNat + 1 → 1 ≤ (bits o 40 6).toNat →
        (bits o 24 2 = 2 → ((bits o 40 6).toNat + 1) % ((bits o 46 6).toNat + 1) = 0) → s.collOf i g.toNat = none →
        (∀ a ∈ s.dom.heard, a.gid ≠ bits o 128 64) → ∃ t z, exec (.collBind g) s = .next t ∧ Waits t i k (fun _ => True) ∧ t.mem = s.mem
          ∧ t.colls = s.colls.put s.nextId z ∧ z.stage = .binding ∧ z.slot = some k ∧ z.inst = i ∧ z.obj = g.toNat ∧ z.gid = bits o 128 64
          ∧ z.rank = (bits o 32 6).toNat ∧ z.ranks = (bits o 40 6).toNat + 1)
    ∧ (∀ (g : BitVec 8) (n : W32), s.collOf i g.toNat = none → (∃ t, exec (.collStep g n) s = .next t ∧ Arrives t i k 1 ∧ t.colls = s.colls)
        ∧ (∃ t, exec (.collEnd g) s = .next t ∧ Arrives t i k 1 ∧ t.colls = s.colls))
    ∧ (∀ (g : BitVec 8) (n : W32) (c : Nat) (q : Coll), s.collOf i g.toNat = some (c, q) → q.stage = .bound → (q.bound ≠ 3 ∨ q.steps = 0) → q.slot = none → s.colls.find? c = some q →
        ∃ t z, exec (.collStep g n) s = .next t ∧ Waits t i k (fun f => f.left = true) ∧ t.colls.find? c = some z
          ∧ z = { q with slot := some k, step := n.toNat, steps := q.steps + 1, timer := some q.tstep } ∧ t.mem = s.mem
          ∧ ∀ r el m w, s.region i = some r → r.elems.Nodup → el ∈ r.elems → elType el = .gw → (s.elem el).ctx.inst = some i →
              (m, w) ∈ (s.elem el).ctx.gw.circs →
              (m, if w.coll = g.toNat ∧ w.recv = false then { w with credits := w.credits + w.perStep } else w) ∈ (t.elem el).ctx.gw.circs)
    ∧ (∀ (g : BitVec 8) (n : W32) (c : Nat) (q : Coll), s.collOf i g.toNat = some (c, q) → q.stage = .bound → q.bound = 3 → q.steps ≠ 0 →
        ∃ t, exec (.collStep g n) s = .next t ∧ Arrives t i k 0 ∧ t.colls = s.colls ∧ t.elems = s.elems)
    ∧ (∀ (g : BitVec 8) (c : Nat) (q : Coll), s.collOf i g.toNat = some (c, q) → q.stage ≠ .binding →
        ∃ t, exec (.collEnd g) s = .next t ∧ Arrives t i k 0 ∧ t.colls = s.colls.drop c ∧ t.mem = s.mem
        ∧ ∀ j f, q.slot = some j → j ≠ k → s.slot i j = some f → Arrives t i j 1)
    ∧ (∀ (g : BitVec 8) (c : Nat) (q : Coll), s.collOf i g.toNat = some (c, q) → q.stage = .binding →
        ∃ t, exec (.collEnd g) s = .next t ∧ Arrives t i k 1 ∧ t.colls = s.colls)
    ∧ (∀ a b : W32, (s.dom.members = [] ∨ a.toNat ≠ s.dom.gen + 1 ∨ s.dom.rkey.isSome = true) → ∃ t, exec (.rkey a b) s = .next t ∧ Arrives t i k 3 ∧ t.dom = s.dom)
    ∧ (∀ a b : W32, s.dom.members ≠ [] → a.toNat = s.dom.gen + 1 → s.dom.rkey = none → ∃ t, exec (.rkey a b) s = .next t ∧ t.dom.rkey = some (i, k)
        ∧ t.dom.gen = s.dom.gen ∧ Waits t i k (fun f => f.deadline = (if b = 0 then none else some (s.now + b.toNat)))))
  ∧ (∀ (s : State) (i k d : Nat) (f : FSlot), s.focus = .event (.rkeyTimeout i k) → s.slot i k = some f → f.code = 0x16 → f.deadline = some d → d ≤ s.now →
      s.dom.rkey = some (i, k) → ∃ t, exec .rkeyTimeout s = .next t ∧ t.dom.members = [] ∧ t.dom.rkey = none
        ∧ ((t.slot i k).isSome = true → Arrives t i k 1) ∧ (s.dom.unacked = [] → Arrives t i k 1))

/-- R32, R33, R35, R38: a round looks first at every firing that waits, which leaves the machine as it is where none of them has something of its own to
carry on; then, with no completion to apply and no TIME quantum due, it counts itself, sets WSREADY and the mirror places, and leaves the others; the
completions due come first, lowest slot first, and then a quantum that is due; a saved instance runs none. TRANSITION_START takes the consume weights,
reserves the outputs' room and fills the lowest free slot; FIRING_COMPLETION applies an outcome that has arrived; TIME_TICK adds a token to the TIME
place up to its capacity. That TIME stands while its region is saved is the model's reading (log 42). -/
def Obligations.SequencerEvents : Prop :=
  (∀ (s : State) (i : Nat) (v : Inst) (r : Region), s.focus = .event (.nsqRound i) → s.inst i = some v → s.region i = some r →
    (r.saved = true → exec .nsqRound s = .next s)
    ∧ (r.saved = false → v.turn ≠ some s.now →
        let u := s.advanceAll i v.slots
        ((∀ x ∈ v.slots, x.2.stage = .going → x.2.code ∉ [0x02, 0x04, 0x05, 0x06, 0x07, 0x08, 0x09, 0x10]) → u = s)
        ∧ ∀ w q, u.inst i = some w → u.region i = some q →
          (w.dueMoves i ≠ [] → exec .nsqRound s = .next (u.push (w.dueMoves i ++ [.event (.nsqRound i)])))
          ∧ (w.dueMoves i = [] → w.timeDue = true → exec .nsqRound s = .next (u.push [.event (.timeTick i), .event (.nsqRound i)]))
          ∧ (w.dueMoves i = [] → w.timeDue = false → w.deposits = [] → ∃ t z, exec .nsqRound s = .next t ∧ t.inst i = some z
            ∧ z = { w with turn := some s.now, rounds := w.rounds + 1, count := z.count } ∧ t.mem = u.mem ∧ t.elems = u.elems ∧ t.regions = u.regions
            ∧ (∀ p d, w.img.places[p]? = some d → z.count.getD p 0 = (if pKind d = 1 then (if u.wsReady w q then 1 else 0)
                else if pKind d = 3 then w.mirrorCount p else w.count.getD p 0)))))
  ∧ (∀ (s : State) (i t k : Nat) (v : Inst) (r : Region), s.focus = .event (.transitionStart i t) → s.inst i = some v → s.region i = some r →
      v.turn = some s.now → v.start ≠ some s.now → r.mayStart v = true → v.choice r.preempt.isSome = some t → v.freeSlot = some k →
      ∃ u w, exec .transitionStart s = .next u ∧ u.inst i = some w ∧ u.mem = s.mem ∧ u.elems = s.elems ∧ w.start = some s.now
        ∧ w.slots.find? k = some (v.newSlot t) ∧ (∀ m, m ≠ k → w.slots.find? m = v.slots.find? m)
        ∧ (∀ p, w.count.getD p 0 = v.count.getD p 0 - tConsumes (v.img.tr t) p ∧ w.rsv.getD p 0 = v.rsv.getD p 0 + tMaxDeposit (v.img.tr t) p)
        ∧ w.n = v.n ∧ w.rounds = v.rounds)
  ∧ (∀ (s : State) (i k o : Nat) (v : Inst) (f : FSlot), s.focus = .event (.firingCompletion i k) → s.inst i = some v → v.slots.find? k = some f →
      f.stage = .arrived o → v.turn ≠ some s.now → ∃ t w, exec .firingCompletion s = .next t ∧ Completes s t i k o v f w ∧ w.n = v.n ∧ w.done = v.done)
  ∧ (∀ (s : State) (i : Nat) (v : Inst), s.focus = .event (.timeTick i) → s.inst i = some v → v.img.timeq ≠ 0 → v.img.timeq ≤ v.time →
      v.turn ≠ some s.now → v.dueMoves i = [] →
      ∃ t w, exec .timeTick s = .next t ∧ t.inst i = some w ∧ w = { v with time := v.time - v.img.timeq, count := w.count } ∧ t.mem = s.mem ∧ t.elems = s.elems
        ∧ ∀ p d, v.img.places[p]? = some d → w.count.getD p 0 = (if pKind d = 4 then min (pCap d) (v.count.getD p 0 + 1) else v.count.getD p 0))

/-- R31, R34: what the NSQ starts: a transition of the highest class that has an enabled one, every input arc of which holds and every output place of
which has room, with a slot free; none is started beyond its CONC. -/
def Obligations.ChosenTransitionIsEnabled : Prop :=
  ∀ (v : Inst) (p : Bool) (t : Nat), v.choice p = some t →
    t < v.img.trans.length ∧ tValid (v.img.tr t) = true ∧ (∃ k, v.freeSlot = some k ∧ k < 32 ∧ v.slots.find? k = none)
    ∧ (v.slots.vals.filter (fun f => f.trans == t)).length < tConc (v.img.tr t)
    ∧ (∀ a ∈ tIn (v.img.tr t), (a.kind = 1 → tConsumes (v.img.tr t) a.place ≤ v.count.getD a.place 0) ∧ (a.kind = 2 → a.weight ≤ v.count.getD a.place 0)
        ∧ (a.kind = 3 → v.count.getD a.place 0 < a.weight))
    ∧ (∀ c u, c < tPrio (v.img.tr t) → u < 256 → tPrio (v.img.tr u) = c → v.startable p u = false)

/-- R25, R45, R50, R340: a finished instance with nothing in flight retires with its record of KIND 2 and DONE's status, its child kept, its region and
elements released; DEADLOCK, once the count has reached the interval, writes the dump, freezes the region and raises its record, whose classification
kills it, and does nothing while the detector is held; a mirror's read of its translated word leaves. When an instance counts as gone is the model's
reading (log 35). -/
def Obligations.InstanceEvents : Prop :=
  (∀ (s : State) (i : Nat) (v : Inst) (r : Region), s.focus = .event (.instanceRetire i) → s.inst i = some v → s.region i = some r → s.mayRetire i v r = true →
      s.insts.risesFrom none = true → s.regions.risesFrom none = true →
      ∃ t q, exec .instanceRetire s = .next t ∧ t.inst i = none ∧ t.region i = none ∧ t.mem = s.mem ∧ t.cmd.records = s.cmd.records ++ [q] ∧ q.kind = 2
        ∧ q.status = v.done.getD 0 ∧ q.qcb = r.qcb ∧ q.tag = r.hdr.tag ∧ (∀ j, j ≠ i → t.inst j = s.inst j)
        ∧ (∀ va, v.tail = some va → ∃ c, t.cmd.children.find? i = some c ∧ c.va = va ∧ c.root = v.root ∧ c.asid = v.asid)
        ∧ (∀ x ∈ t.circs, x.2.inst ≠ i) ∧ (∀ el, el ∈ r.elems → (t.elem el).ctx.inst ≠ some i))
  ∧ (∀ (s : State) (i : Nat) (v : Inst) (r : Region), s.focus = .event (.deadlock i) → s.inst i = some v → s.region i = some r → r.interval ≠ 0 →
      r.interval ≤ r.idle →
      (s.detectorHeld i v r = true → exec .deadlock s = .next s)
      ∧ (s.detectorHeld i v r = false → r.traps.length < 256 → ∃ t q, exec .deadlock s = .next t ∧ t.inst i = some v ∧ t.elems = s.elems
        ∧ t.mem = (s.paWrite r.dump (s.dumpBytes i v r).1 (s.dumpBytes i v r).2).mem
        ∧ t.region i = some { r with frozen := true, holds := r.holds + 1, traps := r.traps ++ [q] } ∧ recCode q = 0x20 ∧ recSrc q = 5
        ∧ recInfo q = BitVec.ofNat 64 r.dump))
  ∧ (∀ (s : State) (i p c o : Nat) (ap : Aperture) (v : Inst) (m : Mirror), s.focus = .event (.mirrorUpdate i p) → s.inst i = some v →
      v.mirrors.find? p = some m → s.mirrorDue v p = true →
      s.lookWord i (v.img.signalVa (match v.img.places[p]? with | some d => pBind d | none => 0)) .read = .cell ap c o →
      ∃ t w, exec .mirrorUpdate s = .next t ∧ t.inst i = some w ∧ w.mirrors.find? p = some { m with busy := true, asked := false, cell := some (c, o) }
        ∧ t.mem = s.mem ∧ ∃ a ∈ (t.pch c).ingress, a.id = s.nextId ∧ a.kind = .read ∧ a.off = o ∧ a.by_ = .mirror i p)

/-! ## Accesses, tokens and translation -/

/-- R174, R177, R226: a running stream's next element joins its SQ at the address of its index; a held store moves to the tail of the hold buffer of its
context, running or set aside; an access of DRAM leaves for the ingress FIFO of its aperture at its cell, one of the weight store for its bank, one of
the scratchpad for its bank too, a generator's once the bank grants it, a near-bank command for its command queue; the head of an ingress FIFO joins
the command queue where that has room. That a stream counts a held store as done (log 60), that such a store is translated as it enters the hold
buffer (log 33), and that a scratchpad bank grants at the entry to its queue (log 69) are the model's readings. -/
def Obligations.AccessesTravel : Prop :=
  (∀ (s : State) (el g : Nat), s.focus = .event (.accessGenerate el g) →
    let v := s.gen el g
    let d := v.desc
    dDcx d = false → v.pos < dCount d → s.mayGenerate el g = true →
    (dWrite d = false → ∃ t a, exec .accessGenerate s = .next t ∧ (t.gen el g).sq = v.sq ++ [a] ∧ (t.gen el g).pos = v.pos + 1 ∧ a.kind = .read
      ∧ a.va = dAddr d v.pos ∧ a.bytes = dEsz d ∧ a.by_ = .gen el g ∧ (t.gen el g).reads = v.reads ++ [{ id := a.id, data := none }] ∧ t.mem = s.mem)
    ∧ (∀ h, dWrite d = true → (s.elem el).ctx.ports.head (dPort d) = some h → v.moved ≠ some s.now → ∃ t a, exec .accessGenerate s = .next t
      ∧ (t.gen el g).sq = v.sq ++ [a] ∧ (t.gen el g).pos = v.pos + 1 ∧ a.kind = .write ∧ a.va = dAddr d v.pos ∧ a.bytes = dEsz d
      ∧ a.data.toNat = h.data.toNat / 2 ^ (8 * (v.pos * dEsz d % 32)) % 2 ^ (8 * dEsz d) ∧ t.mem = s.mem))
  ∧ (∀ (s : State) (el idx : Nat) (a : Access), s.focus = .event (.accessHold el 0 idx) → s.accessAt el 0 idx = some a →
      a.held = true → a.xlat = .untried → s.atHead el 0 idx a = true →
      ((s.elem el).ctx.inst = some a.inst ∨ ∃ z ∈ (s.elem el).saved, z.2.inst = some a.inst) →
      let becomes := fun (b : Access) => ∃ t lf, exec .accessHold s = .next t
        ∧ (t.ctxOf el a.inst).mt.frame.held = (s.ctxOf el a.inst).mt.frame.held ++ [{ b with sent := s.now, leaf := lf }]
        ∧ (t.elem el).eq = (s.elem el).eq.eraseIdx idx ∧ t.mem = s.mem
      (∀ ap p o, a.tgt = .dram → (s.translate el a).1 = .cell ap p o → becomes { a with ap, pch := p, off := o, xlat := .done })
      ∧ (a.tgt ≠ .dram → becomes { a with xlat := .done }))
  ∧ (∀ (s : State) (el src idx : Nat) (a : Access), s.focus = .event (.accessLeave el src idx) → s.accessAt el src idx = some a → a.held = false →
      a.xlat = .untried → s.atHead el src idx a = true →
      (∀ ap p o, a.tgt = .dram → (s.translate el a).1 = .cell ap p o → ∃ t b, exec .accessLeave s = .next t ∧ (t.pch p).ib ap = (s.pch p).ib ap ++ [b]
        ∧ b = { a with ap, pch := p, off := o, xlat := .done, sent := s.now, leaf := b.leaf } ∧ t.mem = s.mem)
      ∧ (a.tgt = .spad → src ≠ 0 → s.streamRange el a = true → s.granted el (src - 1) (spadBank (s.spadAt el a.va)) = false → exec .accessLeave s = .next s)
      ∧ (a.tgt = .spad → (src = 0 → s.instrAtBank el = false) →
        (src ≠ 0 → s.streamRange el a = true ∧ s.granted el (src - 1) (spadBank (s.spadAt el a.va)) = true) →
        let o := if src = 0 then a.off else s.spadAt el a.va
        ∃ t b, exec .accessLeave s = .next t ∧ t.mem = s.mem ∧ b = { a with off := o, xlat := .done, sent := s.now }
          ∧ t.spadq.getD (spadBank o) [] = s.spadq.getD (spadBank o) [] ++ [b])
      ∧ (a.tgt = .spad → src = 0 → s.instrAtBank el = true → exec .accessLeave s = .next s)
      ∧ (a.tgt = .ws → src = 0 → ∃ t b, exec .accessLeave s = .next t ∧ t.mem = s.mem
        ∧ b = { a with off := elDie el * 2 ^ 30 + a.va, xlat := .done, sent := s.now }
        ∧ (t.die (elDie el)).wsq.getD (a.va / 2 ^ 26) [] = (s.die (elDie el)).wsq.getD (a.va / 2 ^ 26) [] ++ [b])
      ∧ (a.tgt = .nearBank → (∀ b ∈ (s.pch a.pch).ingress, b.ofElem el = false) →
        (64 ≤ s.depth a.pch → exec .accessLeave s = .next s)
        ∧ (s.depth a.pch < 64 → ∃ t, exec .accessLeave s = .next t ∧ t.mem = s.mem
          ∧ (t.pch a.pch).cq = (s.pch a.pch).cq ++ [{ a with xlat := .done }.entry]))
      ∧ (∀ dev, a.tgt = .remote dev → s.reachable dev = true → s.maySend dev (elDie el) = false → exec .accessLeave s = .next s))
  ∧ (∀ (s : State) (p : Nat) (ap : Aperture) (a : Access) (l : List Access), s.focus = .event (.accessIngress p ap) → (s.pch p).ib ap = a :: l →
      (64 ≤ s.depth p → exec .accessIngress s = .next s)
      ∧ (s.depth p < 64 → ∃ t, exec .accessIngress s = .next t ∧ (t.pch p).cq = (s.pch p).cq ++ [.access a] ∧ (t.pch p).ib ap = l ∧ t.mem = s.mem
          ∧ ∀ q, q ≠ p → t.pch q = s.pch q))

/-- R185, R187, R234, R293: what an access does at its cell: a read takes its bytes, a write and a signal write leave theirs, an atomic combines its width
and gives the old value, a signal read compares; no other byte changes. An uncorrectable token answers with an error and stays, but for a whole write
of 32 bytes, which leaves its bytes and mends the token. The host's write of a queue control block changes its RW bits alone. -/
def Obligations.AccessesPerformAtTheirCell : Prop :=
  ∀ (s : State) (a : Access), s.mem.dram.wf = true →
    let c := cellAt (a.pch, a.off)
    let t := (s.performDram a).2
    let old := s.mem.dram.readN c a.bytes
    let holds := fun (n v : Nat) => (∀ k, k < n → (t.mem.dram.read (c + k)).toNat = v / 256 ^ k % 256)
      ∧ (∀ b, b < c ∨ c + n ≤ b → t.mem.dram.read b = s.mem.dram.read b) ∧ t.mem.spad = s.mem.spad ∧ t.mem.ws = s.mem.ws
    (s.mem.dramErr.contains (c / 32) = true → ¬ (a.kind = .write ∧ a.bytes = 32) → s.performDram a = (.bad, s))
    ∧ (a.kind = .write → a.bytes = 32 → (s.performDram a).1 = .done 0 false ∧ t.mem.dramErr.contains (c / 32) = false
        ∧ (∀ n, n ≠ c / 32 → t.mem.dramErr.contains n = s.mem.dramErr.contains n)
        ∧ ((a.ofHost = false ∨ a.va < 0xFFC000000 ∨ 0xFFC800000 ≤ a.va) → holds 32 a.data.toNat))
    ∧ (s.mem.dramErr.contains (c / 32) = false →
        (a.kind = .read → ∃ rc, s.performDram a = (.done (BitVec.ofNat 256 old) rc, s))
        ∧ (a.kind = .write → (s.performDram a).1 = .done 0 false
            ∧ ((a.ofHost = false ∨ a.va < 0xFFC000000 ∨ 0xFFC800000 ≤ a.va) → holds a.bytes a.data.toNat)
            ∧ (a.ofHost = true → 0xFFC000000 ≤ a.va → a.va < 0xFFC800000 → a.bytes ≤ 32 → ∃ w, holds a.bytes w
                ∧ ∀ b, b < 8 * a.bytes → w.testBit b = if qcbRw.testBit (8 * (a.va % 128) + b) then a.data.getLsbD b else old.testBit b))
        ∧ (∀ add, a.kind = .sigw add → holds 8 ((if add then s.mem.dram.readN c a.bytes + a.data.toNat else a.data.toNat) % 2 ^ 64))
        ∧ (∀ m, a.kind = .sigr m → ∃ rc, s.performDram a = (.done (BitVec.ofNat 256 old) rc, s)
            ∧ (rc = true ↔ match m with
                | .eq => old % 2 ^ 64 = a.data.toNat % 2 ^ 64
                | .ne => old % 2 ^ 64 ≠ a.data.toNat % 2 ^ 64
                | .geu => a.data.toNat % 2 ^ 64 ≤ old % 2 ^ 64
                | .ltu => old % 2 ^ 64 < a.data.toNat % 2 ^ 64))
        ∧ (∀ op w u, a.kind = .atomic op w u → a.bytes = w / 8 → (w = 8 ∨ w = 16 ∨ w = 32 ∨ w = 64) → a.data.toNat < 2 ^ w → a.data2.toNat < 2 ^ w →
            (∃ rc, (s.performDram a).1 = .done (BitVec.ofNat 256 old) rc)
            ∧ (op = 0 → holds (w / 8) ((old + a.data.toNat) % 2 ^ w)) ∧ (op = 1 → u = true → holds (w / 8) (min old a.data.toNat))
            ∧ (op = 2 → u = true → holds (w / 8) (max old a.data.toNat))
            ∧ (op = 1 → u = false → holds (w / 8) (min (sext w old) (sext w a.data.toNat) % 2 ^ w).toNat)
            ∧ (op = 2 → u = false → holds (w / 8) (max (sext w old) (sext w a.data.toNat) % 2 ^ w).toNat) ∧ (op = 3 → holds (w / 8) a.data.toNat)
            ∧ (op = 4 → holds (w / 8) (if old = a.data2.toNat then a.data.toNat else old)) ∧ (op = 5 → holds (w / 8) (old &&& a.data.toNat))
            ∧ (op = 6 → holds (w / 8) (old ||| a.data.toNat)) ∧ (op = 7 → holds (w / 8) (old ^^^ a.data.toNat))))

/-- R17, R90, R180, R183, R226, R239, R341, R342: The access in service, where it meets no uncorrectable error, performs once its column step has ended,
leaves the queue, holds its pseudo-channel until its PRE, and answers its issuer: an element's firing that waits for a value takes it and completes in
the fc after. The token at the head of a circuit, once it has come, enters its input port in order where a place is free, and a landing entry of a
frozen element behind those that have landed; a block is decoded at 8 raw bytes per fc at most; a verified block's tokens go out one per 4 fc with
FSLOT or FTR; a malformed block faults its generator. The fc in which an answer completes its firing (log 32) and how the decoder's rate is shared
(log 77) are the model's readings. -/
def Obligations.AccessesAreServedAndTokensArrive : Prop :=
  (∀ (s : State) (p n : Nat) (a : Access) (l : List CqEntry), s.focus = .event (.accessPerform (.pch p)) → (s.pch p).serving = some n →
      (s.pch p).turnOf = some (a, l) → (s.performDram a).1 ≠ .bad →
      (∀ el id k fc, a.by_ = .elem el id k fc → (s.elem el).ctx.inst = some a.inst ∨ (s.ctxOf el a.inst).heldRecs = []) →
      (s.now5 < n + performAfter a.kind → exec .accessPerform s = .next s)
      ∧ (n + performAfter a.kind ≤ s.now5 → ∃ t, exec .accessPerform s = .next t ∧ (t.pch p).cq = l ∧ (t.pch p).serving = none
          ∧ (t.pch p).freeAt = n + holdFor a.kind ∧ t.mem = (s.performDram a).2.mem
          ∧ ∀ el id k fc v rc, a.by_ = .elem el id k fc → id ≠ 0 → (a.kind = .read ∨ (∃ m, a.kind = .sigr m) ∨ ∃ op w u, a.kind = .atomic op w u) →
              a.tgt = .dram → (s.performDram a).1 = .done v rc →
              ∀ f ∈ (s.elem el).ctx.flights, f.id = id → f.due = none → { f with val := v, rc, due := some (s.now + 1) } ∈ (t.elem el).ctx.flights))
  ∧ ((∀ (s : State) (k d : Nat) (n : Nat) (c : Circuit) (h : Token) (l : List (Nat × Token)), s.focus = .event (.tokenDeliver k) → s.circs.find? k = some c →
        s.linksStopped c.inst = false → c.flying = (n, h) :: l → c.via = none → c.dst = some d →
        let q := (s.elem d).ctx.ports.inq.getD c.dstPort []
        let landed := (s.elem d).ctx.ports.land.getD c.dstPort []
        (s.arrived c = true → q.length < 4 → landed = [] → ∃ t, exec .tokenDeliver s = .next t
          ∧ (t.elem d).ctx.ports.inq.getD c.dstPort [] = (s.elem d).ctx.ports.inq.getD c.dstPort [] ++ [h] ∧ t.circs.find? k = some { c with flying := l }
          ∧ t.mem = s.mem ∧ (t.elem d).ctx.regs = (s.elem d).ctx.regs)
        ∧ (s.arrived c = true → (4 ≤ q.length ∨ landed ≠ []) → s.isFrozen d = true → landed.length < 4 → ∃ t, exec .tokenDeliver s = .next t
          ∧ (t.elem d).ctx.ports.land.getD c.dstPort [] = landed ++ [h] ∧ (t.elem d).ctx.ports.inq = (s.elem d).ctx.ports.inq
          ∧ t.circs.find? k = some { c with flying := l } ∧ t.mem = s.mem)
        ∧ ((s.arrived c = false ∨ s.canEnter d c.dstPort = false) → exec .tokenDeliver s = .next s))
    ∧ (∀ (s : State) (el g : Nat) (raw : List Nat) (fs : BitVec 3), s.focus = .event (.dcxBlockCheck el g) → (s.gen el g).reads = [] → (s.gen el g).state = .running →
        let m := (s.elem el).ctx.mt
        let b := m.dcx.fetched g
        b ≠ [] → b.length = 32 * blockTokens b → m.dcx.bufs.length < 2 →
        (s.now < m.dcx.decodedAt g → exec .dcxBlockCheck s = .next s)
        ∧ m.dcx.decodedAt g = max (m.dcx.began.getD g 0) m.dcx.idleAt + (min 4096 (b[4]!.toNat + 256 * b[5]!.toNat) + 7) / 8
        ∧ (m.dcx.decodedAt g ≤ s.now → (decodeBlock m.dcx.ver b = .ok raw fs → ∃ t, exec .dcxBlockCheck s = .next t ∧ t.mem = s.mem ∧ (t.gen el g).pos = (s.gen el g).pos + 1
          ∧ (t.elem el).ctx.mt.dcx.bufs = m.dcx.bufs ++ [(g, ⟨rawTokens raw (raw.length / 32), if m.dcx.ftsrc then dFtr (s.gen el g).desc else fs,
              (s.gen el g).blockOffset⟩)]))
        ∧ (m.dcx.decodedAt g ≤ s.now → decodeBlock m.dcx.ver b = .malformed → ∀ i, (s.elem el).ctx.inst = some i → (∀ r, s.region i = some r → r.traps.length < 256) →
            ∃ t, exec .dcxBlockCheck s = .next t ∧ t.mem = s.mem ∧ (t.gen el g).state = .faulted ∧ (t.elem el).ctx.mt.dcx.bufs = m.dcx.bufs))
    ∧ (∀ (s : State) (el g : Nat) (b : DcxBuf) (w : W256) (l : List W256), s.focus = .event (.dcxEmit el g) →
        let d := (s.elem el).ctx.mt.dcx
        d.bufs.find? (fun x => x.1 == g) = some (g, b) → b.toks = w :: l → (∀ n, d.last = some n → n + 4 ≤ s.now) → s.mayStage el g = true →
        ∃ t, exec .dcxEmit s = .next t ∧ (t.elem el).ctx.mt.dcx.last = some s.now ∧ t.mem = s.mem
          ∧ (t.elem el).ctx.ports.outq.getD (dPort (s.gen el g).desc) [] = (s.elem el).ctx.ports.outq.getD (dPort (s.gen el g).desc) []
              ++ [{ firing := 0, tok := some { ct := .data, ft := b.ft, data := w } }]))

/-- R12, R13, R21, R220, R282, R283, R284: one of the eight oldest misses of a die's walker ends: a leaf enters the die's TLB and the accesses that waited
try again, an XLATE enters the fault FIFO for each kind that waited; an invalidation drops every matching entry of every TLB and is DONE once its
accesses have performed; a read that waits at a weight-store bank goes on when the refresh window ends, within the store's rate; the store serves the
bank whose head draws for the memory tile that is next in rotation. Which entry a full TLB drops is the model's choice (log 19), a root beyond DRAM is
log 52, and the span of a weight store's rate is log 70. -/
def Obligations.TranslationEvents : Prop :=
  (∀ (s : State) (die idx : Nat) (w : Walk), s.focus = .event (.pageWalk die idx) → idx < 8 → (s.die die).walks[idx]? = some w → w.root < 2 ^ 40 →
      (∀ size e, s.walk (w.page * 65536) 0 w.root 4 = .leaf size e → ∃ t, exec .pageWalk s = .next t ∧ t.mem = s.mem
        ∧ (t.die die).walks = (s.die die).walks.eraseIdx idx ∧ (t.die die).tlb2 = ({ asid := w.asid, page := w.page, size, pte := e } :: (s.die die).tlb2).take 16384
        ∧ ∀ el, elDie el = die → ∀ a ∈ (t.elem el).eq, a.awaits w.asid w.page = false)
      ∧ (∀ c, s.walk (w.page * 65536) 0 w.root 4 = .fault c → 
          (s.faultRoom die w.asid w.page (s.waitingKinds die w.asid w.page) = false → exec .pageWalk s = .next s)
          ∧ (s.faultRoom die w.asid w.page (s.waitingKinds die w.asid w.page) = true → ∃ t, exec .pageWalk s = .next t ∧ t.mem = s.mem
            ∧ (∀ x ∈ (t.die die).walks, x ∈ (s.die die).walks.eraseIdx idx) ∧ ∀ k ∈ s.waitingKinds die w.asid w.page, ∃ f ∈ (t.die die).faults, f.asid = w.asid ∧ f.page = w.page ∧ f.kind = k)))
  ∧ (∀ (s : State) (size : BitVec 2), s.focus = .event (.tlbinvGo size) →
      (s.bar.tlbDone = false → exec .tlbinvGo s = .next s)
      ∧ (s.bar.tlbDone = true → ∃ t, exec .tlbinvGo s = .next t ∧ t.bar.tlbDone = false ∧ t.mem = s.mem
          ∧ (∀ el, ∀ e ∈ (t.elem el).tlb, e.dropped s.bar.tlbAsid s.bar.tlbVa.toNat size.toNat = false)
          ∧ (∀ d, ∀ e ∈ (t.die d).tlb2, e.dropped s.bar.tlbAsid s.bar.tlbVa.toNat size.toNat = false)))
  ∧ (∀ (s : State), s.focus = .event .tlbinvDone → s.bar.tlbDone = false → s.tlbSettled = true →
      ∃ t, exec .tlbinvDone s = .next t ∧ t.bar.tlbDone = true ∧ t.mem = s.mem ∧ t.elems = s.elems)
  ∧ (∀ (s : State) (die : Nat), s.focus = .event (.wsRefresh die) → ∃ t, exec .wsRefresh s = .next t ∧ t.mem = s.mem
      ∧ (∀ b, s.wsBusy die b = true → (t.die die).wsq.getD b [] = (s.die die).wsq.getD b [])
      ∧ (∀ b, ∃ n, (t.die die).wsq.getD b [] = ((s.die die).wsq.getD b []).drop n)
      ∧ (s.wsRoom die = true → (∃ b, b < 16 ∧ s.wsBusy die b = false ∧ (s.die die).wsq.getD b [] ≠ []) →
          ∃ b n, 0 < n ∧ (s.die die).wsq.getD b [] ≠ [] ∧ (t.die die).wsq.getD b [] = ((s.die die).wsq.getD b []).drop n))
  ∧ (∀ (s : State) (die b : Nat), s.focus = .event (.accessPerform (.ws die b)) →
      (s.wsNext die ≠ some b ∨ s.wsRoom die = false → exec .accessPerform s = .next s)
      ∧ (∀ a l, s.wsNext die = some b → s.wsRoom die = true → (s.die die).wsq.getD b [] = a :: l → ∃ t, exec .accessPerform s = .next t ∧ t.mem = s.mem
          ∧ (t.die die).wsq.getD b [] = l ∧ (t.die die).wsLast = a.drawer ∧ ∀ c, c ≠ b → (t.die die).wsq.getD c [] = (s.die die).wsq.getD c [])
      ∧ (∀ a, s.wsNext die = some b → s.nextAtWs die b = some a → ∀ c d, s.wsBusy die c = false → c ∈ (s.die die).wsq.keys →
          s.nextAtWs die c = some d → (a.drawer + 65535 - (s.die die).wsLast) % 65536 ≤ (d.drawer + 65535 - (s.die die).wsLast) % 65536))

/-! ## Pseudo-channels -/

/-- R243, R248, R250, R251, R253, R254, R257: a run command at the head of an idle pseudo-channel's queue starts at WCNT 0 where the stack's run limit
allows and no other has waited longer, a saved one with its query buffer; otherwise it waits. A run resumes after a suspension once what was chosen
has been served. EBUF sends its oldest token to RPORT of its BN, where that takes the run's tokens (log 68) and the port has room, and waits where it
does not. An ended run sends a TAIL with the error bits and its code once EBUF is empty, tells the firing it ran for, and is over; while its region
stands aside it moves into a context slot. A segment beyond 640 fc ends its run with code 3 and its NBERR. Where a run pauses is the model's reading
(log 50), as are the end of a segment (log 66) and where the tokens of a run wait whose region has no BN (log 68). -/
def Obligations.RunsStartSuspendAndEnd : Prop :=
  (∀ (s : State) (p : Nat) (c : CqEntry) (l : List CqEntry) (r : NbRun) (q : Tab W256) (sv : Tab SavedRun), s.focus = .event (.runStart p) →
    (s.pch p).cq = c :: l → (s.pch p).run = none → (s.pch p).free s.now5 = true → (s.pch p).refDue = false → (s.pch p).alerts = [] →
    ((c = .run r ∧ (s.pch p).saved.length < 2 ∧ q = (s.pch p).q ∧ sv = (s.pch p).saved)
      ∨ (∃ k, c = .saved k ∧ (s.pch p).saved.find? k = some ⟨r, q⟩ ∧ sv = (s.pch p).saved.drop k)) →
    (s.activeRuns (p / 64) < s.runLimit → s.waitsBefore p = false → ∃ t, exec .runStart s = .next t ∧ PchBecomes s t p { s.pch p with
      cq := l, phase := .running, limit := none, q, saved := sv, run := some { r with wcnt := 0, segAt := (s.pch p).startAt s.now5, waitAt := none } })
    ∧ ((s.runLimit ≤ s.activeRuns (p / 64) ∨ s.waitsBefore p = true) → ∃ t, exec .runStart s = .next t
      ∧ PchBecomes s t p { s.pch p with limit := some ((s.pch p).limit.getD s.now) }))
  ∧ (∀ (s : State) (p owed : Nat) (atEmit : Bool) (r : NbRun), s.focus = .event (.runResume p) → (s.pch p).phase = .suspended owed atEmit →
    (s.pch p).run = some r →
    (owed ≠ 0 → exec .runResume s = .next s)
    ∧ (owed = 0 → (s.pch p).free s.now5 = true → (s.pch p).refDue = false → (s.pch p).alerts = [] → ∃ t, exec .runResume s = .next t
      ∧ PchBecomes s t p { s.pch p with phase := .running,
                                        run := some (if atEmit then r else { r with wcnt := 0, segAt := (s.pch p).startAt s.now5 }) }))
  ∧ (∀ (s : State) (p : Nat) (r : NbRun) (h : Token) (l : List Token), s.focus = .event (.ebufDrain p) → (s.pch p).run = some r → r.ebuf = h :: l →
    (s.mayDrain p r = false → exec .ebufDrain s = .next s)
    ∧ (s.mayDrain p r = true → ((s.elem (pchBn p)).ctx.ports.inq.getD r.rport.toNat []).length < 4 →
      (s.elem (pchBn p)).ctx.ports.land.getD r.rport.toNat [] = [] → ∃ t, exec .ebufDrain s = .next t
      ∧ t.pch p = { s.pch p with run := some { r with ebuf := l }, drained := some s.now } ∧ t.mem = s.mem
      ∧ (t.elem (pchBn p)).ctx.ports.inq.getD r.rport.toNat [] = (s.elem (pchBn p)).ctx.ports.inq.getD r.rport.toNat [] ++ [h]))
  ∧ (∀ (s : State) (p code : Nat) (r : NbRun), s.focus = .event (.runEnd p) → (s.pch p).run = some r → r.ended = some code → r.ebuf = [] →
    s.mayDrain p r = true → (s.pch p).freeAt ≤ s.now5 → ((s.elem (pchBn p)).ctx.ports.inq.getD r.rport.toNat []).length < 4 →
    (s.elem (pchBn p)).ctx.ports.land.getD r.rport.toNat [] = [] →
    ∃ t, exec .runEnd s = .next t ∧ t.pch p = { s.pch p with run := none, rest := r, phase := .none, drained := some s.now } ∧ t.mem = s.mem
      ∧ (t.elem (pchBn p)).ctx.ports.inq.getD r.rport.toNat [] = (s.elem (pchBn p)).ctx.ports.inq.getD r.rport.toNat []
          ++ [{ ct := .tail, ft := 0, data := BitVec.ofNat 256 (r.ebMap + code * 2 ^ 64) }]
      ∧ ∀ i k f, r.owner = .nsq i k → s.slot i k = some f → t.slot i k = some { f with
          waits := f.waits.filter (fun n => n != p), remaining := max f.remaining (if code ≠ 0 then 3 else if r.ebMap ≠ 0 then 1 else 0) })
  ∧ (∀ (s : State) (p code : Nat) (r : NbRun), s.focus = .event (.runEnd p) → (s.pch p).run = some r → r.ended = some code →
    (r.ebuf ≠ [] ∨ s.mayDrain p r = false ∨ s.now5 < (s.pch p).freeAt) → s.runAside r = false → exec .runEnd s = .next s)
  ∧ (∀ (s : State) (p code : Nat) (r : NbRun), s.focus = .event (.runEnd p) → (s.pch p).run = some r → r.ended = some code →
    s.mayDrain p r = false → s.runAside r = true → (s.pch p).freeAt ≤ s.now5 → ∃ t k, exec .runEnd s = .next t ∧ (t.pch p).run = none
      ∧ (t.pch p).saved.find? k = some ⟨r, (s.pch p).q⟩ ∧ t.mem = s.mem)
  ∧ (∀ (s : State) (p : Nat) (r : NbRun), s.focus = .event (.segmentTimeout p) → (s.pch p).run = some r →
    (r.segTime s.now5 ≤ 3200 → exec .segmentTimeout s = .next s)
    ∧ (∀ v, 3200 < r.segTime s.now5 → r.ended = none → (s.pch p).phase = .running → s.region r.inst = some v → v.traps.length < 256 →
      ∃ t q w d, exec .segmentTimeout s = .next t ∧ (t.pch p).run = some q ∧ q.ended = some 3 ∧ q.ebuf = r.ebuf ∧ q.anyOpen = false ∧ t.mem = s.mem
        ∧ t.region r.inst = some w ∧ w = { v with traps := v.traps ++ [d] } ∧ recCode d = 0x13 ∧ recSrc d = 3
        ∧ (recInfo d).toNat = 3 + p % 64 * 256))

/-- R265, R266, R267, R268, R269, R270: a refresh falls due at its pseudo-channel's offset, but in self-refresh; served, it holds the pseudo-channel for
tRFCab and clears the counts of its two rows; one in power-down leaves that first and returns to it. An alert clears its row's count and holds the
pseudo-channel for 256 fc. An idle pseudo-channel enters power-down after 512 fc and self-refresh after 64,000 fc where the stack allows, and wakes
after its exit latency. -/
def Obligations.RefreshAlertsAndPowerStates : Prop :=
  (∀ (s : State) (p : Nat), s.focus = .event (.refreshDue p) →
    ((s.pch p).pwr = 2 → exec .refreshDue s = .next s)
    ∧ ((s.pch p).pwr ≠ 2 → s.refPhase (p / 64) = p % 8 * 780 → (s.pch p).lastDue ≠ some s.now → ∃ t, exec .refreshDue s = .next t
      ∧ PchBecomes s t p { s.pch p with refDue := true, lastDue := some s.now }))
  ∧ (∀ (s : State) (p : Nat), s.focus = .event (.refresh p) → (s.pch p).refDue = true →
    ((s.pch p).pwr = 1 → (s.pch p).wakeAt = none → ∃ t, exec .refresh s = .next t
      ∧ PchBecomes s t p { s.pch p with pwr := 0, wakeAt := some (s.now + (s.pch p).exitFc), fromPd := true })
    ∧ ((s.pch p).pwr ≠ 1 → (s.pch p).atGap s.now5 = false → exec .refresh s = .next s)
    ∧ ((s.pch p).atGap s.now5 = true → ∃ t q, exec .refresh s = .next t ∧ PchBecomes s t p q
      ∧ q = { s.pch p with refDue := false, refEnd := some ((s.pch p).startAt s.now5 + 2800), freeAt := (s.pch p).startAt s.now5 + 2800,
                           refRow := ((s.pch p).refRow + 1) % 8192, acts := q.acts }
      ∧ ∀ row, q.acts.getD row 0 = if row % 16384 / 2 = (s.pch p).refRow then 0 else (s.pch p).acts.getD row 0))
  ∧ (∀ (s : State) (p n : Nat), s.focus = .event (.refreshEnd p) → (s.pch p).refEnd = some n →
    (s.now5 < n → exec .refreshEnd s = .next s)
    ∧ (n ≤ s.now5 → ∃ t q, exec .refreshEnd s = .next t ∧ PchBecomes s t p q ∧ q.refEnd = none ∧ q.fromPd = false ∧ q.cq = (s.pch p).cq
      ∧ ((s.pch p).fromPd = false → q.idleAt = s.now ∧ q.pwr = (s.pch p).pwr) ∧ ((s.pch p).fromPd = true → q.pwr = if q.idle s.now5 then 1 else 0)))
  ∧ (∀ (s : State) (p row : Nat) (l : List Nat), s.focus = .event (.alert p) → (s.pch p).alerts = row :: l →
    (((s.pch p).refDue = true ∨ (s.pch p).atGap s.now5 = false) → exec .alert s = .next s)
    ∧ ((s.pch p).refDue = false → (s.pch p).atGap s.now5 = true → ∃ t, exec .alert s = .next t
      ∧ PchBecomes s t p { s.pch p with alerts := l, acts := (s.pch p).acts.drop row, backoff := some ((s.pch p).startAt s.now5 + 1280),
                                        freeAt := (s.pch p).startAt s.now5 + 1280 }))
  ∧ (∀ (s : State) (p n : Nat), s.focus = .event (.backoffEnd p) → (s.pch p).backoff = some n →
    (s.now5 < n → exec .backoffEnd s = .next s)
    ∧ (n ≤ s.now5 → ∃ t, exec .backoffEnd s = .next t ∧ PchBecomes s t p { s.pch p with backoff := none }))
  ∧ (∀ (s : State) (p : Nat), s.focus = .event (.powerDownEntry p) →
    (((s.stk (p / 64)).pden = false ∨ s.now < (s.pch p).idleAt + 512 ∨ (s.pch p).cq ≠ [] ∨ (s.pch p).run.isSome = true) →
      exec .powerDownEntry s = .next s)
    ∧ ((s.stk (p / 64)).pden = true → (s.pch p).idleAt + 512 ≤ s.now → (s.pch p).idle s.now5 = true → (s.pch p).pwr = 0 → (s.pch p).wakeAt = none →
      (s.pch p).fromPd = false → (s.pch p).refDue = false → ∃ t, exec .powerDownEntry s = .next t ∧ PchBecomes s t p { s.pch p with pwr := 1 }))
  ∧ (∀ (s : State) (p : Nat), s.focus = .event (.selfRefreshEntry p) →
    (((s.stk (p / 64)).sren = false ∨ s.now < (s.pch p).idleAt + 64000 ∨ (s.pch p).cq ≠ [] ∨ (s.pch p).run.isSome = true) →
      exec .selfRefreshEntry s = .next s)
    ∧ ((s.stk (p / 64)).sren = true → (s.pch p).idleAt + 64000 ≤ s.now → (s.pch p).idle s.now5 = true → (s.pch p).pwr ≠ 2 → (s.pch p).wakeAt = none →
      (s.pch p).fromPd = false → (s.pch p).refDue = false → ∃ t, exec .selfRefreshEntry s = .next t ∧ PchBecomes s t p { s.pch p with pwr := 2, refDue := false }))
  ∧ (∀ (s : State) (p n : Nat), s.focus = .event (.pchWake p) → (s.pch p).wakeAt = some n →
    (s.now < n → exec .pchWake s = .next s)
    ∧ (n ≤ s.now → ∃ t, exec .pchWake s = .next t ∧ PchBecomes s t p { s.pch p with pwr := 0, wakeAt := none }))

/-! ## Trap records, pre-emption and the scrubber -/

/-- R36, R272, R273, R276, R278, R281, R292, R306: In normal mode Markhor takes a region's oldest record. A load's ILLOP is a record only; a BKPT holds
its element for the host; a CFGECC is reloaded and the region goes on, its gateways acknowledging what they have taken meanwhile (R325), or ends with
its code where the reload fails; a DEADLOCK ends it; an XLATE waits for the host. A routed trap of an element kills the region with the trap's code
where no FAULT place is bound; where one is, a token will enter it, and the section's invocation is discarded, its only ARM ending with outcome 3
(stated for a section that runs no C2 and whose elements keep no records back). In another mode nothing is taken. An uncorrectable word that the
scrubber finds in a configuration slot, or a signature that is not that of the words loaded, freezes the region that holds it and raises CFGECC; a
corrected word and a right signature leave nothing behind. The holds and handling of a routed CSLOT are the model's readings (logs 43, 51), as are the
form of the signature (log 67) and the layout of CFGECC's INFO (log 76). -/
def Obligations.TrapRecordsAreClassified : Prop :=
  (∀ (s : State) (i : Nat) (v : Region) (r : W256) (l : List W256), s.focus = .event (.trapClassify i) → s.region i = some v → v.traps = r :: l →
      (s.cmd.mode ≠ .normal → exec .trapClassify s = .next s)
      ∧ (s.cmd.mode = .normal → recSrc r = 0 → recCode r = 0x01 → ∃ t, exec .trapClassify s = .next t ∧ t = { s with regions := t.regions }
          ∧ t.region i = some { v with traps := l, given := v.given - 1 })
      ∧ (s.cmd.mode = .normal → recSrc r = 0 → recCode r = 0x04 → ∃ t, exec .trapClassify s = .next t ∧ t = { s with regions := t.regions }
          ∧ t.region i = some { v with traps := l, given := v.given - 1, bkpts := v.bkpts ++ [recElem r] })
      ∧ (s.cmd.mode = .normal → recSrc r = 5 → recCode r = 0x07 → v.badLoad = false → ∃ t, exec .trapClassify s = .next t
          ∧ t = { s with regions := t.regions, elems := t.elems, dom := t.dom } ∧ (∀ el, (t.elem el).ctx.regs = (s.elem el).ctx.regs)
          ∧ t.region i = some { v with traps := l, given := v.given - 1, frozen := false, holds := v.holds - 1 }
          ∧ (v.saved = false → v.accepted = none → ∀ el ∈ v.elems, elType el = .gw → (s.elem el).ctx.inst = some i → ∀ x ∈ (t.elem el).ctx.gw.circs, x.2.owed = [])
          ∧ ((v.saved = true ∨ v.accepted.isSome = true) → t.elems = s.elems ∧ t.dom = s.dom))
      ∧ (∀ c, s.cmd.mode = .normal → recSrc r = 5 → recCode r = c → (c = 0x07 ∧ v.badLoad = true ∨ c = 0x20) → s.regions.risesFrom none = true →
          s.insts.risesFrom none = true → ∃ t q, exec .trapClassify s = .next t ∧ t.region i = none ∧ t.inst i = none ∧ q ∈ t.cmd.records ∧ q.kind = 2
            ∧ q.status.toNat = c ∧ q.qcb = v.qcb ∧ t.mem = s.mem)
      ∧ (s.cmd.mode = .normal → recSrc r = 0 → recCode r = 0x10 →
          (∃ a ∈ (s.elem (recElem r)).issued, a.inst = i ∧ a.ofElem (recElem r) = true ∧ a.xlat = .faulted) →
          ∃ t, exec .trapClassify s = .next t ∧ t = { s with regions := t.regions }
            ∧ t.region i = some { v with traps := l, given := v.given - 1, holds := v.holds - 1 })
      ∧ (∀ c, s.cmd.mode = .normal → recSrc r = 0 → recCode r = c → c ∉ [0x01, 0x04, 0x06, 0x10, 0x21] →
          ((∀ sid, v.sectOf (recElem r) = some sid → s.faultPlaceOf i sid none = none) → s.regions.risesFrom none = true → s.insts.risesFrom none = true →
            ∃ t q, exec .trapClassify s = .next t ∧ t.region i = none ∧ t.inst i = none ∧ q ∈ t.cmd.records ∧ q.kind = 2 ∧ q.status.toNat = c ∧ q.qcb = v.qcb
              ∧ t.mem = s.mem)
          ∧ (∀ sid p x a n f, v.sectOf (recElem r) = some sid → s.faultPlaceOf i sid none = some p → s.sect i sid = some x → x.arms = [a] →
            x.elems.any (fun el => (s.elem el).run == 2) = false → (∀ el ∈ x.elems, (s.elem el).traps = [] ∧ ∀ z ∈ (s.elem el).saved, z.2.heldRecs = []) → s.inst i = some n →
            n.slots.find? a.slot = some f →
            ∃ t m y, exec .trapClassify s = .next t ∧ t.inst i = some m ∧ m.deposits = n.deposits ++ [p * 256 + c] ∧ m.count = n.count
              ∧ Arrives t i a.slot 3 ∧ t.sect i sid = some y ∧ y.arms = [] ∧ y.nodes = x.nodes ∧ t.mem = s.mem)))
  ∧ (∀ (s : State) (el slot : Nat) (find : ScrubFinding), s.focus = .event (.scrub el slot find) →
      (find = .corrected → exec .scrub s = .next s)
      ∧ (∀ i b, s.ownerOf el slot = some i → find = .signature (s.signature i) b → exec .scrub s = .next s)
      ∧ (∀ i v b, (find = .uncorrectable b ∨ ∃ w, find = .signature w b ∧ w ≠ s.signature i) → s.ownerOf el slot = some i → s.region i = some v →
          v.traps.length < 256 → el + slot * 2 ^ 32 < 2 ^ 64 →
          ∃ t d, exec .scrub s = .next t ∧ t = { s with regions := t.regions }
            ∧ t.region i = some { v with frozen := true, badLoad := v.badLoad || !b, holds := v.holds + 1, traps := v.traps ++ [d] } ∧ recCode d = 0x07 ∧ recSrc d = 5
            ∧ (recInfo d).toNat = el + slot * 2 ^ 32))

/-- R37, R38, R287, R288, R289, R290, R298: a pre-emption is accepted once no must-drain firing is in flight, in no fc of a SWAP install, and from then on
the region is frozen and its peers are paused; it is saved once it is quiet; a request whose asker has gone lapses: its peers go on, and a run that
had been suspended into a context slot waits in its queue again. Once the pre-empting instance has gone, the saved region comes back with the
registers it was saved with, and its marked firings are issued again. When a region counts as quiet and what is parked is the model's reading (log
42). -/
def Obligations.PreemptionSavesAndResumes : Prop :=
  (∀ (s : State) (i j : Nat) (r : Region) (v : Inst), s.focus = .event (.preemptAccept i) → s.region i = some r → s.inst i = some v →
    r.preempt = some j → r.saved = false →
    (s.region j = none → ∃ t, exec .preemptAccept s = .next t ∧ t.region i = some { r with preempt := none, accepted := none } ∧ t.mem = s.mem ∧ t.insts = s.insts
      ∧ (∀ el, (t.elem el).ctx.regs = (s.elem el).ctx.regs)
      ∧ (∀ c w, s.colls.find? c = some w → w.inst = i → ∃ u, t.colls.find? c = some u ∧ u.paused = false)
      ∧ ∀ p k sv, (s.pch p).saved.find? k = some sv → sv.run.inst = i → CqEntry.saved k ∈ (t.pch p).cq)
    ∧ ((s.region j).isSome = true → r.accepted = none →
        ((s.mustDrainNow i v = true ∨ s.swapsNow r = true) → exec .preemptAccept s = .next s)
        ∧ (s.mustDrainNow i v = false → s.swapsNow r = false → ∃ t, exec .preemptAccept s = .next t ∧ t.region i = some { r with accepted := some s.now }
            ∧ t.mem = s.mem ∧ t.elems = s.elems ∧ t.insts = s.insts
            ∧ ∀ c w, s.colls.find? c = some w → w.inst = i → w.isAborted = false → ∃ u, t.colls.find? c = some u ∧ u.paused = true))
    ∧ (∀ n, (s.region j).isSome = true → r.accepted = some n →
        (s.quiet i r n = false → exec .preemptAccept s = .next s)
        ∧ (s.quiet i r n = true → i ≠ j → ∃ t q w, exec .preemptAccept s = .next t ∧ t.region i = some q ∧ q.saved = true ∧ q.accepted = none
            ∧ t.inst i = some w ∧ w.count = v.count ∧ w.n = v.n ∧ ∀ k f, v.slots.find? k = some f → w.slots.find? k = some (markRestart f))))
  ∧ (∀ (s : State) (i j : Nat) (r : Region), s.focus = .event (.contextResume i) → s.region i = some r → r.saved = true → r.preempts = none →
      r.preempt = some j →
      ((s.region j).isSome = true → exec .contextResume s = .next s)
      ∧ (s.region j = none → s.lostSave i r = false → r.later = [] → r.elems.Nodup → ∃ t q, exec .contextResume s = .next t ∧ t.region i = some q ∧ q.saved = false
          ∧ q.preempt = none ∧ q.traps = r.traps ∧ t.mem = s.mem
          ∧ (∀ v k f, s.inst i = some v → v.slots.find? k = some f → ∃ w, t.inst i = some w ∧ w.slots.find? k = some f.reissue)
          ∧ ∀ el ∈ r.elems, ∀ k c, List.find? (fun (x : Nat × Ctx) => x.2.inst == some i) (s.elem el).saved = some (k, c) →
              (t.elem el).run = k ∧ (t.elem el).ctx.regs = c.regs ∧ (t.elem el).ctx.mxu = c.mxu ∧ (t.elem el).ctx.inst = some i
              ∧ (t.elem el).frozen.trap = c.heldTraps))

/-! ## Packets, queues and launches -/

/-- R294, R299, R301: NOP, MARKER and TIMED complete at dispatch, MARKER's record with its value; a valid TIMED entry stands in the table with its next
slot at or after the present PTP time, and a launch that waits from a past slot still waits; an invalid one is gone. SIGNAL writes or adds its word at
dispatch, and completes once that has been offered at MOD scope. WAITALL and WAITANY read their conditions together when their dependency check begins
and at each reread, and complete with status 0 once all, or any, hold, or with status 1 once the timeout has passed; FENCE completes once every
instance launched before its check has retired. Error classes that no rule names are the model's reading (log 48). -/
def Obligations.PacketsComplete : Prop :=
  ((∀ (s : State) (n : Nat) (h : HwSlot) (p : PktHdr), s.StripReady n h → ∃ t, exec (.pktNop p) s = .next t ∧ PacketEnds s t n h p 0 0 ∧ t.mem = s.mem
      ∧ t.insts = s.insts)
    ∧ (∀ (s : State) (n : Nat) (h : HwSlot) (p : PktHdr) (v : W64), s.StripReady n h → ∃ t, exec (.marker p v) s = .next t ∧ PacketEnds s t n h p v 0
      ∧ t.mem = s.mem ∧ t.insts = s.insts)
    ∧ (∀ (s : State) (n : Nat) (h : HwSlot) (p : PktHdr) (entry : BitVec 8) (rule : BitVec 2) (valid : Bool) (period start image root : W64),
      s.StripReady n h → ∃ t, exec (.timed p entry rule valid period start image root) s = .next t ∧ PacketEnds s t n h p 0 0 ∧ t.mem = s.mem
        ∧ t.insts = s.insts ∧ (valid = false → t.cmd.tt = s.cmd.tt.drop entry.toNat)
        ∧ (valid = true → ∃ e, t.cmd.tt.find? entry.toNat = some e ∧ e.rule = rule.toNat ∧ e.period = period.toNat ∧ e.start = start.toNat
            ∧ e.job = { image, root, qcb := h.qcb, hdr := p, ring := h.head } ∧ e.queued = (s.cmd.tt.find? entry.toNat).bind (fun o => o.queued)
            ∧ e.inst = (s.cmd.tt.find? entry.toNat).bind (fun o => o.inst) ∧ start.toNat ≤ e.next
            ∧ (period ≠ 0 → s.ptpNow ≤ e.next ∧ (e.next - start.toNat) % period.toNat = 0)))
    ∧ (∀ (s : State) (n : Nat) (h : HwSlot) (p : PktHdr) (va : BitVec 56) (add : Bool) (v : W64) (c : Nat × Nat), s.StripReady n h → h.stage = .dispatch →
      s.vaCell (s.qRoot h.qcb) va.toNat (.sigw add) = .ok c → s.mem.dramErr.contains (cellAt c / 32) = false → s.mem.dram.wf = true →
      ∃ t g, exec (.signal p va add v) s = .next t ∧ t.cmd.slots.find? n = some g ∧ g.stage = .launch ∧ g.pkt = h.pkt ∧ t.cmd.records = s.cmd.records
        ∧ (∀ k, k < 8 → (t.mem.dram.read (cellAt c + k)).toNat = ((if add then s.wordAt c else 0) + v).toNat / 256 ^ k % 256)
        ∧ ∀ b, b < cellAt c ∨ cellAt c + 8 ≤ b → t.mem.dram.read b = s.mem.dram.read b)
    ∧ (∀ (s : State) (n : Nat) (h : HwSlot) (p : PktHdr) (va : BitVec 56) (add : Bool) (v : W64), s.focus = .strip n → s.cmd.slots.find? n = some h →
      h.stage = .launch →
      (s.unoffered = true → exec (.signal p va add v) s = .next s)
      ∧ (s.unoffered = false → ∃ t, exec (.signal p va add v) s = .next t ∧ PacketEnds s t n h p 0 0 ∧ t.mem = s.mem)))
  ∧ ((∀ (s : State) (n : Nat) (h : HwSlot) (p : PktHdr) (d : W32) (cs : List WaitCond) (l : List Bool), s.focus = .strip n → s.cmd.slots.find? n = some h →
      h.stage = .depend → s.serves h = true → s.condsHold h.qcb cs = .ok l →
      ((∀ b ∈ l, b = true) → ∃ t, exec (.waitall p d cs) s = .next t ∧ PacketEnds s t n h p 0 0 ∧ t.mem = s.mem)
      ∧ ((∃ b ∈ l, b = false) → ∃ t, exec (.waitall p d cs) s = .next t ∧ StillWaits s t n s.now)
      ∧ ((∃ b ∈ l, b = true) → ∃ t, exec (.waitany p d cs) s = .next t ∧ PacketEnds s t n h p 0 0 ∧ t.mem = s.mem)
      ∧ ((∀ b ∈ l, b = false) → ∃ t, exec (.waitany p d cs) s = .next t ∧ StillWaits s t n s.now))
    ∧ (∀ (s : State) (n : Nat) (h : HwSlot) (p : PktHdr) (d : W32) (cs : List WaitCond) (l : List Bool) (all : Bool), s.cmd.slots.find? n = some h →
      h.stage = .waiting → decodePacket h.pkt = .ok (if all then .waitall p d cs else .waitany p d cs) → s.serves h = true →
      (s.focus = .event (.waitConditionReread n) → s.slotWaits n h = false → s.condsHold h.qcb cs = .ok l →
        ((if all then ∀ b ∈ l, b = true else ∃ b ∈ l, b = true) → ∃ t, exec .waitConditionReread s = .next t ∧ PacketEnds s t n h p 0 0 ∧ t.mem = s.mem)
        ∧ (¬ (if all then ∀ b ∈ l, b = true else ∃ b ∈ l, b = true) → ∃ t, exec .waitConditionReread s = .next t ∧ StillWaits s t n h.since))
      ∧ (s.focus = .event (.waitTimeout n) →
        (d ≠ 0 → h.since + d.toNat * 1600 ≤ s.now → ∃ t, exec .waitTimeout s = .next t ∧ PacketEnds s t n h p 0 1 ∧ t.mem = s.mem)
        ∧ ((d = 0 ∨ s.now < h.since + d.toNat * 1600) → exec .waitTimeout s = .next s)))
    ∧ (∀ (s : State) (n : Nat) (h : HwSlot) (p : PktHdr), s.focus = .strip n → s.cmd.slots.find? n = some h → s.serves h = true →
      (h.stage = .depend → s.fenceDone h.qcb s.nextId = true → ∃ t, exec (.fence p) s = .next t ∧ PacketEnds s t n h p 0 0 ∧ t.mem = s.mem)
      ∧ (h.stage = .depend → s.fenceDone h.qcb s.nextId = false → ∃ t, exec (.fence p) s = .next t ∧ StillWaits s t n s.now)
      ∧ (h.stage = .waiting → s.fenceDone h.qcb h.mark = true → ∃ t, exec (.fence p) s = .next t ∧ PacketEnds s t n h p 0 0 ∧ t.mem = s.mem)
      ∧ (h.stage = .waiting → s.fenceDone h.qcb h.mark = false → exec (.fence p) s = .next s)))

/-- R25, R45, R194, R298, R299, R300, R303: a LAUNCH whose region can be placed makes an instance with its image's initial marking, root and ASID, and
completes; one whose tiles are taken waits at dispatch; one that is refused stops its queue with ERR and a record of KIND 3. One that pre-empts
completes once that has been accepted. A NETLOAD completes once its net's placement stands in the cache, where it is the most recent. A TAIL child
that may be launched takes its parent's place. The placer is a free choice of Config (log 10), and corners of a launch are log 48. -/
def Obligations.LaunchesMakeInstances : Prop :=
  (∀ (s : State) (n : Nat) (h : HwSlot) (p : PktHdr) (image root : W64) (interval : W32) (dmask : BitVec 16) (ndm1 : BitVec 4),
    s.StripReady n h → h.stage = .dispatch →
    let u := s.modDie (n / 64) (fun d => { d with rot := n % 64 + 1 })
    let r : LaunchReq := { qcb := h.qcb, ring := h.head, hdr := p, interval := interval.toNat, image := image.toNat, root := root.toNat,
                           via := s.qRoot h.qcb, dmask, ndm1, level := h.cur, asid := s.qAsid h.qcb, origin := none }
    (∀ w i, u.tryLaunch r = .made w i false → ∃ t v z, exec (.launch p image root interval dmask ndm1) s = .next t ∧ PacketEnds s t n h p 0 0
        ∧ i = s.nextId ∧ s.fetchNet r.via r.image = .ok z ∧ t.inst i = some v ∧ v.img = z ∧ v.root = root.toNat ∧ v.asid = s.qAsid h.qcb ∧ v.slots = []
        ∧ (∀ q d, z.places[q]? = some d → v.count.getD q 0 = pInit d) ∧ (∃ g, t.region i = some g ∧ g.qcb = h.qcb ∧ g.saved = false ∧ g.traps = [])
        ∧ ∀ j, j ≠ i → t.inst j = s.inst j)
    ∧ (u.tryLaunch r = .wait → ∃ t g, exec (.launch p image root interval dmask ndm1) s = .next t ∧ t.cmd.slots.find? n = some g ∧ g.stage = .dispatch
        ∧ g.head = h.head ∧ t.insts = s.insts ∧ t.mem = s.mem ∧ t.cmd.records = s.cmd.records)
    ∧ (∀ c d, u.tryLaunch r = .error c d → s.slotOf h.qcb = some n → ∃ t g x, exec (.launch p image root interval dmask ndm1) s = .next t
        ∧ t.cmd.slots.find? n = some g ∧ g.stage = .stopped ∧ t.cmd.errs.find? h.qcb = some h.head.toNat ∧ t.cmd.records = s.cmd.records ++ [x]
        ∧ x.kind = 3 ∧ x.qcb = h.qcb ∧ x.tag = h.tag ∧ t.insts = s.insts))
  ∧ (∀ (s : State) (n : Nat) (h : HwSlot) (p : PktHdr) (image root : W64) (interval : W32) (dmask : BitVec 16) (ndm1 : BitVec 4),
    s.focus = .strip n → s.cmd.slots.find? n = some h → h.stage = .launch →
    (∀ g, s.region h.mark = some g → g.saved = true → g.preempts.isSome = true → exec (.launch p image root interval dmask ndm1) s = .next s)
    ∧ ((∀ g, s.region h.mark = some g → g.saved = false) → ∃ t, exec (.launch p image root interval dmask ndm1) s = .next t ∧ PacketEnds s t n h p 0 0
        ∧ t.mem = s.mem))
  ∧ (∀ (s : State) (n : Nat) (h : HwSlot) (p : PktHdr) (image : W64) (z : NetImg) (l : List (Nat × List W128)), s.StripReady n h →
    s.fetchNet (s.qRoot h.qcb) image.toNat = .ok z →
    z.check (bits s.bar.inForce 16 8).toNat (s.qSys h.qcb) (decide (65536 ≤ h.qcb)) (s.stageAt (s.qRoot h.qcb) z) = none →
    s.stageWords (s.qRoot h.qcb) z z.sectObjs = .ok l →
    let u := s.modDie (n / 64) (fun d => { d with rot := n % 64 + 1 })
    let dies := (s.pickDies 0 (z.topDie + 1)).getD (List.range (z.topDie + 1))
    (∀ c, s.cached z l dies = some c → c.size ≤ 2 ^ 26 → ∃ t, exec (.netload p image) s = .next t ∧ PacketEnds s t n h p 0 0 ∧ t.mem = s.mem
      ∧ t.insts = s.insts ∧ t.cmd.cache.head? = some c)
    ∧ (∀ a w, s.cached z l dies = none → u.place z l dies none = some (a, w) → ∃ t, exec (.netload p image) s = .next t ∧ PacketEnds s t n h p 0 0
      ∧ t.mem = s.mem ∧ t.insts = s.insts ∧ t.cmd.cache = w.2.cmd.cache))
  ∧ (∀ (s : State) (i : Nat) (c : Child), s.focus = .event (.tailChildLaunch i) → s.cmd.children.find? i = some c →
    let r : LaunchReq := { qcb := c.qcb, ring := c.ring, hdr := c.hdr, interval := c.interval, image := c.va.toNat, root := c.root, via := c.root,
                           dmask := c.dmask, ndm1 := c.ndm1, level := s.levelOf c.qcb, asid := s.qAsid c.qcb, origin := some c.origin }
    (s.childMay i c = false → exec .tailChildLaunch s = .next s)
    ∧ (s.childMay i c = true → s.tryLaunch r = .wait → exec .tailChildLaunch s = .next s)
    ∧ (∀ w j x, s.childMay i c = true → s.tryLaunch r = .made w j x → ∃ t, exec .tailChildLaunch s = .next t
        ∧ t.cmd.children = s.cmd.children.drop i ∧ t.insts = w.insts ∧ t.regions = w.regions
        ∧ (c.hdr.cmpl = true → ∃ y ∈ t.cmd.records, y.kind = 0 ∧ y.status = 0 ∧ y.qcb = c.qcb ∧ y.tag = c.hdr.tag)))

/-- R297, R298, R301, R328, R332: a kick that the negotiation, the page or a reserved bit bars is dropped and counted; a kick waits for the earlier writes
and kicks of its requester, and for those of no other; a new tail of a mapped, enabled queue that its ring can hold is taken. Markhor maps the pending
queue of the highest level to a free slot of the die; a disabled one loses its bit. A queue that has waited its interval rises one level, to its
ceiling at most. A time-triggered slot whose entry already waits, or whose instance still runs under rule 0, is skipped and counted; under rule 1 a
launch waits; where its instance has retired the entry launches. Corners of kicks and queues (logs 44, 47) and of time-triggered slots (log 48) are
the model's reading. -/
def Obligations.QueuesAreKickedMappedAndAged : Prop :=
  (∀ (s : State) (req page : Nat) (v : W64), s.focus = .event (.kick req page v) →
    let q := (bits v 0 16).toNat
    ((s.hostBusy req = true ∨ ∃ k ∈ s.cmd.kicks, k.1 = req) → ∃ t, exec .kick s = .next t ∧ t.cmd = { s.cmd with kicks := s.cmd.kicks ++ [(req, page, v)] }
      ∧ t.mem = s.mem)
    ∧ (s.hostBusy req = false → (∀ k ∈ s.cmd.kicks, k.1 ≠ req) →
      ((s.bar.okNeg = false ∨ s.bar.phase ≠ 5 ∨ q / 256 ≠ page ∨ bits v 48 16 ≠ 0) → ∃ t, exec .kick s = .next t ∧ t.mem = s.mem
        ∧ t.cmd = { s.cmd with kickerr := satInc s.cmd.kickerr })
      ∧ (∀ n h, s.bar.okNeg = true → s.bar.phase = 5 → q / 256 = page → bits v 48 16 = 0 → s.slotOf q = some n → s.cmd.slots.find? n = some h →
          s.qEn q = true → 0 < (bits v 16 32 - h.tail).toNat → (bits v 16 32 - h.tail).toNat < 2 ^ 31 →
          (bits v 16 32 - h.head).toNat ≤ 2 ^ (bits (s.qword q 2) 56 8).toNat →
          ∃ t, exec .kick s = .next t ∧ t.cmd.slots.find? n = some { h with tail := bits v 16 32 } ∧ t.mem = s.mem)))
  ∧ (∀ (s : State) (die q : Nat), s.focus = .event (.queueMap die) → s.cmd.mode = .normal → s.nextPending = some q →
    (s.qEn q = false → ∃ t, exec .queueMap s = .next t ∧ t.mem = s.mem ∧ q ∉ t.cmd.pendmap ∧ t.cmd.slots = s.cmd.slots)
    ∧ (∀ n, s.qEn q = true → n < 64 → s.cmd.slots.find? (die * 64 + n) = none → (∀ m, m < n → (s.cmd.slots.find? (die * 64 + m)).isSome = true) →
        ∃ t h, exec .queueMap s = .next t ∧ t.cmd.slots.find? (die * 64 + n) = some h ∧ h.qcb = q ∧ h.byMap = false ∧ q ∉ t.cmd.pendmap
          ∧ h.head = bits ((s.qcbWords q).getD 3 0) 0 32 ∧ h.tail = bits ((s.qcbWords q).getD 4 0) 0 32 ∧ h.cur = qCur ((s.qcbWords q).getD 7 0)
          ∧ (s.cmd.errs.find? q = none → h.stage = .fetch) ∧ ∀ k, k ≠ die * 64 + n → t.cmd.slots.find? k = s.cmd.slots.find? k))
  ∧ (∀ (s : State) (q m n : Nat) (h : HwSlot), s.focus = .event (.ageing q) → s.cmd.ages.find? q = some m → s.slotOf q = some n →
    s.cmd.slots.find? n = some h → s.mayAge q = true →
    (s.now < m + s.ageInterval q → exec .ageing s = .next s)
    ∧ (m + s.ageInterval q ≤ s.now → ∃ t, exec .ageing s = .next t ∧ t.mem = s.mem ∧ t.cmd.ages.find? q = some s.now
        ∧ t.cmd.slots.find? n = some { h with cur := min (qCeil (h.rw.getD 7 0)) (h.cur + 1) }))
  ∧ (∀ (s : State) (k : Nat) (e : TtEntry), s.focus = .event (.ttSlot k) → s.cmd.tt.find? k = some e →
    (s.ptpNow < e.next → (∀ j, e.queued = some j → s.ttMay e j = false) → exec .ttSlot s = .next s)
    ∧ (e.next ≤ s.ptpNow → s.cmd.mode ≠ .normal → ∃ t, exec .ttSlot s = .next t ∧ t = { s with cmd := t.cmd }
        ∧ t.cmd.tt.find? k = some { e with next := e.next + e.period })
    ∧ (e.next ≤ s.ptpNow → s.cmd.mode = .normal → (e.queued.isSome = true ∨ (s.cmd.errs.find? e.job.qcb).isSome = true ∨ (s.ttRuns e = true ∧ e.rule = 0)) →
        ∃ t, exec .ttSlot s = .next t ∧ t = { s with cmd := t.cmd } ∧ t.cmd.tt.find? k = some { e with next := e.next + e.period, skips := e.skips + 1 })
    ∧ (e.next ≤ s.ptpNow → s.cmd.mode = .normal → e.queued = none → s.cmd.errs.find? e.job.qcb = none → s.ttRuns e = true → e.rule = 1 →
        ∃ t, exec .ttSlot s = .next t ∧ t = { s with cmd := t.cmd } ∧ t.cmd.tt.find? k = some { e with next := e.next + e.period, queued := some e.job })
    ∧ (∀ w i b, e.next ≤ s.ptpNow → s.cmd.mode = .normal → e.queued = none → s.cmd.errs.find? e.job.qcb = none → s.ttRuns e = false →
        (s.modCmd (fun c => { c with tt := c.tt.put k { e with next := e.next + e.period } })).tryLaunch
          { qcb := e.job.qcb, ring := e.job.ring, hdr := e.job.hdr, interval := 65536, image := e.job.image.toNat, root := e.job.root.toNat,
            via := s.qRoot e.job.qcb, dmask := 0, ndm1 := 0, level := s.levelOf e.job.qcb, asid := s.qAsid e.job.qcb, origin := none } = .made w i b →
        ∃ t, exec .ttSlot s = .next t ∧ t.insts = w.insts ∧ t.regions = w.regions
          ∧ t.cmd.tt.find? k = some { e with next := e.next + e.period, inst := some i, queued := none, miss := none }))

/-! ## The recovery mailbox -/

/-- R296, R298, R300, R305, R306, R308, R333: STATUS tells the mode, the age of the heartbeat and the watchdog; DIRECT is taken in the frozen mode alone;
MAP and UNMAP act in direct mode, on slots and queues that there are; QRESUME clears a queue error and the queue goes on at its failing packet; SETSYS
writes FLAGS.SYS; RESTART leaves the frozen or direct mode, and signals the faults that the host has not been given, or leaves the boot loader;
LINKTRAIN takes a port down and begins its training. The boot loader knows STATUS and RESTART alone. Results and encodings that no rule names are the
model's choice (logs 26, 45). -/
def Obligations.MailboxRunsTheModule : Prop :=
  (∀ (s : State) (a b c : W64), s.focus = .mailbox → s.bar.phase = 15 →
    ∀ i ∈ [Instr.direct, .map a b c, .unmap a b, .qresume a, .kill a, .resume a, .trapget a, .faultget, .faultdone a b, .setsys a b, .linktrain a],
      ∃ t, exec i s = .next t ∧ OnlyResult s t 3)
  ∧ (∀ (s : State), s.focus = .mailbox → ∃ t, exec .status s = .next t ∧ MbDone t 0 ∧ t = { s with cmd := t.cmd } ∧ t.cmd.slots = s.cmd.slots
      ∧ t.cmd.mode = s.cmd.mode
      ∧ t.cmd.mbarg.getD 0 0 = Config.mbStatus 0 (match s.cmd.mode with | .normal => 0 | .frozen => 1 | .direct => 2)
      ∧ t.cmd.mbarg.getD 1 0 = Config.mbStatus 1 (s.now - s.cmd.heart) ∧ t.cmd.mbarg.getD 2 0 = Config.mbStatus 2 s.cmd.dogFired.toNat)
  ∧ (∀ (s : State), s.MailboxReady →
      (s.cmd.mode = .frozen → ∃ t, exec .direct s = .next t ∧ MbDone t 0 ∧ t = { s with cmd := t.cmd } ∧ t.cmd.mode = .direct ∧ t.cmd.slots = s.cmd.slots)
      ∧ (s.cmd.mode ≠ .frozen → ∃ t, exec .direct s = .next t ∧ OnlyResult s t 3))
  ∧ (∀ (s : State) (q d n : W64), s.MailboxReady →
      (s.cmd.mode ≠ .direct → ∃ t, exec (.map q d n) s = .next t ∧ OnlyResult s t 3)
      ∧ (s.cmd.mode = .direct → (65536 ≤ q.toNat ∨ 16 ≤ d.toNat ∨ 64 ≤ n.toNat) → ∃ t, exec (.map q d n) s = .next t ∧ OnlyResult s t 2)
      ∧ (s.cmd.mode = .direct → q.toNat < 65536 → d.toNat < 16 → n.toNat < 64 → s.slotOf q.toNat = none →
          s.cmd.slots.find? (d.toNat * 64 + n.toNat) = none → ∃ t h, exec (.map q d n) s = .next t ∧ MbDone t 0
            ∧ t.cmd.slots.find? (d.toNat * 64 + n.toNat) = some h ∧ h.qcb = q.toNat ∧ h.byMap = true
            ∧ h.head = bits ((s.qcbWords q.toNat).getD 3 0) 0 32 ∧ t.serves h = true
            ∧ ∀ k, k ≠ d.toNat * 64 + n.toNat → t.cmd.slots.find? k = s.cmd.slots.find? k))
  ∧ (∀ (s : State) (d n : W64), s.MailboxReady →
      (s.cmd.mode ≠ .direct → ∃ t, exec (.unmap d n) s = .next t ∧ OnlyResult s t 3)
      ∧ (∀ h, s.cmd.mode = .direct → d.toNat < 16 → n.toNat < 64 → s.cmd.slots.find? (d.toNat * 64 + n.toNat) = some h →
          (h.stage = .launch → exec (.unmap d n) s = .next s)
          ∧ (h.stage ≠ .launch → s.cmd.slots.risesFrom none = true → ∃ t, exec (.unmap d n) s = .next t ∧ MbDone t 0
              ∧ t.cmd.slots.find? (d.toNat * 64 + n.toNat) = none ∧ (h.head ≠ h.tail → h.qcb ∈ t.cmd.pendmap)
              ∧ ∀ k, k ≠ d.toNat * 64 + n.toNat → t.cmd.slots.find? k = s.cmd.slots.find? k)))
  ∧ (∀ (s : State) (q : W64), s.MailboxReady →
      (65536 ≤ q.toNat → ∃ t, exec (.qresume q) s = .next t ∧ OnlyResult s t 2)
      ∧ (q.toNat < 65536 → ∃ t, exec (.qresume q) s = .next t ∧ MbDone t 0 ∧ t.cmd.errs = s.cmd.errs.drop q.toNat ∧ t.mem = s.mem
          ∧ ∀ n h, s.slotOf q.toNat = some n → s.cmd.slots.find? n = some h → h.stage = .stopped →
              t.cmd.slots.find? n = some { h with stage := .fetch }))
  ∧ (∀ (s : State) (q v : W64), s.MailboxReady →
      ((65536 ≤ q.toNat ∨ 1 < v.toNat) → ∃ t, exec (.setsys q v) s = .next t ∧ OnlyResult s t 2)
      ∧ (q.toNat < 65536 → v.toNat ≤ 1 → ∃ t, exec (.setsys q v) s = .next t ∧ MbDone t 0
          ∧ ∀ n h, s.slotOf q.toNat = some n → s.cmd.slots.find? n = some h → 6 < h.rw.length → t.qSys q.toNat = decide (v.toNat = 1)
              ∧ t.qEn q.toNat = s.qEn q.toNat))
  ∧ (∀ (s : State), s.focus = .mailbox →
      (s.bar.phase = 15 → ∃ t, exec .restart s = .next t ∧ MbDone t 0 ∧ t.bar = { s.bar with phase := 0, fail := 0 } ∧ t.cmd.slots = s.cmd.slots)
      ∧ (s.bar.phase ≠ 15 → s.cmd.mode = .normal → ∃ t, exec .restart s = .next t ∧ OnlyResult s t 3)
      ∧ (s.bar.phase ≠ 15 → s.cmd.mode ≠ .normal → ∃ t, exec .restart s = .next t ∧ MbDone t 0 ∧ t = { s with cmd := t.cmd, bar := t.bar } ∧ t.cmd.mode = .normal
          ∧ t.cmd.slots = s.cmd.slots ∧ ((∀ x ∈ s.faultList, x.2.given = true) → t.bar = s.bar)
          ∧ ((∃ x ∈ s.faultList, x.2.given = false) → t.bar = { s.bar with msix := s.bar.msix ++ [0] })))
  ∧ (∀ (s : State) (n : W64), s.MailboxReady →
      (24 ≤ n.toNat → ∃ t, exec (.linktrain n) s = .next t ∧ OnlyResult s t 2)
      ∧ (n.toNat < 24 → ∃ t, exec (.linktrain n) s = .next t ∧ MbDone t 0 ∧ (t.port n.toNat).state = 1 ∧ (t.port n.toNat).lanes = 0
          ∧ (t.port n.toNat).ver = 0 ∧ (t.port n.toNat).retry = (s.port n.toNat).retry))

/-- R272, R273, R276, R281, R283, R299, R306: KILL ends every region of an ASID with status 0x0100; RESUME lets the elements that a BKPT holds go on;
TRAPGET returns the next record of an ASID that it has not returned; FAULTGET returns the next entry of the fault FIFOs; FAULTDONE removes the entry
it names, and where the host has resolved it no access of the die waits on it any more. Results and encodings that no rule names are the model's
choice (logs 26, 45), and that RESUME gives back the holds of BKPTs is its reading (log 43). -/
def Obligations.MailboxRecoversRegions : Prop :=
  (∀ (s : State) (a : W64), s.MailboxReady → s.regionsOf a = [] →
    ∀ i ∈ [Instr.kill a, .resume a, .trapget a], ∃ t, exec i s = .next t ∧ OnlyResult s t 2)
  ∧ (∀ (s : State) (a : W64), s.MailboxReady → s.regionsOf a ≠ [] → s.insts.risesFrom none = true → s.regions.risesFrom none = true →
      ∃ t, exec (.kill a) s = .next t ∧ MbDone t 0 ∧ t.mem = s.mem
        ∧ ∀ i ∈ s.regionsOf a, t.inst i = none ∧ t.region i = none
          ∧ ∀ v, s.region i = some v → ∃ q ∈ t.cmd.records, q.kind = 2 ∧ q.status = 0x0100 ∧ q.qcb = v.qcb)
  ∧ (∀ (s : State) (a : W64) (i : Nat) (v : Region), s.MailboxReady → s.regionsOf a = [i] → s.region i = some v → v.traps = [] →
      (∀ el ∈ v.elems, ((s.elem el).takeBkpts i).1 = 0) →
      ∃ t w, exec (.resume a) s = .next t ∧ MbDone t 0 ∧ t.mem = s.mem ∧ t.region i = some w ∧ w.bkpts = [] ∧ w.holds = v.holds - v.bkpts.length
        ∧ ∀ el, (s.elem el).ctx.inst = some i → (t.elem el).frozen.trap = (s.elem el).frozen.trap - v.bkpts.count el)
  ∧ (∀ (s : State) (a : W64) (i : Nat) (v : Region), s.MailboxReady → s.regionsOf a = [i] → s.region i = some v →
      (∀ r, v.traps[v.given]? = some r → ∃ t, exec (.trapget a) s = .next t ∧ MbDone t 0 ∧ t.region i = some { v with given := v.given + 1 }
        ∧ ∀ n, n < 4 → t.cmd.mbarg.getD n 0 = bits r (64 * n) 64)
      ∧ (v.traps.length ≤ v.given → ∃ t, exec (.trapget a) s = .next t ∧ MbDone t 0 ∧ t = { s with cmd := t.cmd }
        ∧ ∀ n, n < 4 → t.cmd.mbarg.getD n 0 = Config.mbEmpty n))
  ∧ (∀ (s : State), s.MailboxReady →
      (∀ d f, s.faultList.find? (fun x => !x.2.given) = some (d, f) → s.dies.risesFrom none = true → ∃ t, exec .faultget s = .next t ∧ MbDone t 0
        ∧ (∀ n, n < 4 → t.cmd.mbarg.getD n 0 = Config.mbFault n f.num f.page f.asid.toNat f.kind.code f.cause)
        ∧ ∃ g ∈ (t.die d).faults, g = { f with given := true })
      ∧ ((∀ x ∈ s.faultList, x.2.given = true) → ∃ t, exec .faultget s = .next t ∧ MbDone t 0 ∧ t = { s with cmd := t.cmd }
        ∧ ∀ n, n < 4 → t.cmd.mbarg.getD n 0 = Config.mbEmpty n))
  ∧ (∀ (s : State) (e v : W64), s.MailboxReady →
      ((∀ x ∈ s.faultList, x.2.given = true → x.2.word 0 ≠ e) → ∃ t, exec (.faultdone e v) s = .next t ∧ OnlyResult s t 2)
      ∧ (∀ d f, s.faultList.find? (fun x => x.2.given && x.2.word 0 == e) = some (d, f) →
          (1 < v.toNat → ∃ t, exec (.faultdone e v) s = .next t ∧ OnlyResult s t 2)
          ∧ (v.toNat = 0 → ∃ t, exec (.faultdone e v) s = .next t ∧ MbDone t 0 ∧ ∀ g ∈ (t.die d).faults, g.num ≠ f.num)
          ∧ (v.toNat = 1 → ∃ t, exec (.faultdone e v) s = .next t ∧ MbDone t 0 ∧ t.mem = s.mem ∧ (∀ g ∈ (t.die d).faults, g.num ≠ f.num)
              ∧ ∀ el, elDie el = d → ∀ a ∈ (t.elem el).eq, ¬ (a.xlat = .faulted ∧ a.asid = f.asid ∧ a.va / 65536 = f.page ∧ a.kind.faultKind = f.kind))))

/-! ## Clock, monitoring, power, boot and the host -/

/-- R272, R296, R302, R305, R329: an edge after PTPSET sets the clock and VALID; another edge slews a clock so set by at most 1 us a second toward the
next whole second, and counts one that is off by more than 1 us; a clock never set counts on. Past a second without an edge the clock goes on by the
local oscillator, 5 ns in 8 fc; 2 s without one clear LOCK. A heartbeat that fails freezes scheduling and raises vector 0. A watchdog that has not
been written for 10 ms does so once, with a record for every region; only Markhor's writes restart it. The edge of a PTPSET (log 49) and the fields of
WATCHDOG records (log 40) are the model's reading. -/
def Obligations.ClockAndWatchdog : Prop :=
  (∀ (s : State), s.focus = .event .ppsEdge →
    (s.ptp.setp = true → ∃ t, exec .ppsEdge s = .next t ∧ t = { s with ptp := t.ptp } ∧ t.ptpNow = s.ptp.setv.toNat ∧ t.ptp.valid = true
      ∧ t.ptp.setp = false ∧ t.ptp.miss = s.ptp.miss)
    ∧ (s.ptp.setp = false → s.ptp.edge = none → ∃ t, exec .ppsEdge s = .next t
      ∧ t = { s with ptp := { s.ptp with sec := s.ptpNow, edge := some s.now, good := true, lock := false } })
    ∧ (∀ n, s.ptp.setp = false → s.ptp.edge = some n → ∃ t, exec .ppsEdge s = .next t ∧ t = { s with ptp := t.ptp } ∧ t.ptpNow = s.ptpNow
      ∧ t.ptp.edge = some s.now ∧ t.ptp.valid = s.ptp.valid
      ∧ (s.ptp.valid = true → t.ptp.slew.natAbs ≤ 1000 ∧ t.ptp.sec = s.ptp.sec + 1000000000)
      ∧ (s.ptp.valid = false → t.ptp.slew = s.ptp.slew ∧ t.ptp.base = s.ptp.base ∧ t.ptp.at_ = s.ptp.at_ ∧ t.ptp.sec = s.ptpNow)
      ∧ (((s.ptp.sec + 1000000000 : Int) - s.ptpNow).natAbs ≤ 1000 → t.ptp.miss = s.ptp.miss ∧ t.ptp.lock = s.ptp.good
          ∧ (s.ptp.valid = true → t.ptp.slew = (s.ptp.sec + 1000000000 : Int) - s.ptpNow))
      ∧ (1000 < ((s.ptp.sec + 1000000000 : Int) - s.ptpNow).natAbs → t.ptp.miss = satInc s.ptp.miss ∧ t.ptp.lock = false)))
  ∧ (∀ (s : State) (n : Nat), s.ptp.at_ + 1600000000 ≤ s.now → s.now + 8 * n < 2 ^ 62 → s.ptp.base < 2 ^ 62 → s.ptp.slew.natAbs ≤ 1000 → 1000 ≤ s.ptp.base →
    ({ s with now := s.now + 8 * n }).ptpNow = s.ptpNow + 5 * n)
  ∧ (∀ (s : State) (n : Nat), s.focus = .event .ppsLoss → s.ptp.edge = some n →
    (s.now < n + 3200000000 → exec .ppsLoss s = .next s)
    ∧ (n + 3200000000 ≤ s.now → ∃ t, exec .ppsLoss s = .next t ∧ t = { s with ptp := t.ptp } ∧ t.ptp.lock = false ∧ t.ptp.miss = satInc s.ptp.miss
      ∧ t.ptpNow = s.ptpNow))
  ∧ (∀ (s : State) (v : W64), s.focus = .event (.ptpset v) → ∃ t, exec .ptpset s = .next t ∧ t = { s with ptp := { s.ptp with setv := v, setp := true } })
  ∧ (∀ (s : State) (ok : Bool), s.focus = .event (.heartbeatCheck ok) →
    (s.cmd.mode ≠ .normal → exec .heartbeatCheck s = .next s)
    ∧ (s.cmd.mode = .normal → ok = true → ∃ t, exec .heartbeatCheck s = .next t ∧ t = { s with cmd := { s.cmd with heart := s.now } })
    ∧ (s.cmd.mode = .normal → ok = false → ∃ t, exec .heartbeatCheck s = .next t
      ∧ t = { s with cmd := { s.cmd with mode := .frozen }, bar := { s.bar with msix := s.bar.msix ++ [0] } }))
  ∧ (∀ (s : State), s.focus = .event .watchdog →
    ((s.bar.phase ≠ 5 ∨ s.cmd.dogFired = true ∨ s.now < s.cmd.dog + 16000000) → exec .watchdog s = .next s)
    ∧ (s.bar.phase = 5 → s.cmd.dogFired = false → s.cmd.dog + 16000000 ≤ s.now → s.regions.risesFrom none = true → s.cmd.mode = .normal →
      (∀ i v, s.region i = some v → v.traps.length < 256) →
      ∃ t, exec .watchdog s = .next t ∧ t.cmd.dogFired = true ∧ t.cmd.mode = .frozen ∧ t.cmd.qcbs = [] ∧ t.bar.msix = s.bar.msix ++ [0] ∧ t.mem = s.mem
        ∧ ∀ i v, s.region i = some v → ∃ d, t.region i = some { v with traps := v.traps ++ [d] } ∧ recCode d = 0x22
            ∧ recSrc d = 5))
  ∧ (∀ (s : State) (own : Bool), s.focus = .event (.wdpet own) →
    (own = false → exec .wdpet s = .next s)
    ∧ (own = true → ∃ t, exec .wdpet s = .next t ∧ t = { s with cmd := { s.cmd with dog := s.now } }))

/-- R330, R336, R337, R338: a sample of an enabled MHU joins those of its fc, in order, and as the fc ends each of them, saturated to 32 bits, moves the
live minimum, maximum, count and one bin, found linearly or by its logarithm. SNAP copies the live values of the selected MHUs into their read
registers; CLR starts the live values afresh, but of those the lifetime records select. LTIDX starts a fetch, which places the record of the asked
age, or zeros with BAD. An hour writes one record, of which 8,192 are kept, puts LTSEL in force, and writes none where Markhor has stopped. The layout
of LTWIN is free (log 27), and LTIDX without a record is log 46. -/
def Obligations.MonitorsAndLifetimeRecords : Prop :=
  (∀ (s : State) (die n v : Nat), s.focus = .event (.mhuSample die n v) →
    let k := die * 64 + n
    ((s.mhu k).cfg.getLsbD 63 = false → exec .mhuSample s = .next s)
    ∧ ((s.mhu k).cfg.getLsbD 63 = true → ∃ t, exec .mhuSample s = .next t ∧ t = { s with mon := { s.mon with mhus := t.mon.mhus } }
      ∧ t.mhu k = { s.mhu k with fresh := (s.mhu k).fresh ++ [v] } ∧ ∀ m, m ≠ k → t.mhu m = s.mhu m))
  ∧ (∀ (m : Mhu), m.fresh = [] → m.settle = m)
  ∧ (∀ (m : Mhu) (l : List Nat) (v : Nat), m.fresh = l ++ [v] →
    let o := ({ m with fresh := l }).settle
    let w := min v (2 ^ 32 - 1)
    ∃ b, b < 32 ∧ m.settle.cfg = m.cfg ∧ m.settle.fresh = []
      ∧ m.settle.lmin.toNat = min o.lmin.toNat w ∧ m.settle.lmax.toNat = max o.lmax.toNat w ∧ m.settle.lcnt = satInc o.lcnt
      ∧ m.settle.min = m.min ∧ m.settle.max = m.max ∧ m.settle.cnt = m.cnt ∧ m.settle.bins = m.bins
      ∧ (∀ j, m.settle.lbins.getD j 0 = if j = b then satInc (o.lbins.getD j 0) else o.lbins.getD j 0)
      ∧ (m.cfg.getLsbD 62 = false → b = min 31 (w / 2 ^ (bits m.cfg 56 6).toNat))
      ∧ (m.cfg.getLsbD 62 = true → (w = 0 → b = 0) ∧ (∀ j, 2 ^ j ≤ w → w < 2 ^ (j + 1) → b = min 31 (j + 1))))
  ∧ (∀ (s : State) (die : Nat) (mask : W64), s.focus = .event (.mhuctlSnap die mask) → ∃ t, exec .mhuctlSnap s = .next t ∧ t = { s with mon := t.mon }
    ∧ (∀ n, n < 64 → mask.getLsbD n = true → t.mhu (die * 64 + n) = (s.mhu (die * 64 + n)).snap
        ∧ (t.mhu (die * 64 + n)).min = (s.mhu (die * 64 + n)).lmin ∧ (t.mhu (die * 64 + n)).bins = (s.mhu (die * 64 + n)).lbins)
    ∧ ∀ k, (k / 64 ≠ die ∨ mask.getLsbD (k % 64) = false) → t.mhu k = s.mhu k)
  ∧ (∀ (s : State) (die : Nat) (mask : W64), s.focus = .event (.mhuctlClr die mask) → ∃ t, exec .mhuctlClr s = .next t ∧ t = { s with mon := t.mon }
    ∧ ∀ n, n < 64 → t.mhu (die * 64 + n) = (if mask.getLsbD n ∧ die * 64 + n ∉ s.mon.selected
        then { s.mhu (die * 64 + n) with lmin := 0xFFFFFFFF#32, lmax := 0, lcnt := 0, lbins := [] } else s.mhu (die * 64 + n)))
  ∧ (∀ (s : State) (age : BitVec 13), s.focus = .event (.ltidxFetch age) → ∃ t, exec .ltidxFetch s = .next t
    ∧ t = { s with mon := { s.mon with age, ready := false, bad := false, fetching := true } })
  ∧ (∀ (s : State), s.focus = .event .ltwinReady → s.mon.fetching = true → s.cmd.mode = .normal →
    (∀ r, s.mon.recs[s.mon.age.toNat]? = some r → ∃ t, exec .ltwinReady s = .next t
      ∧ t = { s with mon := { s.mon with window := some r, ready := true, bad := r.bad, fetching := false } })
    ∧ (s.mon.recs.length ≤ s.mon.age.toNat → ∃ t, exec .ltwinReady s = .next t
      ∧ t = { s with mon := { s.mon with window := none, bad := true, fetching := false } }))
  ∧ (∀ (s : State), s.focus = .event .lifetimeRecord →
    (s.now / 5760000000000 ≤ s.mon.hour → exec .lifetimeRecord s = .next s)
    ∧ (s.mon.hour < s.now / 5760000000000 → ∃ t, exec .lifetimeRecord s = .next t ∧ t = { s with mon := t.mon } ∧ t.mon.inForce = s.mon.ltsel
      ∧ t.mon.hour = s.now / 5760000000000
      ∧ ((s.bar.phase ≠ 5 ∨ s.cmd.mode ≠ .normal) → t.mon.recs = s.mon.recs ∧ t.mon.mhus = s.mon.mhus)
      ∧ (s.bar.phase = 5 → s.cmd.mode = .normal → (∃ r, t.mon.recs = (r :: s.mon.recs).take 8192 ∧ r.hour = t.mon.hour ∧ r.fwver = s.cmd.fwver
            ∧ r.ltsel = s.mon.inForce ∧ r.fixed = t.mon.fixed ∧ r.bad = false)
          ∧ ∀ k ∈ s.mon.selected, (t.mhu k).cnt = (s.mhu k).lcnt ∧ (t.mhu k).lcnt = 0)))

/-- R329, R332, R333, R335, R338: input power is measured every 100 us and moves LEVEL one step, up above an enforced LIMIT and down otherwise, and to 15
while a die is hot; OVER is cleared by a written 1. The boot takes five steps and ends at phase 5, or at 15 with the FAIL of the step that failed. The
versions of an accepted GO come into force; none is accepted while an instance runs. Steps of LEVEL and boot are the model's reading (log 46), boot's
results are arguments (log 11). -/
def Obligations.PowerBootAndNegotiation : Prop :=
  (∀ (s : State) (w : BitVec 13), s.focus = .event (.powerControl w) →
    (s.now < s.bar.measured + 160000 → exec .powerControl s = .next s)
    ∧ (s.bar.measured + 160000 ≤ s.now → ∃ t, exec .powerControl s = .next t ∧ t = { s with bar := t.bar } ∧ t.bar.measured = s.now
      ∧ t.bar.watts = (w.toNat :: s.bar.watts).take 10 ∧ t.bar.mean = t.bar.watts.sum / t.bar.watts.length
      ∧ (s.bar.hot = true → t.bar.level = 15)
      ∧ (s.bar.hot = false → s.bar.capEn = true → s.bar.cap.toNat < t.bar.mean → t.bar.level = min 15 (s.bar.level + 1))
      ∧ (s.bar.hot = false → (s.bar.capEn = false ∨ t.bar.mean ≤ s.bar.cap.toNat) → t.bar.level = s.bar.level - 1)
      ∧ (s.bar.level = 15 → s.bar.cap.toNat < t.bar.mean → s.bar.overFor = 99 → t.bar.overCap = true
          ∧ (s.bar.overCap = false → t.bar.msix = s.bar.msix ++ [0]))
      ∧ (s.bar.overFor < 99 → t.bar.overCap = s.bar.overCap ∧ t.bar.msix = s.bar.msix)))
  ∧ (∀ (s : State) (hot : Bool), s.focus = .event (.dieTemperatureHot hot) → ∃ t, exec .dieTemperatureHot s = .next t
    ∧ t.bar = { s.bar with hot, level := if hot then 15 else s.bar.level } ∧ t.mem = s.mem
    ∧ t.mon.fixed.getD 9 0 = if hot = true ∧ s.bar.hot = false then satInc (s.mon.fixed.getD 9 0) else s.mon.fixed.getD 9 0)
  ∧ (∀ (s : State) (v : W32), s.focus = .event (.pwrstatWrite v) → ∃ t, exec .pwrstatWrite s = .next t
    ∧ t = { s with bar := { s.bar with overCap := if v.getLsbD 27 then false else s.bar.overCap } })
  ∧ (∀ (s : State) (ok : Bool), s.focus = .event (.boot ok) →
    (5 ≤ s.bar.phase → exec .boot s = .next s)
    ∧ (s.bar.phase < 4 → ok = true → ∃ t, exec .boot s = .next t ∧ t = { s with bar := { s.bar with phase := s.bar.phase + 1 } })
    ∧ (s.bar.phase = 4 → ok = true → ∃ t, exec .boot s = .next t ∧ t.bar = { s.bar with phase := 5 } ∧ t.cmd.dog = s.now ∧ t.cmd.dogFired = false
        ∧ t.mon.fixed.getD 10 0 = satInc (s.mon.fixed.getD 10 0) ∧ t.mem = s.mem)
    ∧ (s.bar.phase < 3 → ok = false → ∃ t, exec .boot s = .next t ∧ t = { s with bar := { s.bar with phase := 15, fail := s.bar.phase + 1 } })
    ∧ (s.bar.phase = 4 → ok = false → ∃ t, exec .boot s = .next t ∧ t = { s with bar := { s.bar with phase := 15, fail := 4 } }))
  ∧ (∀ (s : State) (v : W64), s.focus = .event (.hostnegGo v) →
    ((bits v 16 48 = 0x010001000100#48 ∧ s.insts = []) → ∃ t, exec .hostnegGo s = .next t ∧ t = { s with bar := { s.bar with
        hostneg := v &&& 0xFFFFFFFFFFFF0000#64, inForce := v &&& 0xFFFFFFFFFFFF0000#64, okNeg := true, errNeg := false } })
    ∧ ((bits v 16 48 ≠ 0x010001000100#48 ∨ s.insts ≠ []) → ∃ t, exec .hostnegGo s = .next t
        ∧ t = { s with bar := { s.bar with hostneg := v &&& 0xFFFFFFFFFFFF0000#64, errNeg := true } }))

/-- R221, R223, R254, R267, R269, R302, R308, R327, R329, R335: a read of KICKERR, TTSTAT, STKRAM or FPSTAT returns it and clears what it counts. A write
of a threshold or of LIMIT outside its range keeps the old one; a place that is no register takes nothing. An access through BAR2 reaches DRAM by its
physical address, through the BAR aperture; one beyond a BAR is an unsupported request, or dropped. Access widths (log 47) and how the parts of a read
of DRAM join (log 5) are the model's. -/
def Obligations.RegistersAndHostAccesses : Prop :=
  (∀ (s : State), s.focus = .event .kickerrRead → ∃ t, exec .kickerrRead s = .next t ∧ t.bar = { s.bar with reply := some s.cmd.kickerr.toNat, readNo := 0 }
    ∧ t.cmd = { s.cmd with kickerr := 0 } ∧ t.mem = s.mem)
  ∧ (∀ (s : State), s.focus = .event .ttstatRead → ∃ t v, exec .ttstatRead s = .next t ∧ t.bar = { s.bar with reply := some v, readNo := 0 }
    ∧ v / 2 ^ 16 = s.ptp.miss.toNat ∧ v.testBit 2 = s.ptp.setp ∧ v.testBit 1 = s.ptp.valid ∧ v.testBit 0 = s.ptp.lock ∧ t.ptp = { s.ptp with miss := 0 }
    ∧ t.mem = s.mem)
  ∧ (∀ (s : State) (d : Nat), s.focus = .event (.stkramRead d) → d < 16 → ∃ t v, exec .stkramRead s = .next t ∧ t.bar = { s.bar with reply := some v, readNo := 0 }
    ∧ v / 2 ^ 16 = (s.stk d).alerts.toNat ∧ v % 2 ^ 16 = (s.stk d).thr.toNat ∧ t.stk d = { s.stk d with alerts := 0 } ∧ (∀ e, e ≠ d → t.stk e = s.stk e)
    ∧ t.mem = s.mem)
  ∧ (∀ (s : State) (n : Nat), s.focus = .event (.fpstatRead n) → n < 24 → ∃ t v, exec .fpstatRead s = .next t ∧ t.bar = { s.bar with reply := some v, readNo := 0 }
    ∧ v / 2 ^ 16 = (s.port n).retry.toNat ∧ v / 2 ^ 8 % 2 ^ 8 = (s.port n).ver.toNat ∧ v / 2 ^ 2 % 2 ^ 6 = (s.port n).lanes.toNat
      ∧ v % 2 ^ 2 = (s.port n).state.toNat
    ∧ t.port n = { s.port n with retry := 0 } ∧ t.mem = s.mem)
  ∧ (∀ (s : State) (o w : Nat) (v : BitVec 128), s.focus = .event (.registerWrite o w v) →
    (regFor o w = none → exec .registerWrite s = .next s)
    ∧ (∀ d, d < 16 → o = 0x104 + 16 * d → w = 4 → ∃ t, exec .registerWrite s = .next t ∧ t = { s with stkRegs := t.stkRegs }
        ∧ t.stk d = { s.stk d with thr := if 16 ≤ (bits v 0 13).toNat ∧ (bits v 0 13).toNat ≤ 4096 then bits v 0 13 else (s.stk d).thr })
    ∧ (∀ d, d < 16 → o = 0x100 + 16 * d → w = 4 → ∃ t, exec .registerWrite s = .next t ∧ t = { s with stkRegs := t.stkRegs }
        ∧ t.stk d = { s.stk d with arb := bits v 0 3 })
    ∧ (∀ d, d < 16 → o = 0x108 + 16 * d → w = 4 → ∃ t, exec .registerWrite s = .next t ∧ t = { s with stkRegs := t.stkRegs }
        ∧ t.stk d = { s.stk d with pden := v.getLsbD 0, sren := v.getLsbD 1 })
    ∧ (o = 0x30 → w = 4 → ∃ t, exec .registerWrite s = .next t ∧ t = { s with bar := { s.bar with
        capEn := v.getLsbD 31, cap := if 1500 ≤ (bits v 0 13).toNat ∧ (bits v 0 13).toNat ≤ 5600 then bits v 0 13 else s.bar.cap } })
    ∧ (∀ n, n < 4 → o = 0xF00008 + 8 * n → w = 8 → ∃ t, exec .registerWrite s = .next t ∧ t.cmd.mbarg.getD n 0 = bits v 0 64
        ∧ t = { s with cmd := { s.cmd with mbarg := t.cmd.mbarg } }))
  ∧ (∀ (s : State) (a : HostAccess), s.focus = .event (.hostBarAccess a) → 0 < a.width →
    (a.bar = 2 → a.off + a.width ≤ 2 ^ 40 → a.off % 32 + a.width ≤ 32 → ∃ t q, exec .hostBarAccess s = .next t ∧ t.mem = s.mem
        ∧ (t.pch (stdCell a.off).1).ibBar = (s.pch (stdCell a.off).1).ibBar ++ [q] ∧ q.id = s.nextId ∧ q.by_ = .host a.req ∧ q.bytes = a.width
        ∧ q.off = (stdCell a.off).2 ∧ (∀ v, a.write = some v → t.bar = s.bar ∧ q.kind = .write ∧ q.data = BitVec.ofNat 256 (v % 2 ^ (8 * a.width)))
        ∧ (a.write = none → t.bar = { s.bar with reply := some 0, readNo := s.nextId } ∧ q.kind = .read ∧ q.work = s.nextId ∧ q.data = 0))
    ∧ (a.bar = 2 → a.off + a.width ≤ 2 ^ 40 → a.write = none → ∃ t, exec .hostBarAccess s = .next t ∧ t.mem = s.mem
        ∧ t.bar = { s.bar with reply := some 0, readNo := s.nextId }
        ∧ ∀ n, n < a.width → ∃ q ∈ (t.pch (stdCell (a.off + n)).1).ibBar, q.by_ = .host a.req ∧ q.kind = .read ∧ q.work = s.nextId
            ∧ q.data.toNat ≤ n ∧ n < q.data.toNat + q.bytes ∧ q.off + (n - q.data.toNat) = (stdCell (a.off + n)).2)
    ∧ (∀ b w, a.bar = 0 → a.write = none → a.off < 0xF01000 → regFor a.off a.width = some (b, w) → b ≠ 0x48 → b ≠ 0x70 →
        (b < 0x100 ∨ 0x260 ≤ b) → ∃ t, exec .hostBarAccess s = .next t
          ∧ t = { s with bar := { s.bar with reply := some (s.regPart b a.off a.width), readNo := 0 } })
    ∧ ((a.bar = 2 ∧ 2 ^ 40 < a.off + a.width ∨ a.bar = 4 ∧ 2 ^ 26 < a.off + a.width ∨ a.bar = 0 ∧ 2 ^ 25 ≤ a.off ∨ a.bar ∉ [0, 2, 4]) →
        (a.write.isSome = true → exec .hostBarAccess s = .next s)
        ∧ (a.write = none → ∃ t, exec .hostBarAccess s = .next t ∧ t = { s with bar := { s.bar with reply := none, readNo := 0 } })))

/-! ## Links, the trust domain and collectives -/

/-- R226, R237, R308, R309, R310, R311, R312, R313, R314: A link resends a failing flit and counts it; a flit that has failed sixteen replays in a row
fails the port. A port trains to version 3 where the peer offers it, else to 2, and stays down where it offers neither. A packet goes out in whole
flits behind its security header; outside a domain one is dropped. One whose SEQ, KGEN and tag hold is accepted and moves the expected SEQ; a read
request whose page may be shared joins the remote aperture. One that fails closes a load/store circuit. A pair is admitted by its session; a domain of
two to sixty-four members forms at generation 1, or takes this module in at the generation it has come to; a member joins by its session, and one that
leaves takes its session with it. What outside parties find is an argument and the words of packets are the model's (log 11), a binding's table (log
24) and routes (log 25) are free, and the wire form takes its algorithms from their standards (log 79). -/
def Obligations.LinksPacketsAndMembership : Prop :=
  ((∀ (s : State) (n f : Nat), s.focus = .event (.linkReplay n f) →
      ((s.port n).state ≠ 2 → exec .linkReplay s = .next s)
      ∧ ((s.port n).state = 2 → (((s.port n).rb.head? = some f ∧ (s.port n).tries < 16) ∨ (s.port n).rb.head? ≠ some f) → ∃ t, exec .linkReplay s = .next t
        ∧ t.mem = s.mem ∧ t.port n = { s.port n with retry := satInc (s.port n).retry, replays := (s.port n).replays + 1, rb := [f],
                                                     tries := if (s.port n).rb.head? = some f then (s.port n).tries + 1 else 1 })
      ∧ ((s.port n).state = 2 → (s.port n).rb.head? = some f → 16 ≤ (s.port n).tries → ∃ t, exec .linkReplay s = .next t ∧ (t.port n).state = 3
        ∧ (t.port n).retry = (s.port n).retry ∧ ∀ w ∈ t.dom.unacked, s.portOf w.dev ≠ n))
    ∧ (∀ (s : State) (n : Nat) (o : LinkOffer), s.focus = .event (.linkTraining n o) →
      ((24 ≤ n ∨ 2 ≤ (s.port n).state.toNat) → exec .linkTraining s = .next s)
      ∧ (n < 24 → (s.port n).state.toNat < 2 → ∃ t, exec .linkTraining s = .next t ∧ t = { s with ports := t.ports }
        ∧ ((o.lanes.val = 0 ∨ (o.v2 = false ∧ o.v3 = false)) → (t.port n).state = 0)
        ∧ (o.lanes.val ≠ 0 → o.v3 = true → (t.port n).state = 2 ∧ (t.port n).ver = 3 ∧ (t.port n).lanes.toNat = o.lanes.val)
        ∧ (o.lanes.val ≠ 0 → o.v3 = false → o.v2 = true → (t.port n).state = 2 ∧ (t.port n).ver = 2 ∧ (t.port n).lanes.toNat = o.lanes.val))))
  ∧ ((∀ (key : List Byte) (p : Packet), let h := packetHeader p
      (sealPacket key p).length % 64 = 0 ∧ (sealPacket key p).take 16 = leBytes h.toNat 16 ∧ bits h 0 8 = 0x46 ∧ bits h 8 4 = p.ver ∧ bits h 12 10 = p.src
      ∧ bits h 32 10 = p.dst ∧ bits h 48 4 = BitVec.ofNat 4 (wireToks p).length ∧ bits h 52 4 = p.type ∧ bits h 56 8 = p.kgen ∧ bits h 64 16 = p.circ
      ∧ bits h 80 48 = p.seq)
    ∧ (∀ (s : State) (gw : Nat) (b : List Byte), s.focus = .event (.fjoisPacketReceive gw b) →
      let p := (s.unseal b).1
      let key := p.src.toNat * 65536 + p.circ.toNat
      (s.dom.members = [] → exec .fjoisPacketReceive s = .next s)
      ∧ (s.dom.members ≠ [] → p.circ.toNat < 16 → key ∉ s.dom.closed → s.recvCirc gw p = none →
        ((p.seq.toNat ≠ s.dom.recvSeq.getD key 0 ∨ p.kgen.toNat ≠ s.dom.gen % 256 ∨ (s.unseal b).2 = false) →
          ∃ t, exec .fjoisPacketReceive s = .next t ∧ key ∈ t.dom.closed ∧ t.dom.recvSeq = s.dom.recvSeq ∧ t.mem = s.mem
            ∧ ∀ w ∈ t.dom.unacked, ¬ (w.dev = p.src.toNat ∧ w.circ = p.circ.toNat))
        ∧ (∀ size e ap c off, p.seq.toNat = s.dom.recvSeq.getD key 0 → p.kgen.toNat = s.dom.gen % 256 → (s.unseal b).2 = true → p.type = 1 →
            bits p.word 96 32 = 0 → s.walk (bits p.word 0 56).toNat 0 (Config.domainRoot p.src.toNat) 4 = .leaf size e → e.getLsbD 7 = true →
            checkLeaf .read size e (bits p.word 0 56).toNat = .cell ap c off →
            ∃ t a, exec .fjoisPacketReceive s = .next t ∧ t.dom.recvSeq.getD key 0 = p.seq.toNat + 1 ∧ t.mem = s.mem
              ∧ (t.pch c).ibRem = (s.pch c).ibRem ++ [a] ∧ a.kind = .read ∧ a.off = off ∧ a.bytes = (bits p.word 56 8).toNat
              ∧ a.by_ = .peer p.src.toNat p.circ.toNat)))
    ∧ (∀ (s : State) (peer : Nat) (ok : Bool) (secret : List Byte), s.focus = .event (.spdmExchange peer ok secret) →
      (ok = false → exec .spdmExchange s = .next s)
      ∧ (ok = true → ∃ t, exec .spdmExchange s = .next t ∧ peer ∈ t.dom.pairs
        ∧ t = { s with dom := { s.dom with pairs := t.dom.pairs, secrets := s.dom.secrets.put peer secret } }
        ∧ ∀ d ∈ t.dom.pairs, d = peer ∨ d ∈ s.dom.pairs))
    ∧ (∀ (s : State) (ch : Membership), s.focus = .event (.membershipChange ch) →
      (∀ self gen, (ch = .formed self ∧ gen = 1 ∨ (∃ g : W32, ch = .entered self g ∧ gen = g.toNat ∧ g ≠ 0)) →
        (s.dom.pairs.filter (fun d => d != self.toNat) ≠ [] ∧ (s.dom.pairs.filter (fun d => d != self.toNat)).length ≤ 63) →
        s.dom.members = [] → ∃ t, exec .membershipChange s = .next t ∧ t = { s with dom := t.dom } ∧ t.dom.gen = gen ∧ t.dom.self = self
          ∧ t.dom.sendSeq = [] ∧ t.dom.recvSeq = [] ∧ ∀ d, d ∈ t.dom.members ↔ d = self.toNat ∨ (d ∈ s.dom.pairs ∧ d ≠ self.toNat))
      ∧ (∀ dev, ch = .joins dev →
        (dev.toNat ∉ s.dom.pairs → exec .membershipChange s = .next s)
        ∧ (s.dom.members ≠ [] → dev.toNat ∈ s.dom.pairs → dev.toNat ∉ s.dom.members → s.dom.members.length < 64 → ∃ t, exec .membershipChange s = .next t
            ∧ t = { s with dom := t.dom } ∧ t.dom.members = s.dom.members ++ [dev.toNat] ∧ t.dom.gen = s.dom.gen))
      ∧ (∀ dev, ch = .leaves dev → dev.toNat ≠ s.dom.self.toNat → 2 ≤ (s.dom.members.filter (· != dev.toNat)).length →
          ∃ t, exec .membershipChange s = .next t ∧ t = { s with dom := t.dom } ∧ dev.toNat ∉ t.dom.members ∧ dev.toNat ∉ t.dom.pairs
            ∧ (∀ d, d ≠ dev.toNat → (d ∈ t.dom.members ↔ d ∈ s.dom.members)) ∧ t.dom.gen = s.dom.gen)))

/-- R190, R309, R314, R318, R319, R321, R343: PAUSE and RESUME set and clear a peer's pause; ABORT, a step's timeout and a lease that runs out abort the
instance, whose COLL in flight completes with the outcome; a bind whose announcements have not come fails with outcome 1; a grant binds the switch
with its lease, a denial, or no answer within TSTEP (log 72), binds a ring where one is allowed and the circuits match, and else fails the bind; a
BARRIER is noted for its generation or its rank. Corners of collectives (log 55) and a switch that does not answer (log 72) are the model's reading. -/
def Obligations.CollectiveEvents : Prop :=
  (∀ (s : State) (c peer : Nat) (v : Coll), s.colls.find? c = some v →
    (s.focus = .event (.pauseReceive c peer) → ∃ t w, exec .pauseReceive s = .next t ∧ t = { s with colls := t.colls } ∧ t.colls.find? c = some w
      ∧ w = { v with pausedBy := w.pausedBy } ∧ ∀ p, p ∈ w.pausedBy ↔ p = peer ∨ p ∈ v.pausedBy)
    ∧ (s.focus = .event (.collResumeReceive c peer) → ∃ t w, exec .collResumeReceive s = .next t ∧ t = { s with colls := t.colls }
      ∧ t.colls.find? c = some w ∧ w = { v with pausedBy := w.pausedBy } ∧ ∀ p, p ∈ w.pausedBy ↔ p ≠ peer ∧ p ∈ v.pausedBy)
    ∧ (∀ o : BitVec 2, s.focus = .event (.abortReceive c o) → v.isAborted = false → ∃ t w, exec .abortReceive s = .next t ∧ t.mem = s.mem
      ∧ t.colls.find? c = some w ∧ w.stage = .aborted o.toNat ∧ w.slot = none ∧ w.timer = none ∧ w.held = false ∧ (v.stage ≠ .binding → t.dom = s.dom)
      ∧ ∀ k f, v.slot = some k → s.slot v.inst k = some f → Arrives t v.inst k o.toNat)
    ∧ (s.focus = .event (.stepTimeout c) →
      ((v.timer ≠ some 0 ∨ v.stage ≠ .bound) → exec .stepTimeout s = .next s)
      ∧ (∀ k f, v.stage = .bound → v.timer = some 0 → v.slot = some k → s.slot v.inst k = some f → ∃ t w, exec .stepTimeout s = .next t ∧ t.mem = s.mem
          ∧ t.colls.find? c = some w ∧ w.stage = .aborted 1 ∧ Arrives t v.inst k 1))
    ∧ (s.focus = .event (.bindTimeout c) →
      ((v.timer ≠ some 0 ∨ v.stage ≠ .binding) → exec .bindTimeout s = .next s)
      ∧ (∀ k f, v.stage = .binding → v.timer = some 0 → v.slot = some k → s.slot v.inst k = some f → (v.asked = false ∨ v.alg ≠ 0) →
          ∃ t, exec .bindTimeout s = .next t ∧ t.mem = s.mem ∧ t.colls = s.colls.drop c ∧ Arrives t v.inst k 1)
      ∧ (∀ k f, v.stage = .binding → v.timer = some 0 → v.slot = some k → s.slot v.inst k = some f → v.asked = true → v.alg = 0 → RingAnswers s c v k
          .bindTimeout))
    ∧ (s.focus = .event (.leaseExpire c) →
      (v.used < v.lease.toNat * 1024 → exec .leaseExpire s = .next s)
      ∧ (v.held = true → v.isPaused = true → v.isAborted = false → v.lease.toNat * 1024 ≤ v.used → ∃ t w, exec .leaseExpire s = .next t ∧ t.mem = s.mem
          ∧ t.colls.find? c = some w ∧ w.stage = .aborted 1 ∧ w.held = false ∧ w.slot = none ∧ (v.stage ≠ .binding → t.dom = s.dom)
          ∧ ∀ k f, v.slot = some k → s.slot v.inst k = some f → Arrives t v.inst k 1))
    ∧ (∀ a, s.focus = .event (.switchResponse c a) →
      ((v.stage ≠ .binding ∨ v.asked = false) → exec .switchResponse s = .next s)
      ∧ (∀ k f l, v.stage = .binding → v.asked = true → v.slot = some k → s.slot v.inst k = some f →
          (a = .grant l → ∃ t w, exec .switchResponse s = .next t ∧ t.mem = s.mem ∧ t.colls.find? c = some w ∧ w.stage = .bound ∧ w.bound = 3
              ∧ w.lease = l ∧ w.held = true ∧ Arrives t v.inst k 0)
          ∧ (a = .deny → v.alg ≠ 0 → ∃ t, exec .switchResponse s = .next t ∧ t.mem = s.mem ∧ t.colls = s.colls.drop c ∧ Arrives t v.inst k 1)
          ∧ (a = .deny → v.alg = 0 → RingAnswers s c v k .switchResponse)))
    ∧ (s.focus = .event (.barrierReceive peer (.coll c)) → ∀ r, List.find? (fun (x : Nat × Nat) => x.2 == peer) v.ranksAt = some (r, peer) →
        ∃ t w, exec .barrierReceive s = .next t ∧ t = { s with colls := t.colls } ∧ t.colls.find? c = some w ∧ r ∈ w.atBar
          ∧ ∀ q ∈ w.atBar, q = r ∨ q ∈ v.atBar))
  ∧ (∀ (s : State) (peer g : Nat), s.focus = .event (.barrierReceive peer (.rekey g)) → ∃ t, exec .barrierReceive s = .next t
      ∧ t = { s with dom := { s.dom with bars := t.dom.bars } } ∧ (peer, g) ∈ t.dom.bars ∧ ∀ b ∈ t.dom.bars, b = (peer, g) ∨ b ∈ s.dom.bars)

/-! ## The whole machine -/

/-- R5, R32, R38, R40, R67, R197, R244, R299, R306: a step takes the move at the head of the schedule and runs what stands there, decoded: the
lowest-numbered ready slot of an element whose picker has its turn, the micro-instruction at MPC of a run, the action of a firing, the packet of a
hardware slot, the command in MBCMD, an event. An fc passes once it owes nothing. The schedule itself is the model's (log 2). Who moves next is the
model's field sched (log 2), and focus names the agent (log 3). -/
def Obligations.StepRunsTheDecodedInstruction : Prop :=
  ∀ (s u : State) (m : Move) (l : List Move), s.sched = m :: l → u = { s with sched := l } →
    (∀ el n r w o x, m = .issue el → u.mayPick el = true → u.leader el = none → (u.elem el).rec? = some r → n < 32 → r.hdr.getLsbD (96 + n) = true →
      r.slots.find? n = some w → decodeElem w = .ok (Op.instr o x) → decodeSlot w = .ok (o, x) → u.mayIssue el n o x = true →
      (∀ k p y, k < n → (u.elem el).slotAt k = some (p, y) → u.mayIssue el k p y = false) → StepRuns s u m (o.instr x) (.elem el n))
    ∧ (∀ p r i, m = .micro p → (u.pch p).run = some r → decodeMicro ((u.pch p).is.getD r.mpc 0x44000000#32) = .ok i → StepRuns s u m i (.pch p))
    ∧ (∀ i k f a, m = .action i k → u.slot i k = some f → decodeAction f.act = .ok a → StepRuns s u m a (.nsq i k))
    ∧ (∀ n h i, m = .packet n → u.cmd.slots.find? n = some h → decodePacket h.pkt = .ok i → StepRuns s u m i (.strip n))
    ∧ (∀ i, m = .mailbox → u.cmd.busy = true →
        decodeMailbox u.cmd.mbcmd (u.cmd.mbarg.getD 0 0) (u.cmd.mbarg.getD 1 0) (u.cmd.mbarg.getD 2 0) = .ok i → StepRuns s u m i .mailbox)
    ∧ (∀ e, m = .event e → StepRuns s u m e.instr (.event e))
    ∧ (m = .tick → u.owes = none → step s = .next u.pass)

/-- R67, R68, R71, R76: every field of an element instruction survives its encoding, and every word that is one is the encoding of what it decodes to; no
two operations share an opcode, and a word of a reserved opcode, of INVL, of input condition 011 or of PRES without its enable bit is refused. -/
def Obligations.ElementWordsRoundTrip : Prop :=
  (∀ (o : Op) (x : Slot), decodeSlot (encodeSlot o x) = .ok (o, x) ∧ decodeElem (encodeSlot o x) = .ok (o.instr x))
  ∧ (∀ (w : W128) (o : Op) (x : Slot), decodeSlot w = .ok (o, x) → encodeSlot o x = w)
  ∧ (∀ o p : Op, o.code = p.code → o = p)
  ∧ (∀ w : W128, (∀ o : Op, o.code ≠ (bits w 36 8).toNat) → ∃ e, decodeSlot w = .error e)
  ∧ (∀ (w : W128) (j : Nat), j < 4 → bits w (16 + 3 * j) 3 = 3 → ∃ e, decodeSlot w = .error e)
  ∧ (∀ w : W128, w.getLsbD 83 = false → bits w 80 3 ≠ 0 → ∃ e, decodeSlot w = .error e)

/-- R197, R198, R209, R244, R245, R246, R247, R248, R299, R300, R301: Every operand of a micro-instruction that its rule allows survives its encoding,
every word that decodes is the encoding of what it decodes to, and a reserved OP is refused. The same for action words and packets: every operand
survives, and reserved codes are refused. -/
def Obligations.MicroActionAndPacketWordsRoundTrip : Prop :=
  ((∀ (i : Instr) (w : W32), encodeMicro i = some w → microOk i = true → decodeMicro w = .ok i)
    ∧ (∀ (i : Instr) (w : W32), decodeMicro w = .ok i → encodeMicro i = some w ∧ microOk i = true)
    ∧ (∀ w : W32, 0x16 ≤ (bits w 26 6).toNat → decodeMicro w = .error .reservedMicro)
    ∧ (∀ (i j : Instr) (w : W32), encodeMicro i = some w → encodeMicro j = some w → microOk i = true → microOk j = true → i = j))
  ∧ ((∀ (i : Instr) (w : W128), encodeAction i = some w → decodeAction w = .ok i)
    ∧ (∀ w : W128, 0x18 ≤ (bits w 0 8).toNat → decodeAction w = .error .reservedAction)
    ∧ (∀ (i : Instr) (l : List W64), encodePacket i = some l → packetOk i = true → decodePacket l = .ok i)
    ∧ (∀ l : List W64, 0x09 ≤ (bits (l.headD 0) 0 8).toNat → decodePacket l = .error .reservedPacket)
    ∧ (∀ (i j : Instr) (w : W128), encodeAction i = some w → encodeAction j = some w → i = j))

/-- R67, R68, R69, R70, R71, R74, R76, R115, R116, R197, R198, R244: the words that the spec writes out for a NOP, KDEC, STEER, MERGE, MMA, RAST and NBST,
and some micro-instruction and action words written from its tables, decode to what they stand for. -/
def Obligations.WrittenWordsDecode : Prop :=
  decodeElem 0x00000000000000000DDDE00200270000#128
      = .ok (.nop { emptySlot with ic0 := .isStop, ic1 := .isData, pop := 2 })
  ∧ decodeElem 0x00000000000F00000DDDF07100060000#128
      = .ok (.kdec { emptySlot with ic0 := .isTail, pop := 1, dst := .k, pres := some 7 })
  ∧ decodeElem 0x00000000072000000D98919300240000#128
      = .ok (.steer { emptySlot with ic0 := .isData, ic1 := .isData, pop := 3, dst := .o 1, sa := .i 0, sb := .i 1, mod := 0b1110010 })
  ∧ decodeElem 0x00000000042000000A9881A701000000#128
      = .ok (.merge { emptySlot with ic2 := .isData, pop := 7, dst := .o 0, sa := .i 0, sb := .i 1, sc := .i 2, mod := 0b1000010 })
  ∧ decodeElem 0x00000000001000000D98C80300240000#128
      = .ok (.mma { emptySlot with ic0 := .isData, ic1 := .isData, pop := 3, dst := .acc, sa := .i 0, sb := .i 1, mod := 1 })
  ∧ decodeElem 0x00000000000900040DDD08E000000400#128
      = .ok (.rast { emptySlot with pcare := 4, dst := .d 0, pset := 4, pres := some 1 })
  ∧ decodeElem 0x00000000000B00000DDDEAA000000C04#128
      = .ok (.nbst { emptySlot with pval := 4, pcare := 12, pres := some 3 })
  ∧ decodeTableWord 32 0x44000000 = some .halt ∧ decodeTableWord 32 0x04000003 = some (.act 3) ∧ decodeTableWord 32 0x0C000025 = some (.rd 1 5)
  ∧ decodeAction 0x0000000E#128 = .ok (.ndec 0) ∧ decodeAction 0x0000000500000013#128 = .ok (.timer 5)
  ∧ decodeAction 0x000000070000030B#128 = .ok (.nset 3 7)

/-- R295, R299, R303: every step keeps the tables by which instances, regions, dies and queues are found in order, each element in one section of its
region, and the words of a mapped queue's control block; reset has them so. The tables are the model's. -/
def Obligations.StepKeepsTablesSound : Prop :=
  State.reset.Sound ∧ ∀ s t : State, s.Sound → step s = .next t → t.Sound

/-- R5, R11, R12, R18, R234: every step keeps every memory in its canonical form. The canonical form is the model's own. -/
def Obligations.StepKeepsMemoryCanonical : Prop :=
  ∀ s t : State, s.mem.wf = true → step s = .next t → t.mem.wf = true

/-- R18, R220, R282: no step is refused, and one faults only where a die's walker holds a root table beyond the terabyte of DRAM. The one fault, of a walk
whose root lies beyond DRAM, is the model's choice (log 52). -/
def Obligations.StepsGoOn : Prop :=
  ∀ s : State, s.goesOn ∨ (step s = .fault .noSuchAddress ∧ ∃ die, ∃ w ∈ (s.die die).walks, 2 ^ 40 ≤ w.root)

/-- R11, R40, R177, R183, R186, R226: issuing an element instruction never changes DRAM or a weight store: stores leave through the queues and perform
later. -/
def Obligations.IssueLeavesDramAndWeights : Prop :=
  ∀ (o : Op) (x : Slot) (s t : State), exec (o.instr x) s = .next t →
    t.mem.dram = s.mem.dram ∧ t.mem.ws = s.mem.ws ∧ t.mem.dramErr = s.mem.dramErr ∧ t.now = s.now

/-- R39, R101, R254, R267, R269, R284, R302, R308, R311, R332, R335: the machine right after reset, where the spec gives its values: nothing runs, no port
is up, no domain, no versions; ARB 3, THR 512, both enables; LIMIT 5,600; TLBINV.DONE 1; the PTP clock neither set nor valid; no byte of memory is
listed. What an unwritten byte reads as is the model's choice (log 1). -/
def Obligations.ResetLeaves : Prop :=
  let s := State.reset
  (∀ d, (s.stk d).arb = 3 ∧ (s.stk d).thr = 512 ∧ (s.stk d).pden = true ∧ (s.stk d).sren = true ∧ (s.stk d).alerts = 0)
  ∧ (∀ n, (s.port n).state = 0 ∧ (s.port n).ver = 0 ∧ (s.port n).lanes = 0 ∧ (s.port n).retry = 0)
  ∧ s.bar.cap = 5600 ∧ s.bar.capEn = false ∧ s.bar.tlbDone = true ∧ s.bar.okNeg = false ∧ s.bar.errNeg = false ∧ s.bar.phase = 0
  ∧ s.ptp.valid = false ∧ s.ptp.setp = false ∧ s.ptp.lock = false ∧ s.dom.members = [] ∧ s.insts = [] ∧ s.regions = [] ∧ s.circs = []
  ∧ (∀ el, (s.elem el).ctx.inst = none ∧ s.mayPick el = false) ∧ (∀ p, (s.pch p).run = none ∧ (s.pch p).pwr = 0 ∧ (s.pch p).cq = [])
  ∧ s.mem.wf = true ∧ (∀ a, s.mem.dram.read a = 0 ∧ s.mem.ws.read a = 0 ∧ s.mem.spad.read a = 0)

end
end

