-- ==== Sys2Proof/Laws/Crypto.lean ====
section
/-!
SUPPORT. Laws/Crypto.lean: a packet sealed under a key opens under it as it was, and its tag verifies (R312).
-/
namespace Sys2Proof.Machine

@[simp] theorem leBytes_length (v n : Nat) : (leBytes v n).length = n := by
  induction n generalizing v with
  | zero => rfl
  | succ n ih => simp [leBytes, ih]

theorem leNat_leBytes (v n : Nat) : leNat (leBytes v n) = v % 256 ^ n := by
  induction n generalizing v with
  | zero => simp [leBytes, leNat, Nat.mod_one]
  | succ n ih =>
    have h : (BitVec.ofNat 8 v).toNat = v % 256 := BitVec.toNat_ofNat ..
    rw [leBytes, leNat, ih, h, Nat.pow_succ', Nat.mod_mul]

@[simp] theorem xorStream_length (l : List Byte) (k : List Nat) : (xorStream l k).length = l.length := by simp [xorStream]

@[simp] theorem xorStream_twice (l : List Byte) (k : List Nat) : xorStream (xorStream l k) k = l := by
  apply List.ext_getElem
  · simp
  · intro i h1 h2
    simp [xorStream]

@[simp] theorem ctrCrypt_length (ks : List (List Nat)) (c n : Nat) (l : List Byte) : (ctrCrypt ks c n l).length = l.length := by
  induction n generalizing c l with
  | zero => rfl
  | succ n ih => simp [ctrCrypt, ih]; omega

theorem ctrCrypt_twice (ks : List (List Nat)) (c n : Nat) (l : List Byte) : ctrCrypt ks c n (ctrCrypt ks c n l) = l := by
  induction n generalizing c l with
  | zero => rfl
  | succ n ih =>
    simp only [ctrCrypt]
    have hd : l.drop 16 = [] ∨ (l.take 16).length = 16 := by
      rcases Nat.lt_or_ge l.length 16 with h | h
      · exact .inl (List.drop_eq_nil_of_le (by omega))
      · exact .inr (by simp; omega)
    rcases hd with h | h
    · have hn : ctrCrypt ks (c + 1) n [] = [] := List.eq_nil_of_length_eq_zero (by simp)
      have hl : l.take 16 = l := by
        have := List.take_append_drop 16 l
        rw [h, List.append_nil] at this; exact this
      have hs : l.length ≤ 16 := by rw [← hl]; simp
      rw [h, hn, List.append_nil, hl, List.take_of_length_le (by simpa using hs), List.drop_eq_nil_of_le (by simpa using hs), hn,
        List.append_nil, xorStream_twice]
    · have hx : (xorStream (l.take 16) (aesBlock ks (beBytes c 16))).length = 16 := by rw [xorStream_length, h]
      rw [List.take_left' hx, List.drop_left' hx, ih, xorStream_twice, List.take_append_drop]

@[simp] theorem gcmCrypt_length (ks : List (List Nat)) (iv : Nat) (l : List Byte) : (gcmCrypt ks iv l).length = l.length := by simp [gcmCrypt]

@[simp] theorem gcmCrypt_twice (ks : List (List Nat)) (iv : Nat) (l : List Byte) : gcmCrypt ks iv (gcmCrypt ks iv l) = l := by
  unfold gcmCrypt; rw [ctrCrypt_length]; exact ctrCrypt_twice ..

@[simp] theorem gcmTag_length (ks : List (List Nat)) (iv : Nat) (a c : List Byte) : (gcmTag ks iv a c).length = 16 := by simp [gcmTag, beBytes]

@[simp] theorem packetBody_length (l : List Token) : (packetBody l).length = 32 * l.length + 8 := by
  simp only [packetBody, List.length_append, List.length_map, List.length_range, List.length_flatMap, leBytes_length]
  induction l with
  | nil => rfl
  | cons _ _ ih => simp at ih ⊢; omega

/-- The tokens of a body are those that it was made of. -/
theorem flatMap_drop_take (l : List Token) (r : List Byte) (j : Nat) (h : j < l.length) :
    ((l.flatMap (fun t => leBytes t.data.toNat 32) ++ r).drop (32 * j)).take 32 = leBytes (l[j]).data.toNat 32 := by
  induction l generalizing j with
  | nil => simp at h
  | cons t l ih =>
    cases j with
    | zero => simp [List.take_left']
    | succ j =>
      have : 32 * (j + 1) = (leBytes t.data.toNat 32).length + 32 * j := by simp; omega
      rw [List.flatMap_cons, List.append_assoc, this, ← List.drop_drop, List.drop_left, List.getElem_cons_succ]
      exact ih j (by simpa using h)

theorem tokenOf_body (l : List Token) (h : l.length ≤ 8) (j : Nat) (hj : j < l.length) :
    tokenOf (((packetBody l).drop (32 * j)).take 32) ((packetBody l).getD (32 * l.length + j) 0) = l[j] := by
  have ht : (packetBody l).getD (32 * l.length + j) 0 = 0#3 ++ (l[j]).ct.code ++ (l[j]).ft := by
    have hl : (l.flatMap (fun t => leBytes t.data.toNat 32)).length = 32 * l.length := by
      have := packetBody_length l
      simp only [packetBody, List.length_append, List.length_map, List.length_range] at this; omega
    have : j < 8 := by omega
    simp [packetBody, List.getD_eq_getElem?_getD, hl, this, hj]
  rw [ht, packetBody, flatMap_drop_take _ _ _ hj]
  unfold tokenOf
  rw [leNat_leBytes]
  have hd : BitVec.ofNat 256 ((l[j]).data.toNat % 256 ^ 32) = (l[j]).data := by
    rw [Nat.mod_eq_of_lt (by have := (l[j]).data.isLt; norm_num at this ⊢; exact this)]; simp
  have hc : ∀ t : Token, ({ ct := Tag.ofCode (bits (0#3 ++ t.ct.code ++ t.ft) 3 2), ft := bits (0#3 ++ t.ct.code ++ t.ft) 0 3, data := t.data } : Token) = t := by
    rintro ⟨ct, ft, data⟩
    have h1 : bits (0#3 ++ ct.code ++ ft) 0 3 = ft := by revert ft; cases ct <;> decide
    have h2 : Tag.ofCode (bits (0#3 ++ ct.code ++ ft) 3 2) = ct := by revert ft; cases ct <;> decide
    simp only [h1, h2]
  rw [hd]; exact hc _

theorem bits_append_high {a b : Nat} (x : BitVec a) (y : BitVec b) (lo n : Nat) (h : b ≤ lo) : bits (x ++ y) lo n = bits x (lo - b) n := by
  unfold bits; ext i hi
  have : ¬ lo + i < b := by omega
  simp [BitVec.getLsbD_append, this, Nat.sub_add_comm h]
theorem bits_append_low {a b : Nat} (x : BitVec a) (y : BitVec b) (lo n : Nat) (h : lo + n ≤ b) : bits (x ++ y) lo n = bits y lo n := by
  unfold bits; ext i hi
  have : lo + i < b := by omega
  simp [BitVec.getLsbD_append, this]
theorem bits_all {n : Nat} (x : BitVec n) : bits x 0 n = x := by unfold bits; ext i hi; simp

/-- The header holds its fields where R312 has them. -/
theorem packetHeader_fields (p : Packet) : bits (packetHeader p) 0 8 = 0x46 ∧ bits (packetHeader p) 8 4 = p.ver ∧ bits (packetHeader p) 12 10 = p.src
    ∧ bits (packetHeader p) 32 10 = p.dst ∧ bits (packetHeader p) 48 4 = BitVec.ofNat 4 (wireToks p).length ∧ bits (packetHeader p) 52 4 = p.type
    ∧ bits (packetHeader p) 56 8 = p.kgen ∧ bits (packetHeader p) 64 16 = p.circ ∧ bits (packetHeader p) 80 48 = p.seq := by
  unfold packetHeader
  refine ⟨?_, ?_, ?_, ?_, ?_, ?_, ?_, ?_, ?_⟩ <;>
  (repeat (first | exact bits_all _ | refine (bits_append_low _ _ _ _ (by decide)).trans ?_ | refine (bits_append_high _ _ _ _ (by decide)).trans ?_))
/-- A packet of at most eight payload tokens opens, under the key that it was sealed under, as what it was, and its tag verifies (R312, R313). -/
theorem openPacket_sealPacket (key : List Byte) (p : Packet) (h : (wireToks p).length ≤ 8) (hw : worded p.circ p.type = true ∨ p.word = 0) :
    openPacket key (sealPacket key p) = (p, true) := by
  have hh : BitVec.ofNat 128 (leNat (leBytes (packetHeader p).toNat 16)) = packetHeader p := by
    rw [leNat_leBytes, Nat.mod_eq_of_lt (by have := (packetHeader p).isLt; norm_num at this ⊢; exact this)]; simp
  obtain ⟨h0, h1, h2, h3, h4, h5, h6, h7, h8⟩ := packetHeader_fields p
  have hn : (BitVec.ofNat 4 (wireToks p).length).toNat = (wireToks p).length := by
    rw [BitVec.toNat_ofNat, Nat.mod_eq_of_lt (by norm_num; omega)]
  have hl : (leBytes (packetHeader p).toNat 16).length = 16 := leBytes_length ..
  have hm : (List.range (wireToks p).length).map (fun j => tokenOf (((packetBody (wireToks p)).drop (32 * j)).take 32)
      ((packetBody (wireToks p)).getD (32 * (wireToks p).length + j) 0)) = wireToks p := by
    apply List.ext_getElem
    · simp
    · intro i h1 h2
      simpa using tokenOf_body _ h i h2
  have hp : packetOf (packetHeader p) (wireToks p) = p := by
    obtain ⟨seq, circ, kgen, type, dst, src, ver, payload, word⟩ := p
    simp only at hw
    simp only [packetOf, h1, h2, h3, h5, h6, h7, h8, wireToks]
    cases hc : worded circ type
    · simp only [hc, Bool.false_eq_true, false_or] at hw
      simp [hw]
    · simp
  have hct : (gcmCrypt (keySchedule (key.map BitVec.toNat)) (packetIv p.seq p.circ p.src p.dst).toNat (packetBody (wireToks p))).length
      = 32 * (wireToks p).length + 8 := by simp
  have hd : ∀ (a b c : List Byte), a.length = 16 → b.length = 32 * (wireToks p).length + 8 → (a ++ (b ++ c)).drop (24 + 32 * (wireToks p).length) = c := by
    intro a b c ha hb
    rw [← List.append_assoc]
    exact List.drop_left' (by rw [List.length_append]; omega)
  simp only [openPacket, sealPacket, List.append_assoc, List.take_left' hl, List.drop_left' hl, hh, h0, h2, h3, h4, h7, h8, hn,
    List.take_left' hct, hd _ _ _ hl hct, List.take_left' (gcmTag_length ..), gcmCrypt_twice, hm, hp, beq_self_eq_true, Bool.and_true, Bool.true_and]
  simp [h]

end Sys2Proof.Machine
end

