-- ==== Sys2Proof/Laws/State.lean ====
section
/-!
SUPPORT. Laws/State.lean: what each accessor of Access.lean leaves of State, one lemma for each field, so that no proof unfolds a record update.
-/
namespace Sys2Proof.Machine

/-! ### State.setElem -/

@[simp] theorem State.setElem_now (s : State) (el : Nat) (e : Elem) : (s.setElem el e).now = s.now := rfl
@[simp] theorem State.setElem_pchs (s : State) (el : Nat) (e : Elem) : (s.setElem el e).pchs = s.pchs := rfl
@[simp] theorem State.setElem_stkRegs (s : State) (el : Nat) (e : Elem) : (s.setElem el e).stkRegs = s.stkRegs := rfl
@[simp] theorem State.setElem_dies (s : State) (el : Nat) (e : Elem) : (s.setElem el e).dies = s.dies := rfl
@[simp] theorem State.setElem_mem (s : State) (el : Nat) (e : Elem) : (s.setElem el e).mem = s.mem := rfl
@[simp] theorem State.setElem_insts (s : State) (el : Nat) (e : Elem) : (s.setElem el e).insts = s.insts := rfl
@[simp] theorem State.setElem_regions (s : State) (el : Nat) (e : Elem) : (s.setElem el e).regions = s.regions := rfl
@[simp] theorem State.setElem_circs (s : State) (el : Nat) (e : Elem) : (s.setElem el e).circs = s.circs := rfl
@[simp] theorem State.setElem_cmd (s : State) (el : Nat) (e : Elem) : (s.setElem el e).cmd = s.cmd := rfl
@[simp] theorem State.setElem_ptp (s : State) (el : Nat) (e : Elem) : (s.setElem el e).ptp = s.ptp := rfl
@[simp] theorem State.setElem_bar (s : State) (el : Nat) (e : Elem) : (s.setElem el e).bar = s.bar := rfl
@[simp] theorem State.setElem_mon (s : State) (el : Nat) (e : Elem) : (s.setElem el e).mon = s.mon := rfl
@[simp] theorem State.setElem_ports (s : State) (el : Nat) (e : Elem) : (s.setElem el e).ports = s.ports := rfl
@[simp] theorem State.setElem_dom (s : State) (el : Nat) (e : Elem) : (s.setElem el e).dom = s.dom := rfl
@[simp] theorem State.setElem_colls (s : State) (el : Nat) (e : Elem) : (s.setElem el e).colls = s.colls := rfl
@[simp] theorem State.setElem_defects (s : State) (el : Nat) (e : Elem) : (s.setElem el e).defects = s.defects := rfl
@[simp] theorem State.setElem_spadq (s : State) (el : Nat) (e : Elem) : (s.setElem el e).spadq = s.spadq := rfl
@[simp] theorem State.setElem_sched (s : State) (el : Nat) (e : Elem) : (s.setElem el e).sched = s.sched := rfl
@[simp] theorem State.setElem_focus (s : State) (el : Nat) (e : Elem) : (s.setElem el e).focus = s.focus := rfl
@[simp] theorem State.setElem_nextId (s : State) (el : Nat) (e : Elem) : (s.setElem el e).nextId = s.nextId := rfl
@[simp] theorem State.setElem_free (s : State) (el : Nat) (e : Elem) : (s.setElem el e).free = s.free := rfl
@[simp] theorem State.setElem_elems (s : State) (el : Nat) (e : Elem) : (s.setElem el e).elems = s.elems.put el e := rfl

/-! ### State.modElem -/

@[simp] theorem State.modElem_now (s : State) (el : Nat) (f : Elem → Elem) : (s.modElem el f).now = s.now := rfl
@[simp] theorem State.modElem_pchs (s : State) (el : Nat) (f : Elem → Elem) : (s.modElem el f).pchs = s.pchs := rfl
@[simp] theorem State.modElem_stkRegs (s : State) (el : Nat) (f : Elem → Elem) : (s.modElem el f).stkRegs = s.stkRegs := rfl
@[simp] theorem State.modElem_dies (s : State) (el : Nat) (f : Elem → Elem) : (s.modElem el f).dies = s.dies := rfl
@[simp] theorem State.modElem_mem (s : State) (el : Nat) (f : Elem → Elem) : (s.modElem el f).mem = s.mem := rfl
@[simp] theorem State.modElem_insts (s : State) (el : Nat) (f : Elem → Elem) : (s.modElem el f).insts = s.insts := rfl
@[simp] theorem State.modElem_regions (s : State) (el : Nat) (f : Elem → Elem) : (s.modElem el f).regions = s.regions := rfl
@[simp] theorem State.modElem_circs (s : State) (el : Nat) (f : Elem → Elem) : (s.modElem el f).circs = s.circs := rfl
@[simp] theorem State.modElem_cmd (s : State) (el : Nat) (f : Elem → Elem) : (s.modElem el f).cmd = s.cmd := rfl
@[simp] theorem State.modElem_ptp (s : State) (el : Nat) (f : Elem → Elem) : (s.modElem el f).ptp = s.ptp := rfl
@[simp] theorem State.modElem_bar (s : State) (el : Nat) (f : Elem → Elem) : (s.modElem el f).bar = s.bar := rfl
@[simp] theorem State.modElem_mon (s : State) (el : Nat) (f : Elem → Elem) : (s.modElem el f).mon = s.mon := rfl
@[simp] theorem State.modElem_ports (s : State) (el : Nat) (f : Elem → Elem) : (s.modElem el f).ports = s.ports := rfl
@[simp] theorem State.modElem_dom (s : State) (el : Nat) (f : Elem → Elem) : (s.modElem el f).dom = s.dom := rfl
@[simp] theorem State.modElem_colls (s : State) (el : Nat) (f : Elem → Elem) : (s.modElem el f).colls = s.colls := rfl
@[simp] theorem State.modElem_defects (s : State) (el : Nat) (f : Elem → Elem) : (s.modElem el f).defects = s.defects := rfl
@[simp] theorem State.modElem_spadq (s : State) (el : Nat) (f : Elem → Elem) : (s.modElem el f).spadq = s.spadq := rfl
@[simp] theorem State.modElem_sched (s : State) (el : Nat) (f : Elem → Elem) : (s.modElem el f).sched = s.sched := rfl
@[simp] theorem State.modElem_focus (s : State) (el : Nat) (f : Elem → Elem) : (s.modElem el f).focus = s.focus := rfl
@[simp] theorem State.modElem_nextId (s : State) (el : Nat) (f : Elem → Elem) : (s.modElem el f).nextId = s.nextId := rfl
@[simp] theorem State.modElem_free (s : State) (el : Nat) (f : Elem → Elem) : (s.modElem el f).free = s.free := rfl

/-! ### State.modCtx -/

@[simp] theorem State.modCtx_now (s : State) (el : Nat) (f : Ctx → Ctx) : (s.modCtx el f).now = s.now := rfl
@[simp] theorem State.modCtx_pchs (s : State) (el : Nat) (f : Ctx → Ctx) : (s.modCtx el f).pchs = s.pchs := rfl
@[simp] theorem State.modCtx_stkRegs (s : State) (el : Nat) (f : Ctx → Ctx) : (s.modCtx el f).stkRegs = s.stkRegs := rfl
@[simp] theorem State.modCtx_dies (s : State) (el : Nat) (f : Ctx → Ctx) : (s.modCtx el f).dies = s.dies := rfl
@[simp] theorem State.modCtx_mem (s : State) (el : Nat) (f : Ctx → Ctx) : (s.modCtx el f).mem = s.mem := rfl
@[simp] theorem State.modCtx_insts (s : State) (el : Nat) (f : Ctx → Ctx) : (s.modCtx el f).insts = s.insts := rfl
@[simp] theorem State.modCtx_regions (s : State) (el : Nat) (f : Ctx → Ctx) : (s.modCtx el f).regions = s.regions := rfl
@[simp] theorem State.modCtx_circs (s : State) (el : Nat) (f : Ctx → Ctx) : (s.modCtx el f).circs = s.circs := rfl
@[simp] theorem State.modCtx_cmd (s : State) (el : Nat) (f : Ctx → Ctx) : (s.modCtx el f).cmd = s.cmd := rfl
@[simp] theorem State.modCtx_ptp (s : State) (el : Nat) (f : Ctx → Ctx) : (s.modCtx el f).ptp = s.ptp := rfl
@[simp] theorem State.modCtx_bar (s : State) (el : Nat) (f : Ctx → Ctx) : (s.modCtx el f).bar = s.bar := rfl
@[simp] theorem State.modCtx_mon (s : State) (el : Nat) (f : Ctx → Ctx) : (s.modCtx el f).mon = s.mon := rfl
@[simp] theorem State.modCtx_ports (s : State) (el : Nat) (f : Ctx → Ctx) : (s.modCtx el f).ports = s.ports := rfl
@[simp] theorem State.modCtx_dom (s : State) (el : Nat) (f : Ctx → Ctx) : (s.modCtx el f).dom = s.dom := rfl
@[simp] theorem State.modCtx_colls (s : State) (el : Nat) (f : Ctx → Ctx) : (s.modCtx el f).colls = s.colls := rfl
@[simp] theorem State.modCtx_defects (s : State) (el : Nat) (f : Ctx → Ctx) : (s.modCtx el f).defects = s.defects := rfl
@[simp] theorem State.modCtx_spadq (s : State) (el : Nat) (f : Ctx → Ctx) : (s.modCtx el f).spadq = s.spadq := rfl
@[simp] theorem State.modCtx_sched (s : State) (el : Nat) (f : Ctx → Ctx) : (s.modCtx el f).sched = s.sched := rfl
@[simp] theorem State.modCtx_focus (s : State) (el : Nat) (f : Ctx → Ctx) : (s.modCtx el f).focus = s.focus := rfl
@[simp] theorem State.modCtx_nextId (s : State) (el : Nat) (f : Ctx → Ctx) : (s.modCtx el f).nextId = s.nextId := rfl
@[simp] theorem State.modCtx_free (s : State) (el : Nat) (f : Ctx → Ctx) : (s.modCtx el f).free = s.free := rfl

/-! ### State.modCtxOf -/

@[simp] theorem State.modCtxOf_now (s : State) (el i : Nat) (f : Ctx → Ctx) : (s.modCtxOf el i f).now = s.now := rfl
@[simp] theorem State.modCtxOf_pchs (s : State) (el i : Nat) (f : Ctx → Ctx) : (s.modCtxOf el i f).pchs = s.pchs := rfl
@[simp] theorem State.modCtxOf_stkRegs (s : State) (el i : Nat) (f : Ctx → Ctx) : (s.modCtxOf el i f).stkRegs = s.stkRegs := rfl
@[simp] theorem State.modCtxOf_dies (s : State) (el i : Nat) (f : Ctx → Ctx) : (s.modCtxOf el i f).dies = s.dies := rfl
@[simp] theorem State.modCtxOf_mem (s : State) (el i : Nat) (f : Ctx → Ctx) : (s.modCtxOf el i f).mem = s.mem := rfl
@[simp] theorem State.modCtxOf_insts (s : State) (el i : Nat) (f : Ctx → Ctx) : (s.modCtxOf el i f).insts = s.insts := rfl
@[simp] theorem State.modCtxOf_regions (s : State) (el i : Nat) (f : Ctx → Ctx) : (s.modCtxOf el i f).regions = s.regions := rfl
@[simp] theorem State.modCtxOf_circs (s : State) (el i : Nat) (f : Ctx → Ctx) : (s.modCtxOf el i f).circs = s.circs := rfl
@[simp] theorem State.modCtxOf_cmd (s : State) (el i : Nat) (f : Ctx → Ctx) : (s.modCtxOf el i f).cmd = s.cmd := rfl
@[simp] theorem State.modCtxOf_ptp (s : State) (el i : Nat) (f : Ctx → Ctx) : (s.modCtxOf el i f).ptp = s.ptp := rfl
@[simp] theorem State.modCtxOf_bar (s : State) (el i : Nat) (f : Ctx → Ctx) : (s.modCtxOf el i f).bar = s.bar := rfl
@[simp] theorem State.modCtxOf_mon (s : State) (el i : Nat) (f : Ctx → Ctx) : (s.modCtxOf el i f).mon = s.mon := rfl
@[simp] theorem State.modCtxOf_ports (s : State) (el i : Nat) (f : Ctx → Ctx) : (s.modCtxOf el i f).ports = s.ports := rfl
@[simp] theorem State.modCtxOf_dom (s : State) (el i : Nat) (f : Ctx → Ctx) : (s.modCtxOf el i f).dom = s.dom := rfl
@[simp] theorem State.modCtxOf_colls (s : State) (el i : Nat) (f : Ctx → Ctx) : (s.modCtxOf el i f).colls = s.colls := rfl
@[simp] theorem State.modCtxOf_defects (s : State) (el i : Nat) (f : Ctx → Ctx) : (s.modCtxOf el i f).defects = s.defects := rfl
@[simp] theorem State.modCtxOf_spadq (s : State) (el i : Nat) (f : Ctx → Ctx) : (s.modCtxOf el i f).spadq = s.spadq := rfl
@[simp] theorem State.modCtxOf_sched (s : State) (el i : Nat) (f : Ctx → Ctx) : (s.modCtxOf el i f).sched = s.sched := rfl
@[simp] theorem State.modCtxOf_focus (s : State) (el i : Nat) (f : Ctx → Ctx) : (s.modCtxOf el i f).focus = s.focus := rfl
@[simp] theorem State.modCtxOf_nextId (s : State) (el i : Nat) (f : Ctx → Ctx) : (s.modCtxOf el i f).nextId = s.nextId := rfl
@[simp] theorem State.modCtxOf_free (s : State) (el i : Nat) (f : Ctx → Ctx) : (s.modCtxOf el i f).free = s.free := rfl

/-! ### State.modRegs -/

@[simp] theorem State.modRegs_now (s : State) (el : Nat) (f : Regs → Regs) : (s.modRegs el f).now = s.now := rfl
@[simp] theorem State.modRegs_pchs (s : State) (el : Nat) (f : Regs → Regs) : (s.modRegs el f).pchs = s.pchs := rfl
@[simp] theorem State.modRegs_stkRegs (s : State) (el : Nat) (f : Regs → Regs) : (s.modRegs el f).stkRegs = s.stkRegs := rfl
@[simp] theorem State.modRegs_dies (s : State) (el : Nat) (f : Regs → Regs) : (s.modRegs el f).dies = s.dies := rfl
@[simp] theorem State.modRegs_mem (s : State) (el : Nat) (f : Regs → Regs) : (s.modRegs el f).mem = s.mem := rfl
@[simp] theorem State.modRegs_insts (s : State) (el : Nat) (f : Regs → Regs) : (s.modRegs el f).insts = s.insts := rfl
@[simp] theorem State.modRegs_regions (s : State) (el : Nat) (f : Regs → Regs) : (s.modRegs el f).regions = s.regions := rfl
@[simp] theorem State.modRegs_circs (s : State) (el : Nat) (f : Regs → Regs) : (s.modRegs el f).circs = s.circs := rfl
@[simp] theorem State.modRegs_cmd (s : State) (el : Nat) (f : Regs → Regs) : (s.modRegs el f).cmd = s.cmd := rfl
@[simp] theorem State.modRegs_ptp (s : State) (el : Nat) (f : Regs → Regs) : (s.modRegs el f).ptp = s.ptp := rfl
@[simp] theorem State.modRegs_bar (s : State) (el : Nat) (f : Regs → Regs) : (s.modRegs el f).bar = s.bar := rfl
@[simp] theorem State.modRegs_mon (s : State) (el : Nat) (f : Regs → Regs) : (s.modRegs el f).mon = s.mon := rfl
@[simp] theorem State.modRegs_ports (s : State) (el : Nat) (f : Regs → Regs) : (s.modRegs el f).ports = s.ports := rfl
@[simp] theorem State.modRegs_dom (s : State) (el : Nat) (f : Regs → Regs) : (s.modRegs el f).dom = s.dom := rfl
@[simp] theorem State.modRegs_colls (s : State) (el : Nat) (f : Regs → Regs) : (s.modRegs el f).colls = s.colls := rfl
@[simp] theorem State.modRegs_defects (s : State) (el : Nat) (f : Regs → Regs) : (s.modRegs el f).defects = s.defects := rfl
@[simp] theorem State.modRegs_spadq (s : State) (el : Nat) (f : Regs → Regs) : (s.modRegs el f).spadq = s.spadq := rfl
@[simp] theorem State.modRegs_sched (s : State) (el : Nat) (f : Regs → Regs) : (s.modRegs el f).sched = s.sched := rfl
@[simp] theorem State.modRegs_focus (s : State) (el : Nat) (f : Regs → Regs) : (s.modRegs el f).focus = s.focus := rfl
@[simp] theorem State.modRegs_nextId (s : State) (el : Nat) (f : Regs → Regs) : (s.modRegs el f).nextId = s.nextId := rfl
@[simp] theorem State.modRegs_free (s : State) (el : Nat) (f : Regs → Regs) : (s.modRegs el f).free = s.free := rfl

/-! ### State.modPorts -/

@[simp] theorem State.modPorts_now (s : State) (el : Nat) (f : Ports → Ports) : (s.modPorts el f).now = s.now := rfl
@[simp] theorem State.modPorts_pchs (s : State) (el : Nat) (f : Ports → Ports) : (s.modPorts el f).pchs = s.pchs := rfl
@[simp] theorem State.modPorts_stkRegs (s : State) (el : Nat) (f : Ports → Ports) : (s.modPorts el f).stkRegs = s.stkRegs := rfl
@[simp] theorem State.modPorts_dies (s : State) (el : Nat) (f : Ports → Ports) : (s.modPorts el f).dies = s.dies := rfl
@[simp] theorem State.modPorts_mem (s : State) (el : Nat) (f : Ports → Ports) : (s.modPorts el f).mem = s.mem := rfl
@[simp] theorem State.modPorts_insts (s : State) (el : Nat) (f : Ports → Ports) : (s.modPorts el f).insts = s.insts := rfl
@[simp] theorem State.modPorts_regions (s : State) (el : Nat) (f : Ports → Ports) : (s.modPorts el f).regions = s.regions := rfl
@[simp] theorem State.modPorts_circs (s : State) (el : Nat) (f : Ports → Ports) : (s.modPorts el f).circs = s.circs := rfl
@[simp] theorem State.modPorts_cmd (s : State) (el : Nat) (f : Ports → Ports) : (s.modPorts el f).cmd = s.cmd := rfl
@[simp] theorem State.modPorts_ptp (s : State) (el : Nat) (f : Ports → Ports) : (s.modPorts el f).ptp = s.ptp := rfl
@[simp] theorem State.modPorts_bar (s : State) (el : Nat) (f : Ports → Ports) : (s.modPorts el f).bar = s.bar := rfl
@[simp] theorem State.modPorts_mon (s : State) (el : Nat) (f : Ports → Ports) : (s.modPorts el f).mon = s.mon := rfl
@[simp] theorem State.modPorts_ports (s : State) (el : Nat) (f : Ports → Ports) : (s.modPorts el f).ports = s.ports := rfl
@[simp] theorem State.modPorts_dom (s : State) (el : Nat) (f : Ports → Ports) : (s.modPorts el f).dom = s.dom := rfl
@[simp] theorem State.modPorts_colls (s : State) (el : Nat) (f : Ports → Ports) : (s.modPorts el f).colls = s.colls := rfl
@[simp] theorem State.modPorts_defects (s : State) (el : Nat) (f : Ports → Ports) : (s.modPorts el f).defects = s.defects := rfl
@[simp] theorem State.modPorts_spadq (s : State) (el : Nat) (f : Ports → Ports) : (s.modPorts el f).spadq = s.spadq := rfl
@[simp] theorem State.modPorts_sched (s : State) (el : Nat) (f : Ports → Ports) : (s.modPorts el f).sched = s.sched := rfl
@[simp] theorem State.modPorts_focus (s : State) (el : Nat) (f : Ports → Ports) : (s.modPorts el f).focus = s.focus := rfl
@[simp] theorem State.modPorts_nextId (s : State) (el : Nat) (f : Ports → Ports) : (s.modPorts el f).nextId = s.nextId := rfl
@[simp] theorem State.modPorts_free (s : State) (el : Nat) (f : Ports → Ports) : (s.modPorts el f).free = s.free := rfl

/-! ### State.modMt -/

@[simp] theorem State.modMt_now (s : State) (el : Nat) (f : MtPart → MtPart) : (s.modMt el f).now = s.now := rfl
@[simp] theorem State.modMt_pchs (s : State) (el : Nat) (f : MtPart → MtPart) : (s.modMt el f).pchs = s.pchs := rfl
@[simp] theorem State.modMt_stkRegs (s : State) (el : Nat) (f : MtPart → MtPart) : (s.modMt el f).stkRegs = s.stkRegs := rfl
@[simp] theorem State.modMt_dies (s : State) (el : Nat) (f : MtPart → MtPart) : (s.modMt el f).dies = s.dies := rfl
@[simp] theorem State.modMt_mem (s : State) (el : Nat) (f : MtPart → MtPart) : (s.modMt el f).mem = s.mem := rfl
@[simp] theorem State.modMt_insts (s : State) (el : Nat) (f : MtPart → MtPart) : (s.modMt el f).insts = s.insts := rfl
@[simp] theorem State.modMt_regions (s : State) (el : Nat) (f : MtPart → MtPart) : (s.modMt el f).regions = s.regions := rfl
@[simp] theorem State.modMt_circs (s : State) (el : Nat) (f : MtPart → MtPart) : (s.modMt el f).circs = s.circs := rfl
@[simp] theorem State.modMt_cmd (s : State) (el : Nat) (f : MtPart → MtPart) : (s.modMt el f).cmd = s.cmd := rfl
@[simp] theorem State.modMt_ptp (s : State) (el : Nat) (f : MtPart → MtPart) : (s.modMt el f).ptp = s.ptp := rfl
@[simp] theorem State.modMt_bar (s : State) (el : Nat) (f : MtPart → MtPart) : (s.modMt el f).bar = s.bar := rfl
@[simp] theorem State.modMt_mon (s : State) (el : Nat) (f : MtPart → MtPart) : (s.modMt el f).mon = s.mon := rfl
@[simp] theorem State.modMt_ports (s : State) (el : Nat) (f : MtPart → MtPart) : (s.modMt el f).ports = s.ports := rfl
@[simp] theorem State.modMt_dom (s : State) (el : Nat) (f : MtPart → MtPart) : (s.modMt el f).dom = s.dom := rfl
@[simp] theorem State.modMt_colls (s : State) (el : Nat) (f : MtPart → MtPart) : (s.modMt el f).colls = s.colls := rfl
@[simp] theorem State.modMt_defects (s : State) (el : Nat) (f : MtPart → MtPart) : (s.modMt el f).defects = s.defects := rfl
@[simp] theorem State.modMt_spadq (s : State) (el : Nat) (f : MtPart → MtPart) : (s.modMt el f).spadq = s.spadq := rfl
@[simp] theorem State.modMt_sched (s : State) (el : Nat) (f : MtPart → MtPart) : (s.modMt el f).sched = s.sched := rfl
@[simp] theorem State.modMt_focus (s : State) (el : Nat) (f : MtPart → MtPart) : (s.modMt el f).focus = s.focus := rfl
@[simp] theorem State.modMt_nextId (s : State) (el : Nat) (f : MtPart → MtPart) : (s.modMt el f).nextId = s.nextId := rfl
@[simp] theorem State.modMt_free (s : State) (el : Nat) (f : MtPart → MtPart) : (s.modMt el f).free = s.free := rfl

/-! ### State.modMxu -/

@[simp] theorem State.modMxu_now (s : State) (el : Nat) (f : Mxu → Mxu) : (s.modMxu el f).now = s.now := rfl
@[simp] theorem State.modMxu_pchs (s : State) (el : Nat) (f : Mxu → Mxu) : (s.modMxu el f).pchs = s.pchs := rfl
@[simp] theorem State.modMxu_stkRegs (s : State) (el : Nat) (f : Mxu → Mxu) : (s.modMxu el f).stkRegs = s.stkRegs := rfl
@[simp] theorem State.modMxu_dies (s : State) (el : Nat) (f : Mxu → Mxu) : (s.modMxu el f).dies = s.dies := rfl
@[simp] theorem State.modMxu_mem (s : State) (el : Nat) (f : Mxu → Mxu) : (s.modMxu el f).mem = s.mem := rfl
@[simp] theorem State.modMxu_insts (s : State) (el : Nat) (f : Mxu → Mxu) : (s.modMxu el f).insts = s.insts := rfl
@[simp] theorem State.modMxu_regions (s : State) (el : Nat) (f : Mxu → Mxu) : (s.modMxu el f).regions = s.regions := rfl
@[simp] theorem State.modMxu_circs (s : State) (el : Nat) (f : Mxu → Mxu) : (s.modMxu el f).circs = s.circs := rfl
@[simp] theorem State.modMxu_cmd (s : State) (el : Nat) (f : Mxu → Mxu) : (s.modMxu el f).cmd = s.cmd := rfl
@[simp] theorem State.modMxu_ptp (s : State) (el : Nat) (f : Mxu → Mxu) : (s.modMxu el f).ptp = s.ptp := rfl
@[simp] theorem State.modMxu_bar (s : State) (el : Nat) (f : Mxu → Mxu) : (s.modMxu el f).bar = s.bar := rfl
@[simp] theorem State.modMxu_mon (s : State) (el : Nat) (f : Mxu → Mxu) : (s.modMxu el f).mon = s.mon := rfl
@[simp] theorem State.modMxu_ports (s : State) (el : Nat) (f : Mxu → Mxu) : (s.modMxu el f).ports = s.ports := rfl
@[simp] theorem State.modMxu_dom (s : State) (el : Nat) (f : Mxu → Mxu) : (s.modMxu el f).dom = s.dom := rfl
@[simp] theorem State.modMxu_colls (s : State) (el : Nat) (f : Mxu → Mxu) : (s.modMxu el f).colls = s.colls := rfl
@[simp] theorem State.modMxu_defects (s : State) (el : Nat) (f : Mxu → Mxu) : (s.modMxu el f).defects = s.defects := rfl
@[simp] theorem State.modMxu_spadq (s : State) (el : Nat) (f : Mxu → Mxu) : (s.modMxu el f).spadq = s.spadq := rfl
@[simp] theorem State.modMxu_sched (s : State) (el : Nat) (f : Mxu → Mxu) : (s.modMxu el f).sched = s.sched := rfl
@[simp] theorem State.modMxu_focus (s : State) (el : Nat) (f : Mxu → Mxu) : (s.modMxu el f).focus = s.focus := rfl
@[simp] theorem State.modMxu_nextId (s : State) (el : Nat) (f : Mxu → Mxu) : (s.modMxu el f).nextId = s.nextId := rfl
@[simp] theorem State.modMxu_free (s : State) (el : Nat) (f : Mxu → Mxu) : (s.modMxu el f).free = s.free := rfl

/-! ### State.modGw -/

@[simp] theorem State.modGw_now (s : State) (el : Nat) (f : GwPart → GwPart) : (s.modGw el f).now = s.now := rfl
@[simp] theorem State.modGw_pchs (s : State) (el : Nat) (f : GwPart → GwPart) : (s.modGw el f).pchs = s.pchs := rfl
@[simp] theorem State.modGw_stkRegs (s : State) (el : Nat) (f : GwPart → GwPart) : (s.modGw el f).stkRegs = s.stkRegs := rfl
@[simp] theorem State.modGw_dies (s : State) (el : Nat) (f : GwPart → GwPart) : (s.modGw el f).dies = s.dies := rfl
@[simp] theorem State.modGw_mem (s : State) (el : Nat) (f : GwPart → GwPart) : (s.modGw el f).mem = s.mem := rfl
@[simp] theorem State.modGw_insts (s : State) (el : Nat) (f : GwPart → GwPart) : (s.modGw el f).insts = s.insts := rfl
@[simp] theorem State.modGw_regions (s : State) (el : Nat) (f : GwPart → GwPart) : (s.modGw el f).regions = s.regions := rfl
@[simp] theorem State.modGw_circs (s : State) (el : Nat) (f : GwPart → GwPart) : (s.modGw el f).circs = s.circs := rfl
@[simp] theorem State.modGw_cmd (s : State) (el : Nat) (f : GwPart → GwPart) : (s.modGw el f).cmd = s.cmd := rfl
@[simp] theorem State.modGw_ptp (s : State) (el : Nat) (f : GwPart → GwPart) : (s.modGw el f).ptp = s.ptp := rfl
@[simp] theorem State.modGw_bar (s : State) (el : Nat) (f : GwPart → GwPart) : (s.modGw el f).bar = s.bar := rfl
@[simp] theorem State.modGw_mon (s : State) (el : Nat) (f : GwPart → GwPart) : (s.modGw el f).mon = s.mon := rfl
@[simp] theorem State.modGw_ports (s : State) (el : Nat) (f : GwPart → GwPart) : (s.modGw el f).ports = s.ports := rfl
@[simp] theorem State.modGw_dom (s : State) (el : Nat) (f : GwPart → GwPart) : (s.modGw el f).dom = s.dom := rfl
@[simp] theorem State.modGw_colls (s : State) (el : Nat) (f : GwPart → GwPart) : (s.modGw el f).colls = s.colls := rfl
@[simp] theorem State.modGw_defects (s : State) (el : Nat) (f : GwPart → GwPart) : (s.modGw el f).defects = s.defects := rfl
@[simp] theorem State.modGw_spadq (s : State) (el : Nat) (f : GwPart → GwPart) : (s.modGw el f).spadq = s.spadq := rfl
@[simp] theorem State.modGw_sched (s : State) (el : Nat) (f : GwPart → GwPart) : (s.modGw el f).sched = s.sched := rfl
@[simp] theorem State.modGw_focus (s : State) (el : Nat) (f : GwPart → GwPart) : (s.modGw el f).focus = s.focus := rfl
@[simp] theorem State.modGw_nextId (s : State) (el : Nat) (f : GwPart → GwPart) : (s.modGw el f).nextId = s.nextId := rfl
@[simp] theorem State.modGw_free (s : State) (el : Nat) (f : GwPart → GwPart) : (s.modGw el f).free = s.free := rfl

/-! ### State.modGen -/

@[simp] theorem State.modGen_now (s : State) (el g : Nat) (f : Gen → Gen) : (s.modGen el g f).now = s.now := rfl
@[simp] theorem State.modGen_pchs (s : State) (el g : Nat) (f : Gen → Gen) : (s.modGen el g f).pchs = s.pchs := rfl
@[simp] theorem State.modGen_stkRegs (s : State) (el g : Nat) (f : Gen → Gen) : (s.modGen el g f).stkRegs = s.stkRegs := rfl
@[simp] theorem State.modGen_dies (s : State) (el g : Nat) (f : Gen → Gen) : (s.modGen el g f).dies = s.dies := rfl
@[simp] theorem State.modGen_mem (s : State) (el g : Nat) (f : Gen → Gen) : (s.modGen el g f).mem = s.mem := rfl
@[simp] theorem State.modGen_insts (s : State) (el g : Nat) (f : Gen → Gen) : (s.modGen el g f).insts = s.insts := rfl
@[simp] theorem State.modGen_regions (s : State) (el g : Nat) (f : Gen → Gen) : (s.modGen el g f).regions = s.regions := rfl
@[simp] theorem State.modGen_circs (s : State) (el g : Nat) (f : Gen → Gen) : (s.modGen el g f).circs = s.circs := rfl
@[simp] theorem State.modGen_cmd (s : State) (el g : Nat) (f : Gen → Gen) : (s.modGen el g f).cmd = s.cmd := rfl
@[simp] theorem State.modGen_ptp (s : State) (el g : Nat) (f : Gen → Gen) : (s.modGen el g f).ptp = s.ptp := rfl
@[simp] theorem State.modGen_bar (s : State) (el g : Nat) (f : Gen → Gen) : (s.modGen el g f).bar = s.bar := rfl
@[simp] theorem State.modGen_mon (s : State) (el g : Nat) (f : Gen → Gen) : (s.modGen el g f).mon = s.mon := rfl
@[simp] theorem State.modGen_ports (s : State) (el g : Nat) (f : Gen → Gen) : (s.modGen el g f).ports = s.ports := rfl
@[simp] theorem State.modGen_dom (s : State) (el g : Nat) (f : Gen → Gen) : (s.modGen el g f).dom = s.dom := rfl
@[simp] theorem State.modGen_colls (s : State) (el g : Nat) (f : Gen → Gen) : (s.modGen el g f).colls = s.colls := rfl
@[simp] theorem State.modGen_defects (s : State) (el g : Nat) (f : Gen → Gen) : (s.modGen el g f).defects = s.defects := rfl
@[simp] theorem State.modGen_spadq (s : State) (el g : Nat) (f : Gen → Gen) : (s.modGen el g f).spadq = s.spadq := rfl
@[simp] theorem State.modGen_sched (s : State) (el g : Nat) (f : Gen → Gen) : (s.modGen el g f).sched = s.sched := rfl
@[simp] theorem State.modGen_focus (s : State) (el g : Nat) (f : Gen → Gen) : (s.modGen el g f).focus = s.focus := rfl
@[simp] theorem State.modGen_nextId (s : State) (el g : Nat) (f : Gen → Gen) : (s.modGen el g f).nextId = s.nextId := rfl
@[simp] theorem State.modGen_free (s : State) (el g : Nat) (f : Gen → Gen) : (s.modGen el g f).free = s.free := rfl

/-! ### State.setPch -/

@[simp] theorem State.setPch_now (s : State) (p : Nat) (c : Pch) : (s.setPch p c).now = s.now := rfl
@[simp] theorem State.setPch_elems (s : State) (p : Nat) (c : Pch) : (s.setPch p c).elems = s.elems := rfl
@[simp] theorem State.setPch_stkRegs (s : State) (p : Nat) (c : Pch) : (s.setPch p c).stkRegs = s.stkRegs := rfl
@[simp] theorem State.setPch_dies (s : State) (p : Nat) (c : Pch) : (s.setPch p c).dies = s.dies := rfl
@[simp] theorem State.setPch_mem (s : State) (p : Nat) (c : Pch) : (s.setPch p c).mem = s.mem := rfl
@[simp] theorem State.setPch_insts (s : State) (p : Nat) (c : Pch) : (s.setPch p c).insts = s.insts := rfl
@[simp] theorem State.setPch_regions (s : State) (p : Nat) (c : Pch) : (s.setPch p c).regions = s.regions := rfl
@[simp] theorem State.setPch_circs (s : State) (p : Nat) (c : Pch) : (s.setPch p c).circs = s.circs := rfl
@[simp] theorem State.setPch_cmd (s : State) (p : Nat) (c : Pch) : (s.setPch p c).cmd = s.cmd := rfl
@[simp] theorem State.setPch_ptp (s : State) (p : Nat) (c : Pch) : (s.setPch p c).ptp = s.ptp := rfl
@[simp] theorem State.setPch_bar (s : State) (p : Nat) (c : Pch) : (s.setPch p c).bar = s.bar := rfl
@[simp] theorem State.setPch_mon (s : State) (p : Nat) (c : Pch) : (s.setPch p c).mon = s.mon := rfl
@[simp] theorem State.setPch_ports (s : State) (p : Nat) (c : Pch) : (s.setPch p c).ports = s.ports := rfl
@[simp] theorem State.setPch_dom (s : State) (p : Nat) (c : Pch) : (s.setPch p c).dom = s.dom := rfl
@[simp] theorem State.setPch_colls (s : State) (p : Nat) (c : Pch) : (s.setPch p c).colls = s.colls := rfl
@[simp] theorem State.setPch_defects (s : State) (p : Nat) (c : Pch) : (s.setPch p c).defects = s.defects := rfl
@[simp] theorem State.setPch_spadq (s : State) (p : Nat) (c : Pch) : (s.setPch p c).spadq = s.spadq := rfl
@[simp] theorem State.setPch_sched (s : State) (p : Nat) (c : Pch) : (s.setPch p c).sched = s.sched := rfl
@[simp] theorem State.setPch_focus (s : State) (p : Nat) (c : Pch) : (s.setPch p c).focus = s.focus := rfl
@[simp] theorem State.setPch_nextId (s : State) (p : Nat) (c : Pch) : (s.setPch p c).nextId = s.nextId := rfl
@[simp] theorem State.setPch_free (s : State) (p : Nat) (c : Pch) : (s.setPch p c).free = s.free := rfl
@[simp] theorem State.setPch_pchs (s : State) (p : Nat) (c : Pch) : (s.setPch p c).pchs = s.pchs.put p c := rfl

/-! ### State.modPch -/

@[simp] theorem State.modPch_now (s : State) (p : Nat) (f : Pch → Pch) : (s.modPch p f).now = s.now := rfl
@[simp] theorem State.modPch_elems (s : State) (p : Nat) (f : Pch → Pch) : (s.modPch p f).elems = s.elems := rfl
@[simp] theorem State.modPch_stkRegs (s : State) (p : Nat) (f : Pch → Pch) : (s.modPch p f).stkRegs = s.stkRegs := rfl
@[simp] theorem State.modPch_dies (s : State) (p : Nat) (f : Pch → Pch) : (s.modPch p f).dies = s.dies := rfl
@[simp] theorem State.modPch_mem (s : State) (p : Nat) (f : Pch → Pch) : (s.modPch p f).mem = s.mem := rfl
@[simp] theorem State.modPch_insts (s : State) (p : Nat) (f : Pch → Pch) : (s.modPch p f).insts = s.insts := rfl
@[simp] theorem State.modPch_regions (s : State) (p : Nat) (f : Pch → Pch) : (s.modPch p f).regions = s.regions := rfl
@[simp] theorem State.modPch_circs (s : State) (p : Nat) (f : Pch → Pch) : (s.modPch p f).circs = s.circs := rfl
@[simp] theorem State.modPch_cmd (s : State) (p : Nat) (f : Pch → Pch) : (s.modPch p f).cmd = s.cmd := rfl
@[simp] theorem State.modPch_ptp (s : State) (p : Nat) (f : Pch → Pch) : (s.modPch p f).ptp = s.ptp := rfl
@[simp] theorem State.modPch_bar (s : State) (p : Nat) (f : Pch → Pch) : (s.modPch p f).bar = s.bar := rfl
@[simp] theorem State.modPch_mon (s : State) (p : Nat) (f : Pch → Pch) : (s.modPch p f).mon = s.mon := rfl
@[simp] theorem State.modPch_ports (s : State) (p : Nat) (f : Pch → Pch) : (s.modPch p f).ports = s.ports := rfl
@[simp] theorem State.modPch_dom (s : State) (p : Nat) (f : Pch → Pch) : (s.modPch p f).dom = s.dom := rfl
@[simp] theorem State.modPch_colls (s : State) (p : Nat) (f : Pch → Pch) : (s.modPch p f).colls = s.colls := rfl
@[simp] theorem State.modPch_defects (s : State) (p : Nat) (f : Pch → Pch) : (s.modPch p f).defects = s.defects := rfl
@[simp] theorem State.modPch_spadq (s : State) (p : Nat) (f : Pch → Pch) : (s.modPch p f).spadq = s.spadq := rfl
@[simp] theorem State.modPch_sched (s : State) (p : Nat) (f : Pch → Pch) : (s.modPch p f).sched = s.sched := rfl
@[simp] theorem State.modPch_focus (s : State) (p : Nat) (f : Pch → Pch) : (s.modPch p f).focus = s.focus := rfl
@[simp] theorem State.modPch_nextId (s : State) (p : Nat) (f : Pch → Pch) : (s.modPch p f).nextId = s.nextId := rfl
@[simp] theorem State.modPch_free (s : State) (p : Nat) (f : Pch → Pch) : (s.modPch p f).free = s.free := rfl

/-! ### State.modDie -/

@[simp] theorem State.modDie_now (s : State) (d : Nat) (f : Die → Die) : (s.modDie d f).now = s.now := rfl
@[simp] theorem State.modDie_elems (s : State) (d : Nat) (f : Die → Die) : (s.modDie d f).elems = s.elems := rfl
@[simp] theorem State.modDie_pchs (s : State) (d : Nat) (f : Die → Die) : (s.modDie d f).pchs = s.pchs := rfl
@[simp] theorem State.modDie_stkRegs (s : State) (d : Nat) (f : Die → Die) : (s.modDie d f).stkRegs = s.stkRegs := rfl
@[simp] theorem State.modDie_mem (s : State) (d : Nat) (f : Die → Die) : (s.modDie d f).mem = s.mem := rfl
@[simp] theorem State.modDie_insts (s : State) (d : Nat) (f : Die → Die) : (s.modDie d f).insts = s.insts := rfl
@[simp] theorem State.modDie_regions (s : State) (d : Nat) (f : Die → Die) : (s.modDie d f).regions = s.regions := rfl
@[simp] theorem State.modDie_circs (s : State) (d : Nat) (f : Die → Die) : (s.modDie d f).circs = s.circs := rfl
@[simp] theorem State.modDie_cmd (s : State) (d : Nat) (f : Die → Die) : (s.modDie d f).cmd = s.cmd := rfl
@[simp] theorem State.modDie_ptp (s : State) (d : Nat) (f : Die → Die) : (s.modDie d f).ptp = s.ptp := rfl
@[simp] theorem State.modDie_bar (s : State) (d : Nat) (f : Die → Die) : (s.modDie d f).bar = s.bar := rfl
@[simp] theorem State.modDie_mon (s : State) (d : Nat) (f : Die → Die) : (s.modDie d f).mon = s.mon := rfl
@[simp] theorem State.modDie_ports (s : State) (d : Nat) (f : Die → Die) : (s.modDie d f).ports = s.ports := rfl
@[simp] theorem State.modDie_dom (s : State) (d : Nat) (f : Die → Die) : (s.modDie d f).dom = s.dom := rfl
@[simp] theorem State.modDie_colls (s : State) (d : Nat) (f : Die → Die) : (s.modDie d f).colls = s.colls := rfl
@[simp] theorem State.modDie_defects (s : State) (d : Nat) (f : Die → Die) : (s.modDie d f).defects = s.defects := rfl
@[simp] theorem State.modDie_spadq (s : State) (d : Nat) (f : Die → Die) : (s.modDie d f).spadq = s.spadq := rfl
@[simp] theorem State.modDie_sched (s : State) (d : Nat) (f : Die → Die) : (s.modDie d f).sched = s.sched := rfl
@[simp] theorem State.modDie_focus (s : State) (d : Nat) (f : Die → Die) : (s.modDie d f).focus = s.focus := rfl
@[simp] theorem State.modDie_nextId (s : State) (d : Nat) (f : Die → Die) : (s.modDie d f).nextId = s.nextId := rfl
@[simp] theorem State.modDie_free (s : State) (d : Nat) (f : Die → Die) : (s.modDie d f).free = s.free := rfl
@[simp] theorem State.modDie_dies (s : State) (d : Nat) (f : Die → Die) : (s.modDie d f).dies = s.dies.put d (f (s.die d)) := rfl

/-! ### State.modInst -/

@[simp] theorem State.modInst_now (s : State) (i : Nat) (f : Inst → Inst) : (s.modInst i f).now = s.now := by unfold State.modInst; split <;> rfl
@[simp] theorem State.modInst_elems (s : State) (i : Nat) (f : Inst → Inst) : (s.modInst i f).elems = s.elems := by unfold State.modInst; split <;> rfl
@[simp] theorem State.modInst_pchs (s : State) (i : Nat) (f : Inst → Inst) : (s.modInst i f).pchs = s.pchs := by unfold State.modInst; split <;> rfl
@[simp] theorem State.modInst_stkRegs (s : State) (i : Nat) (f : Inst → Inst) : (s.modInst i f).stkRegs = s.stkRegs := by unfold State.modInst; split <;> rfl
@[simp] theorem State.modInst_dies (s : State) (i : Nat) (f : Inst → Inst) : (s.modInst i f).dies = s.dies := by unfold State.modInst; split <;> rfl
@[simp] theorem State.modInst_mem (s : State) (i : Nat) (f : Inst → Inst) : (s.modInst i f).mem = s.mem := by unfold State.modInst; split <;> rfl
@[simp] theorem State.modInst_regions (s : State) (i : Nat) (f : Inst → Inst) : (s.modInst i f).regions = s.regions := by unfold State.modInst; split <;> rfl
@[simp] theorem State.modInst_circs (s : State) (i : Nat) (f : Inst → Inst) : (s.modInst i f).circs = s.circs := by unfold State.modInst; split <;> rfl
@[simp] theorem State.modInst_cmd (s : State) (i : Nat) (f : Inst → Inst) : (s.modInst i f).cmd = s.cmd := by unfold State.modInst; split <;> rfl
@[simp] theorem State.modInst_ptp (s : State) (i : Nat) (f : Inst → Inst) : (s.modInst i f).ptp = s.ptp := by unfold State.modInst; split <;> rfl
@[simp] theorem State.modInst_bar (s : State) (i : Nat) (f : Inst → Inst) : (s.modInst i f).bar = s.bar := by unfold State.modInst; split <;> rfl
@[simp] theorem State.modInst_mon (s : State) (i : Nat) (f : Inst → Inst) : (s.modInst i f).mon = s.mon := by unfold State.modInst; split <;> rfl
@[simp] theorem State.modInst_ports (s : State) (i : Nat) (f : Inst → Inst) : (s.modInst i f).ports = s.ports := by unfold State.modInst; split <;> rfl
@[simp] theorem State.modInst_dom (s : State) (i : Nat) (f : Inst → Inst) : (s.modInst i f).dom = s.dom := by unfold State.modInst; split <;> rfl
@[simp] theorem State.modInst_colls (s : State) (i : Nat) (f : Inst → Inst) : (s.modInst i f).colls = s.colls := by unfold State.modInst; split <;> rfl
@[simp] theorem State.modInst_defects (s : State) (i : Nat) (f : Inst → Inst) : (s.modInst i f).defects = s.defects := by unfold State.modInst; split <;> rfl
@[simp] theorem State.modInst_spadq (s : State) (i : Nat) (f : Inst → Inst) : (s.modInst i f).spadq = s.spadq := by unfold State.modInst; split <;> rfl
@[simp] theorem State.modInst_sched (s : State) (i : Nat) (f : Inst → Inst) : (s.modInst i f).sched = s.sched := by unfold State.modInst; split <;> rfl
@[simp] theorem State.modInst_focus (s : State) (i : Nat) (f : Inst → Inst) : (s.modInst i f).focus = s.focus := by unfold State.modInst; split <;> rfl
@[simp] theorem State.modInst_nextId (s : State) (i : Nat) (f : Inst → Inst) : (s.modInst i f).nextId = s.nextId := by unfold State.modInst; split <;> rfl
@[simp] theorem State.modInst_free (s : State) (i : Nat) (f : Inst → Inst) : (s.modInst i f).free = s.free := by unfold State.modInst; split <;> rfl

/-! ### State.modSlot -/

@[simp] theorem State.modSlot_now (s : State) (i k : Nat) (f : FSlot → FSlot) : (s.modSlot i k f).now = s.now := State.modInst_now ..
@[simp] theorem State.modSlot_elems (s : State) (i k : Nat) (f : FSlot → FSlot) : (s.modSlot i k f).elems = s.elems := State.modInst_elems ..
@[simp] theorem State.modSlot_pchs (s : State) (i k : Nat) (f : FSlot → FSlot) : (s.modSlot i k f).pchs = s.pchs := State.modInst_pchs ..
@[simp] theorem State.modSlot_stkRegs (s : State) (i k : Nat) (f : FSlot → FSlot) : (s.modSlot i k f).stkRegs = s.stkRegs := State.modInst_stkRegs ..
@[simp] theorem State.modSlot_dies (s : State) (i k : Nat) (f : FSlot → FSlot) : (s.modSlot i k f).dies = s.dies := State.modInst_dies ..
@[simp] theorem State.modSlot_mem (s : State) (i k : Nat) (f : FSlot → FSlot) : (s.modSlot i k f).mem = s.mem := State.modInst_mem ..
@[simp] theorem State.modSlot_regions (s : State) (i k : Nat) (f : FSlot → FSlot) : (s.modSlot i k f).regions = s.regions := State.modInst_regions ..
@[simp] theorem State.modSlot_circs (s : State) (i k : Nat) (f : FSlot → FSlot) : (s.modSlot i k f).circs = s.circs := State.modInst_circs ..
@[simp] theorem State.modSlot_cmd (s : State) (i k : Nat) (f : FSlot → FSlot) : (s.modSlot i k f).cmd = s.cmd := State.modInst_cmd ..
@[simp] theorem State.modSlot_ptp (s : State) (i k : Nat) (f : FSlot → FSlot) : (s.modSlot i k f).ptp = s.ptp := State.modInst_ptp ..
@[simp] theorem State.modSlot_bar (s : State) (i k : Nat) (f : FSlot → FSlot) : (s.modSlot i k f).bar = s.bar := State.modInst_bar ..
@[simp] theorem State.modSlot_mon (s : State) (i k : Nat) (f : FSlot → FSlot) : (s.modSlot i k f).mon = s.mon := State.modInst_mon ..
@[simp] theorem State.modSlot_ports (s : State) (i k : Nat) (f : FSlot → FSlot) : (s.modSlot i k f).ports = s.ports := State.modInst_ports ..
@[simp] theorem State.modSlot_dom (s : State) (i k : Nat) (f : FSlot → FSlot) : (s.modSlot i k f).dom = s.dom := State.modInst_dom ..
@[simp] theorem State.modSlot_colls (s : State) (i k : Nat) (f : FSlot → FSlot) : (s.modSlot i k f).colls = s.colls := State.modInst_colls ..
@[simp] theorem State.modSlot_defects (s : State) (i k : Nat) (f : FSlot → FSlot) : (s.modSlot i k f).defects = s.defects := State.modInst_defects ..
@[simp] theorem State.modSlot_spadq (s : State) (i k : Nat) (f : FSlot → FSlot) : (s.modSlot i k f).spadq = s.spadq := State.modInst_spadq ..
@[simp] theorem State.modSlot_sched (s : State) (i k : Nat) (f : FSlot → FSlot) : (s.modSlot i k f).sched = s.sched := State.modInst_sched ..
@[simp] theorem State.modSlot_focus (s : State) (i k : Nat) (f : FSlot → FSlot) : (s.modSlot i k f).focus = s.focus := State.modInst_focus ..
@[simp] theorem State.modSlot_nextId (s : State) (i k : Nat) (f : FSlot → FSlot) : (s.modSlot i k f).nextId = s.nextId := State.modInst_nextId ..
@[simp] theorem State.modSlot_free (s : State) (i k : Nat) (f : FSlot → FSlot) : (s.modSlot i k f).free = s.free := State.modInst_free ..

/-! ### State.arrive -/

@[simp] theorem State.arrive_now (s : State) (i k o : Nat) : (s.arrive i k o).now = s.now := State.modSlot_now ..
@[simp] theorem State.arrive_elems (s : State) (i k o : Nat) : (s.arrive i k o).elems = s.elems := State.modSlot_elems ..
@[simp] theorem State.arrive_pchs (s : State) (i k o : Nat) : (s.arrive i k o).pchs = s.pchs := State.modSlot_pchs ..
@[simp] theorem State.arrive_stkRegs (s : State) (i k o : Nat) : (s.arrive i k o).stkRegs = s.stkRegs := State.modSlot_stkRegs ..
@[simp] theorem State.arrive_dies (s : State) (i k o : Nat) : (s.arrive i k o).dies = s.dies := State.modSlot_dies ..
@[simp] theorem State.arrive_mem (s : State) (i k o : Nat) : (s.arrive i k o).mem = s.mem := State.modSlot_mem ..
@[simp] theorem State.arrive_regions (s : State) (i k o : Nat) : (s.arrive i k o).regions = s.regions := State.modSlot_regions ..
@[simp] theorem State.arrive_circs (s : State) (i k o : Nat) : (s.arrive i k o).circs = s.circs := State.modSlot_circs ..
@[simp] theorem State.arrive_cmd (s : State) (i k o : Nat) : (s.arrive i k o).cmd = s.cmd := State.modSlot_cmd ..
@[simp] theorem State.arrive_ptp (s : State) (i k o : Nat) : (s.arrive i k o).ptp = s.ptp := State.modSlot_ptp ..
@[simp] theorem State.arrive_bar (s : State) (i k o : Nat) : (s.arrive i k o).bar = s.bar := State.modSlot_bar ..
@[simp] theorem State.arrive_mon (s : State) (i k o : Nat) : (s.arrive i k o).mon = s.mon := State.modSlot_mon ..
@[simp] theorem State.arrive_ports (s : State) (i k o : Nat) : (s.arrive i k o).ports = s.ports := State.modSlot_ports ..
@[simp] theorem State.arrive_dom (s : State) (i k o : Nat) : (s.arrive i k o).dom = s.dom := State.modSlot_dom ..
@[simp] theorem State.arrive_colls (s : State) (i k o : Nat) : (s.arrive i k o).colls = s.colls := State.modSlot_colls ..
@[simp] theorem State.arrive_defects (s : State) (i k o : Nat) : (s.arrive i k o).defects = s.defects := State.modSlot_defects ..
@[simp] theorem State.arrive_spadq (s : State) (i k o : Nat) : (s.arrive i k o).spadq = s.spadq := State.modSlot_spadq ..
@[simp] theorem State.arrive_sched (s : State) (i k o : Nat) : (s.arrive i k o).sched = s.sched := State.modSlot_sched ..
@[simp] theorem State.arrive_focus (s : State) (i k o : Nat) : (s.arrive i k o).focus = s.focus := State.modSlot_focus ..
@[simp] theorem State.arrive_nextId (s : State) (i k o : Nat) : (s.arrive i k o).nextId = s.nextId := State.modSlot_nextId ..
@[simp] theorem State.arrive_free (s : State) (i k o : Nat) : (s.arrive i k o).free = s.free := State.modSlot_free ..

/-! ### State.modRegion -/

@[simp] theorem State.modRegion_now (s : State) (i : Nat) (f : Region → Region) : (s.modRegion i f).now = s.now := by unfold State.modRegion; split <;> rfl
@[simp] theorem State.modRegion_elems (s : State) (i : Nat) (f : Region → Region) : (s.modRegion i f).elems = s.elems := by unfold State.modRegion; split <;> rfl
@[simp] theorem State.modRegion_pchs (s : State) (i : Nat) (f : Region → Region) : (s.modRegion i f).pchs = s.pchs := by unfold State.modRegion; split <;> rfl
@[simp] theorem State.modRegion_stkRegs (s : State) (i : Nat) (f : Region → Region) : (s.modRegion i f).stkRegs = s.stkRegs := by unfold State.modRegion; split <;> rfl
@[simp] theorem State.modRegion_dies (s : State) (i : Nat) (f : Region → Region) : (s.modRegion i f).dies = s.dies := by unfold State.modRegion; split <;> rfl
@[simp] theorem State.modRegion_mem (s : State) (i : Nat) (f : Region → Region) : (s.modRegion i f).mem = s.mem := by unfold State.modRegion; split <;> rfl
@[simp] theorem State.modRegion_insts (s : State) (i : Nat) (f : Region → Region) : (s.modRegion i f).insts = s.insts := by unfold State.modRegion; split <;> rfl
@[simp] theorem State.modRegion_circs (s : State) (i : Nat) (f : Region → Region) : (s.modRegion i f).circs = s.circs := by unfold State.modRegion; split <;> rfl
@[simp] theorem State.modRegion_cmd (s : State) (i : Nat) (f : Region → Region) : (s.modRegion i f).cmd = s.cmd := by unfold State.modRegion; split <;> rfl
@[simp] theorem State.modRegion_ptp (s : State) (i : Nat) (f : Region → Region) : (s.modRegion i f).ptp = s.ptp := by unfold State.modRegion; split <;> rfl
@[simp] theorem State.modRegion_bar (s : State) (i : Nat) (f : Region → Region) : (s.modRegion i f).bar = s.bar := by unfold State.modRegion; split <;> rfl
@[simp] theorem State.modRegion_mon (s : State) (i : Nat) (f : Region → Region) : (s.modRegion i f).mon = s.mon := by unfold State.modRegion; split <;> rfl
@[simp] theorem State.modRegion_ports (s : State) (i : Nat) (f : Region → Region) : (s.modRegion i f).ports = s.ports := by unfold State.modRegion; split <;> rfl
@[simp] theorem State.modRegion_dom (s : State) (i : Nat) (f : Region → Region) : (s.modRegion i f).dom = s.dom := by unfold State.modRegion; split <;> rfl
@[simp] theorem State.modRegion_colls (s : State) (i : Nat) (f : Region → Region) : (s.modRegion i f).colls = s.colls := by unfold State.modRegion; split <;> rfl
@[simp] theorem State.modRegion_defects (s : State) (i : Nat) (f : Region → Region) : (s.modRegion i f).defects = s.defects := by unfold State.modRegion; split <;> rfl
@[simp] theorem State.modRegion_spadq (s : State) (i : Nat) (f : Region → Region) : (s.modRegion i f).spadq = s.spadq := by unfold State.modRegion; split <;> rfl
@[simp] theorem State.modRegion_sched (s : State) (i : Nat) (f : Region → Region) : (s.modRegion i f).sched = s.sched := by unfold State.modRegion; split <;> rfl
@[simp] theorem State.modRegion_focus (s : State) (i : Nat) (f : Region → Region) : (s.modRegion i f).focus = s.focus := by unfold State.modRegion; split <;> rfl
@[simp] theorem State.modRegion_nextId (s : State) (i : Nat) (f : Region → Region) : (s.modRegion i f).nextId = s.nextId := by unfold State.modRegion; split <;> rfl
@[simp] theorem State.modRegion_free (s : State) (i : Nat) (f : Region → Region) : (s.modRegion i f).free = s.free := by unfold State.modRegion; split <;> rfl

/-! ### State.modSect -/

@[simp] theorem State.modSect_now (s : State) (i sid : Nat) (f : Section → Section) : (s.modSect i sid f).now = s.now := State.modRegion_now ..
@[simp] theorem State.modSect_elems (s : State) (i sid : Nat) (f : Section → Section) : (s.modSect i sid f).elems = s.elems := State.modRegion_elems ..
@[simp] theorem State.modSect_pchs (s : State) (i sid : Nat) (f : Section → Section) : (s.modSect i sid f).pchs = s.pchs := State.modRegion_pchs ..
@[simp] theorem State.modSect_stkRegs (s : State) (i sid : Nat) (f : Section → Section) : (s.modSect i sid f).stkRegs = s.stkRegs := State.modRegion_stkRegs ..
@[simp] theorem State.modSect_dies (s : State) (i sid : Nat) (f : Section → Section) : (s.modSect i sid f).dies = s.dies := State.modRegion_dies ..
@[simp] theorem State.modSect_mem (s : State) (i sid : Nat) (f : Section → Section) : (s.modSect i sid f).mem = s.mem := State.modRegion_mem ..
@[simp] theorem State.modSect_insts (s : State) (i sid : Nat) (f : Section → Section) : (s.modSect i sid f).insts = s.insts := State.modRegion_insts ..
@[simp] theorem State.modSect_circs (s : State) (i sid : Nat) (f : Section → Section) : (s.modSect i sid f).circs = s.circs := State.modRegion_circs ..
@[simp] theorem State.modSect_cmd (s : State) (i sid : Nat) (f : Section → Section) : (s.modSect i sid f).cmd = s.cmd := State.modRegion_cmd ..
@[simp] theorem State.modSect_ptp (s : State) (i sid : Nat) (f : Section → Section) : (s.modSect i sid f).ptp = s.ptp := State.modRegion_ptp ..
@[simp] theorem State.modSect_bar (s : State) (i sid : Nat) (f : Section → Section) : (s.modSect i sid f).bar = s.bar := State.modRegion_bar ..
@[simp] theorem State.modSect_mon (s : State) (i sid : Nat) (f : Section → Section) : (s.modSect i sid f).mon = s.mon := State.modRegion_mon ..
@[simp] theorem State.modSect_ports (s : State) (i sid : Nat) (f : Section → Section) : (s.modSect i sid f).ports = s.ports := State.modRegion_ports ..
@[simp] theorem State.modSect_dom (s : State) (i sid : Nat) (f : Section → Section) : (s.modSect i sid f).dom = s.dom := State.modRegion_dom ..
@[simp] theorem State.modSect_colls (s : State) (i sid : Nat) (f : Section → Section) : (s.modSect i sid f).colls = s.colls := State.modRegion_colls ..
@[simp] theorem State.modSect_defects (s : State) (i sid : Nat) (f : Section → Section) : (s.modSect i sid f).defects = s.defects := State.modRegion_defects ..
@[simp] theorem State.modSect_spadq (s : State) (i sid : Nat) (f : Section → Section) : (s.modSect i sid f).spadq = s.spadq := State.modRegion_spadq ..
@[simp] theorem State.modSect_sched (s : State) (i sid : Nat) (f : Section → Section) : (s.modSect i sid f).sched = s.sched := State.modRegion_sched ..
@[simp] theorem State.modSect_focus (s : State) (i sid : Nat) (f : Section → Section) : (s.modSect i sid f).focus = s.focus := State.modRegion_focus ..
@[simp] theorem State.modSect_nextId (s : State) (i sid : Nat) (f : Section → Section) : (s.modSect i sid f).nextId = s.nextId := State.modRegion_nextId ..
@[simp] theorem State.modSect_free (s : State) (i sid : Nat) (f : Section → Section) : (s.modSect i sid f).free = s.free := State.modRegion_free ..

/-! ### State.modCmd -/

@[simp] theorem State.modCmd_now (s : State) (f : Cmd → Cmd) : (s.modCmd f).now = s.now := rfl
@[simp] theorem State.modCmd_elems (s : State) (f : Cmd → Cmd) : (s.modCmd f).elems = s.elems := rfl
@[simp] theorem State.modCmd_pchs (s : State) (f : Cmd → Cmd) : (s.modCmd f).pchs = s.pchs := rfl
@[simp] theorem State.modCmd_stkRegs (s : State) (f : Cmd → Cmd) : (s.modCmd f).stkRegs = s.stkRegs := rfl
@[simp] theorem State.modCmd_dies (s : State) (f : Cmd → Cmd) : (s.modCmd f).dies = s.dies := rfl
@[simp] theorem State.modCmd_mem (s : State) (f : Cmd → Cmd) : (s.modCmd f).mem = s.mem := rfl
@[simp] theorem State.modCmd_insts (s : State) (f : Cmd → Cmd) : (s.modCmd f).insts = s.insts := rfl
@[simp] theorem State.modCmd_regions (s : State) (f : Cmd → Cmd) : (s.modCmd f).regions = s.regions := rfl
@[simp] theorem State.modCmd_circs (s : State) (f : Cmd → Cmd) : (s.modCmd f).circs = s.circs := rfl
@[simp] theorem State.modCmd_ptp (s : State) (f : Cmd → Cmd) : (s.modCmd f).ptp = s.ptp := rfl
@[simp] theorem State.modCmd_bar (s : State) (f : Cmd → Cmd) : (s.modCmd f).bar = s.bar := rfl
@[simp] theorem State.modCmd_mon (s : State) (f : Cmd → Cmd) : (s.modCmd f).mon = s.mon := rfl
@[simp] theorem State.modCmd_ports (s : State) (f : Cmd → Cmd) : (s.modCmd f).ports = s.ports := rfl
@[simp] theorem State.modCmd_dom (s : State) (f : Cmd → Cmd) : (s.modCmd f).dom = s.dom := rfl
@[simp] theorem State.modCmd_colls (s : State) (f : Cmd → Cmd) : (s.modCmd f).colls = s.colls := rfl
@[simp] theorem State.modCmd_defects (s : State) (f : Cmd → Cmd) : (s.modCmd f).defects = s.defects := rfl
@[simp] theorem State.modCmd_spadq (s : State) (f : Cmd → Cmd) : (s.modCmd f).spadq = s.spadq := rfl
@[simp] theorem State.modCmd_sched (s : State) (f : Cmd → Cmd) : (s.modCmd f).sched = s.sched := rfl
@[simp] theorem State.modCmd_focus (s : State) (f : Cmd → Cmd) : (s.modCmd f).focus = s.focus := rfl
@[simp] theorem State.modCmd_nextId (s : State) (f : Cmd → Cmd) : (s.modCmd f).nextId = s.nextId := rfl
@[simp] theorem State.modCmd_free (s : State) (f : Cmd → Cmd) : (s.modCmd f).free = s.free := rfl
@[simp] theorem State.modCmd_cmd (s : State) (f : Cmd → Cmd) : (s.modCmd f).cmd = f s.cmd := rfl

/-! ### State.modBar -/

@[simp] theorem State.modBar_now (s : State) (f : Bar → Bar) : (s.modBar f).now = s.now := rfl
@[simp] theorem State.modBar_elems (s : State) (f : Bar → Bar) : (s.modBar f).elems = s.elems := rfl
@[simp] theorem State.modBar_pchs (s : State) (f : Bar → Bar) : (s.modBar f).pchs = s.pchs := rfl
@[simp] theorem State.modBar_stkRegs (s : State) (f : Bar → Bar) : (s.modBar f).stkRegs = s.stkRegs := rfl
@[simp] theorem State.modBar_dies (s : State) (f : Bar → Bar) : (s.modBar f).dies = s.dies := rfl
@[simp] theorem State.modBar_mem (s : State) (f : Bar → Bar) : (s.modBar f).mem = s.mem := rfl
@[simp] theorem State.modBar_insts (s : State) (f : Bar → Bar) : (s.modBar f).insts = s.insts := rfl
@[simp] theorem State.modBar_regions (s : State) (f : Bar → Bar) : (s.modBar f).regions = s.regions := rfl
@[simp] theorem State.modBar_circs (s : State) (f : Bar → Bar) : (s.modBar f).circs = s.circs := rfl
@[simp] theorem State.modBar_cmd (s : State) (f : Bar → Bar) : (s.modBar f).cmd = s.cmd := rfl
@[simp] theorem State.modBar_ptp (s : State) (f : Bar → Bar) : (s.modBar f).ptp = s.ptp := rfl
@[simp] theorem State.modBar_mon (s : State) (f : Bar → Bar) : (s.modBar f).mon = s.mon := rfl
@[simp] theorem State.modBar_ports (s : State) (f : Bar → Bar) : (s.modBar f).ports = s.ports := rfl
@[simp] theorem State.modBar_dom (s : State) (f : Bar → Bar) : (s.modBar f).dom = s.dom := rfl
@[simp] theorem State.modBar_colls (s : State) (f : Bar → Bar) : (s.modBar f).colls = s.colls := rfl
@[simp] theorem State.modBar_defects (s : State) (f : Bar → Bar) : (s.modBar f).defects = s.defects := rfl
@[simp] theorem State.modBar_spadq (s : State) (f : Bar → Bar) : (s.modBar f).spadq = s.spadq := rfl
@[simp] theorem State.modBar_sched (s : State) (f : Bar → Bar) : (s.modBar f).sched = s.sched := rfl
@[simp] theorem State.modBar_focus (s : State) (f : Bar → Bar) : (s.modBar f).focus = s.focus := rfl
@[simp] theorem State.modBar_nextId (s : State) (f : Bar → Bar) : (s.modBar f).nextId = s.nextId := rfl
@[simp] theorem State.modBar_free (s : State) (f : Bar → Bar) : (s.modBar f).free = s.free := rfl
@[simp] theorem State.modBar_bar (s : State) (f : Bar → Bar) : (s.modBar f).bar = f s.bar := rfl

/-! ### State.modMon -/

@[simp] theorem State.modMon_now (s : State) (f : Mon → Mon) : (s.modMon f).now = s.now := rfl
@[simp] theorem State.modMon_elems (s : State) (f : Mon → Mon) : (s.modMon f).elems = s.elems := rfl
@[simp] theorem State.modMon_pchs (s : State) (f : Mon → Mon) : (s.modMon f).pchs = s.pchs := rfl
@[simp] theorem State.modMon_stkRegs (s : State) (f : Mon → Mon) : (s.modMon f).stkRegs = s.stkRegs := rfl
@[simp] theorem State.modMon_dies (s : State) (f : Mon → Mon) : (s.modMon f).dies = s.dies := rfl
@[simp] theorem State.modMon_mem (s : State) (f : Mon → Mon) : (s.modMon f).mem = s.mem := rfl
@[simp] theorem State.modMon_insts (s : State) (f : Mon → Mon) : (s.modMon f).insts = s.insts := rfl
@[simp] theorem State.modMon_regions (s : State) (f : Mon → Mon) : (s.modMon f).regions = s.regions := rfl
@[simp] theorem State.modMon_circs (s : State) (f : Mon → Mon) : (s.modMon f).circs = s.circs := rfl
@[simp] theorem State.modMon_cmd (s : State) (f : Mon → Mon) : (s.modMon f).cmd = s.cmd := rfl
@[simp] theorem State.modMon_ptp (s : State) (f : Mon → Mon) : (s.modMon f).ptp = s.ptp := rfl
@[simp] theorem State.modMon_bar (s : State) (f : Mon → Mon) : (s.modMon f).bar = s.bar := rfl
@[simp] theorem State.modMon_ports (s : State) (f : Mon → Mon) : (s.modMon f).ports = s.ports := rfl
@[simp] theorem State.modMon_dom (s : State) (f : Mon → Mon) : (s.modMon f).dom = s.dom := rfl
@[simp] theorem State.modMon_colls (s : State) (f : Mon → Mon) : (s.modMon f).colls = s.colls := rfl
@[simp] theorem State.modMon_defects (s : State) (f : Mon → Mon) : (s.modMon f).defects = s.defects := rfl
@[simp] theorem State.modMon_spadq (s : State) (f : Mon → Mon) : (s.modMon f).spadq = s.spadq := rfl
@[simp] theorem State.modMon_sched (s : State) (f : Mon → Mon) : (s.modMon f).sched = s.sched := rfl
@[simp] theorem State.modMon_focus (s : State) (f : Mon → Mon) : (s.modMon f).focus = s.focus := rfl
@[simp] theorem State.modMon_nextId (s : State) (f : Mon → Mon) : (s.modMon f).nextId = s.nextId := rfl
@[simp] theorem State.modMon_free (s : State) (f : Mon → Mon) : (s.modMon f).free = s.free := rfl
@[simp] theorem State.modMon_mon (s : State) (f : Mon → Mon) : (s.modMon f).mon = f s.mon := rfl

/-! ### State.modDom -/

@[simp] theorem State.modDom_now (s : State) (f : Domain → Domain) : (s.modDom f).now = s.now := rfl
@[simp] theorem State.modDom_elems (s : State) (f : Domain → Domain) : (s.modDom f).elems = s.elems := rfl
@[simp] theorem State.modDom_pchs (s : State) (f : Domain → Domain) : (s.modDom f).pchs = s.pchs := rfl
@[simp] theorem State.modDom_stkRegs (s : State) (f : Domain → Domain) : (s.modDom f).stkRegs = s.stkRegs := rfl
@[simp] theorem State.modDom_dies (s : State) (f : Domain → Domain) : (s.modDom f).dies = s.dies := rfl
@[simp] theorem State.modDom_mem (s : State) (f : Domain → Domain) : (s.modDom f).mem = s.mem := rfl
@[simp] theorem State.modDom_insts (s : State) (f : Domain → Domain) : (s.modDom f).insts = s.insts := rfl
@[simp] theorem State.modDom_regions (s : State) (f : Domain → Domain) : (s.modDom f).regions = s.regions := rfl
@[simp] theorem State.modDom_circs (s : State) (f : Domain → Domain) : (s.modDom f).circs = s.circs := rfl
@[simp] theorem State.modDom_cmd (s : State) (f : Domain → Domain) : (s.modDom f).cmd = s.cmd := rfl
@[simp] theorem State.modDom_ptp (s : State) (f : Domain → Domain) : (s.modDom f).ptp = s.ptp := rfl
@[simp] theorem State.modDom_bar (s : State) (f : Domain → Domain) : (s.modDom f).bar = s.bar := rfl
@[simp] theorem State.modDom_mon (s : State) (f : Domain → Domain) : (s.modDom f).mon = s.mon := rfl
@[simp] theorem State.modDom_ports (s : State) (f : Domain → Domain) : (s.modDom f).ports = s.ports := rfl
@[simp] theorem State.modDom_colls (s : State) (f : Domain → Domain) : (s.modDom f).colls = s.colls := rfl
@[simp] theorem State.modDom_defects (s : State) (f : Domain → Domain) : (s.modDom f).defects = s.defects := rfl
@[simp] theorem State.modDom_spadq (s : State) (f : Domain → Domain) : (s.modDom f).spadq = s.spadq := rfl
@[simp] theorem State.modDom_sched (s : State) (f : Domain → Domain) : (s.modDom f).sched = s.sched := rfl
@[simp] theorem State.modDom_focus (s : State) (f : Domain → Domain) : (s.modDom f).focus = s.focus := rfl
@[simp] theorem State.modDom_nextId (s : State) (f : Domain → Domain) : (s.modDom f).nextId = s.nextId := rfl
@[simp] theorem State.modDom_free (s : State) (f : Domain → Domain) : (s.modDom f).free = s.free := rfl
@[simp] theorem State.modDom_dom (s : State) (f : Domain → Domain) : (s.modDom f).dom = f s.dom := rfl

/-! ### State.modColl -/

@[simp] theorem State.modColl_now (s : State) (c : Nat) (f : Coll → Coll) : (s.modColl c f).now = s.now := by unfold State.modColl; split <;> rfl
@[simp] theorem State.modColl_elems (s : State) (c : Nat) (f : Coll → Coll) : (s.modColl c f).elems = s.elems := by unfold State.modColl; split <;> rfl
@[simp] theorem State.modColl_pchs (s : State) (c : Nat) (f : Coll → Coll) : (s.modColl c f).pchs = s.pchs := by unfold State.modColl; split <;> rfl
@[simp] theorem State.modColl_stkRegs (s : State) (c : Nat) (f : Coll → Coll) : (s.modColl c f).stkRegs = s.stkRegs := by unfold State.modColl; split <;> rfl
@[simp] theorem State.modColl_dies (s : State) (c : Nat) (f : Coll → Coll) : (s.modColl c f).dies = s.dies := by unfold State.modColl; split <;> rfl
@[simp] theorem State.modColl_mem (s : State) (c : Nat) (f : Coll → Coll) : (s.modColl c f).mem = s.mem := by unfold State.modColl; split <;> rfl
@[simp] theorem State.modColl_insts (s : State) (c : Nat) (f : Coll → Coll) : (s.modColl c f).insts = s.insts := by unfold State.modColl; split <;> rfl
@[simp] theorem State.modColl_regions (s : State) (c : Nat) (f : Coll → Coll) : (s.modColl c f).regions = s.regions := by unfold State.modColl; split <;> rfl
@[simp] theorem State.modColl_circs (s : State) (c : Nat) (f : Coll → Coll) : (s.modColl c f).circs = s.circs := by unfold State.modColl; split <;> rfl
@[simp] theorem State.modColl_cmd (s : State) (c : Nat) (f : Coll → Coll) : (s.modColl c f).cmd = s.cmd := by unfold State.modColl; split <;> rfl
@[simp] theorem State.modColl_ptp (s : State) (c : Nat) (f : Coll → Coll) : (s.modColl c f).ptp = s.ptp := by unfold State.modColl; split <;> rfl
@[simp] theorem State.modColl_bar (s : State) (c : Nat) (f : Coll → Coll) : (s.modColl c f).bar = s.bar := by unfold State.modColl; split <;> rfl
@[simp] theorem State.modColl_mon (s : State) (c : Nat) (f : Coll → Coll) : (s.modColl c f).mon = s.mon := by unfold State.modColl; split <;> rfl
@[simp] theorem State.modColl_ports (s : State) (c : Nat) (f : Coll → Coll) : (s.modColl c f).ports = s.ports := by unfold State.modColl; split <;> rfl
@[simp] theorem State.modColl_dom (s : State) (c : Nat) (f : Coll → Coll) : (s.modColl c f).dom = s.dom := by unfold State.modColl; split <;> rfl
@[simp] theorem State.modColl_defects (s : State) (c : Nat) (f : Coll → Coll) : (s.modColl c f).defects = s.defects := by unfold State.modColl; split <;> rfl
@[simp] theorem State.modColl_spadq (s : State) (c : Nat) (f : Coll → Coll) : (s.modColl c f).spadq = s.spadq := by unfold State.modColl; split <;> rfl
@[simp] theorem State.modColl_sched (s : State) (c : Nat) (f : Coll → Coll) : (s.modColl c f).sched = s.sched := by unfold State.modColl; split <;> rfl
@[simp] theorem State.modColl_focus (s : State) (c : Nat) (f : Coll → Coll) : (s.modColl c f).focus = s.focus := by unfold State.modColl; split <;> rfl
@[simp] theorem State.modColl_nextId (s : State) (c : Nat) (f : Coll → Coll) : (s.modColl c f).nextId = s.nextId := by unfold State.modColl; split <;> rfl
@[simp] theorem State.modColl_free (s : State) (c : Nat) (f : Coll → Coll) : (s.modColl c f).free = s.free := by unfold State.modColl; split <;> rfl

/-! ### State.modPort -/

@[simp] theorem State.modPort_now (s : State) (n : Nat) (f : Port → Port) : (s.modPort n f).now = s.now := rfl
@[simp] theorem State.modPort_elems (s : State) (n : Nat) (f : Port → Port) : (s.modPort n f).elems = s.elems := rfl
@[simp] theorem State.modPort_pchs (s : State) (n : Nat) (f : Port → Port) : (s.modPort n f).pchs = s.pchs := rfl
@[simp] theorem State.modPort_stkRegs (s : State) (n : Nat) (f : Port → Port) : (s.modPort n f).stkRegs = s.stkRegs := rfl
@[simp] theorem State.modPort_dies (s : State) (n : Nat) (f : Port → Port) : (s.modPort n f).dies = s.dies := rfl
@[simp] theorem State.modPort_mem (s : State) (n : Nat) (f : Port → Port) : (s.modPort n f).mem = s.mem := rfl
@[simp] theorem State.modPort_insts (s : State) (n : Nat) (f : Port → Port) : (s.modPort n f).insts = s.insts := rfl
@[simp] theorem State.modPort_regions (s : State) (n : Nat) (f : Port → Port) : (s.modPort n f).regions = s.regions := rfl
@[simp] theorem State.modPort_circs (s : State) (n : Nat) (f : Port → Port) : (s.modPort n f).circs = s.circs := rfl
@[simp] theorem State.modPort_cmd (s : State) (n : Nat) (f : Port → Port) : (s.modPort n f).cmd = s.cmd := rfl
@[simp] theorem State.modPort_ptp (s : State) (n : Nat) (f : Port → Port) : (s.modPort n f).ptp = s.ptp := rfl
@[simp] theorem State.modPort_bar (s : State) (n : Nat) (f : Port → Port) : (s.modPort n f).bar = s.bar := rfl
@[simp] theorem State.modPort_mon (s : State) (n : Nat) (f : Port → Port) : (s.modPort n f).mon = s.mon := rfl
@[simp] theorem State.modPort_dom (s : State) (n : Nat) (f : Port → Port) : (s.modPort n f).dom = s.dom := rfl
@[simp] theorem State.modPort_colls (s : State) (n : Nat) (f : Port → Port) : (s.modPort n f).colls = s.colls := rfl
@[simp] theorem State.modPort_defects (s : State) (n : Nat) (f : Port → Port) : (s.modPort n f).defects = s.defects := rfl
@[simp] theorem State.modPort_spadq (s : State) (n : Nat) (f : Port → Port) : (s.modPort n f).spadq = s.spadq := rfl
@[simp] theorem State.modPort_sched (s : State) (n : Nat) (f : Port → Port) : (s.modPort n f).sched = s.sched := rfl
@[simp] theorem State.modPort_focus (s : State) (n : Nat) (f : Port → Port) : (s.modPort n f).focus = s.focus := rfl
@[simp] theorem State.modPort_nextId (s : State) (n : Nat) (f : Port → Port) : (s.modPort n f).nextId = s.nextId := rfl
@[simp] theorem State.modPort_free (s : State) (n : Nat) (f : Port → Port) : (s.modPort n f).free = s.free := rfl
@[simp] theorem State.modPort_ports (s : State) (n : Nat) (f : Port → Port) : (s.modPort n f).ports = s.ports.put n (f (s.port n)) := rfl

/-! ### State.push -/

@[simp] theorem State.push_now (s : State) (m : List Move) : (s.push m).now = s.now := rfl
@[simp] theorem State.push_elems (s : State) (m : List Move) : (s.push m).elems = s.elems := rfl
@[simp] theorem State.push_pchs (s : State) (m : List Move) : (s.push m).pchs = s.pchs := rfl
@[simp] theorem State.push_stkRegs (s : State) (m : List Move) : (s.push m).stkRegs = s.stkRegs := rfl
@[simp] theorem State.push_dies (s : State) (m : List Move) : (s.push m).dies = s.dies := rfl
@[simp] theorem State.push_mem (s : State) (m : List Move) : (s.push m).mem = s.mem := rfl
@[simp] theorem State.push_insts (s : State) (m : List Move) : (s.push m).insts = s.insts := rfl
@[simp] theorem State.push_regions (s : State) (m : List Move) : (s.push m).regions = s.regions := rfl
@[simp] theorem State.push_circs (s : State) (m : List Move) : (s.push m).circs = s.circs := rfl
@[simp] theorem State.push_cmd (s : State) (m : List Move) : (s.push m).cmd = s.cmd := rfl
@[simp] theorem State.push_ptp (s : State) (m : List Move) : (s.push m).ptp = s.ptp := rfl
@[simp] theorem State.push_bar (s : State) (m : List Move) : (s.push m).bar = s.bar := rfl
@[simp] theorem State.push_mon (s : State) (m : List Move) : (s.push m).mon = s.mon := rfl
@[simp] theorem State.push_ports (s : State) (m : List Move) : (s.push m).ports = s.ports := rfl
@[simp] theorem State.push_dom (s : State) (m : List Move) : (s.push m).dom = s.dom := rfl
@[simp] theorem State.push_colls (s : State) (m : List Move) : (s.push m).colls = s.colls := rfl
@[simp] theorem State.push_defects (s : State) (m : List Move) : (s.push m).defects = s.defects := rfl
@[simp] theorem State.push_spadq (s : State) (m : List Move) : (s.push m).spadq = s.spadq := rfl
@[simp] theorem State.push_focus (s : State) (m : List Move) : (s.push m).focus = s.focus := rfl
@[simp] theorem State.push_nextId (s : State) (m : List Move) : (s.push m).nextId = s.nextId := rfl
@[simp] theorem State.push_free (s : State) (m : List Move) : (s.push m).free = s.free := rfl
@[simp] theorem State.push_sched (s : State) (m : List Move) : (s.push m).sched = m ++ s.sched := rfl

end Sys2Proof.Machine
end

