-- ==== Sys2Proof/Laws/Table.lean ====
section
/-!
SUPPORT. Laws/Table.lean: the laws of the sparse table that State is made of: what a put and a drop leave to be found, and that
every operation keeps the keys rising.
-/
namespace Sys2Proof

@[simp] theorem Tab.find?_nil {α : Type} (k : Nat) : Tab.find? ([] : Tab α) k = none := rfl

@[simp] theorem Tab.getD_nil {α : Type} (k : Nat) (d : α) : Tab.getD ([] : Tab α) k d = d := rfl

@[simp] theorem Tab.find?_put {α : Type} (t : Tab α) (k : Nat) (v : α) : (t.put k v).find? k = some v := by
  induction t with
  | nil => simp [Tab.put, Tab.find?]
  | cons x t ih =>
    obtain ⟨j, u⟩ := x
    simp only [Tab.put]
    split
    · simp [Tab.find?]
    · split
      · simp [Tab.find?]
      · next h => simp [Tab.find?, Ne.symm h, ih]

@[simp] theorem Tab.find?_put_ne {α : Type} (t : Tab α) {k j : Nat} (v : α) (h : j ≠ k) : (t.put k v).find? j = t.find? j := by
  induction t with
  | nil => simp [Tab.put, Tab.find?, Ne.symm h]
  | cons x t ih =>
    obtain ⟨i, u⟩ := x
    simp only [Tab.put]
    split
    · simp [Tab.find?, Ne.symm h]
    · split
      · next he => subst he; simp [Tab.find?, Ne.symm h]
      · simp [Tab.find?, ih]

@[simp] theorem Tab.getD_put {α : Type} (t : Tab α) (k : Nat) (v d : α) : (t.put k v).getD k d = v := by simp [Tab.getD]

@[simp] theorem Tab.getD_put_ne {α : Type} (t : Tab α) {k j : Nat} (v d : α) (h : j ≠ k) : (t.put k v).getD j d = t.getD j d := by
  simp [Tab.getD, h]

/-- Two puts at one key leave the second. -/
theorem Tab.put_put {α : Type} (t : Tab α) (k : Nat) (u v : α) : (t.put k u).put k v = t.put k v := by
  induction t with
  | nil => simp [Tab.put]
  | cons x t ih =>
    obtain ⟨j, w⟩ := x
    simp only [Tab.put]
    split
    · simp [Tab.put]
    · split
      · simp [Tab.put]
      · next h₁ h₂ => simp [Tab.put, h₁, h₂, ih]

/-- Keys that rise from k rise from every smaller number. -/
theorem Tab.risesFrom_mono {α : Type} {t : Tab α} {i k : Nat} (hik : i ≤ k) (h : t.risesFrom (some k) = true) :
    t.risesFrom (some i) = true := by
  cases t with
  | nil => rfl
  | cons x t =>
    simp only [Tab.risesFrom, Bool.and_eq_true, decide_eq_true_eq] at *
    exact ⟨by omega, h.2⟩

theorem Tab.risesFrom_none {α : Type} {t : Tab α} {k : Nat} (h : t.risesFrom (some k) = true) : t.risesFrom none = true := by
  cases t with
  | nil => rfl
  | cons x t => simpa [Tab.risesFrom] using (by simpa [Tab.risesFrom] using h : _ ∧ _).2

theorem Tab.risesFrom_put_some {α : Type} (t : Tab α) (i k : Nat) (v : α) (hi : i < k) (h : t.risesFrom (some i) = true) :
    (t.put k v).risesFrom (some i) = true := by
  induction t generalizing i with
  | nil => simp [Tab.put, Tab.risesFrom, hi]
  | cons x t ih =>
    obtain ⟨j, u⟩ := x
    simp only [Tab.risesFrom, Bool.and_eq_true, decide_eq_true_eq] at h
    simp only [Tab.put]
    split
    · next hk => simp [Tab.risesFrom, hi, hk, h.2]
    · split
      · next hk => simp [Tab.risesFrom, hi, hk ▸ h.2]
      · simp only [Tab.risesFrom, Bool.and_eq_true, decide_eq_true_eq]
        exact ⟨h.1, ih j (by omega) h.2⟩

/-- A put keeps the keys rising. -/
theorem Tab.risesFrom_put {α : Type} (t : Tab α) (k : Nat) (v : α) (h : t.risesFrom none = true) :
    (t.put k v).risesFrom none = true := by
  cases t with
  | nil => rfl
  | cons x t =>
    obtain ⟨j, u⟩ := x
    simp only [Tab.risesFrom] at h
    simp only [Tab.put]
    split
    · next hk => simp [Tab.risesFrom, hk, h]
    · split
      · next hk => simpa [Tab.risesFrom, hk] using h
      · simpa [Tab.risesFrom] using Tab.risesFrom_put_some t j k v (by omega) h

/-- A filter keeps the keys rising. -/
theorem Tab.risesFrom_filter_some {α : Type} (t : Tab α) (p : Nat × α → Bool) (i : Nat) (h : t.risesFrom (some i) = true) :
    Tab.risesFrom (some i) (List.filter p t) = true := by
  induction t generalizing i with
  | nil => rfl
  | cons x t ih =>
    simp only [Tab.risesFrom, Bool.and_eq_true, decide_eq_true_eq] at h
    rw [List.filter_cons]
    split
    · simp only [Tab.risesFrom, Bool.and_eq_true, decide_eq_true_eq]
      exact ⟨h.1, ih _ h.2⟩
    · exact Tab.risesFrom_mono (Nat.le_of_lt h.1) (ih _ h.2)

theorem Tab.risesFrom_filter {α : Type} (t : Tab α) (p : Nat × α → Bool) (h : t.risesFrom none = true) :
    Tab.risesFrom none (List.filter p t) = true := by
  induction t with
  | nil => rfl
  | cons x t ih =>
    simp only [Tab.risesFrom] at h
    rw [List.filter_cons]
    split
    · simpa [Tab.risesFrom] using Tab.risesFrom_filter_some t p _ h
    · exact ih (Tab.risesFrom_none h)

theorem Tab.risesFrom_drop_some {α : Type} (t : Tab α) (k i : Nat) (h : t.risesFrom (some i) = true) :
    (t.drop k).risesFrom (some i) = true := by
  induction t generalizing i with
  | nil => rfl
  | cons x t ih =>
    obtain ⟨j, u⟩ := x
    simp only [Tab.risesFrom, Bool.and_eq_true, decide_eq_true_eq] at h
    simp only [Tab.drop]
    split
    · exact Tab.risesFrom_mono (Nat.le_of_lt h.1) h.2
    · simp only [Tab.risesFrom, Bool.and_eq_true, decide_eq_true_eq]
      exact ⟨h.1, ih _ h.2⟩

/-- A drop keeps the keys rising. -/
theorem Tab.risesFrom_drop {α : Type} (t : Tab α) (k : Nat) (h : t.risesFrom none = true) : (t.drop k).risesFrom none = true := by
  cases t with
  | nil => rfl
  | cons x t =>
    obtain ⟨j, u⟩ := x
    simp only [Tab.risesFrom] at h
    simp only [Tab.drop]
    split
    · exact Tab.risesFrom_none h
    · simpa [Tab.risesFrom] using Tab.risesFrom_drop_some t k j h

/-- Values mapped under their keys keep the keys rising. -/
theorem Tab.risesFrom_map {α β : Type} (t : Tab α) (f : Nat × α → β) (o : Option Nat) (h : t.risesFrom o = true) :
    Tab.risesFrom o (List.map (fun x => (x.1, f x)) t) = true := by
  induction t generalizing o with
  | nil => cases o <;> rfl
  | cons x t ih =>
    cases o with
    | none => simpa [Tab.risesFrom] using ih (some x.1) (by simpa [Tab.risesFrom] using h)
    | some k =>
      simp only [Tab.risesFrom, Bool.and_eq_true, decide_eq_true_eq] at h
      simp only [List.map_cons, Tab.risesFrom, Bool.and_eq_true, decide_eq_true_eq]
      exact ⟨h.1, ih _ h.2⟩

/-- A key not above the bound is not listed. -/
theorem Tab.find?_none_of_rises {α : Type} (t : Tab α) (i k : Nat) (hk : k ≤ i) (h : t.risesFrom (some i) = true) : t.find? k = none := by
  induction t generalizing i with
  | nil => rfl
  | cons x t ih =>
    obtain ⟨j, u⟩ := x
    simp only [Tab.risesFrom, Bool.and_eq_true, decide_eq_true_eq] at h
    simp only [Tab.find?, show j ≠ k by omega, if_false]
    exact ih j (by omega) h.2

/-- What is dropped is not found, in a table whose keys rise. -/
theorem Tab.find?_drop {α : Type} (t : Tab α) (k : Nat) (h : t.risesFrom none = true) : (t.drop k).find? k = none := by
  induction t with
  | nil => rfl
  | cons x t ih =>
    obtain ⟨j, u⟩ := x
    simp only [Tab.risesFrom] at h
    simp only [Tab.drop]
    split
    · next hj => exact Tab.find?_none_of_rises t j k (by omega) h
    · next hj => simpa [Tab.find?, hj] using ih (Tab.risesFrom_none h)

@[simp] theorem Tab.find?_drop_ne {α : Type} (t : Tab α) {k j : Nat} (h : j ≠ k) : (t.drop k).find? j = t.find? j := by
  induction t with
  | nil => rfl
  | cons x t ih =>
    obtain ⟨i, u⟩ := x
    simp only [Tab.drop]
    split
    · next hi => subst hi; simp [Tab.find?, Ne.symm h]
    · simp [Tab.find?, ih]

end Sys2Proof
end

