-- ==== Sys2Proof/Laws/Get.lean ====
section
/-!
SUPPORT. Laws/Get.lean: what is read from a table of State after an accessor has written it: the part written, and every other part as it was.
-/
namespace Sys2Proof.Machine

@[simp] theorem State.elem_setElem (s : State) (el : Nat) (e : Elem) : (s.setElem el e).elem el = e := by simp [State.elem, State.setElem]
@[simp] theorem State.elem_setElem_ne (s : State) {el j : Nat} (e : Elem) (h : j ≠ el) : (s.setElem el e).elem j = s.elem j := by
  simp [State.elem, State.setElem, h]
@[simp] theorem State.elem_modElem (s : State) (el : Nat) (f : Elem → Elem) : (s.modElem el f).elem el = f (s.elem el) :=
  State.elem_setElem s el _
@[simp] theorem State.elem_modElem_ne (s : State) {el j : Nat} (f : Elem → Elem) (h : j ≠ el) : (s.modElem el f).elem j = s.elem j :=
  State.elem_setElem_ne s _ h
@[simp] theorem State.elem_modCtx (s : State) (el : Nat) (f : Ctx → Ctx) :
    (s.modCtx el f).elem el = { s.elem el with ctx := f (s.elem el).ctx } := State.elem_modElem s el _
@[simp] theorem State.elem_modCtx_ne (s : State) {el j : Nat} (f : Ctx → Ctx) (h : j ≠ el) : (s.modCtx el f).elem j = s.elem j :=
  State.elem_modElem_ne s _ h

@[simp] theorem State.pch_setPch (s : State) (p : Nat) (c : Pch) : (s.setPch p c).pch p = c := by simp [State.pch, State.setPch]
@[simp] theorem State.pch_setPch_ne (s : State) {p q : Nat} (c : Pch) (h : q ≠ p) : (s.setPch p c).pch q = s.pch q := by
  simp [State.pch, State.setPch, h]
@[simp] theorem State.pch_modPch (s : State) (p : Nat) (f : Pch → Pch) : (s.modPch p f).pch p = f (s.pch p) := State.pch_setPch s p _
@[simp] theorem State.pch_modPch_ne (s : State) {p q : Nat} (f : Pch → Pch) (h : q ≠ p) : (s.modPch p f).pch q = s.pch q :=
  State.pch_setPch_ne s _ h

@[simp] theorem State.die_modDie (s : State) (d : Nat) (f : Die → Die) : (s.modDie d f).die d = f (s.die d) := by simp [State.die, State.modDie]
@[simp] theorem State.die_modDie_ne (s : State) {d e : Nat} (f : Die → Die) (h : e ≠ d) : (s.modDie d f).die e = s.die e := by
  simp [State.die, State.modDie, h]

@[simp] theorem State.port_modPort (s : State) (n : Nat) (f : Port → Port) : (s.modPort n f).port n = f (s.port n) := by
  simp [State.port, State.modPort]
@[simp] theorem State.port_modPort_ne (s : State) {n m : Nat} (f : Port → Port) (h : m ≠ n) : (s.modPort n f).port m = s.port m := by
  simp [State.port, State.modPort, h]

@[simp] theorem State.region_modRegion (s : State) (i : Nat) (f : Region → Region) : (s.modRegion i f).region i = (s.region i).map f := by
  unfold State.modRegion State.region
  split
  · next h => simp [h]
  · next h => simp [h]
@[simp] theorem State.region_modRegion_ne (s : State) {i j : Nat} (f : Region → Region) (h : j ≠ i) :
    (s.modRegion i f).region j = s.region j := by
  unfold State.modRegion State.region
  split <;> simp [h]

@[simp] theorem State.inst_modInst (s : State) (i : Nat) (f : Inst → Inst) : (s.modInst i f).inst i = (s.inst i).map f := by
  unfold State.modInst State.inst
  split
  · next h => simp [h]
  · next h => simp [h]
@[simp] theorem State.inst_modInst_ne (s : State) {i j : Nat} (f : Inst → Inst) (h : j ≠ i) : (s.modInst i f).inst j = s.inst j := by
  unfold State.modInst State.inst
  split <;> simp [h]

@[simp] theorem State.slot_modSlot (s : State) (i k : Nat) (f : FSlot → FSlot) : (s.modSlot i k f).slot i k = (s.slot i k).map f := by
  unfold State.modSlot State.modInst State.slot
  split
  · next v h =>
    simp only [h, Tab.find?_put, Option.bind_some]
    split <;> simp_all
  · next h => simp [h]

/-- An outcome that arrives stands in its slot. -/
theorem State.slot_arrive (s : State) (i k o : Nat) (x : FSlot) (h : s.slot i k = some x) :
    (s.arrive i k o).slot i k = some { x with stage := .arrived o } := by simp [State.arrive, h]

@[simp] theorem State.sect_modSect (s : State) (i sid : Nat) (f : Section → Section) : (s.modSect i sid f).sect i sid = (s.sect i sid).map f := by
  unfold State.modSect State.modRegion State.sect
  split
  · next r h =>
    simp only [h, Tab.find?_put, Option.bind_some]
    split <;> simp_all
  · next h => simp [h]

end Sys2Proof.Machine
end

