-- ==== Sys2Proof/Laws/Memory.lean ====
section
/-!
SUPPORT. Laws/Memory.lean: the laws of memory: what a write leaves to be read, and that every operation keeps the canonical form.
-/
namespace Sys2Proof.Machine

@[simp] theorem Memory.read_nil (a : Nat) : Memory.read [] a = 0 := rfl

/-- Nothing is listed below the address from which a canonical memory rises. -/
theorem Memory.read_of_wfFrom (m : Memory) (lo a : Nat) (h : Memory.wfFrom lo m = true) (ha : a < lo) : m.read a = 0 := by
  induction m generalizing lo with
  | nil => rfl
  | cons x m ih =>
    obtain ⟨b, u⟩ := x
    simp only [Memory.wfFrom, Bool.and_eq_true, decide_eq_true_eq] at h
    simp only [Memory.read, show a ≠ b by omega, if_false]
    exact ih (b + 1) h.2 (by omega)

/-- A canonical memory that rises from an address rises from every smaller one. -/
theorem Memory.wfFrom_mono (m : Memory) {lo hi : Nat} (hl : lo ≤ hi) (h : Memory.wfFrom hi m = true) : Memory.wfFrom lo m = true := by
  cases m with
  | nil => rfl
  | cons x m =>
    simp only [Memory.wfFrom, Bool.and_eq_true, decide_eq_true_eq] at *
    exact ⟨⟨by omega, h.1.2⟩, h.2⟩

theorem Memory.wfFrom_write (m : Memory) (lo a : Nat) (v : Byte) (ha : lo ≤ a) (h : Memory.wfFrom lo m = true) :
    Memory.wfFrom lo (m.write a v) = true := by
  induction m generalizing lo with
  | nil =>
    simp only [Memory.write]
    split
    · rfl
    · next hv => simpa [Memory.wfFrom, ha] using hv
  | cons x m ih =>
    obtain ⟨b, u⟩ := x
    have hm := h
    simp only [Memory.wfFrom, Bool.and_eq_true, decide_eq_true_eq] at hm
    simp only [Memory.write]
    split
    · next hb =>
      split
      · exact h
      · next hv =>
        simp only [Memory.wfFrom, Bool.and_eq_true, decide_eq_true_eq]
        exact ⟨⟨ha, hv⟩, ⟨by omega, hm.1.2⟩, hm.2⟩
    · split
      · split
        · exact Memory.wfFrom_mono m (by omega) hm.2
        · next hb hv =>
          simp only [Memory.wfFrom, Bool.and_eq_true, decide_eq_true_eq]
          exact ⟨⟨ha, hv⟩, by rw [hb]; exact hm.2⟩
      · simp only [Memory.wfFrom, Bool.and_eq_true, decide_eq_true_eq]
        exact ⟨hm.1, ih (b + 1) (by omega) hm.2⟩

/-- A write of a byte keeps the canonical form. -/
theorem Memory.wf_write (m : Memory) (a : Nat) (v : Byte) (h : m.wf = true) : (m.write a v).wf = true :=
  Memory.wfFrom_write m 0 a v (Nat.zero_le a) h

/-- A write of n bytes keeps the canonical form. -/
theorem Memory.wf_writeN (m : Memory) (a n v : Nat) (h : m.wf = true) : (m.writeN a n v).wf = true := by
  induction n generalizing m a v with
  | zero => exact h
  | succ n ih => exact ih _ _ _ (Memory.wf_write m a _ h)

/-- A write of n bytes at a physical address keeps the canonical form. -/
theorem Memory.wf_paWrite (m : Memory) (a n v : Nat) (h : m.wf = true) : (m.paWrite a n v).wf = true := by
  induction n generalizing m a v with
  | zero => exact h
  | succ n ih => exact ih _ _ _ (Memory.wf_write m _ _ h)

/-- A write of a token keeps the canonical form. -/
theorem Memory.wf_setToken (m : Memory) (a : Nat) (v : W256) (h : m.wf = true) : (m.setToken a v).wf = true :=
  Memory.wf_writeN m _ _ _ h

/-- A byte written is read. -/
theorem Memory.read_write (m : Memory) (a : Nat) (v : Byte) (h : m.wf = true) : (m.write a v).read a = v := by
  suffices hs : ∀ lo, Memory.wfFrom lo m = true → (m.write a v).read a = v from hs 0 h
  induction m with
  | nil =>
    intro lo _
    simp only [Memory.write]
    split
    · next hv => simp [hv]
    · simp [Memory.read]
  | cons x m ih =>
    obtain ⟨b, u⟩ := x
    intro lo hm
    have hm' := hm
    simp only [Memory.wfFrom, Bool.and_eq_true, decide_eq_true_eq] at hm'
    have ih := ih (by simpa [Memory.wf] using Memory.wfFrom_mono m (Nat.zero_le _) hm'.2)
    simp only [Memory.write]
    split
    · next hb =>
      split
      · next hv =>
        rw [hv]
        simp only [Memory.read, show a ≠ b by omega, if_false]
        exact Memory.read_of_wfFrom m (b + 1) a hm'.2 (by omega)
      · simp [Memory.read]
    · split
      · next hb =>
        split
        · next hv => rw [hv]; exact Memory.read_of_wfFrom m (b + 1) a hm'.2 (by omega)
        · simp [Memory.read]
      · next hb => simpa [Memory.read, hb] using ih (b + 1) hm'.2

/-- A byte written elsewhere leaves a byte as it was. -/
theorem Memory.read_write_ne (m : Memory) (a b : Nat) (v : Byte) (h : b ≠ a) : (m.write a v).read b = m.read b := by
  induction m with
  | nil =>
    simp only [Memory.write]
    split
    · rfl
    · simp [Memory.read, h]
  | cons x m ih =>
    obtain ⟨c, u⟩ := x
    simp only [Memory.write]
    split
    · split <;> simp [Memory.read, h]
    · split
      · next hc => subst hc; split <;> simp [Memory.read, h]
      · simp [Memory.read, ih]

/-- A byte outside n bytes written is as it was. -/
theorem Memory.read_writeN_ne (m : Memory) (a n v b : Nat) (h : b < a ∨ a + n ≤ b) : (m.writeN a n v).read b = m.read b := by
  induction n generalizing m a v with
  | zero => rfl
  | succ n ih =>
    simp only [Memory.writeN]
    rw [ih _ _ _ (by omega), Memory.read_write_ne _ _ _ _ (by omega)]

/-- Byte k of n bytes written is byte k of the number. -/
theorem Memory.read_writeN (m : Memory) (a n v k : Nat) (hm : m.wf = true) (hk : k < n) :
    (m.writeN a n v).read (a + k) = BitVec.ofNat 8 (v / 256 ^ k) := by
  induction n generalizing m a v k with
  | zero => omega
  | succ n ih =>
    simp only [Memory.writeN]
    cases k with
    | zero =>
      rw [Memory.read_writeN_ne _ _ _ _ _ (by omega)]
      simpa using Memory.read_write _ a _ hm
    | succ k =>
      have := ih (m.write a (BitVec.ofNat 8 v)) (a + 1) (v / 256) k (Memory.wf_write m a _ hm) (by omega)
      rw [show a + (k + 1) = a + 1 + k by omega, this, Nat.div_div_eq_div_mul, Nat.pow_succ, Nat.mul_comm]

/-- n bytes written are read back as the number modulo 256^n. -/
theorem Memory.readN_writeN (m : Memory) (a n v : Nat) (hm : m.wf = true) : (m.writeN a n v).readN a n = v % 256 ^ n := by
  induction n generalizing m a v with
  | zero => simp [Memory.readN, Nat.mod_one]
  | succ n ih =>
    have h₁ : ((m.writeN a (n + 1) v).read a).toNat = v % 256 := by
      have := Memory.read_writeN m a (n + 1) v 0 hm (by omega)
      simpa using congrArg BitVec.toNat this
    have h₂ : (m.writeN a (n + 1) v).readN (a + 1) n = v / 256 % 256 ^ n := ih _ _ _ (Memory.wf_write m a _ hm)
    rw [Memory.readN, h₁, h₂, Nat.pow_succ, Nat.mul_comm (256 ^ n) 256, Nat.mod_mul]

end Sys2Proof.Machine
end

