-- ==== Sys2Proof/Laws/Ops.lean ====
section
/-!
SUPPORT. Laws/Ops.lean: what taking a trap, keeping a record, ending a region and sending a packet leave alone, one lemma for each shared
operation of Ops.lean. Memory contents are among them: none of these operations stores.
-/
namespace Sys2Proof.Machine

/-- A fold keeps what each of its steps keeps. -/
theorem foldl_keeps {σ α β : Type} (g : σ → β) (f : σ → α → σ) (h : ∀ s a, g (f s a) = g s) (l : List α) (s : σ) :
    g (l.foldl f s) = g s := by
  induction l generalizing s with
  | nil => rfl
  | cons a l ih => rw [List.foldl_cons, ih, h]

@[simp] theorem State.bump_mem (s : State) (k : Nat) : (s.bump k).mem = s.mem := rfl
@[simp] theorem State.bump_elems (s : State) (k : Nat) : (s.bump k).elems = s.elems := rfl
@[simp] theorem State.bump_pchs (s : State) (k : Nat) : (s.bump k).pchs = s.pchs := rfl
@[simp] theorem State.bump_regions (s : State) (k : Nat) : (s.bump k).regions = s.regions := rfl
@[simp] theorem State.addRecord_mem (s : State) (r : RecWait) : (s.addRecord r).mem = s.mem := rfl
@[simp] theorem State.addRecord_elems (s : State) (r : RecWait) : (s.addRecord r).elems = s.elems := rfl
@[simp] theorem State.addRecord_regions (s : State) (r : RecWait) : (s.addRecord r).regions = s.regions := rfl

@[simp] theorem State.countError_mem (s : State) (t : AccTarget) : (s.countError t).mem = s.mem := by cases t <;> rfl

@[simp] theorem State.retireRecord_mem (s : State) (i : Nat) (w : BitVec 16) : (s.retireRecord i w).mem = s.mem := by
  unfold State.retireRecord; split <;> rfl

@[simp] theorem State.sendPacket_mem (s : State) (d c t : Nat) (l : List Token) (w : W128) : (s.sendPacket d c t l w).mem = s.mem := by
  unfold State.sendPacket; split <;> [rfl; (dsimp only; split <;> rfl)]

@[simp] theorem State.sendPacket_elems (s : State) (d c t : Nat) (l : List Token) (w : W128) :
    (s.sendPacket d c t l w).elems = s.elems := by
  unfold State.sendPacket; split <;> [rfl; (dsimp only; split <;> rfl)]

@[simp] theorem State.post_mem (s : State) (d : Nat) (l : List Token) (w : W128) : (s.post d l w).mem = s.mem := by
  unfold State.post; split <;> [rfl; simp]

@[simp] theorem State.post_elems (s : State) (d : Nat) (l : List Token) (w : W128) : (s.post d l w).elems = s.elems := by
  unfold State.post; split <;> [rfl; simp]

@[simp] theorem State.sendControl_mem (s : State) (c : Control) (a b : Nat) (l : List Nat) : (s.sendControl c a b l).mem = s.mem := by
  exact foldl_keeps State.mem _ (fun t d => by simp) l s

@[simp] theorem State.sendControl_elems (s : State) (c : Control) (a b : Nat) (l : List Nat) :
    (s.sendControl c a b l).elems = s.elems := by
  exact foldl_keeps State.elems _ (fun t d => by simp) l s

/-- What has been held back is sent without touching memory contents (R313, R314). -/
@[simp] theorem State.flushLater_mem (s : State) : s.flushLater.mem = s.mem :=
  foldl_keeps State.mem _ (fun t p => by simp) _ _

@[simp] theorem State.dropRkey_mem (s : State) (i : Nat) : (s.dropRkey i).mem = s.mem := by
  unfold State.dropRkey; split <;> [simp; rfl]

@[simp] theorem State.sendPacket_insts (s : State) (d c t : Nat) (l : List Token) (w : W128) :
    (s.sendPacket d c t l w).insts = s.insts := by
  unfold State.sendPacket; split <;> [rfl; (dsimp only; split <;> rfl)]

@[simp] theorem State.dropRkey_insts (s : State) (i : Nat) : (s.dropRkey i).insts = s.insts := by
  unfold State.dropRkey; split <;> [exact foldl_keeps State.insts _ (fun t p => by simp) _ _; rfl]

@[simp] theorem State.sendPacket_regions (s : State) (d c t : Nat) (l : List Token) (w : W128) :
    (s.sendPacket d c t l w).regions = s.regions := by
  unfold State.sendPacket; split <;> [rfl; (dsimp only; split <;> rfl)]

@[simp] theorem State.dropRkey_regions (s : State) (i : Nat) : (s.dropRkey i).regions = s.regions := by
  unfold State.dropRkey; split <;> [exact foldl_keeps State.regions _ (fun t p => by simp) _ _; rfl]

@[simp] theorem State.abortColl_mem (s : State) (c o : Nat) (b : Bool) : (s.abortColl c o b).mem = s.mem := by
  unfold State.abortColl
  repeat' split
  all_goals simp

@[simp] theorem State.abortColls_mem (s : State) (i : Nat) : (s.abortColls i).mem = s.mem := by
  refine foldl_keeps State.mem _ (fun t x => ?_) s.colls s
  split <;> simp

/-- A region that goes leaves memory contents as they are (R281). -/
@[simp] theorem State.release_mem (s : State) (i : Nat) : (s.release i).mem = s.mem := by
  unfold State.release
  simp only [State.dropRkey_mem]
  exact foldl_keeps State.mem (fun (t : State) el => t.modElem el (fun e => e.release i)) (fun _ _ => rfl) _ s

/-- A kill leaves memory contents as they are (R281). -/
@[simp] theorem State.kill_mem (s : State) (i : Nat) (w : BitVec 16) : (s.kill i w).mem = s.mem := by
  simp [State.kill]

/-- After a kill the instance and its region are gone (R281). -/
theorem State.kill_insts (s : State) (i : Nat) (w : BitVec 16) :
    ∃ u : State, (s.kill i w).insts = u.insts.drop i ∧ (s.kill i w).regions = u.regions.drop i := by
  simp only [State.kill, State.release, State.dropRkey_insts, State.dropRkey_regions]
  exact ⟨_, rfl, rfl⟩

/-- A record that enters a trap queue leaves memory contents as they are (R274). -/
@[simp] theorem State.putTrap_mem (s : State) (i : Nat) (r : W256) : (s.putTrap i r).mem = s.mem := by
  unfold State.putTrap
  split
  · rfl
  · simp only
    repeat' split
    all_goals simp

/-- A record that enters a queue with room for it: the region's queue is one longer, and nothing else of the region changes (R274). -/
theorem State.putTrap_region (s : State) (i : Nat) (r : W256) (v : Region) (hv : s.region i = some v) (hl : v.traps.length < 256) :
    (s.putTrap i r).region i = some { v with traps := v.traps ++ [r] } := by
  have hv' : s.regions.find? i = some v := hv
  unfold State.putTrap
  rw [hv]
  simp only [show ¬ 256 ≤ v.traps.length by omega, if_false]
  split
  · simp [State.modRegion, State.region, State.bump, State.modMon, hv']
  · split
    · simp [State.modRegion, State.region, State.bump, State.modMon, hv']
    · simp [State.modRegion, State.region, hv']

/-- Taking a trap stores nothing (R275). -/
@[simp] theorem State.settleTraps_mem (s : State) (el : Nat) : (s.settleTraps el).mem = s.mem := by
  unfold State.settleTraps
  simp only
  split
  · rfl
  · rw [foldl_keeps State.mem _ (fun t r => State.putTrap_mem t _ r)]; rfl

@[simp] theorem State.trapElem_mem (s : State) (el k : Nat) (n : BitVec 48) (t : TrapReq) : (s.trapElem el k n t).mem = s.mem := by
  unfold State.trapElem
  simp only [State.settleTraps_mem]
  split <;> simp

@[simp] theorem State.trapNote_mem (s : State) (i : Nat) (t : TrapReq) (a b c d e : Nat) (v : BitVec 48) :
    (s.trapNote i t a b c d e v).mem = s.mem := by
  unfold State.trapNote
  simp

@[simp] theorem State.settleHeld_mem (s : State) (el i : Nat) : (s.settleHeld el i).mem = s.mem := by
  unfold State.settleHeld
  simp only
  repeat' split
  all_goals first | rfl | (rw [foldl_keeps State.mem _ (fun t r => State.putTrap_mem t _ r)]; rfl)

@[simp] theorem State.freezeCtx_mem (s : State) (el i : Nat) : (s.freezeCtx el i).mem = s.mem := by simp [State.freezeCtx]

@[simp] theorem State.trapLate_mem (s : State) (i el k : Nat) (a : BitVec 16) (n : BitVec 48) (t : TrapReq) :
    (s.trapLate i el k a n t).mem = s.mem := by
  unfold State.trapLate
  split <;> simp

@[simp] theorem State.resumeElem_mem (s : State) (el i : Nat) : (s.resumeElem el i).mem = s.mem := rfl

@[simp] theorem State.unhold_mem (s : State) (i : Nat) : (s.unhold i).mem = s.mem := by simp [State.unhold]

/-- The return from a trap: one less of the traps that freeze an element's running context (R276). -/
theorem State.resumeElem_frozen (s : State) (el i : Nat) (h : (s.elem el).ctx.inst = some i) :
    ((s.resumeElem el i).elem el).frozen.trap = (s.elem el).frozen.trap - 1 := by
  simp only [State.elem, Tab.getD] at h
  simp [State.resumeElem, State.modElem, State.setElem, State.elem, Tab.getD, h]

/-- A read of a physical address sees what DRAM holds at its cell under the STD mapping (R221). -/
theorem State.paRead_one (s : State) (pa : Nat) : s.paRead pa 1 = (s.mem.dram.read (cellAt (stdCell pa))).toNat := by
  simp [State.paRead]

/-- A write at a physical address keeps every other part of the machine. -/
theorem State.paWrite_frame (s : State) (pa n v : Nat) :
    s.paWrite pa n v = { s with mem := { s.mem with dram := s.mem.dram.paWrite pa n v } } := rfl

end Sys2Proof.Machine
end

