-- ==== Sys2Proof/Laws/Shared.lean ====
section
/-!
SUPPORT. Laws/Shared.lean: everything that the operations in which meanings end can do: issuing a slot, the step of a run, an action at its start or
its completion, a packet at dispatch or at its dependency check, a mailbox command. Each answers a next state, and only where it acts does
that differ.
-/
namespace Sys2Proof.Machine

/-- A ready slot issues. -/
theorem fire_ready (o : Op) (x : Slot) (s : State) (g : ActFn) (el k : Nat) (hf : s.focus = .elem el k)
    (hm : s.mayIssue el k o x = true) : fire o x s g = .next (s.issue o x el k g) := by
  simp [fire, hf, hm]

/-- A slot that is not ready does nothing. -/
theorem fire_unready (o : Op) (x : Slot) (s : State) (g : ActFn) (el k : Nat) (hf : s.focus = .elem el k)
    (hm : s.mayIssue el k o x = false) : fire o x s g = .next s := by
  simp [fire, hf, hm]

/-- All that an element instruction can do: issue its slot where that may issue, or nothing. -/
theorem fire_cases {o : Op} {x : Slot} {s : State} {g : ActFn} {r : Host.Outcome State Fault Refusal} (h : fire o x s g = r) :
    r = .next s ∨ ∃ el k, s.focus = .elem el k ∧ s.mayIssue el k o x = true ∧ r = .next (s.issue o x el k g) := by
  subst h
  unfold fire
  split
  · split
    · exact .inr ⟨_, _, ‹_›, ‹_›, rfl⟩
    · exact .inl rfl
  · exact .inl rfl

/-- All that issuing can do: PORTEMPTY, the instruction's own trap, or its effects (R40, R41, R275). -/
theorem State.issue_cases (s : State) (o : Op) (x : Slot) (el k : Nat) (g : ActFn) :
    (∃ j, (s.elem el).ctx.emptyPort o x = some j
      ∧ s.issue o x el k g = s.trapElem el k ((s.elem el).ctx.regs.fcnt + 1) ⟨0x02, 0, BitVec.ofNat 64 j⟩)
    ∨ (∃ t, g s ⟨el, k, s.nextId, (s.elem el).ctx.regs.fcnt + 1⟩ ((s.elem el).ctx.opnds o x) = .error t
      ∧ s.issue o x el k g = s.trapElem el k ((s.elem el).ctx.regs.fcnt + 1) t)
    ∨ (∃ a, (s.elem el).ctx.emptyPort o x = none
      ∧ g s ⟨el, k, s.nextId, (s.elem el).ctx.regs.fcnt + 1⟩ ((s.elem el).ctx.opnds o x) = .ok a
      ∧ s.issue o x el k g = s.issueFiring o x ⟨el, k, s.nextId, (s.elem el).ctx.regs.fcnt + 1⟩ a) := by
  unfold State.issue
  simp only
  split
  · exact .inl ⟨_, ‹_›, rfl⟩
  · split
    · exact .inr (.inl ⟨_, ‹_›, rfl⟩)
    · exact .inr (.inr ⟨_, ‹_›, ‹_›, rfl⟩)

@[simp] theorem State.noteHead_mem (s : State) (el : Nat) (l : List Nat) : (s.noteHead el l).mem = s.mem := by
  unfold State.noteHead
  simp only
  repeat' split
  all_goals simp

@[simp] theorem State.sendIndex_mem (s : State) (el k : Nat) : (s.sendIndex el k).mem = s.mem := by
  unfold State.sendIndex
  split
  · simp
  · refine foldl_keeps State.mem _ (fun t f => ?_) _ s
    rfl

@[simp] theorem State.freeVal_mem (s : State) : s.freeVal.2.mem = s.mem := rfl

@[simp] theorem State.resultOf_mem (s : State) (o : Op) (x : Slot) (v : W256) : (s.resultOf o x v).2.mem = s.mem := by
  unfold State.resultOf; split <;> rfl

/-- The effects of R40 store nothing: an issue changes memory only through the instruction's own effects. -/
theorem State.issueFiring_mem (s : State) (o : Op) (x : Slot) (f : Firing) (a : Act) (h : ∀ t, (a.eff t).mem = t.mem) :
    (s.issueFiring o x f a).mem = s.mem := by
  unfold State.issueFiring
  simp only
  split
  · split <;> simp [h]
  · simp [h]

/-- An instruction that is a value of its operands stores nothing. -/
theorem firePure_mem (o : Op) (x : Slot) (s t : State) (f : PureFn) (h : firePure o x s f = .next t) : t.mem = s.mem := by
  obtain hn | ⟨el, k, -, -, hi⟩ := fire_cases h
  · cases hn; rfl
  · cases hi
    obtain ⟨j, -, e⟩ | ⟨u, -, e⟩ | ⟨a, -, ha, e⟩ := s.issue_cases o x el k (pureAct o x f)
    · rw [e]; simp
    · rw [e]; simp
    · rw [e]
      refine State.issueFiring_mem s o x _ a (fun t => ?_)
      unfold pureAct at ha
      split at ha <;> cases ha
      rfl

/-- All that a micro-instruction can do: the step of the pseudo-channel in focus, or nothing. -/
theorem onRun_cases (s : State) (f : Nat → State) :
    (∃ p, s.focus = .pch p ∧ onRun s f = .next (f p)) ∨ onRun s f = .next s := by
  unfold onRun
  split
  · exact .inl ⟨_, ‹_›, rfl⟩
  · exact .inr rfl

/-- A run that may not step, or none, changes nothing. -/
theorem State.micro_idle (s : State) (p : Nat) (dur ready : NbRun → Nat) (f : State → NbRun → Nat → Except Nat (NbRun × State))
    (h : ∀ r, (s.pch p).run = some r → (s.pch p).mayStep r (ready r) s.now5 = false) : s.micro p dur ready f = s := by
  unfold State.micro
  split
  · rfl
  · next r hr => simp [h r hr]

/-- An action at its completion, where its firing was started in an earlier round. -/
theorem atCompletion_ready (s : State) (f : Nat → Nat → Inst → FSlot → State) (i k : Nat) (v : Inst) (x : FSlot) (hf : s.focus = .nsq i k)
    (hi : s.inst i = some v) (hk : v.slots.find? k = some x) (hs : x.stage = .issued) (ht : v.turn ≠ some s.now) :
    atCompletion s f = .next (f i k v x) := by
  simp [atCompletion, hf, hi, hk, hs, ht]

/-- All that an action at its completion can do. -/
theorem atCompletion_cases (s : State) (f : Nat → Nat → Inst → FSlot → State) :
    (∃ i k v x, s.inst i = some v ∧ v.slots.find? k = some x ∧ x.stage = .issued ∧ atCompletion s f = .next (f i k v x))
    ∨ atCompletion s f = .next s := by
  unfold atCompletion
  repeat' split
  all_goals first | exact .inr rfl | exact .inl ⟨_, _, _, _, ‹_›, ‹_›, (‹_ ∧ _›).1, rfl⟩

/-- An action at its start. -/
theorem atStart_ready (s : State) (f : State → Nat → Nat → Inst → FSlot → State) (i k : Nat) (v : Inst) (x : FSlot) (hf : s.focus = .nsq i k)
    (hi : s.inst i = some v) (hk : v.slots.find? k = some x) (hs : x.stage = .issued) :
    atStart s f = .next (f (s.modSlot i k (fun y => { y with stage := .going, rst := false })) i k v x) := by
  simp [atStart, hf, hi, hk, hs]

/-- All that an action at its start can do. -/
theorem atStart_cases (s : State) (f : State → Nat → Nat → Inst → FSlot → State) :
    (∃ i k v x, s.inst i = some v ∧ v.slots.find? k = some x ∧ x.stage = .issued
      ∧ atStart s f = .next (f (s.modSlot i k (fun y => { y with stage := .going, rst := false })) i k v x))
    ∨ atStart s f = .next s := by
  unfold atStart
  repeat' split
  all_goals first | exact .inr rfl | exact .inl ⟨_, _, _, _, ‹_›, ‹_›, ‹_›, rfl⟩

/-- A packet at dispatch. -/
theorem atDispatch_ready (s : State) (f : State → Nat → HwSlot → State) (n : Nat) (h : HwSlot) (hf : s.focus = .strip n)
    (hs : s.cmd.slots.find? n = some h) (hd : s.dispatchNext (n / 64) = some n) :
    atDispatch s f = .next (f (s.modDie (n / 64) (fun d => { d with rot := n % 64 + 1 })) n h) := by
  simp [atDispatch, hf, hs, hd]

/-- All that a packet at dispatch can do. -/
theorem atDispatch_cases (s : State) (f : State → Nat → HwSlot → State) :
    (∃ n h, s.focus = .strip n ∧ s.cmd.slots.find? n = some h ∧ s.dispatchNext (n / 64) = some n
      ∧ atDispatch s f = .next (f (s.modDie (n / 64) (fun d => { d with rot := n % 64 + 1 })) n h))
    ∨ atDispatch s f = .next s := by
  unfold atDispatch
  repeat' split
  all_goals first | exact .inr rfl | exact .inl ⟨_, _, ‹_›, ‹_›, ‹_›, rfl⟩

/-- All that a dependency check can do as it begins. -/
theorem atDepend_cases (s : State) (f : State → Nat → HwSlot → State) :
    (∃ n h, s.cmd.slots.find? n = some h ∧ h.stage = .depend ∧ s.serves h = true
      ∧ atDepend s f = .next (f (s.modHw n (fun _ => { h with stage := .waiting, since := s.now, mark := s.nextId })) n
          { h with stage := .waiting, since := s.now, mark := s.nextId }))
    ∨ atDepend s f = .next s := by
  unfold atDepend
  repeat' split
  all_goals first | exact .inr rfl | exact .inl ⟨_, _, ‹_›, (‹_ ∧ _›).1, (‹_ ∧ _›).2, rfl⟩

/-- All that a mailbox command can do. -/
theorem atMailbox_cases (s : State) (rom : Bool) (f : State → State) :
    (s.focus = .mailbox ∧ (atMailbox s rom f = .next (s.mbEnd 3) ∨ atMailbox s rom f = .next (f s))) ∨ atMailbox s rom f = .next s := by
  unfold atMailbox
  split
  · split
    · exact .inl ⟨‹_›, .inl rfl⟩
    · exact .inl ⟨‹_›, .inr rfl⟩
  · exact .inr rfl

/-- What follows an instruction changes only the focus and the note of a picker's turn. -/
theorem State.after_mem (s u : State) (m : Move) : (s.after m u).mem = s.mem := by
  unfold State.after
  cases m <;> try rfl
  next el =>
    have hn (t : State) : (t.noteIssue el).mem = t.mem := by
      unfold State.noteIssue
      simp only
      repeat' split
      all_goals simp
    simp only [State.afterPick]
    split <;> simp [hn]

end Sys2Proof.Machine
end

