-- ==== Sys2Proof/Laws/Issue.lean ====
section
/-!
SUPPORT. Laws/Issue.lean: what issuing leaves (R40, R44): one lemma for the effects every instruction has, and from it when an instruction that only
gives a value completes.
-/
namespace Sys2Proof.Machine

/-- Every follower in a chain has a leader (R43). -/
theorem State.followers_led (s : State) (n el : Nat) : ∀ f ∈ s.followers el n, (s.leader f).isSome = true := by
  induction n generalizing el with
  | zero => simp [State.followers]
  | succ n ih =>
    intro f hf
    unfold State.followers at hf
    split at hf
    · next g hg =>
      rcases List.mem_cons.1 hf with rfl | hf
      · have := List.find?_some hg
        simp only [beq_iff_eq] at this
        simp [this]
      · exact ih g f hf
    · simp at hf

/-- A fold that tells elements an index changes nothing but their indices on the way. -/
theorem tell_elem (k e : Nat) (l : List (Nat × Nat)) (s : State) :
    let t := l.foldl (fun (s : State) f => s.modCtx f.1 (fun c => { c with coming := c.coming ++ [(k, s.now + f.2)] })) s
    t = { s with elems := t.elems } ∧ t.elem e = { s.elem e with ctx := { (s.elem e).ctx with coming := (t.elem e).ctx.coming } }
      ∧ ((∀ f ∈ l, f.1 ≠ e) → t.elem e = s.elem e) := by
  induction l generalizing s with
  | nil => exact ⟨rfl, rfl, fun _ => rfl⟩
  | cons f l ih =>
    simp only [List.foldl_cons]
    obtain ⟨h₁, h₂, h₃⟩ := ih (s.modCtx f.1 (fun c => { c with coming := c.coming ++ [(k, s.now + f.2)] }))
    refine ⟨h₁.trans rfl, ?_, fun h => ?_⟩
    · by_cases he : e = f.1
      · subst he; rw [State.elem_modCtx] at h₂; exact h₂
      · rw [State.elem_modCtx_ne _ _ he] at h₂; exact h₂
    · rw [h₃ (fun g hg => h g (List.mem_cons_of_mem _ hg)), State.elem_modCtx_ne _ _ (Ne.symm (h f (List.mem_cons_self ..)))]

/-- Sending an index changes nothing but indices on the way, and those of the head of a chain not at all (R44). -/
theorem State.sendIndex_frame (s : State) (el k e : Nat) :
    s.sendIndex el k = { s with elems := (s.sendIndex el k).elems }
    ∧ (s.sendIndex el k).elem e = { s.elem e with ctx := { (s.elem e).ctx with coming := ((s.sendIndex el k).elem e).ctx.coming } } := by
  unfold State.sendIndex
  split
  · refine ⟨rfl, ?_⟩
    by_cases he : e = el
    · subst he; simp
    · simp [he]
  · exact ⟨(tell_elem k e _ s).1, (tell_elem k e _ s).2.1⟩

/-- The head that begins an invocation changes nothing but a section of a region (R27). -/
theorem State.noteHead_frame (s : State) (el : Nat) (l : List Nat) : s.noteHead el l = { s with regions := (s.noteHead el l).regions } := by
  have hs (i sid : Nat) (f : Section → Section) : s.modSect i sid f = { s with regions := (s.modSect i sid f).regions } := by
    unfold State.modSect State.modRegion; split <;> rfl
  unfold State.noteHead
  simp only
  repeat' split
  all_goals first | rfl | exact hs _ _ _

/-- What every issue does, before an instruction's own effects (R40): the firing, with its value, condition, ports, tags and ending. -/
theorem State.issueFiring_begun (s : State) (o : Op) (x : Slot) (f : Firing) (a : Act) (ha : a.after = none) (hid : f.fcnt = (s.elem f.el).ctx.regs.fcnt + 1) :
    ∃ (u : State) (g : Flight), s.issueFiring o x f a = a.eff u ∧ Begun s u f.el f.slot o x a.lat g ∧ IssueFrame s u f.el
      ∧ (s.elem f.el).keeps (u.elem f.el)
      ∧ RegsKept { (s.elem f.el).ctx.regs with srng := a.out.srng.getD (s.elem f.el).ctx.regs.srng } (u.elem f.el).ctx.regs
      ∧ g.id = f.id ∧ g.val = (s.resultOf o x a.out.val).1 ∧ g.rc = a.out.rc ∧ g.ports = a.out.ports.getD (writePorts o x)
      ∧ g.tags = a.out.tags.getD (x.tago, x.fto) ∧ g.fin = a.fin
      ∧ (u.elem f.el).ctx.busy.getD (opUnit o).idx 0 = s.now + a.busy := by
  have hr : (s.resultOf o x a.out.val).2 = { s with free := (s.resultOf o x a.out.val).2.free } := by unfold State.resultOf; split <;> rfl
  generalize hv : (s.resultOf o x a.out.val).1 = v
  generalize hs1 : (s.resultOf o x a.out.val).2 = s1 at hr
  generalize hs2 : s1.noteHead f.el ((s.elem f.el).ctx.portsPopped o x) = s2
  have h2 : s2 = { s1 with regions := s2.regions } := by rw [← hs2]; exact s1.noteHead_frame f.el _
  generalize hs3 : s2.sendIndex f.el f.slot = s3
  have h3 := s2.sendIndex_frame f.el f.slot
  rw [hs3] at h3
  have e2 (e : Nat) : s2.elem e = s.elem e := by rw [h2, hr]; rfl
  have h3e := fun e => (h3 e).2
  simp only [e2] at h3e
  have h3s := (h3 0).1
  have h3n : s3 = { s with free := s1.free, regions := s2.regions, elems := s3.elems } := by
    rw [h3s, h2, hr]
  have hn : s3.now = s.now := by rw [h3n]
  obtain ⟨g, hg⟩ : ∃ g : Flight, g = ⟨f.id, f.slot, f.fcnt, o, x, a.lat.map (s.now + ·), v, a.out.rc, a.out.ports.getD (writePorts o x),
      a.out.tags.getD (x.tago, x.fto), a.fin⟩ := ⟨_, rfl⟩
  obtain ⟨c, hc⟩ : ∃ c : Ctx → Ctx, c = fun c =>
      let c := c.issueEffects o x f.id
      { c with regs := { c.regs with fcnt := f.fcnt, srng := a.out.srng.getD c.regs.srng }
               busy := c.busy.put (opUnit o).idx (s.now + a.busy), flights := c.flights ++ [g] } := ⟨_, rfl⟩
  obtain ⟨u, hu⟩ : ∃ u : State, u = ({ s3 with nextId := f.id + 1 } : State).modCtx f.el c := ⟨_, rfl⟩
  have ue : u.elem f.el = { s3.elem f.el with ctx := c (s3.elem f.el).ctx } := by rw [hu, State.elem_modCtx]; rfl
  have un (e : Nat) (h : e ≠ f.el) : u.elem e = s3.elem e := by rw [hu, State.elem_modCtx_ne _ _ h]; rfl
  have us : u = { s with free := s1.free, regions := s2.regions, elems := u.elems, nextId := f.id + 1 } := by rw [hu, h3n]; rfl
  refine ⟨u, g, ?_, ?_, ?_, ?_, ?_, ?_⟩
  · unfold State.issueFiring
    simp only [ha, hv, hs1, hs2, hs3]
    rw [hu, hc, hg]
    simp only [hn]
  · constructor
    · rw [ue, hc, h3e]; exact hid
    · rw [ue, hc, h3e]; rfl
    · rw [ue, hc, h3e]; rfl
    · rw [hg]
    · rw [hg]
    · rw [hg]
    · rw [hg]; exact hid
    · rw [hg]
  · constructor
    · intro e he
      rw [un e he, h3e]
    all_goals rw [us]
  · rw [ue, h3e]
    simp only [hc, Elem.keeps, Ctx.issueEffects]
  · rw [ue, h3e]
    simp only [hc, RegsKept, Ctx.issueEffects]
  · rw [hg]
    refine ⟨rfl, rfl, rfl, rfl, rfl, rfl, ?_⟩
    rw [ue]
    simp [hc]

/-- An instruction that a ready slot issues, with an outcome that its own effects follow (R40): what its meaning says of operands is all there is
to show. -/
theorem Fires.of_act {o : Op} {lat : Slot → Opnds → Option Nat} {ok : State → Nat → Slot → Opnds → Prop}
    {P : State → State → Nat → Slot → Opnds → Flight → Prop} (g : Slot → ActFn) (he : ∀ x s, exec (o.instr x) s = fire o x s (g x))
    (hg : ∀ (s : State) (el k : Nat) (x : Slot), s.Ready el k o x → ok s el x (s.opndsOf el o x) →
      ∃ a, g x s ⟨el, k, s.nextId, (s.elem el).ctx.regs.fcnt + 1⟩ (s.opndsOf el o x) = .ok a ∧ a.after = none ∧ a.lat = lat x (s.opndsOf el o x)
        ∧ ∀ (u : State) (f : Flight), Begun s u el k o x a.lat f → IssueFrame s u el → (s.elem el).keeps (u.elem el) →
          RegsKept { (s.elem el).ctx.regs with srng := a.out.srng.getD (s.elem el).ctx.regs.srng } (u.elem el).ctx.regs →
          (u.elem el).ctx.busy.getD (opUnit o).idx 0 = s.now + a.busy → f.id = s.nextId → f.val = (s.resultOf o x a.out.val).1 → f.rc = a.out.rc →
          f.ports = a.out.ports.getD (writePorts o x) → f.tags = a.out.tags.getD (x.tago, x.fto) → f.fin = a.fin →
          Begun s (a.eff u) el k o x a.lat f ∧ P s (a.eff u) el x (s.opndsOf el o x) f) : Fires o lat ok P := by
  intro s el k x hr hok
  obtain ⟨a, ha, hn, hl, hP⟩ := hg s el k x hr hok
  obtain ⟨u, f, hi, hb, hfr, hk, hrk, h1, h2, h3, h4, h5, h6, h7⟩ := s.issueFiring_begun o x ⟨el, k, s.nextId, (s.elem el).ctx.regs.fcnt + 1⟩ a hn rfl
  obtain ⟨hB, hQ⟩ := hP u f hb hfr hk hrk h7 h1 h2 h3 h4 h5 h6
  refine ⟨a.eff u, f, ?_, hl ▸ hB, hQ⟩
  rw [he, fire_ready o x s (g x) el k hr.1 hr.2.1]
  simp only [State.issue, hr.2.2]
  rw [State.opndsOf] at ha
  simp only [ha, hi]

/-- An instruction without effects of its own but its draws. -/
theorem Fires.of_drawn {o : Op} {lat : Slot → Opnds → Option Nat} {ok : State → Nat → Slot → Opnds → Prop}
    {P : State → State → Nat → Slot → Opnds → Flight → Prop} (g : Slot → ActFn) (he : ∀ x s, exec (o.instr x) s = fire o x s (g x))
    (hg : ∀ (s : State) (el k : Nat) (x : Slot), s.Ready el k o x → ok s el x (s.opndsOf el o x) →
      ∃ a, g x s ⟨el, k, s.nextId, (s.elem el).ctx.regs.fcnt + 1⟩ (s.opndsOf el o x) = .ok a ∧ a.after = none ∧ a.eff = id
        ∧ a.lat = lat x (s.opndsOf el o x)
        ∧ ∀ (u : State) (f : Flight), Drawn s u el (a.out.srng.getD (s.elem el).ctx.regs.srng) →
          (u.elem el).ctx.busy.getD (opUnit o).idx 0 = s.now + a.busy → f.id = s.nextId → f.val = (s.resultOf o x a.out.val).1 → f.rc = a.out.rc →
          f.ports = a.out.ports.getD (writePorts o x) → f.tags = a.out.tags.getD (x.tago, x.fto) → f.fin = a.fin →
          P s u el x (s.opndsOf el o x) f) : Fires o lat ok P :=
  .of_act g he fun s el k x hr hok =>
    have ⟨a, ha, hn, he, hl, hP⟩ := hg s el k x hr hok
    ⟨a, ha, hn, hl, fun u f hb h1 h2 h3 hh h4 h5 h6 h7 h8 h9 => by rw [he]; exact ⟨hb, hP u f ⟨h1, h2, h3⟩ hh h4 h5 h6 h7 h8 h9⟩⟩

/-- An instruction without effects of its own. -/
theorem Fires.of_quiet {o : Op} {lat : Slot → Opnds → Option Nat} {ok : State → Nat → Slot → Opnds → Prop}
    {P : State → State → Nat → Slot → Opnds → Flight → Prop} (g : Slot → ActFn) (he : ∀ x s, exec (o.instr x) s = fire o x s (g x))
    (hg : ∀ (s : State) (el k : Nat) (x : Slot), s.Ready el k o x → ok s el x (s.opndsOf el o x) →
      ∃ a, g x s ⟨el, k, s.nextId, (s.elem el).ctx.regs.fcnt + 1⟩ (s.opndsOf el o x) = .ok a ∧ a.after = none ∧ a.eff = id
        ∧ a.lat = lat x (s.opndsOf el o x) ∧ a.out.srng = none
        ∧ ∀ (u : State) (f : Flight), Quiet s u el → (u.elem el).ctx.busy.getD (opUnit o).idx 0 = s.now + a.busy →
          f.id = s.nextId → f.val = (s.resultOf o x a.out.val).1 → f.rc = a.out.rc →
          f.ports = a.out.ports.getD (writePorts o x) → f.tags = a.out.tags.getD (x.tago, x.fto) → f.fin = a.fin →
          P s u el x (s.opndsOf el o x) f) : Fires o lat ok P :=
  .of_drawn g he fun s el k x hr hok =>
    have ⟨a, ha, hn, he, hl, hs, hP⟩ := hg s el k x hr hok
    ⟨a, ha, hn, he, hl, fun u f hq => hP u f (by rw [hs] at hq; exact hq)⟩

/-- What an instruction that is a value of its operands leaves: the value, the condition, the draws, the unit's interval. -/
theorem State.firePure_gives {o : Op} {P : State → State → Nat → Slot → Opnds → Flight → Prop} {lat : Slot → Opnds → Nat}
    {ok : Slot → Opnds → Prop} (f : PureFn)
    (he : ∀ x s, exec (o.instr x) s = firePure o x s f) (hd : opDst o = .result)
    (hl : ∀ x i, ok x i → opLat o x (slotLanes o x i.fmttab) = lat x i)
    (hf : ∀ s el x, ok x (s.opndsOf el o x) → ∃ r, f x (s.opndsOf el o x) = .ok r ∧ ∀ (u : State) (g : Flight),
      Drawn s u el (r.srng.getD (s.elem el).ctx.regs.srng) → Holds s u el o x (s.opndsOf el o x) → g.fin = .plain → g.val = r.val → g.rc = r.rc →
      P s u el x (s.opndsOf el o x) g) : Fires o (fun x i => some (lat x i)) (fun _ _ x i => ok x i) P := by
  refine Fires.of_drawn (fun x => pureAct o x f) he fun s el k x _ hok => ?_
  obtain ⟨r, hr, hP⟩ := hf s el x hok
  refine ⟨{ out := keptTags o x (s.opndsOf el o x) r, lat := some (opLat o x (slotLanes o x (s.opndsOf el o x).fmttab)),
            busy := opBusy o x (slotLanes o x (s.opndsOf el o x).fmttab) }, ?_, rfl, rfl, ?_, ?_⟩
  · simp only [pureAct, hr]
  · simp only [hl x _ hok]
  · intro u g hq hb _ hv hrc _ _ hfin
    have hk : (keptTags o x (s.opndsOf el o x) r).val = r.val ∧ (keptTags o x (s.opndsOf el o x) r).rc = r.rc
        ∧ (keptTags o x (s.opndsOf el o x) r).srng = r.srng := by
      unfold keptTags; split <;> exact ⟨rfl, rfl, rfl⟩
    rw [hk.1] at hv
    rw [hk.2.1] at hrc
    rw [hk.2.2] at hq
    exact hP u g hq hb hfin (by rw [hv]; simp [State.resultOf, hd]) hrc

/-- An instruction that is a value of its operands completes with that value (R98). -/
theorem Gives.of_pure {o : Op} {lat : Slot → Opnds → Nat} {ok : Slot → Opnds → Prop} {P : Slot → Opnds → W256 → Bool → Prop} (f : PureFn)
    (he : ∀ x s, exec (o.instr x) s = firePure o x s f) (hd : opDst o = .result)
    (hl : ∀ x i, ok x i → opLat o x (slotLanes o x i.fmttab) = lat x i)
    (hf : ∀ x i, ok x i → ∃ r, f x i = .ok r ∧ r.srng = none ∧ P x i r.val r.rc) : Gives o lat ok P :=
  State.firePure_gives f he hd hl fun s el x hok =>
    have ⟨r, hr, hs, hP⟩ := hf x _ hok
    ⟨r, hr, fun u g hq hb hfin hv hrc => ⟨by rw [hs] at hq; exact hq, hb, hfin, by rw [hv, hrc]; exact hP⟩⟩

/-- One whose roundings draw completes with its value, and SRNG takes the draws (R61). -/
theorem Rounds.of_pure {o : Op} {lat : Slot → Opnds → Nat} {ok : Slot → Opnds → Prop} {P : Slot → Opnds → W256 → Bool → W32 → Prop} (f : PureFn)
    (he : ∀ x s, exec (o.instr x) s = firePure o x s f) (hd : opDst o = .result)
    (hl : ∀ x i, ok x i → opLat o x (slotLanes o x i.fmttab) = lat x i)
    (hf : ∀ x i, ok x i → ∃ r q, f x i = .ok r ∧ r.srng = some q ∧ P x i r.val r.rc q) : Rounds o lat ok P :=
  State.firePure_gives f he hd hl fun s el x hok =>
    have ⟨r, q, hr, hs, hP⟩ := hf x _ hok
    ⟨r, hr, fun u g hq hb hfin hv hrc => ⟨q, by rw [hs] at hq; exact hq, hb, hfin, by rw [hv, hrc]; exact hP⟩⟩

end Sys2Proof.Machine
end

