-- ==== Sys2Proof/Laws/Lanes.lean ====
section
/-!
SUPPORT. Laws/Lanes.lean: the laws of lanes and of integer narrowing (R54, R97): a lane built is the lane read, and every result of Put and of a
wrap lies in its lane.
-/
namespace Sys2Proof.Machine

/-- The lane width is one of four (R97). -/
theorem slotW_cases (x : Slot) : slotW x = 8 ∨ slotW x = 16 ∨ slotW x = 32 ∨ slotW x = 64 := by
  have h : (bits x.mod 0 2).toNat < 4 := (bits x.mod 0 2).isLt
  have : (bits x.mod 0 2).toNat = 0 ∨ (bits x.mod 0 2).toNat = 1 ∨ (bits x.mod 0 2).toNat = 2 ∨ (bits x.mod 0 2).toNat = 3 := by omega
  unfold slotW
  rcases this with h | h | h | h <;> simp [h]

theorem slotW_pos (x : Slot) : 0 < slotW x := by rcases slotW_cases x with h | h | h | h <;> omega

/-- The lanes of a width fill 256 bits (R97). -/
theorem slotW_lanes (x : Slot) : slotW x * (256 / slotW x) = 256 := by rcases slotW_cases x with h | h | h | h <;> rw [h]

theorem lane_lt (w : Nat) (v : W256) (l : Nat) : lane w v l < 2 ^ w := Nat.mod_lt _ (Nat.two_pow_pos w)

theorem wrap_lt (w : Nat) (v : Int) : wrap w v < 2 ^ w := by
  have h := Int.emod_lt_of_pos v (show (0 : Int) < 2 ^ w by positivity)
  have h' := Int.emod_nonneg v (show (2 ^ w : Int) ≠ 0 by positivity)
  unfold wrap
  have : ((v % 2 ^ w).toNat : Int) < (2 ^ w : Nat) := by rw [Int.toNat_of_nonneg h']; exact_mod_cast h
  exact_mod_cast this

theorem putInt_lt (x : Slot) (v : Int) : putInt x v < 2 ^ slotW x := wrap_lt _ _

/-- Values packed lie below the size of all their lanes. -/
theorem packNat_lt (w : Nat) (l : List Nat) : packNat w l < 2 ^ (w * l.length) := by
  induction l with
  | nil => simp [packNat]
  | cons x l ih =>
    simp only [packNat, List.length_cons]
    have h := Nat.mod_lt x (Nat.two_pow_pos w)
    rw [show w * (l.length + 1) = w + w * l.length by ring, Nat.pow_add]
    nlinarith [Nat.two_pow_pos w]

/-- A value packed is found at its place. -/
theorem packNat_shift (w : Nat) (l : List Nat) (k : Nat) (h : k < l.length) : packNat w l >>> (w * k) % 2 ^ w = l[k] % 2 ^ w := by
  induction l generalizing k with
  | nil => simp at h
  | cons x l ih =>
    cases k with
    | zero => simp [packNat, Nat.add_mod]
    | succ k =>
      have hx := Nat.mod_lt x (Nat.two_pow_pos w)
      have hd : (x % 2 ^ w + 2 ^ w * packNat w l) >>> w = packNat w l := by
        rw [Nat.shiftRight_eq_div_pow, Nat.add_mul_div_left _ _ (Nat.two_pow_pos w), Nat.div_eq_of_lt hx, Nat.zero_add]
      simp only [packNat, List.getElem_cons_succ]
      rw [show w * (k + 1) = w + w * k by ring, Nat.shiftRight_add, hd]
      exact ih k (by simpa using h)

/-- A lane of a value built lane by lane is that lane (R54). -/
theorem lane_ofLanes (w n : Nat) (f : Nat → Nat) (l : Nat) (hn : w * n ≤ 256) (hl : l < n) : lane w (ofLanes w n f) l = f l % 2 ^ w := by
  have hlt : packNat w ((List.range n).map f) < 2 ^ 256 :=
    Nat.lt_of_lt_of_le (packNat_lt w _) (Nat.pow_le_pow_right (by decide) (by simpa using hn))
  unfold lane ofLanes packLanes
  rw [BitVec.toNat_ofNat, Nat.mod_eq_of_lt hlt, packNat_shift _ _ _ (by simpa using hl)]
  simp

/-- A lane at the slot's width of a value built so. -/
theorem lane_slot (x : Slot) (f : Nat → Nat) (l : Nat) (hl : l < 256 / slotW x) (hf : f l < 2 ^ slotW x) :
    lane (slotW x) (ofLanes (slotW x) (256 / slotW x) f) l = f l := by
  rw [lane_ofLanes _ _ _ _ (slotW_lanes x).le hl, Nat.mod_eq_of_lt hf]

/-- An integer instruction's result, lane by lane, with RC NZ(result) (R97). -/
theorem lanesNz_of (f : Slot → Opnds → Nat → Nat) (x : Slot) (i : Opnds) (g : Nat → Nat)
    (h : ∀ l, l < 256 / slotW x → g l = f x i l ∧ g l < 2 ^ slotW x) :
    ∃ r, okNz (ofLanes (slotW x) (256 / slotW x) g) = .ok r ∧ r.srng = none ∧ LanesNz f x i r.val r.rc :=
  ⟨_, rfl, rfl, fun l hl => by rw [lane_slot x g l hl (h l hl).2, (h l hl).1], rfl⟩

/-- The states of SRNG before each lane of a list. -/
def drawsOf (f : Nat → W32 → LaneOut) : List Nat → W32 → List W32
  | [], s => [s]
  | l :: t, s => s :: drawsOf f t (f l s).srng

/-- A list of lanes that draw: the code of each, the or of the flags, and SRNG after them. -/
theorem lanesM_draws (f : Nat → W32 → LaneOut) (l : List Nat) (s : W32) :
    (drawsOf f l s).getD 0 0 = s ∧ (drawsOf f l s).getD l.length 0 = (lanesM f l s).2.2
    ∧ (lanesM f l s).1.length = l.length
    ∧ (∀ k, k < l.length → (lanesM f l s).1.getD k 0 = (f (l.getD k 0) ((drawsOf f l s).getD k 0)).code
        ∧ (drawsOf f l s).getD (k + 1) 0 = (f (l.getD k 0) ((drawsOf f l s).getD k 0)).srng)
    ∧ ((lanesM f l s).2.1 = true ↔ ∃ k, k < l.length ∧ (f (l.getD k 0) ((drawsOf f l s).getD k 0)).flag = true) := by
  induction l generalizing s with
  | nil => simp [drawsOf, lanesM]
  | cons a t ih =>
    obtain ⟨h0, h1, h2, h3, h4⟩ := ih (f a s).srng
    refine ⟨rfl, h1, by simp [lanesM, h2], fun k hk => ?_, ?_⟩
    · cases k with
      | zero => exact ⟨rfl, h0⟩
      | succ k => exact h3 k (by simpa using hk)
    · simp only [lanesM, Bool.or_eq_true, h4]
      constructor
      · rintro (h | ⟨k, hk, h⟩)
        · exact ⟨0, by simp, h⟩
        · exact ⟨k + 1, by simpa using hk, h⟩
      · rintro ⟨k, hk, h⟩
        cases k with
        | zero => exact .inl h
        | succ k => exact .inr ⟨k, by simpa using hk, h⟩

/-- mapLanes gives lanes that draw in ascending order (R61). -/
theorem mapLanes_draws (w n : Nat) (f : Nat → W32 → LaneOut) (s : W32) (hn : w * n ≤ 256) :
    DrawLanes w n f s (mapLanes w n f s).1 (mapLanes w n f s).2.1 (mapLanes w n f s).2.2 := by
  obtain ⟨h0, h1, h2, h3, h4⟩ := lanesM_draws f (List.range n) s
  simp only [List.length_range] at h1 h2 h3 h4
  have hr (l : Nat) (hl : l < n) : (List.range n).getD l 0 = l := by simp [List.getD, hl]
  refine ⟨fun l => (drawsOf f (List.range n) s).getD l 0, h0, h1, fun l hl => ?_, ?_⟩
  · obtain ⟨hc, hd⟩ := h3 l hl
    rw [hr l hl] at hc hd
    refine ⟨?_, hd⟩
    have hlt : packNat w (lanesM f (List.range n) s).1 < 2 ^ 256 :=
      Nat.lt_of_lt_of_le (packNat_lt w _) (Nat.pow_le_pow_right (by decide) (by rw [h2]; exact hn))
    have hk : l < (lanesM f (List.range n) s).1.length := by rw [h2]; exact hl
    show lane w (packLanes w (lanesM f (List.range n) s).1) l = _
    unfold lane packLanes
    rw [BitVec.toNat_ofNat, Nat.mod_eq_of_lt hlt, packNat_shift _ _ _ hk, ← hc]
    simp [List.getD, hk]
  · show (lanesM f (List.range n) s).2.1 = true ↔ _
    rw [h4]
    constructor
    · rintro ⟨k, hk, h⟩
      rw [hr k hk] at h
      exact ⟨k, hk, h⟩
    · rintro ⟨k, hk, h⟩
      exact ⟨k, hk, by rw [hr k hk]; exact h⟩

end Sys2Proof.Machine
end

