-- ==== Sys2Proof/Laws/PerInstr.lean ====
section
/-!
SUPPORT. Laws/PerInstr.lean: of every instruction, that its syntax is that of exactly one kind of word (R67, R197, R244, R299), and that an
element instruction is made of the operation and the fields that elem? takes it apart into.
-/
namespace Sys2Proof.Laws.Row

/-- Row: an element instruction is its operation with its fields, and its opcode is that operation's alone; it is neither a micro-instruction
nor an action, and no micro-instruction is an action. -/
def Statement (i : Instr) : Prop :=
  (∀ o x, i.elem? = some (o, x) → o.instr x = i ∧ Op.ofCode o.code = some o ∧ encodeMicro i = none ∧ encodeAction i = none)
  ∧ (encodeMicro i = none ∨ encodeAction i = none)

/-- Every operation is what its opcode names (R76). -/
theorem ofCode_code (o : Op) : Op.ofCode o.code = some o := by cases o <;> decide

/-- The statement of an element instruction. -/
theorem of_op (o : Op) (x : Slot) (he : (o.instr x).elem? = some (o, x)) (hm : encodeMicro (o.instr x) = none)
    (ha : encodeAction (o.instr x) = none) : Statement (o.instr x) :=
  ⟨fun _ _ h => by rw [he] at h; cases h; exact ⟨rfl, ofCode_code o, hm, ha⟩, .inl hm⟩

/-- The statement of a step that is no element instruction. -/
theorem of_none (i : Instr) (he : i.elem? = none) (h : encodeMicro i = none ∨ encodeAction i = none) : Statement i :=
  ⟨fun _ _ hs => (nomatch he.symm.trans hs), h⟩

theorem nop (x : Slot) : Statement (.nop x) := of_op .nop x rfl rfl rfl
theorem outc (x : Slot) : Statement (.outc x) := of_op .outc x rfl rfl rfl
theorem trap (x : Slot) : Statement (.trap x) := of_op .trap x rfl rfl rfl
theorem bkpt (x : Slot) : Statement (.bkpt x) := of_op .bkpt x rfl rfl rfl
theorem rdsr (x : Slot) : Statement (.rdsr x) := of_op .rdsr x rfl rfl rfl
theorem wrsr (x : Slot) : Statement (.wrsr x) := of_op .wrsr x rfl rfl rfl
theorem kset (x : Slot) : Statement (.kset x) := of_op .kset x rfl rfl rfl
theorem kdec (x : Slot) : Statement (.kdec x) := of_op .kdec x rfl rfl rfl
theorem kadd (x : Slot) : Statement (.kadd x) := of_op .kadd x rfl rfl rfl
theorem plog (x : Slot) : Statement (.plog x) := of_op .plog x rfl rfl rfl
theorem evnt (x : Slot) : Statement (.evnt x) := of_op .evnt x rfl rfl rfl
theorem fmtw (x : Slot) : Statement (.fmtw x) := of_op .fmtw x rfl rfl rfl
theorem tick (x : Slot) : Statement (.tick x) := of_op .tick x rfl rfl rfl
theorem mov (x : Slot) : Statement (.mov x) := of_op .mov x rfl rfl rfl
theorem movi (x : Slot) : Statement (.movi x) := of_op .movi x rfl rfl rfl
theorem lane (x : Slot) : Statement (.lane x) := of_op .lane x rfl rfl rfl
theorem insl (x : Slot) : Statement (.insl x) := of_op .insl x rfl rfl rfl
theorem bcst (x : Slot) : Statement (.bcst x) := of_op .bcst x rfl rfl rfl
theorem perm (x : Slot) : Statement (.perm x) := of_op .perm x rfl rfl rfl
theorem rotl (x : Slot) : Statement (.rotl x) := of_op .rotl x rfl rfl rfl
theorem zipl (x : Slot) : Statement (.zipl x) := of_op .zipl x rfl rfl rfl
theorem unzl (x : Slot) : Statement (.unzl x) := of_op .unzl x rfl rfl rfl
theorem tagr (x : Slot) : Statement (.tagr x) := of_op .tagr x rfl rfl rfl
theorem fwd (x : Slot) : Statement (.fwd x) := of_op .fwd x rfl rfl rfl
theorem steer (x : Slot) : Statement (.steer x) := of_op .steer x rfl rfl rfl
theorem merge (x : Slot) : Statement (.merge x) := of_op .merge x rfl rfl rfl
theorem ctag (x : Slot) : Statement (.ctag x) := of_op .ctag x rfl rfl rfl
theorem ftag (x : Slot) : Statement (.ftag x) := of_op .ftag x rfl rfl rfl
theorem add (x : Slot) : Statement (.add x) := of_op .add x rfl rfl rfl
theorem sub (x : Slot) : Statement (.sub x) := of_op .sub x rfl rfl rfl
theorem mul (x : Slot) : Statement (.mul x) := of_op .mul x rfl rfl rfl
theorem mulh (x : Slot) : Statement (.mulh x) := of_op .mulh x rfl rfl rfl
theorem mad (x : Slot) : Statement (.mad x) := of_op .mad x rfl rfl rfl
theorem div (x : Slot) : Statement (.div x) := of_op .div x rfl rfl rfl
theorem rem (x : Slot) : Statement (.rem x) := of_op .rem x rfl rfl rfl
theorem min (x : Slot) : Statement (.min x) := of_op .min x rfl rfl rfl
theorem max (x : Slot) : Statement (.max x) := of_op .max x rfl rfl rfl
theorem abs (x : Slot) : Statement (.abs x) := of_op .abs x rfl rfl rfl
theorem neg (x : Slot) : Statement (.neg x) := of_op .neg x rfl rfl rfl
theorem adds (x : Slot) : Statement (.adds x) := of_op .adds x rfl rfl rfl
theorem subs (x : Slot) : Statement (.subs x) := of_op .subs x rfl rfl rfl
theorem clmp (x : Slot) : Statement (.clmp x) := of_op .clmp x rfl rfl rfl
theorem qmul (x : Slot) : Statement (.qmul x) := of_op .qmul x rfl rfl rfl
theorem ired (x : Slot) : Statement (.ired x) := of_op .ired x rfl rfl rfl
theorem and (x : Slot) : Statement (.and x) := of_op .and x rfl rfl rfl
theorem or (x : Slot) : Statement (.or x) := of_op .or x rfl rfl rfl
theorem xor (x : Slot) : Statement (.xor x) := of_op .xor x rfl rfl rfl
theorem andn (x : Slot) : Statement (.andn x) := of_op .andn x rfl rfl rfl
theorem shl (x : Slot) : Statement (.shl x) := of_op .shl x rfl rfl rfl
theorem shr (x : Slot) : Statement (.shr x) := of_op .shr x rfl rfl rfl
theorem sha (x : Slot) : Statement (.sha x) := of_op .sha x rfl rfl rfl
theorem rotb (x : Slot) : Statement (.rotb x) := of_op .rotb x rfl rfl rfl
theorem popc (x : Slot) : Statement (.popc x) := of_op .popc x rfl rfl rfl
theorem clz (x : Slot) : Statement (.clz x) := of_op .clz x rfl rfl rfl
theorem bsel (x : Slot) : Statement (.bsel x) := of_op .bsel x rfl rfl rfl
theorem bfx (x : Slot) : Statement (.bfx x) := of_op .bfx x rfl rfl rfl
theorem bfi (x : Slot) : Statement (.bfi x) := of_op .bfi x rfl rfl rfl
theorem crc (x : Slot) : Statement (.crc x) := of_op .crc x rfl rfl rfl
theorem pack (x : Slot) : Statement (.pack x) := of_op .pack x rfl rfl rfl
theorem unpk (x : Slot) : Statement (.unpk x) := of_op .unpk x rfl rfl rfl
theorem cmpeq (x : Slot) : Statement (.cmpeq x) := of_op .cmpeq x rfl rfl rfl
theorem cmpne (x : Slot) : Statement (.cmpne x) := of_op .cmpne x rfl rfl rfl
theorem cmplt (x : Slot) : Statement (.cmplt x) := of_op .cmplt x rfl rfl rfl
theorem cmple (x : Slot) : Statement (.cmple x) := of_op .cmple x rfl rfl rfl
theorem cmpgt (x : Slot) : Statement (.cmpgt x) := of_op .cmpgt x rfl rfl rfl
theorem cmpge (x : Slot) : Statement (.cmpge x) := of_op .cmpge x rfl rfl rfl
theorem tstz (x : Slot) : Statement (.tstz x) := of_op .tstz x rfl rfl rfl
theorem tstnz (x : Slot) : Statement (.tstnz x) := of_op .tstnz x rfl rfl rfl
theorem fcmeq (x : Slot) : Statement (.fcmeq x) := of_op .fcmeq x rfl rfl rfl
theorem fcmlt (x : Slot) : Statement (.fcmlt x) := of_op .fcmlt x rfl rfl rfl
theorem fcmle (x : Slot) : Statement (.fcmle x) := of_op .fcmle x rfl rfl rfl
theorem fcmun (x : Slot) : Statement (.fcmun x) := of_op .fcmun x rfl rfl rfl
theorem anyl (x : Slot) : Statement (.anyl x) := of_op .anyl x rfl rfl rfl
theorem alll (x : Slot) : Statement (.alll x) := of_op .alll x rfl rfl rfl
theorem sel (x : Slot) : Statement (.sel x) := of_op .sel x rfl rfl rfl
theorem firstl (x : Slot) : Statement (.firstl x) := of_op .firstl x rfl rfl rfl
theorem fadd (x : Slot) : Statement (.fadd x) := of_op .fadd x rfl rfl rfl
theorem fsub (x : Slot) : Statement (.fsub x) := of_op .fsub x rfl rfl rfl
theorem fmul (x : Slot) : Statement (.fmul x) := of_op .fmul x rfl rfl rfl
theorem fma (x : Slot) : Statement (.fma x) := of_op .fma x rfl rfl rfl
theorem fms (x : Slot) : Statement (.fms x) := of_op .fms x rfl rfl rfl
theorem fnma (x : Slot) : Statement (.fnma x) := of_op .fnma x rfl rfl rfl
theorem fmin (x : Slot) : Statement (.fmin x) := of_op .fmin x rfl rfl rfl
theorem fmax (x : Slot) : Statement (.fmax x) := of_op .fmax x rfl rfl rfl
theorem fabs (x : Slot) : Statement (.fabs x) := of_op .fabs x rfl rfl rfl
theorem fneg (x : Slot) : Statement (.fneg x) := of_op .fneg x rfl rfl rfl
theorem fred (x : Slot) : Statement (.fred x) := of_op .fred x rfl rfl rfl
theorem fdot2 (x : Slot) : Statement (.fdot2 x) := of_op .fdot2 x rfl rfl rfl
theorem fscl (x : Slot) : Statement (.fscl x) := of_op .fscl x rfl rfl rfl
theorem fcls (x : Slot) : Statement (.fcls x) := of_op .fcls x rfl rfl rfl
theorem frnd (x : Slot) : Statement (.frnd x) := of_op .frnd x rfl rfl rfl
theorem osm (x : Slot) : Statement (.osm x) := of_op .osm x rfl rfl rfl
theorem frcp (x : Slot) : Statement (.frcp x) := of_op .frcp x rfl rfl rfl
theorem frsq (x : Slot) : Statement (.frsq x) := of_op .frsq x rfl rfl rfl
theorem fsqrt (x : Slot) : Statement (.fsqrt x) := of_op .fsqrt x rfl rfl rfl
theorem fexp2 (x : Slot) : Statement (.fexp2 x) := of_op .fexp2 x rfl rfl rfl
theorem flog2 (x : Slot) : Statement (.flog2 x) := of_op .flog2 x rfl rfl rfl
theorem fsin (x : Slot) : Statement (.fsin x) := of_op .fsin x rfl rfl rfl
theorem fcos (x : Slot) : Statement (.fcos x) := of_op .fcos x rfl rfl rfl
theorem ftanh (x : Slot) : Statement (.ftanh x) := of_op .ftanh x rfl rfl rfl
theorem fsigm (x : Slot) : Statement (.fsigm x) := of_op .fsigm x rfl rfl rfl
theorem ferf (x : Slot) : Statement (.ferf x) := of_op .ferf x rfl rfl rfl
theorem fexp (x : Slot) : Statement (.fexp x) := of_op .fexp x rfl rfl rfl
theorem fdiv (x : Slot) : Statement (.fdiv x) := of_op .fdiv x rfl rfl rfl
theorem cvt (x : Slot) : Statement (.cvt x) := of_op .cvt x rfl rfl rfl
theorem cvti (x : Slot) : Statement (.cvti x) := of_op .cvti x rfl rfl rfl
theorem cvtf (x : Slot) : Statement (.cvtf x) := of_op .cvtf x rfl rfl rfl
theorem qnt (x : Slot) : Statement (.qnt x) := of_op .qnt x rfl rfl rfl
theorem dqnt (x : Slot) : Statement (.dqnt x) := of_op .dqnt x rfl rfl rfl
theorem mxsc (x : Slot) : Statement (.mxsc x) := of_op .mxsc x rfl rfl rfl
theorem srnd (x : Slot) : Statement (.srnd x) := of_op .srnd x rfl rfl rfl
theorem narw (x : Slot) : Statement (.narw x) := of_op .narw x rfl rfl rfl
theorem widn (x : Slot) : Statement (.widn x) := of_op .widn x rfl rfl rfl
theorem pk4 (x : Slot) : Statement (.pk4 x) := of_op .pk4 x rfl rfl rfl
theorem upk4 (x : Slot) : Statement (.upk4 x) := of_op .upk4 x rfl rfl rfl
theorem seed (x : Slot) : Statement (.seed x) := of_op .seed x rfl rfl rfl
theorem mma (x : Slot) : Statement (.mma x) := of_op .mma x rfl rfl rfl
theorem mmaz (x : Slot) : Statement (.mmaz x) := of_op .mmaz x rfl rfl rfl
theorem mmsp (x : Slot) : Statement (.mmsp x) := of_op .mmsp x rfl rfl rfl
theorem mmv (x : Slot) : Statement (.mmv x) := of_op .mmv x rfl rfl rfl
theorem mxb (x : Slot) : Statement (.mxb x) := of_op .mxb x rfl rfl rfl
theorem accr (x : Slot) : Statement (.accr x) := of_op .accr x rfl rfl rfl
theorem accw (x : Slot) : Statement (.accw x) := of_op .accw x rfl rfl rfl
theorem accz (x : Slot) : Statement (.accz x) := of_op .accz x rfl rfl rfl
theorem accs (x : Slot) : Statement (.accs x) := of_op .accs x rfl rfl rfl
theorem acca (x : Slot) : Statement (.acca x) := of_op .acca x rfl rfl rfl
theorem mdrn (x : Slot) : Statement (.mdrn x) := of_op .mdrn x rfl rfl rfl
theorem mstat (x : Slot) : Statement (.mstat x) := of_op .mstat x rfl rfl rfl
theorem mtest (x : Slot) : Statement (.mtest x) := of_op .mtest x rfl rfl rfl
theorem trns (x : Slot) : Statement (.trns x) := of_op .trns x rfl rfl rfl
theorem rast (x : Slot) : Statement (.rast x) := of_op .rast x rfl rfl rfl
theorem lds (x : Slot) : Statement (.lds x) := of_op .lds x rfl rfl rfl
theorem sts (x : Slot) : Statement (.sts x) := of_op .sts x rfl rfl rfl
theorem ldsx (x : Slot) : Statement (.ldsx x) := of_op .ldsx x rfl rfl rfl
theorem stsx (x : Slot) : Statement (.stsx x) := of_op .stsx x rfl rfl rfl
theorem satm (x : Slot) : Statement (.satm x) := of_op .satm x rfl rfl rfl
theorem gset (x : Slot) : Statement (.gset x) := of_op .gset x rfl rfl rfl
theorem grun (x : Slot) : Statement (.grun x) := of_op .grun x rfl rfl rfl
theorem gsus (x : Slot) : Statement (.gsus x) := of_op .gsus x rfl rfl rfl
theorem gres (x : Slot) : Statement (.gres x) := of_op .gres x rfl rfl rfl
theorem sbar (x : Slot) : Statement (.sbar x) := of_op .sbar x rfl rfl rfl
theorem hold (x : Slot) : Statement (.hold x) := of_op .hold x rfl rfl rfl
theorem cmit (x : Slot) : Statement (.cmit x) := of_op .cmit x rfl rfl rfl
theorem disc (x : Slot) : Statement (.disc x) := of_op .disc x rfl rfl rfl
theorem dcxc (x : Slot) : Statement (.dcxc x) := of_op .dcxc x rfl rfl rfl
theorem qapp (x : Slot) : Statement (.qapp x) := of_op .qapp x rfl rfl rfl
theorem qtak (x : Slot) : Statement (.qtak x) := of_op .qtak x rfl rfl rfl
theorem gld (x : Slot) : Statement (.gld x) := of_op .gld x rfl rfl rfl
theorem gst (x : Slot) : Statement (.gst x) := of_op .gst x rfl rfl rfl
theorem gatm (x : Slot) : Statement (.gatm x) := of_op .gatm x rfl rfl rfl
theorem gprf (x : Slot) : Statement (.gprf x) := of_op .gprf x rfl rfl rfl
theorem wsld (x : Slot) : Statement (.wsld x) := of_op .wsld x rfl rfl rfl
theorem sigw (x : Slot) : Statement (.sigw x) := of_op .sigw x rfl rfl rfl
theorem sigr (x : Slot) : Statement (.sigr x) := of_op .sigr x rfl rfl rfl
theorem fnc (x : Slot) : Statement (.fnc x) := of_op .fnc x rfl rfl rfl
theorem nbq (x : Slot) : Statement (.nbq x) := of_op .nbq x rfl rfl rfl
theorem nbr (x : Slot) : Statement (.nbr x) := of_op .nbr x rfl rfl rfl
theorem nbst (x : Slot) : Statement (.nbst x) := of_op .nbst x rfl rfl rfl
theorem fltr (x : Slot) : Statement (.fltr x) := of_op .fltr x rfl rfl rfl
theorem rdce (x : Slot) : Statement (.rdce x) := of_op .rdce x rfl rfl rfl
theorem csnd (x : Slot) : Statement (.csnd x) := of_op .csnd x rfl rfl rfl
theorem crcv (x : Slot) : Statement (.crcv x) := of_op .crcv x rfl rfl rfl
theorem cred (x : Slot) : Statement (.cred x) := of_op .cred x rfl rfl rfl
theorem cbar (x : Slot) : Statement (.cbar x) := of_op .cbar x rfl rfl rfl
theorem act (off : BitVec 14) : Statement (.act off) := of_none _ rfl (.inr rfl)
theorem pre (inc : BitVec 14) : Statement (.pre inc) := of_none _ rfl (.inr rfl)
theorem rd (off : BitVec 2) (col : BitVec 5) : Statement (.rd off col) := of_none _ rfl (.inr rfl)
theorem wr (off : BitVec 2) (col : BitVec 5) : Statement (.wr off col) := of_none _ rfl (.inr rfl)
theorem zv (a : BitVec 3) : Statement (.zv a) := of_none _ rfl (.inr rfl)
theorem macq (a : BitVec 2) (b : BitVec 3) (bf : Bool) : Statement (.macq a b bf) := of_none _ rfl (.inr rfl)
theorem axpy (a : BitVec 2) (b : BitVec 3) (fromS : Bool) (k : BitVec 4) (bf : Bool) : Statement (.axpy a b fromS k bf) := of_none _ rfl (.inr rfl)
theorem dotq (b : BitVec 3) (acc bf : Bool) : Statement (.dotq b acc bf) := of_none _ rfl (.inr rfl)
theorem smx (vmask : BitVec 4) : Statement (.smx vmask) := of_none _ rfl (.inr rfl)
theorem scal (a : BitVec 2) (b : BitVec 3) (fromS : Bool) (k : BitVec 4) (bf : Bool) : Statement (.scal a b fromS k bf) := of_none _ rfl (.inr rfl)
theorem addv (a b : BitVec 2) : Statement (.addv a b) := of_none _ rfl (.inr rfl)
theorem loop (reload second : Bool) (target : BitVec 6) : Statement (.loop reload second target) := of_none _ rfl (.inr rfl)
theorem emit (a : BitVec 3) (ft : BitVec 3) (hi : Bool) : Statement (.emit a ft hi) := of_none _ rfl (.inr rfl)
theorem movq (b : BitVec 3) : Statement (.movq b) := of_none _ rfl (.inr rfl)
theorem mask (str : BitVec 6) (inc : BitVec 14) : Statement (.mask str inc) := of_none _ rfl (.inr rfl)
theorem cvtl (a : BitVec 2) (sat bf : Bool) : Statement (.cvtl a sat bf) := of_none _ rfl (.inr rfl)
theorem stv (a : BitVec 2) (addLc0 : Bool) (src : BitVec 2) (k : BitVec 4) : Statement (.stv a addLc0 src k) := of_none _ rfl (.inr rfl)
theorem arm (tgt stg : BitVec 8) (reg : Option (Fin 16)) (n : BitVec 16) (scope : Scope) : Statement (.arm tgt stg reg n scope) := of_none _ rfl (.inl rfl)
theorem cfg (tgt img : BitVec 8) (shadow : Bool) : Statement (.cfg tgt img shadow) := of_none _ rfl (.inl rfl)
theorem swap (tgt : BitVec 8) (shadow : Bool) : Statement (.swap tgt shadow) := of_none _ rfl (.inl rfl)
theorem strm (tgt desc : BitVec 8) (reg : Option (Fin 16)) (scope : Scope) : Statement (.strm tgt desc reg scope) := of_none _ rfl (.inl rfl)
theorem sbarAction (scope : Scope) (mask : W64) : Statement (.sbarAction scope mask) := of_none _ rfl (.inl rfl)
theorem nbld (tgt prog : BitVec 8) : Statement (.nbld tgt prog) := of_none _ rfl (.inl rfl)
theorem nbrun (tgt prog : BitVec 8) (rport : BitVec 2) (scope : Scope) (lc0 lc1 : W32) (row0 : BitVec 14) (len : BitVec 16) : Statement (.nbrun tgt prog rport scope lc0 lc1 row0 len) := of_none _ rfl (.inl rfl)
theorem wsw (tgt : BitVec 8) (va : BitVec 56) : Statement (.wsw tgt va) := of_none _ rfl (.inl rfl)
theorem sign (tgt : BitVec 8) (add : Bool) (scope : Scope) (value : W64) : Statement (.sign tgt add scope value) := of_none _ rfl (.inl rfl)
theorem watch (tgt : BitVec 8) (cmp : Cmp) (scope : Scope) (value : W64) (timeout : W32) : Statement (.watch tgt cmp scope value timeout) := of_none _ rfl (.inl rfl)
theorem nset (n : Fin 16) (value : W64) : Statement (.nset n value) := of_none _ rfl (.inl rfl)
theorem nadd (n : Fin 16) (value : W64) : Statement (.nadd n value) := of_none _ rfl (.inl rfl)
theorem ncmp (n : Fin 16) (unsigned : Bool) (value : W64) : Statement (.ncmp n unsigned value) := of_none _ rfl (.inl rfl)
theorem ndec (n : Fin 16) : Statement (.ndec n) := of_none _ rfl (.inl rfl)
theorem collBind (tgt : BitVec 8) : Statement (.collBind tgt) := of_none _ rfl (.inl rfl)
theorem collStep (tgt : BitVec 8) (k : W32) : Statement (.collStep tgt k) := of_none _ rfl (.inl rfl)
theorem collEnd (tgt : BitVec 8) : Statement (.collEnd tgt) := of_none _ rfl (.inl rfl)
theorem cslot (tgt : BitVec 8) (length : W32) : Statement (.cslot tgt length) := of_none _ rfl (.inl rfl)
theorem tail (tgt : BitVec 8) : Statement (.tail tgt) := of_none _ rfl (.inl rfl)
theorem hosti (vec : BitVec 8) (reg : Option (Fin 16)) (value : W64) : Statement (.hosti vec reg value) := of_none _ rfl (.inl rfl)
theorem timer (count : W32) : Statement (.timer count) := of_none _ rfl (.inl rfl)
theorem nrdp (n : Fin 16) (place : BitVec 8) : Statement (.nrdp n place) := of_none _ rfl (.inl rfl)
theorem done (status : BitVec 16) : Statement (.done status) := of_none _ rfl (.inl rfl)
theorem rkey (gen timeout : W32) : Statement (.rkey gen timeout) := of_none _ rfl (.inl rfl)
theorem extend (tgt : BitVec 8) (a : BitVec 16) (b c d : W32) : Statement (.extend tgt a b c d) := of_none _ rfl (.inl rfl)
theorem pktNop (h : PktHdr) : Statement (.pktNop h) := of_none _ rfl (.inl rfl)
theorem launch (h : PktHdr) (image root : W64) (interval : W32) (dmask : BitVec 16) (ndm1 : BitVec 4) : Statement (.launch h image root interval dmask ndm1) := of_none _ rfl (.inl rfl)
theorem waitall (h : PktHdr) (timeout : W32) (conds : List WaitCond) : Statement (.waitall h timeout conds) := of_none _ rfl (.inl rfl)
theorem waitany (h : PktHdr) (timeout : W32) (conds : List WaitCond) : Statement (.waitany h timeout conds) := of_none _ rfl (.inl rfl)
theorem signal (h : PktHdr) (va : BitVec 56) (add : Bool) (value : W64) : Statement (.signal h va add value) := of_none _ rfl (.inl rfl)
theorem netload (h : PktHdr) (image : W64) : Statement (.netload h image) := of_none _ rfl (.inl rfl)
theorem fence (h : PktHdr) : Statement (.fence h) := of_none _ rfl (.inl rfl)
theorem marker (h : PktHdr) (value : W64) : Statement (.marker h value) := of_none _ rfl (.inl rfl)
theorem timed (h : PktHdr) (entry : BitVec 8) (rule : BitVec 2) (valid : Bool) (period start image root : W64) : Statement (.timed h entry rule valid period start image root) := of_none _ rfl (.inl rfl)
theorem map (qcb die slot : W64) : Statement (.map qcb die slot) := of_none _ rfl (.inl rfl)
theorem unmap (die slot : W64) : Statement (.unmap die slot) := of_none _ rfl (.inl rfl)
theorem qresume (qcb : W64) : Statement (.qresume qcb) := of_none _ rfl (.inl rfl)
theorem kill (asid : W64) : Statement (.kill asid) := of_none _ rfl (.inl rfl)
theorem resume (asid : W64) : Statement (.resume asid) := of_none _ rfl (.inl rfl)
theorem trapget (asid : W64) : Statement (.trapget asid) := of_none _ rfl (.inl rfl)
theorem faultdone (entry answer : W64) : Statement (.faultdone entry answer) := of_none _ rfl (.inl rfl)
theorem setsys (qcb value : W64) : Statement (.setsys qcb value) := of_none _ rfl (.inl rfl)
theorem linktrain (port : W64) : Statement (.linktrain port) := of_none _ rfl (.inl rfl)
theorem nbuNop : Statement (.nbuNop) := of_none _ rfl (.inr rfl)
theorem maxs : Statement (.maxs) := of_none _ rfl (.inr rfl)
theorem exps : Statement (.exps) := of_none _ rfl (.inr rfl)
theorem sync : Statement (.sync) := of_none _ rfl (.inr rfl)
theorem halt : Statement (.halt) := of_none _ rfl (.inr rfl)
theorem netNop : Statement (.netNop) := of_none _ rfl (.inl rfl)
theorem status : Statement (.status) := of_none _ rfl (.inl rfl)
theorem direct : Statement (.direct) := of_none _ rfl (.inl rfl)
theorem faultget : Statement (.faultget) := of_none _ rfl (.inl rfl)
theorem restart : Statement (.restart) := of_none _ rfl (.inl rfl)
theorem tickExpire : Statement (.tickExpire) := of_none _ rfl (.inl rfl)
theorem instructionComplete : Statement (.instructionComplete) := of_none _ rfl (.inl rfl)
theorem cslotExpire : Statement (.cslotExpire) := of_none _ rfl (.inl rfl)
theorem timerExpire : Statement (.timerExpire) := of_none _ rfl (.inl rfl)
theorem watchTimeout : Statement (.watchTimeout) := of_none _ rfl (.inl rfl)
theorem transitionStart : Statement (.transitionStart) := of_none _ rfl (.inl rfl)
theorem firingCompletion : Statement (.firingCompletion) := of_none _ rfl (.inl rfl)
theorem nsqRound : Statement (.nsqRound) := of_none _ rfl (.inl rfl)
theorem timeTick : Statement (.timeTick) := of_none _ rfl (.inl rfl)
theorem wsRefresh : Statement (.wsRefresh) := of_none _ rfl (.inl rfl)
theorem mirrorUpdate : Statement (.mirrorUpdate) := of_none _ rfl (.inl rfl)
theorem watchRecheck : Statement (.watchRecheck) := of_none _ rfl (.inl rfl)
theorem finApply : Statement (.finApply) := of_none _ rfl (.inl rfl)
theorem swapInstall : Statement (.swapInstall) := of_none _ rfl (.inl rfl)
theorem instanceRetire : Statement (.instanceRetire) := of_none _ rfl (.inl rfl)
theorem tailChildLaunch : Statement (.tailChildLaunch) := of_none _ rfl (.inl rfl)
theorem deadlock : Statement (.deadlock) := of_none _ rfl (.inl rfl)
theorem accessGenerate : Statement (.accessGenerate) := of_none _ rfl (.inl rfl)
theorem accessHold : Statement (.accessHold) := of_none _ rfl (.inl rfl)
theorem accessLeave : Statement (.accessLeave) := of_none _ rfl (.inl rfl)
theorem accessIngress : Statement (.accessIngress) := of_none _ rfl (.inl rfl)
theorem accessPerform : Statement (.accessPerform) := of_none _ rfl (.inl rfl)
theorem tokenDeliver : Statement (.tokenDeliver) := of_none _ rfl (.inl rfl)
theorem linkReplay : Statement (.linkReplay) := of_none _ rfl (.inl rfl)
theorem linkTraining : Statement (.linkTraining) := of_none _ rfl (.inl rfl)
theorem dcxBlockCheck : Statement (.dcxBlockCheck) := of_none _ rfl (.inl rfl)
theorem dcxEmit : Statement (.dcxEmit) := of_none _ rfl (.inl rfl)
theorem pageWalk : Statement (.pageWalk) := of_none _ rfl (.inl rfl)
theorem trapClassify : Statement (.trapClassify) := of_none _ rfl (.inl rfl)
theorem preemptAccept : Statement (.preemptAccept) := of_none _ rfl (.inl rfl)
theorem contextResume : Statement (.contextResume) := of_none _ rfl (.inl rfl)
theorem scrub : Statement (.scrub) := of_none _ rfl (.inl rfl)
theorem runStart : Statement (.runStart) := of_none _ rfl (.inl rfl)
theorem runResume : Statement (.runResume) := of_none _ rfl (.inl rfl)
theorem ebufDrain : Statement (.ebufDrain) := of_none _ rfl (.inl rfl)
theorem runEnd : Statement (.runEnd) := of_none _ rfl (.inl rfl)
theorem segmentTimeout : Statement (.segmentTimeout) := of_none _ rfl (.inl rfl)
theorem refresh : Statement (.refresh) := of_none _ rfl (.inl rfl)
theorem refreshDue : Statement (.refreshDue) := of_none _ rfl (.inl rfl)
theorem alert : Statement (.alert) := of_none _ rfl (.inl rfl)
theorem backoffEnd : Statement (.backoffEnd) := of_none _ rfl (.inl rfl)
theorem powerDownEntry : Statement (.powerDownEntry) := of_none _ rfl (.inl rfl)
theorem selfRefreshEntry : Statement (.selfRefreshEntry) := of_none _ rfl (.inl rfl)
theorem pchWake : Statement (.pchWake) := of_none _ rfl (.inl rfl)
theorem fjoisPacketReceive : Statement (.fjoisPacketReceive) := of_none _ rfl (.inl rfl)
theorem pauseReceive : Statement (.pauseReceive) := of_none _ rfl (.inl rfl)
theorem collResumeReceive : Statement (.collResumeReceive) := of_none _ rfl (.inl rfl)
theorem abortReceive : Statement (.abortReceive) := of_none _ rfl (.inl rfl)
theorem barrierReceive : Statement (.barrierReceive) := of_none _ rfl (.inl rfl)
theorem switchResponse : Statement (.switchResponse) := of_none _ rfl (.inl rfl)
theorem stepTimeout : Statement (.stepTimeout) := of_none _ rfl (.inl rfl)
theorem leaseExpire : Statement (.leaseExpire) := of_none _ rfl (.inl rfl)
theorem rkeyTimeout : Statement (.rkeyTimeout) := of_none _ rfl (.inl rfl)
theorem membershipChange : Statement (.membershipChange) := of_none _ rfl (.inl rfl)
theorem spdmExchange : Statement (.spdmExchange) := of_none _ rfl (.inl rfl)
theorem kick : Statement (.kick) := of_none _ rfl (.inl rfl)
theorem queueMap : Statement (.queueMap) := of_none _ rfl (.inl rfl)
theorem ageing : Statement (.ageing) := of_none _ rfl (.inl rfl)
theorem waitTimeout : Statement (.waitTimeout) := of_none _ rfl (.inl rfl)
theorem ttSlot : Statement (.ttSlot) := of_none _ rfl (.inl rfl)
theorem ppsEdge : Statement (.ppsEdge) := of_none _ rfl (.inl rfl)
theorem ppsLoss : Statement (.ppsLoss) := of_none _ rfl (.inl rfl)
theorem ptpset : Statement (.ptpset) := of_none _ rfl (.inl rfl)
theorem heartbeatCheck : Statement (.heartbeatCheck) := of_none _ rfl (.inl rfl)
theorem watchdog : Statement (.watchdog) := of_none _ rfl (.inl rfl)
theorem wdpet : Statement (.wdpet) := of_none _ rfl (.inl rfl)
theorem tlbinvGo : Statement (.tlbinvGo) := of_none _ rfl (.inl rfl)
theorem tlbinvDone : Statement (.tlbinvDone) := of_none _ rfl (.inl rfl)
theorem hostnegGo : Statement (.hostnegGo) := of_none _ rfl (.inl rfl)
theorem mhuctlSnap : Statement (.mhuctlSnap) := of_none _ rfl (.inl rfl)
theorem mhuctlClr : Statement (.mhuctlClr) := of_none _ rfl (.inl rfl)
theorem mhuSample : Statement (.mhuSample) := of_none _ rfl (.inl rfl)
theorem ltidxFetch : Statement (.ltidxFetch) := of_none _ rfl (.inl rfl)
theorem ltwinReady : Statement (.ltwinReady) := of_none _ rfl (.inl rfl)
theorem lifetimeRecord : Statement (.lifetimeRecord) := of_none _ rfl (.inl rfl)
theorem powerControl : Statement (.powerControl) := of_none _ rfl (.inl rfl)
theorem kickerrRead : Statement (.kickerrRead) := of_none _ rfl (.inl rfl)
theorem ttstatRead : Statement (.ttstatRead) := of_none _ rfl (.inl rfl)
theorem stkramRead : Statement (.stkramRead) := of_none _ rfl (.inl rfl)
theorem fpstatRead : Statement (.fpstatRead) := of_none _ rfl (.inl rfl)
theorem pwrstatWrite : Statement (.pwrstatWrite) := of_none _ rfl (.inl rfl)
theorem registerWrite : Statement (.registerWrite) := of_none _ rfl (.inl rfl)
theorem hostBarAccess : Statement (.hostBarAccess) := of_none _ rfl (.inl rfl)
theorem boot : Statement (.boot) := of_none _ rfl (.inl rfl)
theorem bankSettled : Statement (.bankSettled) := of_none _ rfl (.inl rfl)
theorem bindTimeout : Statement (.bindTimeout) := of_none _ rfl (.inl rfl)
theorem waitConditionReread : Statement (.waitConditionReread) := of_none _ rfl (.inl rfl)
theorem refreshEnd : Statement (.refreshEnd) := of_none _ rfl (.inl rfl)
theorem dieTemperatureHot : Statement (.dieTemperatureHot) := of_none _ rfl (.inl rfl)

end Sys2Proof.Laws.Row
end

