-- ==== Sys2Proof/WellFormed.lean ====
section
/-!
DEFINITION. WellFormed.lean: which instructions are well formed: an element instruction that passes the checks of R68-R76
and R78 that its word alone decides; a micro-instruction, an action or a packet whose fields hold values its rule lists.
-/
namespace Sys2Proof

/-- The checks of an instruction that need nothing but the instruction. -/
def Instr.wf (i : Instr) : Bool :=
  match i.elem? with
  | some (o, x) => Machine.wordRow o x == none
  | none => microOk i && packetOk i

/-- The checks of an element instruction in its node (R77, R130, R156, R191). -/
def Instr.wfIn (c : Machine.NodeCtx) (i : Instr) : Bool :=
  match i.elem? with
  | some (o, x) => Machine.slotRow c o x == none
  | none => i.wf

end Sys2Proof
end

