-- ==== Sys2Proof/Tests/Slice0.lean ====
section
/-!
SUPPORT. Tests/Slice0.lean: ill-formed terms that each check refuses, words written from the spec's encodings, results of single steps against values
worked out by hand from the rules, and states that meet the hypotheses of the obligations.
-/
namespace Sys2Proof.Tests
set_option Elab.async false
open Sys2Proof.Machine

/-! ## Well-formedness: one row of R78's table each -/

/-- Instructions that break a row of R78's table, all of them that row first. -/
def breaks (row : Nat) (l : List (Op × Slot)) : Bool := l.all (fun i => wordRow i.1 i.2 == some row && !Instr.wf (i.1.instr i.2))

theorem test_wf_accepts : ∀ o ∈ [Op.nop, .mov, .add, .and, .cmpeq, .fadd, .frcp, .accz, .gld, .nbst], (o.instr (if o = .accz then { emptySlot with
  dst := .acc } else { emptySlot with dst := if opDst o = .result then .d 0 else .null })).wf = true := by decide
theorem test_wf_row3_pval_without_pcare : breaks 3 [(.nop, { emptySlot with pval := 1 })] = true := by decide
theorem test_wf_row4_pops_an_empty_port : breaks 4 [(.nop, { emptySlot with ic0 := .empty, pop := 1 }),
  (.mov, { emptySlot with ic2 := .empty, sa := .i 2 })] = true := by decide
theorem test_wf_row5_destination : breaks 5 [(.mov, { emptySlot with dst := .acc }), (.add, { emptySlot with dst := .srg, sa := .imm, imm := 5 }),
  (.add, { emptySlot with dst := .srg, imm := 256 }), (.cmpeq, { emptySlot with dst := .k })] = true := by decide
theorem test_wf_null_stands_for_a_register : (Instr.qtak { emptySlot with dst := .null }).wf = true := by decide
theorem test_wf_row6_port_twice : breaks 6 [(.mov, { emptySlot with dst := .o 0, outm := 1 })] = true := by decide
theorem test_wf_row7_no_result_condition : breaks 7 [(.nop, { emptySlot with pres := some 0 }),
  (.fwd, { emptySlot with sa := .i 0, dst := .o 0, mod := 64, pres := some 0 })] = true := by decide
theorem test_wf_row8_keep_without_a_port : breaks 8 [(.mov, { emptySlot with mod := 64 }),
  (.mov, { emptySlot with sa := .i 0, dst := .o 0, mod := 64, fto := 1 })] = true := by decide
theorem test_wf_row9_tags_without_a_token : breaks 9 [(.mov, { emptySlot with tago := .stop }), (.add, { emptySlot with fto := 1 })] = true := by decide
theorem test_wf_row10_unused_field : breaks 10 [(.mov, { emptySlot with sb := .d 0 }), (.nop, { emptySlot with sa := .k0 }), (.nop, { emptySlot with dst := .d 0 }),
  (.add, { emptySlot with imm := 1 }), (.add, { emptySlot with sa := .imm, imm := 256 }), (.outc, { emptySlot with sa := .imm, imm := 4 })] = true := by
  decide
theorem test_wf_row11_mod : breaks 11 [(.nop, { emptySlot with mod := 1 }), (.fadd, { emptySlot with mod := 5 }), (.crc, { emptySlot with mod := 33 }),
  (.pack, emptySlot), (.unpk, { emptySlot with mod := 3 }), (.satm, { emptySlot with mod := 3 }), (.gatm, { emptySlot with mod := 1 }),
  (.sigw, { emptySlot with mod := 6 }), (.sigw, { emptySlot with mod := 32 }), (.fnc, { emptySlot with mod := 7 }),
  (.mma, { emptySlot with dst := .acc, sa := .i 0, sb := .i 1, mod := 4 }), (.fwd, { emptySlot with sa := .i 0, dst := .o 0 })] = true := by decide
theorem test_wf_row12_class_checks : breaks 12 [(.tagr, emptySlot), (.ctag, { emptySlot with sa := .i 0, pop := 1 }), 
  (.steer, { emptySlot with dst := .o 0, mod := 16, outm := 2 }), (.merge, { emptySlot with sa := .i 0, ic0 := .present }), (.bfx, emptySlot), (.bfi, { emptySlot with imm := 0x0801 }),
  (.fred, { emptySlot with imm := 3 }), (.fdot2, { emptySlot with sc := .k0 }), (.osm, { emptySlot with imm := 2 }), (.mma, { emptySlot with dst := .acc }),
  (.mmsp, { emptySlot with dst := .acc, sa := .i 0, sb := .i 1 }), (.mxb, emptySlot), (.accr, { emptySlot with imm := 5 }), (.mtest, { emptySlot with imm := 3 }),
  (.gset, emptySlot), (.rdce, { emptySlot with imm := 3 }), (.cred, { emptySlot with imm := 0x30 }), (.cvt, { emptySlot with sa := .i 0, imm := 1 }),
  (.srnd, { emptySlot with imm := 16 }), (.upk4, { emptySlot with imm := 32 }), (.cvt, { emptySlot with sa := .imm }),
  (.wrsr, { emptySlot with dst := .d 0 }), (.kset, { emptySlot with dst := .d 0 }), (.fwd, { emptySlot with sa := .i 0, mod := 64 }),
  (.steer, { emptySlot with dst := .o 1, mod := 16 }), (.accr, { emptySlot with dst := .srg }), (.rdsr, { emptySlot with imm := 9 }), (.add, { emptySlot with dst := .srg, imm := 0x46 })] = true := by decide
/-- A node of a type with R57's formats, no queue bound and no circuit. -/
def nodeOf (t : ElemType) : NodeCtx := { ty := t, compl := false, fmttab := fmttabReset, bound := 0, circs := 0 }
theorem test_wf_in_node_accepts : (Instr.fadd emptySlot).wfIn (nodeOf .ce) = true ∧ (Instr.lds emptySlot).wfIn (nodeOf .mt) = true := by decide
theorem test_wf_in_node_refuses : (Instr.fadd emptySlot).wfIn (nodeOf .mt) = false ∧ (Instr.lds emptySlot).wfIn (nodeOf .ce) = false
  ∧ (Instr.fadd { emptySlot with sa := .imm, imm := 0x10000, mod := 16 }).wfIn (nodeOf .ce) = false
  ∧ (Instr.add { emptySlot with dst := .srg, imm := 2 }).wfIn (nodeOf .ce) = false ∧ (Instr.rdsr { emptySlot with imm := 0x48 }).wfIn (nodeOf .ce) = false
  ∧ (Instr.outc emptySlot).wfIn (nodeOf .ce) = false ∧ (Instr.qapp emptySlot).wfIn { nodeOf .mt with bound := 1 } = false
  ∧ (Instr.csnd emptySlot).wfIn (nodeOf .gw) = false ∧ (Instr.fadd { emptySlot with mod := 48 }).wfIn (nodeOf .ce) = false
  ∧ (Instr.cvt { emptySlot with imm := 3 }).wfIn (nodeOf .ce) = false := by decide
theorem test_wf_micro_and_packet : ∀ i ∈ [Instr.zv 5, .axpy 0 1 true 0 false, .scal 0 0 true 0 true, .emit 6 0 false, .emit 4 0 true, .stv 0 false 3 0,
  .waitall ⟨false, false, false, false, 0⟩ 0 [], .waitany ⟨false, false, false, false, 0⟩ 0 [⟨4, .eq, 0⟩], .signal ⟨false, false, false, false, 0⟩ 4 false 0,
  .timed ⟨false, false, false, false, 0⟩ 0 3 true 1000 0 0 0, .timed ⟨false, false, false, false, 0⟩ 0 0 true 999 0 0 0], i.wf = false := by decide

/-! ## Decoding: words written field by field from the tables of R67, R197, R244, R299 and R306 -/

/-- A word of R67, its fields from IMM down to PVAL. -/
abbrev fields (imm : BitVec 32) (fto : BitVec 3) (tago : BitVec 2) (mod : BitVec 7) (pres : BitVec 4) (pclr pset : BitVec 8) (outm sc sb sa dst : BitVec 4)
    (opc : BitVec 8) (pop room : BitVec 4) (ic : BitVec 12) (pcare pval : BitVec 8) : W128 :=
  imm ++ fto ++ tago ++ mod ++ pres ++ pclr ++ pset ++ outm ++ sc ++ sb ++ sa ++ dst ++ opc ++ pop ++ room ++ ic ++ pcare ++ pval

theorem test_decode_control : decodeElem 0x00000000000F00000DDDF07100060000#128
  = .ok (.kdec { emptySlot with ic0 := .isTail, pop := 1, dst := .k, pres := some 7 }) := by decide
theorem test_decode_movement : decodeElem (fields 7 5 1 0b0001000 0 0 0 0b0010 13 13 13 8 0x11 0 0 0 0 0)
  = .ok (.movi { emptySlot with imm := 7, fto := 5, tago := .head, mod := 8, outm := 2, dst := .o 0 }) := by decide
theorem test_decode_integer : decodeElem (fields 0x80 0 0 0b0001010 0b1010 0x81 0x42 0 13 12 3 2 0x20 0 0 0 0xFF 0x0F)
  = .ok (.add { emptySlot with imm := 0x80, mod := 10, pres := some 2, pclr := 0x81, pset := 0x42, sb := .imm, sa := .d 3, dst := .d 2, pcare := 0xFF,
                               pval := 0x0F }) := by decide
theorem test_decode_logic : decodeElem (fields 0x0503 0 0 4 0 0 0 0 13 13 7 7 0x3B 0 0 0 0 0)
  = .ok (.bfx { emptySlot with imm := 0x0503, mod := 4, sa := .d 7, dst := .d 7 }) := by decide
theorem test_decode_compare : decodeElem (fields 0 0 0 2 8 0 0 0 13 15 11 14 0x42 8 0 0b111010001000 0 0)
  = .ok (.cmplt { emptySlot with mod := 2, pres := some 0, sb := .k1, sa := .i 3, pop := 8, ic3 := .isStop, ic2 := .empty, ic1 := .present }) := by decide
theorem test_decode_float : decodeElem (fields 0 2 3 0b0011011 0 0 0 0b0100 2 1 0 9 0x53 0 0b1000 0 0 0)
  = .ok (.fma { emptySlot with fto := 2, tago := .stop, mod := 0x1B, outm := 4, sc := .d 2, sb := .d 1, sa := .d 0, dst := .o 1, room := 8 }) := by decide
theorem test_decode_special_function : decodeElem (fields 0 0 0 0x78 0 0 0 0 13 13 14 0 0x69 0 0 0 0 0)
  = .ok (.ferf { emptySlot with mod := 0x78, sa := .k0, dst := .d 0 }) := by decide
theorem test_decode_conversion : decodeElem (fields 0x13 0 0 0 0 0 0 0 13 6 5 4 0x73 0 0 0 0 0)
  = .ok (.qnt { emptySlot with imm := 0x13, sb := .d 6, sa := .d 5, dst := .d 4 }) := by decide
theorem test_decode_matrix : decodeElem 0x00000000001000000D98C80300240000#128
  = .ok (.mma { emptySlot with ic0 := .isData, ic1 := .isData, pop := 3, dst := .acc, sa := .i 0, sb := .i 1, mod := 1 }) := by decide
theorem test_decode_scratchpad : decodeElem (fields 0x40 0 0 0 0 0 0 0 13 13 12 1 0x90 0 0 0 0 0)
  = .ok (.lds { emptySlot with imm := 0x40, sa := .imm, dst := .d 1 }) := by decide
theorem test_decode_global : decodeElem (fields 0 0 0 0x12 0 0 0 0 2 1 0 3 0xA2 0 0 0 0 0)
  = .ok (.gatm { emptySlot with mod := 0x12, sc := .d 2, sb := .d 1, sa := .d 0, dst := .d 3 }) := by decide
theorem test_decode_gateway : decodeElem (fields 0 0 0 0x21 0 0 0 0 13 13 8 14 0xB0 1 0 4 0 0)
  = .ok (.csnd { emptySlot with mod := 0x21, sa := .i 0, pop := 1, ic0 := .isData }) := by decide
theorem test_decode_refuses : decodeSlot (fields 0 0 0 0 0 0 0 0 0 0 0 0 0x0F 0 0 0 0 0) = .error .invl
  ∧ decodeSlot (fields 0 0 0 0 0 0 0 0 13 13 13 14 0x0F 0 0 0 0 0) = .error .invlField
  ∧ decodeSlot (fields 0 0 0 0 0 0 0 0 13 13 13 14 0x0C 0 0 0 0 0) = .error .reservedOpcode
  ∧ decodeSlot (fields 0 0 0 0 0 0 0 0 13 13 13 14 0xFF 0 0 0 0 0) = .error .reservedOpcode
  ∧ decodeSlot (fields 0 0 0 0 0 0 0 0 13 13 13 14 0 0 0 0b000011000000 0 0) = .error .reservedPortCond
  ∧ decodeSlot (fields 0 0 0 0 1 0 0 0 13 13 13 14 0x10 0 0 0 0 0) = .error .presWithoutEnable := by decide
theorem test_decode_micro : decodeMicro 0x18304001#32 = .ok (.macq 3 1 true) ∧ decodeMicro 0x38300007#32 = .ok (.loop true true 7) ∧ decodeMicro 0x4C100008#32 = .ok (.mask 1 8) ∧ decodeMicro 0x5420005A#32 = .ok (.stv 2 true 1 10)
  ∧ decodeMicro 0x40500005#32 = .error .microField ∧ decodeMicro 0x58000000#32 = .error .reservedMicro
  ∧ decodeMicro 0x44000001#32 = .error .microField := by decide
theorem test_decode_action : decodeAction 0x00000000000000000000000500000E01#128 = .ok (.arm 0x0E 0 none 5 .elem)
  ∧ decodeAction 0x00000000000000020000000000080102#128 = .error .actionField
  ∧ decodeAction 0x00000000000000000000000000020502#128 = .ok (.cfg 5 2 false)
  ∧ decodeAction 0x00000000000000000000000500000013#128 = .ok (.timer 5)
  ∧ decodeAction 0x18#128 = .error .reservedAction := by decide
theorem test_decode_packet : decodePacket [0x0000000000000000#64] = .error .packetField ∧ decodePacket [9#64] = .error .reservedPacket := by decide
theorem test_decode_mailbox : decodeMailbox 3 7 1 2 = .ok (.map 7 1 2) ∧ decodeMailbox 0x0D 5 0 0 = .ok (.linktrain 5)
  ∧ decodeMailbox 0x0E 0 0 0 = .error .reservedMailbox ∧ decodeMailbox 0x101 0 0 0 = .error .reservedMailbox := by decide

/-! ## Single steps, their results worked out by hand from the rules -/

/-- An element that has operation o, whose slot 0 holds it, changed by f; its slot is what runs. -/
def withElem (o : Op) (x : Slot) (f : Elem → Elem) : State :=
  { (State.reset.placeElem (encodeSlot o x)).modElem (elemFor o) f with sched := [], focus := .elem (elemFor o) 0 }
/-- The same with its context changed. -/
def withCtx (o : Op) (x : Slot) (f : Ctx → Ctx) : State := withElem o x (fun e => { e with ctx := f e.ctx })
/-- The same with data registers 0, 1 and 2. -/
def withRegs (o : Op) (x : Slot) (a b c : W256) : State := withCtx o x (fun q => { q with regs := { q.regs with d := [(0, a), (1, b), (2, c)] } })
/-- A slot of registers 0, 1, 2 into register 3 with a MOD. -/
def regSlot (m : BitVec 7) : Slot := { emptySlot with dst := .d 3, sa := .d 0, sb := .d 1, sc := .d 2, mod := m }
/-- The same with an IMM. -/
def regSlotI (m : BitVec 7) (i : W32) : Slot := { regSlot m with imm := i }
/-- The value, the result condition and the completion time of the firing that an instruction on registers begins. -/
def runsTo (o : Op) (x : Slot) (a b c : W256) : Option (W256 × Bool × Option Nat) :=
  match exec (o.instr x) (withRegs o x a b c) with
  | .next t => (t.elem (elemFor o)).ctx.flights.getLast?.map (fun f => (f.val, f.rc, f.due))
  | _ => none

/-- R117: 0x7F + 1 wraps to 0x80 in a byte, saturates to 0x7F; the other lanes stay 0. -/
theorem test_add_wraps : runsTo .add (regSlot 0) 0x7F 1 0 = some (0x80, true, some 1) := by decide
theorem test_add_saturates : runsTo .add (regSlot 8) 0x7F 1 0 = some (0x7F, true, some 1) := by decide
theorem test_sub_borrows : runsTo .sub (regSlot 1) 0 1 0 = some (0xFFFF, true, some 1) := by decide
theorem test_mul_low_half : runsTo .mul (regSlot 2) 0x10000 0x10001 0 = some (0x10000, true, some 3) := by decide
theorem test_mulh_signed_floor : runsTo .mulh (regSlot 0) 0xFF 1 0 = some (0xFF, true, some 3) := by decide
theorem test_mad_adds_c : runsTo .mad (regSlot 0) 3 4 5 = some (17, true, some 3) := by decide
/-- R118: -128 / -1 in a byte wraps to -128 without SAT; a zero divisor gives -1; here the other 31 divisors are 0. -/
theorem test_div_overflow : (runsTo .div (regSlot 0) 0x80 0xFF 0).map (fun r => (lane 8 r.1 0, lane 8 r.1 1, r.2)) = some (0x80, 0xFF, true, some 8) := by
  decide
theorem test_rem_sign_of_dividend : (runsTo .rem (regSlot 2) 0xFFFFFFF9 2 0).map (fun r => (lane 32 r.1 0, r.2)) = some (0xFFFFFFFF, true, some 20) := by
  decide
theorem test_min_signed : runsTo .min (regSlot 0) 0x80 0x7F 0 = some (0x80, true, some 1) := by decide
theorem test_max_unsigned : runsTo .max (regSlot 4) 0x80 0x7F 0 = some (0x80, true, some 1) := by decide
theorem test_abs_least : runsTo .abs (regSlot 8) 0x80 0 0 = some (0x7F, true, some 1) := by decide
theorem test_clmp_bounds : runsTo .clmp (regSlot 2) 9 2 5 = some (5, true, some 1) := by decide
/-- R119: (3 + 4) / 2 rounds half up to 4 and truncates to 3 under T. -/
theorem test_adds_rounds_half_up : runsTo .adds (regSlot 2) 3 4 1 = some (4, true, some 1) := by decide
theorem test_adds_truncates : runsTo .adds (regSlot 0x22) 3 4 1 = some (3, true, some 1) := by decide
/-- R120: the sum of bytes 1, 2 and 255 is 2 modulo 256. -/
theorem test_ired_adds : runsTo .ired (regSlot 0) 0xFF0201 0 0 = some (2, true, some 3) := by decide
/-- R112: the top bit of an index zeroes its lane, lane 0 is named otherwise. -/
theorem test_perm_zeroes : (runsTo .perm (regSlot 0) 0x4455 0x80 0).map (fun r => (lane 8 r.1 0, lane 8 r.1 1)) = some (0, 0x55) := by decide
theorem test_rotl_upward : runsTo .rotl (regSlot 3) 0x11 1 0 = some ((0x11 : W256) <<< 64, true, some 1) := by decide
theorem test_zipl_low_halves : (runsTo .zipl (regSlot 0) 0x0201 0x0403 0).map (·.1) = some 0x04020301 := by decide
/-- R122: a shift by the width or more gives 0, or the sign. -/
theorem test_shl_by_width : runsTo .shl (regSlot 0) 0xFF 8 0 = some (0, false, some 1) := by decide
theorem test_sha_by_width : runsTo .sha (regSlot 0) 0x80 8 0 = some (0xFF, true, some 1) := by decide
theorem test_rotb : runsTo .rotb (regSlot 0) 0x81 1 0 = some (3, true, some 1) := by decide
theorem test_clz_of_zero : runsTo .clz (regSlot 2) 1 0 0 = some ((((((((32 * 2 ^ 32 + 32) * 2 ^ 32 + 32) * 2 ^ 32 + 32) * 2 ^ 32 + 32) * 2 ^ 32 + 32)
  * 2 ^ 32 + 32) * 2 ^ 32 + 31), true, some 1) := by decide
/-- R123: bits [6:3] of 0x78 are 1111, extended by sign to 0xFF and by zeros to 0x0F. -/
theorem test_bfx_signed : runsTo .bfx (regSlotI 0 0x0403) 0x78 0 0 = some (0xFF, true, some 1) := by decide
theorem test_bfx_unsigned : runsTo .bfx (regSlotI 4 0x0403) 0x78 0 0 = some (0x0F, true, some 1) := by decide
/-- R124: CRC-32C of "123456789" is 0xE3069283; its last step over one byte from the register before it. -/
theorem test_crc_check_value : crcBytes 0xFFFFFFFF [0x31, 0x32, 0x33, 0x34, 0x35, 0x36, 0x37, 0x38, 0x39] ^^^ 0xFFFFFFFF = 0xE3069283 := by decide +kernel
theorem test_pack_halves : (runsTo .pack (regSlot 1) 0x01FF 0x0102 0).map (fun r => (lane 8 r.1 0, lane 8 r.1 16)) = some (0xFF, 2) := by decide
theorem test_unpk_signs : (runsTo .unpk (regSlot 0) 0x80 0 0).map (fun r => lane 16 r.1 0) = some 0xFF80 := by decide
/-- R126, R128: masks of all ones; SEL takes opA where opC is nonzero. -/
theorem test_cmplt_mask : (runsTo .cmplt (regSlot 1) 0x8000 0 0).map (fun r => (lane 16 r.1 0, lane 16 r.1 1, r.2.1)) = some (0xFFFF, 0, true) := by decide
theorem test_sel : runsTo .sel (regSlot 0) 0x1122 0x3344 0x0100 = some (0x1144, true, some 1) := by decide
theorem test_firstl_none : runsTo .firstl (regSlot 2) 0 0 0 = some (8, false, some 1) := by decide
/-- R134: 1.0 + 2.0 is 3.0 in binary32; 1.0 * 1.5 + 0.5 is 2.0; a NaN sets RC. -/
theorem test_fadd : runsTo .fadd (regSlot 0) 0x3F800000 0x40000000 0 = some (0x40400000, false, some 4) := by decide
theorem test_fma : runsTo .fma (regSlot 0) 0x3F800000 0x3FC00000 0x3F000000 = some (0x40000000, false, some 4) := by decide
theorem test_fmul_nan : (runsTo .fmul (regSlot 0) 0x7F800000 0 0).map (fun r => r.2.1) = some true := by decide
theorem test_fmax : runsTo .fmax (regSlot 0) 0x40000000 0x3F800000 0 = some (0x40000000, false, some 2) := by decide
theorem test_fneg : (runsTo .fneg (regSlot 0) 0x40000000 0 0).map (fun r => lane 32 r.1 0) = some 0xC0000000 := by decide
/-- R137: 2.5 rounds to 2.0 to nearest even. -/
theorem test_frnd : runsTo .frnd (regSlot 0) 0x40200000 0 0 = some (0x40000000, false, some 4) := by decide
/-- R138: the sum of 1.0 and seven zeros. -/
theorem test_fred : (runsTo .fred (regSlotI 0 0) 0x3F800000 0 0).map (fun r => (r.1, r.2.2)) = some (0x3F800000, some 8) := by decide
/-- R141, R147: 1/2 is 0.5 and the root of 4.0 is 2.0 in lane 0; 6.0 / 3.0 is 2.0. -/
theorem test_frcp : (runsTo .frcp (regSlot 0) 0x40000000 0 0).map (fun r => (lane 32 r.1 0, r.2.2)) = some (0x3F000000, some 16) := by decide +kernel
theorem test_fsqrt : (runsTo .fsqrt (regSlot 0) 0x40800000 0 0).map (fun r => lane 32 r.1 0) = some 0x40000000 := by decide +kernel
theorem test_fdiv : (runsTo .fdiv (regSlot 0) 0x40C00000 0x40400000 0).map (fun r => (lane 32 r.1 0, r.2.2)) = some (0x40000000, some 20) := by decide
theorem test_fexp2 : (runsTo .fexp2 (regSlot 0) 0x3F800000 0 0).map (fun r => lane 32 r.1 0) = some 0x40000000 := by decide
/-- R150: 1.5 converts from binary32 in slot 0 to 0x3E00 in binary16 in slot 1; -2.0 to the integer -2 in slot 3. -/
theorem test_cvt : (runsTo .cvt (regSlotI 16 0) 0x3FC00000 0 0).map (fun r => (lane 16 r.1 0, r.2.2)) = some (0x3E00, some 2) := by decide
theorem test_cvti : (runsTo .cvti (regSlotI 48 0) 0xC0000000 0 0).map (fun r => (lane 32 r.1 0, r.2.1)) = some (0xFFFFFFFE, false) := by decide
theorem test_cvtf : (runsTo .cvtf (regSlotI 0 3) 0xFFFFFFFF 0 0).map (fun r => lane 32 r.1 0) = some 0xBF800000 := by decide
theorem test_upk4 : (runsTo .upk4 (regSlotI 64 7) 0xF1 0 0).map (fun r => (lane 8 r.1 0, lane 8 r.1 1)) = some (1, 0) := by decide
/-- R106: KADD adds to K0, and RC is 1 at 0; KDEC leaves a 0. -/
theorem test_kadd_wraps : (runsTo .kadd { emptySlot with dst := .k, sa := .d 0 } 0 0 0).map (fun r => (r.1, r.2.1)) = some (0, true) := by decide
theorem test_kdec_keeps_zero : (runsTo .kdec { emptySlot with dst := .k } 0 0 0).map (fun r => (r.1, r.2.1)) = some (0, true) := by decide
/-- R100, R105: RDSR of index 0 gives ELEMID; of 6 the FMTTAB of R57. -/
theorem test_rdsr_elemid : (runsTo .rdsr { emptySlot with dst := .d 0, imm := 6 } 0 0 0).map (·.1) = some 0x3003042838181020 := by decide
/-- R104: TRAP freezes its element after its issue effects. -/
theorem test_trap_freezes : (match exec (.trap { emptySlot with imm := 7 }) (withElem .trap { emptySlot with imm := 7 } id) with
  | .next t => some ((t.elem 0).frozen.trap, (t.elem 0).ctx.regs.fcnt, (t.elem 0).ctx.flights.length)
  | _ => none) = some (1, 1, 1) := by decide
/-- R109: TICK 3 lets the picker issue again four fc on. -/
theorem test_tick : (match exec (.tick { emptySlot with imm := 3 }) (withElem .tick { emptySlot with imm := 3 } id) with
  | .next t => some (t.elem 0).ctx.tick
  | _ => none) = some 4 := by decide
/-- A region with nothing in it. -/
def someRegion : Region :=
  { dies := [0], sects := [], gens := [], interval := 0, idle := 0, moved := false, traps := [], dump := 0, holds := 0, bkpts := [], given := 0,
    frozen := false, badLoad := false, accepted := none, preempt := none, saved := false, preempts := none, later := [], level := 0, qcb := 0, ring := 0,
    hdr := ⟨false, false, false, false, 0⟩, dmask := 0, ndm1 := 0, origin := 0 }
/-- R41: a slot that pops a port without a token raises PORTEMPTY with the port's number, and FCNT stays. -/
theorem test_portempty : (match exec (.nop { emptySlot with pop := 2 }) { withElem .nop { emptySlot with pop := 2 } id with regions := [(0, someRegion)] } with
  | .next t => [(t.elem 0).frozen.trap, (t.elem 0).ctx.regs.fcnt.toNat]
      ++ (((t.region 0).map (fun v => v.traps)).getD []).flatMap (fun r => [recCode r, (recInfo r).toNat, (recFcnt r).toNat])
  | _ => []) = [1, 0, 2, 1, 1] := by decide

/-- A step runs a word placed for it, an element's and a micro-instruction's; the step after the first completes it. -/
theorem test_fetch_element : (match step (State.reset.withFetchWord 128 0x0DDDE2D000000000) with
  | .next t => some ((t.elem 0).ctx.flights.map (fun f => f.op), (t.elem 0).turn, t.sched)
  | _ => none) = some ([.clmp], some 0, []) := by decide
theorem test_fetch_nop : (match step (State.reset.withFetchWord 128 0x0DDDE00000000000) with
  | .next t => some ((t.elem 0).ctx.regs.fcnt, (t.elem 0).turn, t.sched)
  | _ => none) = some (1, some 0, []) := by decide
theorem test_fetch_micro : (match step (State.reset.withFetchWord 32 0x48004000) with
  | .next t => (t.pch 0).run.map (fun r => (r.mpc, (t.pch 0).freeAt))
  | _ => none) = some (1, 16) := by decide

/-- A run of pseudo-channel 0 at entry 0 on banks 0 and 1, in focus. -/
def inRun (f : Pch → Pch) : State :=
  { State.reset with pchs := [(0, f { Pch.reset with run := some { firstRun with bmask := 3 }, phase := .running })], focus := .pch 0 }
/-- R246: DOTQ of a latch of ones by a query of twos in BF16 gives 32.0. -/
theorem test_dotq : (match exec (.dotq 0 false true) (inRun (fun p =>
    let b := { NbBank.start with l := ofLanes 16 16 (fun _ => 0x3F80) }
    { p with q := [(0, ofLanes 16 16 (fun _ => 0x4000))], run := p.run.map (fun r => { r with banks := [(0, b)] }) })) with
  | .next t => (t.pch 0).run.map (fun r => ((r.bank 0).s, (r.bank 1).s))
  | _ => none) = some (0x42000000, 0) := by decide
/-- R248: LOOP counts LC0 down and goes to its target, or goes on at 0. -/
theorem test_loop : (match exec (.loop false false 5) (inRun (fun p => { p with run := p.run.map (fun r => { r with lc0 := 1 }) })) with
  | .next t => (t.pch 0).run.map (fun r => (r.mpc, r.lc0))
  | _ => none) = some (5, 0) := by decide
theorem test_loop_ends : (match exec (.loop false false 5) (inRun id) with
  | .next t => (t.pch 0).run.map (fun r => (r.mpc, r.lc0))
  | _ => none) = some (1, 0) := by decide
/-- R249: RD of a closed row ends the run with code 2. -/
theorem test_rd_closed : (match exec (.rd 0 0) (inRun id) with
  | .next t => (t.pch 0).run.bind (fun r => r.ended)
  | _ => none) = some 2 := by decide

/-! ## States that meet the hypotheses of the obligations

Each theorem witness_X shows states and operands that meet the hypotheses of Obligations.X, clause by clause. -/

/-- Slot 0 of the element of withElem holds o, and it may issue. -/
def rdy (o : Op) (x : Slot) (f : Elem → Elem) : Bool :=
  (withElem o x f).mayIssue (elemFor o) 0 o x && ((withElem o x f).elem (elemFor o)).ctx.emptyPort o x == none
theorem ready_of {o : Op} {x : Slot} {f : Elem → Elem} (h : rdy o x f = true) : (withElem o x f).Ready (elemFor o) 0 o x := by
  simp only [rdy, Bool.and_eq_true, beq_iff_eq] at h
  exact ⟨rfl, h⟩
/-- The operands that slot reads there. -/
def ops (o : Op) (x : Slot) (f : Elem → Elem) : Opnds := (withElem o x f).opndsOf (elemFor o) o x
/-- A token of DATA, FT 0. -/
def tokOf (v : W256) : Token := { ct := .data, ft := 0, data := v }
/-- Heads at the input ports of an element. -/
def heads (l : List (Nat × W256)) (e : Elem) : Elem :=
  { e with ctx := { e.ctx with ports := { e.ctx.ports with inq := l.map (fun h => (h.1, [tokOf h.2])) } } }
/-- Another formats table. -/
def fmts (t : W64) (e : Elem) : Elem := { e with ctx := { e.ctx with regs := { e.ctx.regs with fmttab := t } } }
/-- Data registers 0, 1 and 2. -/
def datas (a b c : W256) (e : Elem) : Elem := { e with ctx := { e.ctx with regs := { e.ctx.regs with d := [(0, a), (1, b), (2, c)] } } }
/-- A slot into register 3 that reads ports 0, 1 and 2. -/
def portSlot (m : BitVec 7) (i : W32) : Slot :=
  { emptySlot with ic0 := .isData, ic1 := .isData, ic2 := .isData, pop := 7, dst := .d 3, sa := .i 0, sb := .i 1, sc := .i 2, mod := m, imm := i }

/-- MovementCompletes, IntegerArithmeticCompletes, LogicAndFieldsComplete, ComparesAndSelectsComplete and ControlCompletes ask no more of these than a
ready slot. -/
theorem witness_always : ∀ o ∈ [Op.mov, .movi, .lane, .insl, .bcst, .perm, .rotl, .zipl, .unzl, .fwd, .steer, .merge, .seed,
    .add, .sub, .mul, .mulh, .mad, .min, .max, .abs, .neg, .clmp, .adds, .subs, .qmul, .ired, .div, .rem,
    .and, .or, .xor, .andn, .bsel, .shl, .shr, .sha, .rotb, .popc, .clz, .crc, .cmpeq, .cmpne, .cmplt, .cmple, .cmpgt, .cmpge, .tstz, .tstnz,
    .sel, .anyl, .alll, .firstl, .nop, .rdsr, .wrsr, .kset, .kdec, .kadd, .plog, .tick, .evnt],
    (withElem o (regSlot 0) id).Ready (elemFor o) 0 o (regSlot 0) := fun o h => ready_of (by revert o; decide +kernel)
theorem witness_MovementCompletes : ∀ o ∈ [Op.tagr, .ctag, .ftag, .mov, .lane, .insl, .bcst, .perm, .rotl, .zipl, .unzl, .fwd, .merge],
    (withElem o (portSlot 64 0) (heads [(0, 1), (1, 2), (2, 3)])).Ready (elemFor o) 0 o (portSlot 64 0)
    ∧ (ops o (portSlot 64 0) (heads [(0, 1), (1, 2), (2, 3)])).ta.isSome = true ∧ (portSlot 64 0).mod.getLsbD 6 = true ∧ (portSlot 64 0).sa = .i 0
    ∧ (portSlot 64 0).sb = .i 1 := fun o h => ⟨ready_of (by revert o; decide +kernel), by revert o; decide +kernel⟩
theorem witness_MovementCompletes_steer :
    (withElem .steer { portSlot 0x12 0 with dst := .o 0 } (heads [(0, 1), (1, 2), (2, 3)])).Ready (elemFor .steer) 0 .steer { portSlot 0x12 0 with dst := .o 0 }
    ∧ ({ portSlot 0x12 0 with dst := .o 0 } : Slot).dst = .o 0 := ⟨ready_of (by decide), rfl⟩
/-- IntegerResultsAreExact: the shift counts 0 and 1; in byte lanes of DIV, an ordinary lane, zero divisors below a value that is 0, positive and
negative, and the one overflow. -/
theorem witness_IntegerResultsAreExact : slotSat (regSlot 0) = false ∧ slotSat (regSlot 8) = true ∧ slotU (regSlot 4) = true ∧ slotU (regSlot 8) = false
    ∧ |(-65535 : Int)| < 2 ^ (2 * slotW (regSlot 0)) ∧ (regSlot 0x20).mod.getLsbD 5 = true ∧ (regSlot 0).mod.getLsbD 5 = false
    ∧ (let i := ops .div (regSlot 0) (datas 0x8080017F 0xFF000002 0)
       getX (regSlot 0) i.b 0 ≠ 0 ∧ getX (regSlot 0) i.b 1 = 0 ∧ 0 ≤ getX (regSlot 0) i.a 1 ∧ getX (regSlot 0) i.b 2 = 0 ∧ getX (regSlot 0) i.a 2 < 0
       ∧ getX (regSlot 0) i.a 3 = -(2 ^ (slotW (regSlot 0) - 1)) ∧ getX (regSlot 0) i.b 3 = -1) := by decide
theorem witness_LogicAndFieldsComplete : ∀ m ∈ [(1 : BitVec 7), 2], ∀ o ∈ [Op.bfx, .bfi, .pack, .unpk],
    let x := { regSlotI m (if o = .pack ∨ o = .unpk then 0 else 0x1000) with sb := if o = .bfx ∨ o = .unpk then .zero else .d 1, sc := .zero }
    (withElem o x id).Ready (elemFor o) 0 o x ∧ wordRow o x = none := fun m hm o h => ⟨ready_of (by revert o m; decide +kernel), by revert o m; decide +kernel⟩
/-- The slots of FMTTAB that hold each floating family at reset. -/
theorem witness_floatSlot : ∀ o ∈ [Op.fcmeq, .fcmlt, .fcmle, .fcmun, .fadd, .fsub, .fmul, .fma, .fms, .fnma, .fmin, .fmax, .fabs, .fneg, .fscl, .frnd,
    .fcls, .fred, .frcp, .frsq, .fsqrt, .fexp2, .flog2, .fsin, .fcos, .ftanh, .fsigm, .ferf, .fexp, .fdiv], ∀ m ∈ [(0 : BitVec 7), 1],
    (withElem o (regSlot m) id).Ready (elemFor o) 0 o (regSlot m) ∧ floatSlot (regSlot m) (ops o (regSlot m) id) ∧ slotRm (regSlot m) < 4 := fun o h m hm =>
  ⟨ready_of (by revert m; revert o; decide +kernel), by revert m; revert o; simp only [floatSlot]; decide +kernel⟩
theorem witness_ReductionsAndSpecialFunctionsComplete :
    (fmtAt (ops .fdot2 (regSlot 16) id).fmttab (slotF (regSlot 16))).fam = .f16 ∧ (fmtAt (ops .fdot2 (regSlot 32) id).fmttab (slotF (regSlot 32))).fam = .bf16
    ∧ (fmtAt (ops .osm (regSlot 0) id).fmttab (slotF (regSlot 0))).fam = .f32 ∧ (regSlotI 0 1).imm.getLsbD 0 = true ∧ (regSlotI 0 0).imm.getLsbD 0 = false
    ∧ (fl fmt32 (ops .osm (regSlot 0) (datas 0x40000000 0x3F800000 0)).a 0).cmp (fl fmt32 (ops .osm (regSlot 0) (datas 0x40000000 0x3F800000 0)).b 0) = some 1
    ∧ (fl fmt32 (ops .osm (regSlot 0) (datas 0x3F800000 0x40000000 0)).a 0).cmp (fl fmt32 (ops .osm (regSlot 0) (datas 0x3F800000 0x40000000 0)).b 0) = some (-1) := by
  decide
/-- FloatArithmeticCompletes: a NaN beside a number, two NaNs, both orders, the unsigned byte family, and a finite operand of FRND. -/
theorem witness_FloatArithmeticCompletes :
    (fmt32.decodeF 0x7FC00000).isNan = true ∧ (fmt32.decodeF 0x3F800000).isNan = false ∧ (fmt32.decodeF 0x3F800000).cmp (fmt32.decodeF 0x40000000) = some (-1)
    ∧ (fmt32.decodeF 0x40000000).cmp (fmt32.decodeF 0x3F800000) = some 1 ∧ (fmtAt (ops .fabs (regSlot 0) id).fmttab 0).fam ≠ .b8u
    ∧ (fmtAt (ops .fabs (regSlot 0) (fmts 0x0C)).fmttab 0).fam = .b8u ∧ (fmtAt (ops .fabs (regSlot 5) id).fmttab 5).fam = .b8
    ∧ fmt32.decodeF 0x7F800000 = .inf false := by decide
/-- ConversionsComplete: a source and a target for each conversion, the last part of a token among them. -/
theorem witness_ConversionsComplete : ∀ c ∈ [(Op.cvt, (16 : BitVec 7), (0 : W32)), (.cvti, 48, 0), (.cvtf, 0, 3), (.widn, 0, 0x11), (.qnt, 64, 0x30),
    (.dqnt, 0, 0x34), (.srnd, 16, 0), (.mxsc, 80, 0), (.narw, 16, 0), (.pk4, 112, 4), (.upk4, 64, 0x17)],
    (withElem c.1 (regSlotI c.2.1 c.2.2) id).Ready (elemFor c.1) 0 c.1 (regSlotI c.2.1 c.2.2)
    ∧ convOk c.1 (regSlotI c.2.1 c.2.2) (ops c.1 (regSlotI c.2.1 c.2.2) id) ∧ slotRm (regSlotI c.2.1 c.2.2) < 4
    ∧ sourceSlot (regSlotI c.2.1 c.2.2) (.d 0) none = sourceSlot (regSlotI c.2.1 c.2.2) (.d 1) none := fun c h =>
  ⟨ready_of (by revert c; decide +kernel), by revert c; simp only [convOk]; decide +kernel⟩
/-- A slot whose family an FMTW has changed to INT32. -/
theorem witness_SlotFamilyTraps : ∀ o ∈ [Op.fcmeq, .fcmlt, .fcmle, .fcmun, .fadd, .fsub, .fmul, .fma, .fms, .fnma, .fmin, .fmax, .fabs, .fneg, .fscl, .frnd,
    .fcls, .fred, .frcp, .frsq, .fsqrt, .fexp2, .flog2, .fsin, .fcos, .ftanh, .fsigm, .ferf, .fexp, .fdiv],
    (withElem o (regSlot 0) (fmts 0x38)).Ready (elemFor o) 0 o (regSlot 0)
    ∧ (fmtAt ((withElem o (regSlot 0) (fmts 0x38)).opndsOf (elemFor o) o (regSlot 0)).fmttab (slotF (regSlot 0))).fam.isFloat = false := fun o h =>
  ⟨ready_of (by revert o; decide +kernel), by revert o; decide +kernel⟩

/-- A section whose node 0 is one element, and a region of it. -/
def sectWith (el : Nat) : Section := { Section.empty with nodes := [(0, el)] }
def regionWith (el : Nat) : Region := { someRegion with sects := [(0, sectWith el)] }
/-- The state with such a region for the element of o. -/
def inRegion (o : Op) (s : State) : State := { s with regions := [(0, regionWith (elemFor o))] }
/-- The matrix unit changed. -/
def mxuTo (f : Mxu → Mxu) (e : Elem) : Elem := { e with ctx := { e.ctx with mxu := f e.ctx.mxu } }
/-- The memory tile's parts changed. -/
def mtTo (f : MtPart → MtPart) (e : Elem) : Elem := { e with ctx := { e.ctx with mt := f e.ctx.mt } }
/-- Heads with their FTs. -/
def headsF (l : List (Nat × BitVec 3)) (e : Elem) : Elem :=
  { e with ctx := { e.ctx with ports := { e.ctx.ports with inq := l.map (fun h => (h.1, [{ ct := .data, ft := h.2, data := 1 }])) } } }

/-- ControlCompletes: OUTC in a section, FMTW of a valid and of an invalid descriptor (BINARY8 with P = 0). -/
theorem witness_ControlCompletes :
    ((inRegion .outc (withElem .outc emptySlot id)).Ready (elemFor .outc) 0 .outc emptySlot
      ∧ (inRegion .outc (withElem .outc emptySlot id)).sectOf (elemFor .outc) = some (0, 0)
      ∧ (inRegion .outc (withElem .outc emptySlot id)).sect 0 0 = some (sectWith (elemFor .outc)))
    ∧ ((withElem .fmtw (regSlot 0) (datas 0x20 0 0)).Ready (elemFor .fmtw) 0 .fmtw (regSlot 0)
      ∧ (Fmt.ofByte (bits (ops .fmtw (regSlot 0) (datas 0x20 0 0)).a 0 8)).valid = true)
    ∧ ((withElem .fmtw (regSlot 0) (datas 0 0 0)).Ready (elemFor .fmtw) 0 .fmtw (regSlot 0)
      ∧ (Fmt.ofByte (bits ((withElem .fmtw (regSlot 0) (datas 0 0 0)).opndsOf (elemFor .fmtw) .fmtw (regSlot 0)).a 0 8)).valid = false) := by
  simp only [State.Ready]; decide
/-- IssueEffectsAndWaits: an action that succeeds with no effect of its own; a slot that a guard holds back; a slot whose port is empty. -/
theorem witness_IssueEffectsAndWaits :
    (((withElem .nop emptySlot id).elem 0).ctx.emptyPort .nop emptySlot = none
      ∧ (fun _ _ _ => .ok {} : ActFn) (withElem .nop emptySlot id) { el := 0, slot := 0, id := 1, fcnt := 1 } (((withElem .nop emptySlot id).elem 0).ctx.opnds .nop emptySlot)
          = .ok ({} : Act) ∧ ({} : Act).eff = id ∧ ({} : Act).after = none)
    ∧ ((withElem .nop { emptySlot with pval := 1, pcare := 1 } id).focus = .elem 0 0
      ∧ (withElem .nop { emptySlot with pval := 1, pcare := 1 } id).mayIssue 0 0 .nop { emptySlot with pval := 1, pcare := 1 } = false)
    ∧ ((withElem .nop { emptySlot with pop := 8 } id).mayIssue 0 0 .nop { emptySlot with pop := 8 } = true
      ∧ ((withElem .nop { emptySlot with pop := 8 } id).elem 0).ctx.emptyPort .nop { emptySlot with pop := 8 } = some 3) :=
  ⟨⟨by decide, rfl, rfl, rfl⟩, by decide, by decide⟩
/-- An element whose one firing is f, completing. -/
def completing (f : Flight) : State :=
  { withCtx f.op f.x (fun c => { c with flights := [f] }) with focus := .event (.instructionComplete (elemFor f.op) f.id) }
/-- A firing of slot 0. -/
def someFlight (o : Op) (x : Slot) (v : W256) (e : Finish) : Flight :=
  { id := 5, slot := 0, fcnt := 1, op := o, x, due := some 0, val := v, rc := true, ports := [], tags := (.data, 0), fin := e }
/-- CompletionDelivers: results to a register and to a counter, with PRES; every ending; writes of special registers 5, 8, 0x0C, 0x0F, 0x10 and 0x1C. -/
theorem witness_CompletionDelivers :
    (∀ f ∈ [someFlight .add { regSlot 0 with pres := some 7 } 3 .plain, someFlight .kadd { emptySlot with dst := .k, mod := 64 } 3 .plain],
      (completing f).focus = .event (.instructionComplete (elemFor f.op) f.id) ∧ ((completing f).elem (elemFor f.op)).ctx.flights.find? (fun g => g.id == 5) = some f
      ∧ (completing f).flightDone (elemFor f.op) f = true ∧ f.fin = .plain ∧ f.op ≠ .cbar ∧ f.x.dst ≠ .srg ∧ ((completing f).elem (elemFor f.op)).traps = [])
    ∧ (∀ f ∈ [someFlight .fmtw emptySlot 0 (.fmttab 7 0x20), someFlight .seed emptySlot 0 (.seed 0), someFlight .ctag emptySlot 0 (.retagCt 0 .stop),
        someFlight .ftag emptySlot 0 (.retagFt 0 7)] ++ [5, 8, 0x0C, 0x0F, 0x10, 0x1C].map (fun i => someFlight .wrsr { emptySlot with dst := .srg, imm := i } 3 .plain),
      ((completing f).elem (elemFor f.op)).ctx.flights.find? (fun g => g.id == 5) = some f ∧ (completing f).flightDone (elemFor f.op) f = true
      ∧ f.op ≠ .cbar ∧ f.x.pres = none ∧ ((completing f).elem (elemFor f.op)).traps = [] ∧ (f.x.dst = .null ∨ (f.x.dst = .srg ∧ f.fin = .plain))) := by decide
/-- CompletionDelivers: an output port with an entry of another firing before and one behind the entry reserved, where the firing emits and where it does
not; a port that the slot does not write. -/
theorem witness_CompletionDelivers_ports : ∀ l ∈ [[1], []],
    let f := { someFlight .add { regSlot 0 with dst := .null, outm := 2 } 3 .plain with ports := l }
    let e : OutEntry := { firing := 5, tok := none }
    let s0 := completing f
    let s := s0.modElem (elemFor .add) (fun q => { q with ctx := { q.ctx with ports := { q.ctx.ports with outq := [(1, [{ firing := 4, tok := none }] ++ e :: [{ firing := 6, tok := none }])] } } })
    s.flightDone (elemFor .add) f = true ∧ (writePorts f.op f.x).count 1 = 1 ∧ (2 : Nat) ∉ writePorts f.op f.x ∧ (s.elem (elemFor .add)).traps = []
    ∧ (s.elem (elemFor .add)).ctx.flights.find? (fun g => g.id == 5) = some f ∧ e.firing = f.id ∧ e.tok = none
    ∧ (s.elem (elemFor .add)).ctx.ports.outq.getD 1 [] = [{ firing := 4, tok := none }] ++ e :: [{ firing := 6, tok := none }] := by decide
/-- SpecialRegistersRead: an element of each type that has registers of its own; a section of the CE, a generator with a descriptor of the MT, and a gateway
with circuits of one instance, bound and binding, and of none. -/
theorem witness_SpecialRegistersRead :
    (elType (elemFor .mma) = .ce ∧ elType (elemFor .gset) = .mt ∧ elType (elemFor .nbst) = .bn ∧ elType (elemFor .csnd) = .gw)
    ∧ ((inRegion .mma (withElem .mma emptySlot id)).sectOf (elemFor .mma) = some (0, 0) ∧ (inRegion .mma (withElem .mma emptySlot id)).sect 0 0 = some (sectWith (elemFor .mma)))
    ∧ ((withElem .gset (regSlot 0) (mtTo (fun m => { m with gens := [(0, { Gen.reset with desc := 1, dv := true })] }))).gen (elemFor .gset) 0).dv = true := by
  decide
/-- TrapsAreTakenAndReturnedFrom: TRAP, BKPT with BKEN 1 and 0, an element of a region with room for a record; firings before and at the trap's point; one trap and two
to return from, in a region that runs and in a frozen one. -/
theorem witness_TrapsAreTakenAndReturnedFrom :
    (∀ o ∈ [Op.trap, .bkpt], (withElem o emptySlot id).Ready (elemFor o) 0 o emptySlot)
    ∧ ((withElem .bkpt emptySlot (fun e => { e with ctx := { e.ctx with regs := { e.ctx.regs with dbgctl := 1 } } })).Ready (elemFor .bkpt) 0 .bkpt emptySlot
      ∧ (((withElem .bkpt emptySlot (fun e => { e with ctx := { e.ctx with regs := { e.ctx.regs with dbgctl := 1 } } })).elem (elemFor .bkpt)).ctx.regs.dbgctl.getLsbD 0 = true))
    ∧ ((withElem .bkpt emptySlot id).elem (elemFor .bkpt)).ctx.regs.dbgctl.getLsbD 0 = false
    ∧ (let s := inRegion .nop (completing (someFlight .nop emptySlot 0 .plain))
       (s.elem 0).ctx.inst = some 0 ∧ s.region 0 = some (regionWith 0) ∧ (regionWith 0).traps.length < 256 ∧ (s.elem 0).traps = []
       ∧ (∃ f ∈ (s.elem 0).ctx.flights, f.fcnt < 2) ∧ ∀ f ∈ (s.elem 0).ctx.flights, ¬ f.fcnt < (1 : BitVec 48)) := by
  simp only [State.Ready]; decide
theorem witness_TrapsAreTakenAndReturnedFrom_return : ∀ n ∈ [1, 2], ∀ b ∈ [true, false],
    let s0 := withElem .nop emptySlot (fun e => { e with frozen := { trap := n } })
    let s : State := { s0 with regions := [(0, { regionWith 0 with frozen := b })] }
    (s.elem 0).ctx.inst = some 0 ∧ (s.region 0).map (fun v => (v.frozen, v.accepted)) = some (b, none) ∧ (s.elem 0).frozen.trap = n ∧ (s.chain 0 = [0]) := by
  decide
/-- MatrixStepsAccumulate: 8-bit, paired, mixed and 16-bit heads; MMV and MMSP of bytes; MMSP with a coordinate of 32. -/
theorem witness_MatrixStepsAccumulate :
    (∀ z ∈ [true, false], ∀ c ∈ [((4 : BitVec 3), (4 : BitVec 3), (0 : BitVec 7), StepMode.eight), (7, 7, 0, .paired), (7, 5, 0, .mixed), (1, 2, 2, .sixteen)],
      let o := if z then Op.mmaz else .mma
      let x := { portSlot c.2.2.1 0 with dst := .acc, sc := .zero, ic2 := .any, pop := 3 }
      let f := headsF [(0, c.1), (1, c.2.1)]
      rdy o x f = true ∧ stepMode (x.mod.getLsbD 1) (stepIn (ops o x f)).fa.fam (stepIn (ops o x f)).fb.fam = some c.2.2.2
      ∧ stepBad ((withElem o x f).elem (elemFor o)).ctx.mxu ((withElem o x f).bankAt (elemFor o) (x.mod.getLsbD 0)) (stepIn (ops o x f)).fa (stepIn (ops o x f)).fb
          c.2.2.2.kvals (stepIn (ops o x f)).fta (stepIn (ops o x f)).ftb z = none)
    ∧ (∀ o ∈ [Op.mmv, .mmsp],
      let x := { portSlot 1 0 with dst := .acc }
      let f := headsF [(0, 4), (1, 5), (2, 0)]
      rdy o x f = true ∧ isByteFam (stepIn (ops o x f)).fa.fam = true ∧ isByteFam (stepIn (ops o x f)).fb.fam = true ∧ (∀ q, q < 32 → lane 8 (ops o x f).c q < 32)
      ∧ stepBad ((withElem o x f).elem (elemFor o)).ctx.mxu ((withElem o x f).bankAt (elemFor o) true) (stepIn (ops o x f)).fa (stepIn (ops o x f)).fb 1
          (stepIn (ops o x f)).fta (stepIn (ops o x f)).ftb false = none)
    ∧ (let x := { portSlot 0 0 with dst := .acc }
       rdy .mmsp x (heads [(0, 1), (1, 2), (2, 32)]) = true ∧ 31 < lane 8 (ops .mmsp x (heads [(0, 1), (1, 2), (2, 32)])).c 0
       ∧ lane 8 (ops .mmsp x (heads [(0, 1), (1, 2), (2, 32)])).c 0 ≠ 255) := by decide +kernel
/-- AccumulatorAccessAndStatus: a bank with rows to send, one part of a row sent, and none left; ACCW into a zeroed and into a matching bank; ACCA with
either bank zeroed and with two of one mode; a bank whose time has come. -/
theorem witness_AccumulatorAccessAndStatus :
    (∀ o ∈ [Op.mxb, .accz, .accs, .acca, .trns, .mdrn, .mstat, .mtest, .rast], rdy o { regSlot 0 with dst := .null } id = true)
    ∧ (∀ p ∈ [0, 3], let f := mxuTo (fun m => { m with a0 := { m.a0 with rmask := 0x7FFFFFFF, part := p } })
       rdy .accr { emptySlot with dst := .d 0 } f = true ∧ ((withElem .accr { emptySlot with dst := .d 0 } f).bankAt (elemFor .accr) false).rmask.getLsbD 31 = false
       ∧ ((withElem .accr { emptySlot with dst := .d 0 } f).bankAt (elemFor .accr) false).part < rowTokens (fmtAt (ops .accr { emptySlot with dst := .d 0 } f).fmttab 0))
    ∧ (let f := mxuTo (fun m => { m with a0 := { m.a0 with rmask := 0xFFFFFFFF } })
       rdy .accr { emptySlot with dst := .d 0 } f = true ∧ ((withElem .accr { emptySlot with dst := .d 0 } f).bankAt (elemFor .accr) false).rmask = 0xFFFFFFFF)
    ∧ (∀ m ∈ [AccMode.zeroed, .integer], let f := mxuTo (fun u => { u with a0 := { u.a0 with mode := m } })
       rdy .accw { emptySlot with mod := 2 } f = true ∧ (m = .zeroed ∨ m = (if ({ emptySlot with mod := 2 } : Slot).mod.getLsbD 1 then .integer else .float)))
    ∧ (∀ m ∈ [(AccMode.zeroed, AccMode.float), (.integer, .zeroed), (.integer, .integer), (.float, .float)],
       let f := mxuTo (fun u => { u with a0 := { u.a0 with mode := m.1 }, a1 := { u.a1 with mode := m.2 } })
       rdy .acca emptySlot f = true ∧ ((withElem .acca emptySlot f).bankAt (elemFor .acca) false).mode = m.1
       ∧ ((withElem .acca emptySlot f).bankAt (elemFor .acca) true).mode = m.2)
    ∧ (let s := { withElem .mma emptySlot (mxuTo (fun m => { m with a1 := { m.a1 with settles := some 0 } })) with focus := .event (.bankSettled 0 1) }
       (s.bankAt 0 (1 == 1)).settles = some 0 ∧ (0 : Nat) ≤ s.now) := by decide +kernel

/-- A valid descriptor of one 32-byte read of DRAM. -/
def someDesc : W256 := (1 <<< 80) ||| (1 <<< 120) ||| (1 <<< 160) ||| (1 <<< 200) ||| (3 <<< 216) ||| (1 <<< 219)
/-- A memory tile's partition of 512 KiB. -/
def spadAll : Elem → Elem := mtTo (fun m => { m with spsize := 0x80000 })
/-- Two changes, the first inside. -/
def both (f g : Elem → Elem) (e : Elem) : Elem := g (f e)
/-- Generator 0 changed. -/
def genTo (f : Gen → Gen) : Elem → Elem := mtTo (fun m => { m with gens := [(0, f Gen.reset)] })
/-- Queue 0: a ring of n tokens from token 0, c of them filled, extensible or not. -/
def queueTo (n c : Nat) (ext : Bool) : Elem → Elem := 
  mtTo (fun m => { m with spsize := 0x80000, queues := [(0, { MtQueue.reset with cfg := BitVec.ofNat 64 (n * 2 ^ 14 + (if ext then 2 ^ 36 else 0)), count := c })] })

/-- ScratchpadAccessesCompleteOrTrap: the first and the last token of a partition, the first beyond it; lanes in range, and a lane before the partition and
behind it. -/
theorem witness_ScratchpadAccessesCompleteOrTrap :
    (∀ o ∈ [Op.lds, .sts, .satm], ∀ n ∈ [0, 0x7FFFF],
      rdy o (regSlot 0) (both spadAll (datas (BitVec.ofNat 256 n) 5 0)) = true
      ∧ (withElem o (regSlot 0) (both spadAll (datas (BitVec.ofNat 256 n) 5 0))).mem.spad.wf = true
      ∧ (ops o (regSlot 0) (both spadAll (datas (BitVec.ofNat 256 n) 5 0))).a.toNat % 2 ^ 32 / 32 * 32
          < (withElem o (regSlot 0) (both spadAll (datas (BitVec.ofNat 256 n) 5 0))).spsize (elemFor o))
    ∧ (∀ o ∈ [Op.lds, .sts, .satm], rdy o (regSlot 0) (both spadAll (datas 0x80000 5 0)) = true
      ∧ (withElem o (regSlot 0) (both spadAll (datas 0x80000 5 0))).spsize (elemFor o)
          ≤ (ops o (regSlot 0) (both spadAll (datas 0x80000 5 0))).a.toNat % 2 ^ 32 / 32 * 32) := by decide +kernel
theorem witness_ScratchpadAccessesCompleteOrTrap_lanes :
    (∀ o ∈ [Op.ldsx, .stsx], rdy o (regSlot 3) (both spadAll (datas 0x7FC00 0x7F 0)) = true
      ∧ ∀ l, l < 4 → 0 ≤ laneAddr (regSlot 3) (ops o (regSlot 3) (both spadAll (datas 0x7FC00 0x7F 0))) l
        ∧ laneAddr (regSlot 3) (ops o (regSlot 3) (both spadAll (datas 0x7FC00 0x7F 0))) l
            < (withElem o (regSlot 3) (both spadAll (datas 0x7FC00 0x7F 0))).spsize (elemFor o))
    ∧ (∀ o ∈ [Op.ldsx, .stsx], rdy o (regSlot 0) (both spadAll (datas 0 0xFF 0)) = true
      ∧ laneAddr (regSlot 0) (ops o (regSlot 0) (both spadAll (datas 0 0xFF 0))) 0 < 0)
    ∧ (∀ o ∈ [Op.ldsx, .stsx], rdy o (regSlot 0) (both spadAll (datas 0x7FFFF 1 0)) = true
      ∧ (withElem o (regSlot 0) (both spadAll (datas 0x7FFFF 1 0))).spsize (elemFor o)
          ≤ laneAddr (regSlot 0) (ops o (regSlot 0) (both spadAll (datas 0x7FFFF 1 0))) 0) := by decide +kernel
theorem witness_spadGood (o : Op) (x : Slot) (f : Elem → Elem) (a n : Nat) : (withElem o x f).spadGood a n := by
  have e : (withElem o x f).mem.spadErr = [] := rfl
  intro g h
  rw [e] at h
  cases h
/-- GeneratorsHoldsAndQueues: descriptors valid and not; generators idle, running at a burst's end and within it, suspended and faulted; frames open and
closed, with and without held stores; DCXC's versions; queues with room, with one token, and full. -/
theorem witness_GeneratorsHoldsAndQueues :
    (rdy .gset (regSlot 0) (datas someDesc 0 0) = true ∧ descOk .mt (ops .gset (regSlot 0) (datas someDesc 0 0)).a = true
      ∧ rdy .gset (regSlot 0) id = true ∧ descOk .mt (ops .gset (regSlot 0) id).a = false ∧ elType (elemFor .gset) = .mt)
    ∧ (rdy .grun (regSlot 0) (genTo (fun g => { g with desc := someDesc, dv := true })) = true ∧ rdy .grun (regSlot 0) id = true
      ∧ ((withElem .grun (regSlot 0) id).gen (elemFor .grun) 0).dv = false)
    ∧ (∀ g ∈ [(GenState.running, 0), (.running, 1), (.suspended, 0), (.faulted, 0), (.idle, 0)], ∀ o ∈ [Op.gsus, .gres],
      rdy o (regSlot 0) (genTo (fun v => { v with desc := someDesc ||| (4 <<< 80) ||| (1 <<< 222), dv := true, state := g.1, pos := g.2 })) = true)
    ∧ (({ Gen.reset with desc := someDesc ||| (4 <<< 80) ||| (1 <<< 222), pos := 0 } : Gen).atBoundary = true
      ∧ ({ Gen.reset with desc := someDesc ||| (4 <<< 80) ||| (1 <<< 222), pos := 1 } : Gen).atBoundary = false)
    ∧ (∀ o ∈ [Op.hold, .cmit, .disc, .sbar], ∀ p ∈ [true, false],
      rdy o (regSlot 0) (mtTo (fun m => { m with frame := { m.frame with opened := p } })) = true)
    ∧ (rdy .dcxc (regSlot 0) (datas 0x101 0 0) = true ∧ (ops .dcxc (regSlot 0) (datas 0x101 0 0)).a.toNat % 256 = 1
      ∧ (ops .dcxc (regSlot 0) (datas 0x101 0 0)).a.toNat / 512 % 2 ^ 23 = 0)
    ∧ (∀ v ∈ [2, 0x201], rdy .dcxc (regSlot 0) (datas (BitVec.ofNat 256 v) 0 0) = true
      ∧ ¬ ((ops .dcxc (regSlot 0) (datas (BitVec.ofNat 256 v) 0 0)).a.toNat % 256 = 1
        ∧ (ops .dcxc (regSlot 0) (datas (BitVec.ofNat 256 v) 0 0)).a.toNat / 512 % 2 ^ 23 = 0))
    ∧ (∀ c ∈ [0, 7], let s := withElem .qapp (regSlot 0) (queueTo 8 c false)
      rdy .qapp (regSlot 0) (queueTo 8 c false) = true ∧ ((s.elem (elemFor .qapp)).ctx.mt.queue 0).count < ((s.elem (elemFor .qapp)).ctx.mt.queue 0).size)
    ∧ (∀ c ∈ [1, 8], rdy .qtak (regSlot 0) (queueTo 8 c false) = true)
    ∧ (rdy .qapp (regSlot 0) (queueTo 8 8 true) = true ∧ (((withElem .qapp (regSlot 0) (queueTo 8 8 true)).elem (elemFor .qapp)).ctx.mt.queue 0).full = true) := by
  decide +kernel
/-- GlobalAccessesAndSignals and GlobalAccessTraps: addresses that may be accessed, the greatest among them, of this module and of a reachable one; one
with a bit above its VA, one of a module that is not reachable, one misaligned; a memory tile's frame open, closed, and full. -/
def inDomain (s : State) : State := { s with dom := { s.dom with members := [1, 2], self := 1, routes := [(2, 0x80000000)] } }
/-- A net with one object: a weight image of 32 bytes at offset 0, bound. -/
def weightNet : NetImg := { NetImg.empty with objs := [9 ||| 1 <<< 8 ||| 32 <<< 64] }
theorem witness_GlobalAccessesAndSignals :
    (∀ o ∈ [Op.gld, .gatm, .sigw, .sigr, .fnc, .gprf, .wsld], rdy o (regSlot 3) id = true)
    ∧ (∀ a ∈ [0, 0xFFFFFFFFFFFFF8, 2 ^ 95 + 2 * 2 ^ 64], ∀ n ∈ [1, 8], (inDomain (withElem .gld (regSlot 3) (datas (BitVec.ofNat 256 a) 0 0))).addrOk
        ((inDomain (withElem .gld (regSlot 3) (datas (BitVec.ofNat 256 a) 0 0))).opndsOf (elemFor .gld) .gld (regSlot 3)).a n)
    ∧ (rdy .gst (regSlot 0) (mtTo (fun m => { m with frame := { m.frame with opened := true } })) = true
      ∧ ((withElem .gst (regSlot 0) (mtTo (fun m => { m with frame := { m.frame with opened := true } }))).elem (elemFor .gst)).ctx.mt.frame.opened = true
      ∧ (withElem .gst (regSlot 0) (mtTo (fun m => { m with frame := { m.frame with opened := true } }))).heldCount (elemFor .gst) < 1024)
    ∧ (let s := { withElem .wsld (regSlot 0) id with regions := [(0, someRegion)], insts := [(0, Inst.new 0 0 0 weightNet)] }
       s.wsAllowed 0 (elDie (elemFor .wsld)) 0 = true ∧ s.wsAllowed 0 (elDie (elemFor .wsld)) 32 = false ∧ s.mayIssue (elemFor .wsld) 0 .wsld (regSlot 0) = true) := by
  simp only [State.addrOk]; decide +kernel
theorem witness_GlobalAccessTraps :
    (∀ o ∈ [Op.gld, .gst, .gatm, .sigw, .sigr], ∀ a ∈ [2 ^ 56, 2 ^ 95, 1], rdy o (regSlot 1) (datas (BitVec.ofNat 256 a) 0 0) = true)
    ∧ (bits (1 <<< 56 : W256) 56 8 ≠ 0 ∧ bits (1 <<< 95 : W256) 56 8 = 0 ∧ (1 <<< 95 : W256).getLsbD 95 = true
      ∧ (withElem .gld (regSlot 1) id).reachable (bits (1 <<< 95 : W256) 64 10).toNat = false
      ∧ (1 : W256).toNat % 2 ^ 56 % (slotW (regSlot 1) / 8) ≠ 0 ∧ (1 : W256).getLsbD 95 = false ∧ bits (1 : W256) 56 8 = 0)
    ∧ (rdy .gst (regSlot 0) id = true ∧ elType (elemFor .gst) = .mt ∧ ((withElem .gst (regSlot 0) id).elem (elemFor .gst)).ctx.mt.frame.opened = false) := by decide +kernel
/-- A full hold buffer: 1024 times one held store. -/
theorem witness_GlobalAccessTraps_full (a : Access) : 1024 ≤ (withElem .gst (regSlot 0) (mtTo (fun m => { m with frame :=
    { m.frame with opened := true, held := List.replicate 1024 a } }))).heldCount (elemFor .gst) := by
  have e : ((withElem .gst (regSlot 0) (mtTo (fun m => { m with frame := { m.frame with opened := true, held := List.replicate 1024 a } }))).elem
      (elemFor .gst)).ctx.mt.frame.held = List.replicate 1024 a := rfl
  rw [State.heldCount, e, List.length_replicate]
  exact Nat.le_add_right _ _

/-- A collective instance in a stage, and a gateway's circuit 0 bound to it. -/
def someColl (st : CollStage) : Coll :=
  { inst := 0, obj := 0, num := 0, gid := 7, rank := 0, ranks := 2, alg := 1, bound := 1, stage := st, slot := none, step := 0, steps := 0, tstep := 10,
    timer := none, ranksAt := [(0, 1), (1, 2)], paused := false, pausedBy := [], lease := 0, held := false, atBar := [], asked := false, used := 0 }
def boundCirc : GwCircuit :=
  { recv := true, peerOff := 1, coll := 0, perStep := 1, bound := some 0, peer := 2, circ := 20, credits := 1, got := [tokOf 5], sent := 0, total := 1,
    acks := 0, owed := [] }
def onCirc (e : Elem) : Elem := { e with ctx := { e.ctx with gw := { e.ctx.gw with circs := [(0, boundCirc)] } } }
def gwState (o : Op) (x : Slot) (st : CollStage) : State := { inDomain (withElem o x onCirc) with colls := [(0, someColl st)] }

theorem witness_SpecialRegistersRead_collective : ∀ st ∈ [CollStage.bound, .binding],
    let s := gwState .csnd (regSlot 0) st
    let l := (s.elem (elemFor .csnd)).ctx.gw.circs.vals
    (∀ g ∈ l, g.bound = none ∨ g.bound = some 0) ∧ (∃ g ∈ l, g.bound = some 0) ∧ s.colls.find? 0 = some (someColl st)
    ∧ ∀ g ∈ ((withElem .csnd (regSlot 0) id).elem (elemFor .csnd)).ctx.gw.circs.vals, g.bound = none := by decide
/-- NearBankCommandsAndFilters: an NBR with and without a reserved bit, a family that RDCE takes and one that it does not. -/
theorem witness_NearBankCommandsAndFilters :
    (∀ o ∈ [Op.nbq, .nbr, .nbst, .fltr], rdy o (regSlot 0) id = true)
    ∧ (nbrReserved (ops .nbr (regSlot 0) (datas 63 0 0)).a = false ∧ nbrReserved (ops .nbr (regSlot 0) (datas 64 0 0)).a = true
      ∧ rdy .nbr (regSlot 0) (datas 64 0 0) = true)
    ∧ (∀ m ∈ [(0, true), (3, true), (4, false)], rdy .rdce (regSlot (BitVec.ofNat 7 (16 * m.1))) id = true
      ∧ reduceFam (fmtAt (ops .rdce (regSlot (BitVec.ofNat 7 (16 * m.1))) id).fmttab (slotF (regSlot (BitVec.ofNat 7 (16 * m.1))))).fam = m.2) := by
  decide +kernel
/-- GatewayInstructions: a circuit with a credit and a token, of an instance bound, and of one that has aborted. -/
theorem witness_GatewayInstructions :
    (∀ o ∈ [Op.csnd, .crcv, .cred, .cbar], (gwState o (regSlot 0) .bound).mayIssue (elemFor o) 0 o (regSlot 0) = true
      ∧ ((gwState o (regSlot 0) .bound).elem (elemFor o)).ctx.emptyPort o (regSlot 0) = none ∧ (gwState o (regSlot 0) .bound).focus = .elem (elemFor o) 0
      ∧ (gwState o (regSlot 0) .bound).circAborted ((gwState o (regSlot 0) .bound).elem (elemFor o)).ctx (regSlot 0) = false
      ∧ ((gwState o (regSlot 0) .bound).elem (elemFor o)).ctx.gw.circs.find? 0 = some boundCirc ∧ boundCirc.got.head? = some (tokOf 5)
      ∧ (gwState o (regSlot 0) .bound).dom.members ≠ [] ∧ boundCirc.bound = some 0 ∧ (gwState o (regSlot 0) .bound).colls.find? 0 = some (someColl .bound)
      ∧ reduceFam (fmtAt ((gwState o (regSlot 0) .bound).opndsOf (elemFor o) o (regSlot 0)).fmttab (immBits (regSlot 0) 0 3)).fam = true)
    ∧ (∀ o ∈ [Op.csnd, .crcv, .cred], (gwState o (regSlot 0) (.aborted 1)).mayIssue (elemFor o) 0 o (regSlot 0) = true
      ∧ (gwState o (regSlot 0) (.aborted 1)).circAborted ((gwState o (regSlot 0) (.aborted 1)).elem (elemFor o)).ctx (regSlot 0) = true) := by decide +kernel

/-- The run in inRun, changed. -/
def runTo (f : NbRun → NbRun) : State := inRun (fun p => { p with run := p.run.map f })
/-- Rows open in banks 0 and 1 since time 0, or in none. -/
def rowsOpen (n : Bool) (r : NbRun) : NbRun :=
  { r with banks := if n then [(0, { NbBank.start with open_ := some 5 }), (1, { NbBank.start with open_ := some 5 })] else [] }
/-- A grant of rows 0 to 16383 to ASID 0, of writes or not. -/
def granted (w : Bool) (s : State) : State := { s with now := 64, pchs := s.pchs.map (fun (p : Nat × Pch) =>
  (p.1, { p.2 with grants := [(0, BitVec.ofNat 64 (1 + (if w then 2 else 0) + 16383 * 2 ^ 32))] })) }
/-- The run of pseudo-channel 0. -/
def theRun (s : State) : NbRun := (s.pch 0).run.getD firstRun
/-- NearBankVectorAndSoftmaxSteps: a run that may step, at entry 0 and at entry 62, for each duration; M and S numbers, and S a NaN. -/
theorem witness_NearBankVectorAndSoftmaxSteps : ∀ m ∈ [0, 62], ∀ d ∈ [16, 32, 48],
    (runTo (fun r => { r with mpc := m })).MicroReady 0 (theRun (runTo (fun r => { r with mpc := m }))) 0 d
    ∧ (theRun (runTo (fun r => { r with mpc := m }))).mpc < 63
    ∧ (fmt32.decodeF NbBank.start.m.toNat).isNan = false ∧ (fmt32.decodeF NbBank.start.s.toNat).isNan = false
    ∧ (fmt32.decodeF ({ NbBank.start with s := 0x7FC00000 } : NbBank).s.toNat).isNan = true := by simp only [State.MicroReady]; decide +kernel
/-- NearBankRowControlAndFaults: rows open and closed, granted for reading, for writing and not; a SYNC with nothing to suspend for, with a refresh due, after
ARB + 1 segments with an access waiting, and in a region set aside; LOOPs that go on and that end; EBUF with room and full, with rows open and closed; entry
63; a step that ends at the end of its segment's time, and one that would end beyond it. -/
theorem witness_NearBankRowControlAndFaults :
    (∀ o ∈ [true, false], ∀ w ∈ [true, false], let s := granted w (runTo (rowsOpen o))
      s.MicroReady 0 (theRun s) 0 16 ∧ s.MicroReady 0 (theRun s) (theRun s).columnAt 16
      ∧ s.MicroReady 0 (theRun s) (if (theRun s).anyOpen then (theRun s).preAt else 0) (if (theRun s).anyOpen then 112 else 16)
      ∧ (theRun s).mpc < 63 ∧ (theRun s).anyOpen = o ∧ (theRun s).anyClosed = !o ∧ s.mem.dram.wf = true ∧ 0 ∈ (theRun s).part
      ∧ (s.pch 0).granted (theRun s).asid (theRun s).row.toNat false = true ∧ (s.pch 0).granted (theRun s).asid 5 true = w)
    ∧ (runTo id).MicroReady 0 (theRun (runTo id)) 0 16 ∧ ((runTo id).pch 0).granted (theRun (runTo id)).asid 0 false = false := by
  simp only [State.MicroReady]; decide +kernel
theorem witness_NearBankRowControlAndFaults_control :
    (((runTo id).pch 0).due = false ∧ ((runTo id).pch 0).chosen = 0 ∧ (theRun (runTo id)).wcnt < 15 ∧ (theRun (runTo id)).anyOpen = false
      ∧ (runTo id).regionSaved (theRun (runTo id)).inst = false ∧ (theRun (runTo id)).lc0 = 0)
    ∧ ((inRun (fun p => { p with refDue := true })).pch 0).due = true
    ∧ (inRun (fun p => { p with refDue := true })).MicroReady 0 (theRun (inRun (fun p => { p with refDue := true }))) 0 16
    ∧ ((runTo (fun r => { r with lc0 := 1 })).MicroReady 0 (theRun (runTo (fun r => { r with lc0 := 1 }))) 0 16 ∧ (theRun (runTo (fun r => { r with lc0 := 1 }))).lc0 ≠ 0)
    ∧ (∀ d ∈ [0, 16, 32, 48], (runTo (fun r => { r with mpc := 63 })).MicroReady 0 (theRun (runTo (fun r => { r with mpc := 63 }))) 0 d
      ∧ (theRun (runTo (fun r => { r with mpc := 63 }))).mpc = 63)
    ∧ ((runTo (fun r => { r with ebuf := List.replicate 126 (tokOf 0) })).MicroReady 0 (theRun (runTo (fun r => { r with ebuf := List.replicate 126 (tokOf 0) }))) 0 16
      ∧ (theRun (runTo (fun r => { r with ebuf := List.replicate 126 (tokOf 0) }))).ebuf.length
          + (theRun (runTo (fun r => { r with ebuf := List.replicate 126 (tokOf 0) }))).part.length ≤ 128)
    ∧ (let s := runTo (fun r => rowsOpen true { r with ebuf := List.replicate 127 (tokOf 0) })
       s.MicroReady 0 (theRun s) 0 16 ∧ 128 < (theRun s).ebuf.length + (theRun s).part.length ∧ (theRun s).anyOpen = true)
    ∧ (let s := runTo (fun r => { r with ebuf := List.replicate 127 (tokOf 0) })
       (s.pch 0).mayStep (theRun s) 0 s.now5 = true ∧ 128 < (theRun s).ebuf.length + (theRun s).part.length ∧ (theRun s).anyOpen = false
       ∧ s.regionSaved (theRun s).inst = false ∧ (s.pch 0).due = false ∧ (s.pch 0).chosen = 0) := by
  simp only [State.MicroReady]; decide +kernel
/-- An access of 32 bytes at VA 0 for firing 5 of the MT 0.1.0. -/
def someAccess (k : AccKind) (t : AccTarget) : Access :=
  { id := 5, by_ := .elem (elemFor .gset) 5 0 1, kind := k, tgt := t, inst := 0, asid := 0, va := 0, bytes := 32, data := 7, data2 := 0, xlat := .untried, ap := .std,
    pch := 0, off := 0, held := false, scope := 0, work := 0, sent := 0, waited := 0, leaf := 0, gone := false }
theorem witness_NearBankRowControlAndFaults_sync :
    (∀ w ∈ [2, 3, 15], let s := inRun (fun p => { p with cq := [.access (someAccess .read .dram)], run := p.run.map (fun r => { r with wcnt := w }) })
      s.MicroReady 0 (theRun s) 0 16 ∧ (theRun s).anyOpen = false
      ∧ (((s.stk 0).arb.toNat + 1 ≤ min ((theRun s).wcnt + 1) 15 ∧ 0 < (s.pch 0).chosen) ↔ w ≠ 2))
    ∧ (let s := { runTo id with regions := [(0, { someRegion with saved := true })] }
       s.MicroReady 0 (theRun s) 0 16 ∧ s.regionSaved (theRun s).inst = true)
    ∧ (∀ n ∈ [636, 637, 640, 641], let s := { runTo id with now := n }
       (s.pch 0).mayStep (theRun s) 0 s.now5 = true ∧ ((theRun s).inTime (s.stepAt 0 0) 16 = true ↔ n = 636)) := by
  simp only [State.MicroReady]; decide +kernel

/-! Net actions and the sequencer -/

/-- Root table at PA 0 and one leaf at PA 8192: every VA below 64 GiB is its own PA, readable, writable, for atomics and shared. -/
def mapped (s : State) : State := (s.paWrite 0 8 0x2001).paWrite 8192 8 0x9F
/-- A stage image of one CE without slots, at VA 0x10000; a program of one HALT at VA 0x10100; a stage image of one MT with a partition of 384 KiB, at VA
0x10200. -/
def withStage (s : State) : State :=
  (((((mapped s).paWrite 0x10000 16 (0x5347 + 2 ^ 16 + 2 ^ 32)).paWrite 0x10010 16 (1 + 0x3003042838181020 * 2 ^ 32)).paWrite 0x10100 4 0x44000000).paWrite
    0x10200 32 (0x5347 + 2 ^ 16 + 2 ^ 32 + (17 + 0x3003042838181020 * 2 ^ 32) * 2 ^ 128)).paWrite 0x10230 16 0x60000
/-- The words of that image. -/
def stageWords : List W128 := [BitVec.ofNat 128 (0x5347 + 2 ^ 16 + 2 ^ 32), BitVec.ofNat 128 (1 + 0x3003042838181020 * 2 ^ 32), 0]
/-- The words of the image of one MT. -/
def mtStage : List W128 := [BitVec.ofNat 128 (0x5347 + 2 ^ 16 + 2 ^ 32), BitVec.ofNat 128 (17 + 0x3003042838181020 * 2 ^ 32), 0, 0x60000, 0, 0]
/-- A place of 1 token, a transition NOP from it to itself with weight 1, and objects: the stage image, the program, the set of PCH 0, the stream of
descriptor 0, a signal, 32 bytes of weight store, a child, a collective instance of two ranks and one of one rank, and the image of one MT. -/
def testNet : NetImg :=
  { NetImg.empty with base := 0x10000, data := [someDesc, 0], acts := [0], places := [], trans := [], objs := [48 <<< 64, 0x100 <<< 32 ||| 1 <<< 64, 1 <<< 64, 0, 7, 9 ||| 32 <<< 64, 0x99 <<< 8, 1 <<< 40, 0, 0x200 <<< 32 ||| 96 <<< 64] }
/-- A firing slot at a stage, with an action word. -/
def someSlot (a : W128) (st : FiringStage) : FSlot :=
  { trans := 0, cls := 0, rst := false, round := 0, stage := st, act := a, remaining := 0, deadline := none, waits := [], todo := [], operand := 0, cell := none,
    left := false, asked := false, faulted := false }
/-- Instance 0 with firing slot 0 and its region, whose one section holds CE 0.0.0; something is what runs. -/
def netIn (x : FSlot) (fo : Focus) (f : Inst → Inst) (g : Region → Region) : State :=
  { withStage State.reset with insts := [(0, f { Inst.new 0 0 0 testNet with slots := [(0, x)] })], regions := [(0, g { regionWith 0 with gens := [(0, (elemFor .gset, 0))] })], focus := fo }
/-- The same with its action issued and not yet run. -/
def acting (f : Inst → Inst) (g : Region → Region) : State := netIn (someSlot 0 .issued) (.nsq 0 0) f g
def theInst (f : Inst → Inst) : Inst := f { Inst.new 0 0 0 testNet with slots := [(0, someSlot 0 .issued)] }
theorem witness_ActionReady (f : Inst → Inst) (g : Region → Region) (h : (f { Inst.new 0 0 0 testNet with slots := [(0, someSlot 0 .issued)] }).slots
    = [(0, someSlot 0 .issued)]) : (acting f g).ActionReady 0 0 (theInst f) (someSlot 0 .issued) := by
  refine ⟨rfl, rfl, ?_, rfl⟩
  rw [theInst, h]
  rfl
/-- The one section of the region changed. -/
def sectTo (f : Section → Section) (r : Region) : Region := { r with sects := r.sects.map (fun (x : Nat × Section) => (x.1, f x.2)) }
/-- InstantActionsComplete: N0 equal to an operand, on either side of it, 0, 1 and 2; no child and one. -/
theorem witness_InstantActionsComplete :
    (theInst id).turn ≠ some (acting id id).now ∧ (theInst id).n.getD 0 0 = (0 : W64) ∧ ((theInst id).n.getD 0 0).toNat < (1 : W64).toNat
    ∧ ((0 : W64)).toNat < ((theInst (fun v => { v with n := [(0, 1)] })).n.getD 0 0).toNat ∧ ((theInst id).n.getD 0 0).toInt < (1 : W64).toInt
    ∧ (0xFFFFFFFFFFFFFFFF : W64).toInt < ((theInst id).n.getD 0 0).toInt ∧ (theInst (fun v => { v with n := [(0, 1)] })).n.getD 0 0 = 1
    ∧ 2 ≤ ((theInst (fun v => { v with n := [(0, 2)] })).n.getD 0 0).toNat ∧ (theInst id).img.objs[6]? = some (0x99 <<< 8 : W256) ∧ (theInst id).tail = none
    ∧ (theInst (fun v => { v with tail := some 0 })).tail.isSome = true := by decide
/-- ArmAndConfigurationActions: a section that holds stage 0, another, none; no ARM and one; fenced and not; a FIN with and without a next ARM; a right image, a
broken one, and one for which an MT has and has not room; with and without loaded images; a section drained and not; a C2 that is over. -/
theorem witness_ArmAndConfigurationActions :
    ((acting id id).sect 0 0 = some (sectWith 0) ∧ 65535 < (65536 : Nat) ∧ (sectWith 0).snum ≠ some 0)
    ∧ (∀ a ∈ [[], [⟨3, 2, 0⟩]], ∀ b ∈ [true, false],
      let y : Section := { sectWith 0 with img := some stageWords, arms := a, fenced := b }
      (acting id (sectTo (fun _ => y))).sect 0 0 = some y ∧ y.snum = some 0 ∧ (y.arms = a) ∧ y.fenced = b ∧ (65535 : Nat) ≤ 65535)
    ∧ ((sectWith 0).kept = none ∧ ({ sectWith 0 with kept := some ([], 3) } : Section).kept = some ([], 3)
      ∧ ((acting id id).elem 0).ctx.inst ≠ some 0 ∧ ((withElem .nop emptySlot id).elem 0).ctx.inst = some 0 ∧ ((withElem .nop emptySlot id).elem 0).run ≠ 2)
    ∧ (∀ l ∈ [[], [(⟨1, 3, 0⟩ : ArmRec)]],
       let y : Section := { sectWith 0 with arms := ⟨0, 2, 5⟩ :: l, fin := some 2 }
       let s := netIn (someSlot 1 .going) (.event (.finApply 0 0)) id (sectTo (fun _ => y))
       s.sect 0 0 = some y ∧ s.asideNow 0 = false ∧ s.noneHeld y = true ∧ s.pendingAt 5 false (Access.storeOf y.elems) = false
       ∧ s.slot 0 0 = some (someSlot 1 .going) ∧ y.fenced = false) := by decide +kernel
/-- A write that has left for DRAM. -/
def behindWrite (s : State) : State := { s with pchs := [(0, { Pch.reset with ibStd := [someAccess .write .dram] })] }
/-- The second token of the stage image is uncorrectable. -/
def badStage (s : State) : State := { s with mem := { s.mem with dramErr := [cellAt (stdCell 0x10020) / 32] } }
theorem witness_ArmAndConfigurationActions_images :
    ((acting id id).fetchStage 0 testNet 0 = .ok stageWords ∧ stageBreaches (sectWith 0).nodes stageWords = [] ∧ (sectWith 0).nodes.vals.Nodup
      ∧ ((acting id id).keepParts 0 0 (sectWith 0) stageWords).isSome = true
      ∧ (acting id id).fetchStage 0 testNet 5 = .ok (stageWords.take 2) ∧ (stageBreaches (sectWith 0).nodes (stageWords.take 2)).length = 1)
    ∧ (∀ b ∈ [true, false], let y := sectWith (elemFor .gset)
       let s : State := { acting id (sectTo (fun _ => y)) with
         elems := [(elemFor .gset, { Elem.reset with parts := if b then [] else [(1, (0x5F000, 0x1000, 7))] })] }
       s.sect 0 0 = some y ∧ s.fetchStage 0 testNet 9 = .ok mtStage ∧ stageBreaches y.nodes mtStage = [] ∧ (s.keepParts 0 0 y mtStage).isSome = b)
    ∧ ((acting id id).writesAhead = [] ∧ (acting id id).vaBad 0 (testNet.objVa 0) (16 * stageWords.length) = none
      ∧ (behindWrite (acting id id)).writesAhead = [5]
      ∧ (badStage (acting id id)).fetchStage 0 testNet 0 = .ok stageWords ∧ (badStage (acting id id)).vaBad 0 (testNet.objVa 0) (16 * stageWords.length) = some 0x10020
      ∧ ((badStage (acting id id)).region 0).map (fun r => decide (r.traps.length < 256)) = some true) := by decide +kernel
/-- A circuit of section 0 with a token on its way. -/
def someCirc : Circuit := { src := 0, srcPort := 0, dst := some 0, dstPort := 0, via := none, flying := [(0, tokOf 1)], passed := [], inst := 0, sid := 0 }
theorem witness_ArmAndConfigurationActions_install :
    ((sectWith 0).bufs.find? 0 = none ∧ (sectWith 0).bufs.find? 2 = none ∧ (sectWith 0).c2 = none
      ∧ ({ sectWith 0 with bufs := [(0, stageWords), (2, stageWords)], c2 := some stageWords } : Section).bufs.find? 2 = some stageWords
      ∧ ({ sectWith 0 with bufs := [(0, stageWords), (2, stageWords)], c2 := some stageWords } : Section).bufs.find? 0 = some stageWords)
    ∧ (let y : Section := { sectWith 0 with bufs := [(0, stageWords), (2, stageWords)] }
       (∀ n ∈ [0, 2], let s := netIn (someSlot (BitVec.ofNat 128 (3 + n * 2 ^ 16)) .going) (.event (.swapInstall 0 0)) id (sectTo (fun _ => y))
         (someSlot (BitVec.ofNat 128 (3 + n * 2 ^ 16)) .going).code = 0x03 ∧ n = (bits (someSlot (BitVec.ofNat 128 (3 + n * 2 ^ 16)) .going).act 16 2).toNat
         ∧ s.sect 0 0 = some y ∧ s.mayReplace 0 = true ∧ y.bufs.find? n = some stageWords ∧ s.drained y = true ∧ s.emptied 0 0 y = true ∧ s.inC2 0 y = false
         ∧ (parseStage stageWords).isSome = true ∧ s.drained { y with arms := [⟨0, 2, 0⟩] } = false
         ∧ ({ s with elems := [(0, { Elem.reset with ctx := { Ctx.reset with inst := some 0 }, run := 2 })] } : State).inC2 0 y = true
         ∧ ({ s with circs := [(0, someCirc)] } : State).emptied 0 0 y = false))
    ∧ (let x : FSlot := { someSlot 0x10 .going with deadline := some 0 }
       let c : Ctx := { Ctx.reset with inst := some 0 }
       let s : State := { netIn x (.event (.cslotExpire 0 0)) id id with elems := [(0, { Elem.reset with run := 2, saved := [(1, c)] })] }
       s.cslotOver 0 x = true ∧ (sectWith 0).elems = [0] ∧ s.saveBad 0 ((s.elem 0).baseSlot 0) = false ∧ (s.elem 0).saved = [(1, c)]) := by decide +kernel
/-- StreamSignalAndTimerActions: a generator with a valid and an invalid descriptor, idle, busy and faulted; a program that is right and one that is not; a
PCH set and an empty one, without a run, with one, and with one set aside; a weight image held and not; a signal whose word a TLB holds and does not, with a
store that it covers and none; an MT queue that has no segment to link. -/
def sigTlb (s : State) : State := { s with dies := [(0, { Die.reset with tlb2 := [{ asid := 0, page := 0, size := 2, pte := 0x9F }] })] }
theorem witness_StreamSignalAndTimerActions :
    (let s := acting id id
     s.genOf 0 0 = some (elemFor .gset, 0) ∧ testNet.objs[3]? = some 0 ∧ testNet.data[0]? = some someDesc ∧ testNet.data[1]? = some 0
     ∧ (s.elem (elemFor .gset)).ctx.coming = [] ∧ (s.gen (elemFor .gset) 0).busy = false ∧ (s.elem (elemFor .gset)).run ≠ 2
     ∧ descOk (elType (elemFor .gset)) someDesc = true ∧ descOk (elType (elemFor .gset)) 0 = false
     ∧ ({ Gen.reset with state := .running } : Gen).busy = true ∧ ({ Gen.reset with state := .faulted } : Gen).busy = false)
    ∧ (let s := acting id id
       testNet.objs[1]? = some (0x100 <<< 32 ||| 1 <<< 64 : W256) ∧ s.writesAhead = [] ∧ s.vaBad 0 (testNet.objVa 1) (4 * 1) = none ∧ s.pchsOf 0 2 = [0] ∧ (∀ p ∈ s.pchsOf 0 2, (s.pch p).run = none ∧ (s.pch p).saved = [])
       ∧ (∀ q ∈ [{ Pch.reset with run := some firstRun }, { Pch.reset with saved := [(0, ⟨firstRun, []⟩)] }],
          ¬((({ s with pchs := [(0, q)] } : State).pch 0).run = none ∧ (({ s with pchs := [(0, q)] } : State).pch 0).saved = []))
       ∧ s.fetchProg 0 (testNet.objVa 1) 1 = .ok [0x44000000] ∧ progWordOk 1 0x44000000 = true ∧ progWordOk 1 0xFFFFFFFF = false)
    ∧ (let s : State := { acting id id with pchs := [(0, { Pch.reset with progs := [(0, 1)] })] }
       (∀ p ∈ s.pchsOf 0 2, ((s.pch p).progs.find? 0).isSome = true ∧ s.depth p < 64) ∧ (s.pchsOf 0 2).Nodup ∧ s.pchsOf 0 2 ≠ [] ∧ s.pchsOf 0 3 = []
       ∧ 64 ≤ ({ s with pchs := [(0, { Pch.reset with cq := List.replicate 64 (.saved 0) })] } : State).depth 0)
    ∧ (let s := acting id id
       testNet.objs[5]? = some (9 ||| 32 <<< 64 : W256) ∧ someRegion.dies[0]? = some 0 ∧ s.mem.ws.wf = true ∧ s.wsHeld 0 (9 ||| 32 <<< 64) = false
       ∧ s.vaRead 0 0x10000 32 = .ok ((0x5347 + 2 ^ 16 + 2 ^ 32) + (1 + 0x3003042838181020 * 2 ^ 32) * 2 ^ 128)
       ∧ s.vaBad 0 0x10000 32 = none
       ∧ (acting (fun v => { v with img := { v.img with objs := [9 ||| 1 <<< 8 ||| 32 <<< 64] } }) id).wsHeld 0 (9 ||| 32 <<< 64) = true)
 := by decide +kernel
theorem witness_StreamSignalAndTimerActions_signals :
    (testNet.isKind 4 7 = true ∧ testNet.isKind 0 7 = false
       ∧ (∀ k ∈ [AccKind.sigw true, .sigw false, .read], lookLeaf ((sigTlb (acting id id)).die ((sigTlb (acting id id)).nsqDie 0)).tlb2 k 0 (testNet.signalVa 4) = .cell .std 0 0
         ∧ lookLeaf ((acting id id).die ((acting id id).nsqDie 0)).tlb2 k 0 (testNet.signalVa 4) = .miss)
       ∧ (someSlot 0 .issued).left = false ∧ (someSlot 0 .issued).faulted = false ∧ (someSlot 0 .issued).waits = []
       ∧ ∀ b ∈ [true, false], let s : State := { acting id id with pchs := if b then [(0, { Pch.reset with ibStd := [{ someAccess .write .dram with by_ := .elem 0 5 0 1, work := 2 }] })] else [] }
         s.pendingAt 4 false (fun a => (s.covered 0).contains a.id) = b)
    ∧ ((acting id id).linkSegment 0 0 0 = none)
    ∧ (∀ c ∈ [((0x13 : W128), Event.timerExpire 0 0), (0x0A, .watchTimeout 0 0)],
       let x : FSlot := { someSlot c.1 .going with deadline := some 0 }
       (netIn x (.event c.2) id id).slot 0 0 = some x ∧ x.code = c.1.toNat ∧ (0 : Nat) ≤ (netIn x (.event c.2) id id).now)
    ∧ (let x : FSlot := { someSlot 0x0A .going with cell := some (0, 0) }
       (netIn x (.event (.watchRecheck 0 0)) id id).watchDue x = true ∧ x.tgt = 0
       ∧ lookLeaf ((sigTlb (acting id id)).die ((sigTlb (acting id id)).nsqDie 0)).tlb2 .read 0 (testNet.signalVa 0) = .cell .std 0 0) := by decide +kernel
/-- EXTEND where the spare pool has a segment: the pool's size is free (log 12). -/
theorem witness_StreamSignalAndTimerActions_extend (h : 0 < Config.sparePool (elemFor .qapp)) : ∃ u, ({ withElem .qapp (regSlot 0) (mtTo (fun m =>
    { m with queues := [(0, { MtQueue.reset with cfg := BitVec.ofNat 64 (2 ^ 36 + 2 ^ 28) })] })) with focus := .none }).linkSegment 0 (elemFor .qapp) 0 = some u := by
  refine ⟨_, if_pos ?_⟩
  simp only [Bool.and_eq_true, decide_eq_true_eq]
  exact ⟨⟨by decide +kernel, by decide +kernel⟩, h⟩

/-- CollectiveActions: a domain with and without this object's instance; a bound instance with none in flight, with one, and one bound to the switch that has
had a step; one that still binds; the next generation and another; an RKEY whose time is up with no access of its module unanswered. -/
def inColl (st : CollStage) (n : Nat) : State := { inDomain (acting id id) with colls := [(0, { someColl st with obj := n })], dom := { (inDomain (acting id id)).dom with gen := 1 } }
theorem witness_CollectiveActions :
    (testNet.objs[8]? = some (0 : W256) ∧ (bits (0 : W256) 40 6).toNat + 1 < 2) ∧ ((inColl .bound 7).collOf 0 7).isSome = true ∧ (acting id id).collOf 0 7 = none
    ∧ ((inColl .bound 7).collOf 0 7 = some (0, { someColl .bound with obj := 7 }) ∧ (someColl .bound).stage = .bound ∧ (someColl .bound).bound ≠ 3
      ∧ (someColl .bound).slot = none ∧ (inColl .bound 7).colls.find? 0 = some { someColl .bound with obj := 7 })
    ∧ (let s := { inColl .bound 7 with colls := [(0, { someColl .bound with obj := 7, bound := 3, steps := 1 })] }
       s.collOf 0 7 = some (0, { someColl .bound with obj := 7, bound := 3, steps := 1 }))
    ∧ (let v := theInst (fun v => { v with slots := v.slots ++ [(1, someSlot 0x15 .going)] })
       let s : State := { inColl .bound 7 with insts := [(0, v)], colls := [(0, { someColl .bound with obj := 7, slot := some 1 })] }
       s.collOf 0 7 = some (0, { someColl .bound with obj := 7, slot := some 1 }) ∧ s.slot 0 1 = some (someSlot 0x15 .going))
    ∧ (inColl .binding 7).collOf 0 7 = some (0, { someColl .binding with obj := 7 })
    ∧ ((acting id id).dom.members = [] ∧ (inColl .bound 7).dom.members ≠ [] ∧ (2 : W32).toNat = (inColl .bound 7).dom.gen + 1 ∧ (1 : W32).toNat ≠ (inColl .bound 7).dom.gen + 1
      ∧ (inColl .bound 7).dom.rkey = none)
    ∧ (let x : FSlot := { someSlot 0x16 .going with deadline := some 0 }
       let s : State := { netIn x (.event (.rkeyTimeout 0 0)) id id with dom := { Domain.reset with members := [1, 2], rkey := some (0, 0) } }
       s.slot 0 0 = some x ∧ x.code = 0x16 ∧ (0 : Nat) ≤ s.now ∧ s.dom.rkey = some (0, 0) ∧ s.dom.unacked = []) := by decide +kernel
/-- A place of 1 token with room for 2, a TIME place and a WSREADY place; a transition of class 0 that consumes one and deposits one under outcome 0. -/
def netWith (v : Inst) : Inst :=
  { v with count := [(0, 1)], slots := [], img := { testNet with places := [0x10002, 0x400000001, 0x100000001], trans := [1 <<< 191 ||| (0x500 : W256) <<< 128 ||| 0x1100] } }
/-- SequencerEvents: an instance that is not saved, and one that is, without and with a quantum due; rounds with no firing, with one that waits for nothing of
its own, with one that does, and with an outcome to apply; an enabled transition and a free slot; an outcome that has arrived; a TIME quantum. -/
theorem witness_SequencerEvents :
    (let s := netIn (someSlot 0 .issued) (.event (.nsqRound 0)) netWith id
     (s.inst 0).map (fun v => (v.turn, v.slots, v.deposits, v.timeDue)) = some (none, [], [], false) ∧ (s.region 0).map (fun r => r.saved) = some false
     ∧ ((netIn (someSlot 0 .issued) (.event (.nsqRound 0)) netWith (fun r => { r with saved := true })).region 0).map (fun r => r.saved) = some true)
    ∧ (let v : Inst := { netWith (Inst.new 0 0 0 testNet) with turn := some 0 }
       (netIn (someSlot 0 .issued) (.event (.transitionStart 0 0)) (fun _ => v) id).inst 0 = some v ∧ v.turn = some (0 : Nat) ∧ v.start ≠ some (0 : Nat)
       ∧ (regionWith 0).mayStart v = true ∧ v.choice (regionWith 0).preempt.isSome = some 0 ∧ v.freeSlot = some 0)
    ∧ (∀ o ∈ [0, 3], (netIn (someSlot 0 (.arrived o)) (.event (.firingCompletion 0 0)) id id).slot 0 0 = some (someSlot 0 (.arrived o)))
    ∧ (let v : Inst := { netWith (Inst.new 0 0 0 testNet) with time := 5, img := { testNet with places := [0x400000001], hdr1 := BitVec.ofNat 128 (5 * 2 ^ 64 + 5 * 2 ^ 32 + 5) } }
       v.img.timeq ≠ 0 ∧ v.img.timeq ≤ v.time ∧ v.timeDue = true ∧ v.turn = none ∧ v.dueMoves 0 = []) := by decide +kernel
theorem witness_SequencerEvents_rounds :
    ∀ x ∈ [(someSlot 1 .going, true), (someSlot 9 .going, false), (someSlot 0 (.arrived 0), true)],
       let s := netIn x.1 (.event (.nsqRound 0)) (fun v => { netWith v with slots := [(0, x.1)] }) id
       (decide (x.1.stage = .going ∧ x.1.code ∈ [0x02, 0x04, 0x05, 0x06, 0x07, 0x08, 0x09, 0x10]) = !x.2)
       ∧ (((s.advanceAll 0 [(0, x.1)]).inst 0).map (fun w => decide (w.dueMoves 0 = [])) = some (decide (x.1.stage = .going)))
       ∧ ((s.advanceAll 0 [(0, x.1)]).region 0).isSome = true := by decide +kernel
theorem witness_ChosenTransitionIsEnabled : (netWith (Inst.new 0 0 0 testNet)).choice false = some 0 := by decide +kernel
/-- InstanceEvents: an instance that may retire, one at its deadlock interval whose detector is held and is not, and a mirror whose word is due. -/
theorem witness_InstanceEvents :
    (let v : Inst := { netWith (Inst.new 0 0 0 testNet) with done := some 0, tail := some 0x99 }
     (netIn (someSlot 0 .issued) (.event (.instanceRetire 0)) (fun _ => v) id).mayRetire 0 v (regionWith 0) = true)
    ∧ (∀ b ∈ [true, false], let s := netIn (someSlot 1 .going) (.event (.deadlock 0)) id (fun r => { r with interval := 1, idle := 1, saved := b })
       ∃ v r, s.inst 0 = some v ∧ s.region 0 = some r ∧ r.interval ≠ 0 ∧ r.interval ≤ r.idle ∧ r.traps.length < 256 ∧ s.detectorHeld 0 v r = b)
    ∧ (let m : Mirror := { seen := none, good := false, cell := none, busy := false, asked := false, fault := 0 }
       let v : Inst := { netWith (Inst.new 0 0 0 testNet) with mirrors := [(0, m)] }
       let s := sigTlb (netIn (someSlot 0 .issued) (.event (.mirrorUpdate 0 0)) (fun _ => v) id)
       s.inst 0 = some v ∧ v.mirrors.find? 0 = some m ∧ s.mirrorDue v 0 = true ∧ s.lookWord 0 (v.img.signalVa (pBind 0x10002)) .read = .cell .std 0 0
       ∧ v.img.places[0]? = some 0x10002 ∧ s.insts.risesFrom none = true ∧ s.regions.risesFrom none = true) := by
  refine ⟨by decide +kernel, fun b hb => ⟨_, _, rfl, rfl, ?_⟩, by decide +kernel⟩
  revert b
  decide +kernel
/-- The MT 0.1.0 changed, its context that of instance 0, and what runs. -/
def mtState (f : Elem → Elem) (e : Event) : State := { sigTlb (withElem .gset (regSlot 0) f) with focus := .event e }
/-- The element's queue of accesses. -/
def eqTo (l : List Access) (e : Elem) : Elem := { e with eq := l }
/-- AccessesTravel: a running read stream and a running write stream with a token; a held store of DRAM and a remote one; accesses of DRAM, of the
scratchpad, of the weight store and of a remote module, which may send and may not; a near-bank command and an ingress FIFO before a full and a free command
queue. -/
theorem witness_AccessesTravel :
    (let d : W256 := someDesc
     let s := mtState (genTo (fun g => { g with desc := d, dv := true, state := .running })) (.accessGenerate (elemFor .gset) 0)
     dDcx d = false ∧ (s.gen (elemFor .gset) 0).pos < dCount d ∧ s.mayGenerate (elemFor .gset) 0 = true ∧ dWrite d = false)
    ∧ (let d : W256 := someDesc ||| 1 <<< 218 ||| 1 <<< 227
       let s := mtState (both (heads [(0, 9)]) (genTo (fun g => { g with desc := d, dv := true, state := .running }))) (.accessGenerate (elemFor .gset) 0)
       dDcx d = false ∧ (s.gen (elemFor .gset) 0).pos < dCount d ∧ s.mayGenerate (elemFor .gset) 0 = true ∧ dWrite d = true
       ∧ (s.elem (elemFor .gset)).ctx.ports.head (dPort d) = some (tokOf 9) ∧ (s.gen (elemFor .gset) 0).moved ≠ some s.now)
    ∧ (∀ t ∈ [AccTarget.dram, .remote 3],
       let a := { someAccess .write t with held := true }
       let s := mtState (eqTo [a]) (.accessHold (elemFor .gset) 0 0)
       s.accessAt (elemFor .gset) 0 0 = some a ∧ a.xlat = .untried ∧ s.atHead (elemFor .gset) 0 0 a = true ∧ (s.translate (elemFor .gset) a).1 = .cell .std 0 0
       ∧ (s.elem (elemFor .gset)).ctx.inst = some a.inst)
    ∧ (∀ t ∈ [AccTarget.dram, .spad, .ws, .remote 3],
       let a := someAccess .read t
       let s := mtState (both spadAll (eqTo [a])) (.accessLeave (elemFor .gset) 0 0)
       s.accessAt (elemFor .gset) 0 0 = some a ∧ a.held = false ∧ a.xlat = .untried ∧ s.atHead (elemFor .gset) 0 0 a = true
       ∧ (s.translate (elemFor .gset) a).1 = .cell .std 0 0
       ∧ (t = .spad → s.instrAtBank (elemFor .gset) = false
          ∧ ({ s with spadq := [(spadBank (spadBase (elemFor .gset)), [a])] } : State).instrAtBank (elemFor .gset) = true)) := by decide +kernel
/-- The same of a generator's access, whose bank grants it its turn, and of one that waits for another. -/
theorem witness_AccessesTravel_granted : ∀ b ∈ [true, false],
    let el := elemFor .gset
    let a := { someAccess .read .spad with by_ := .gen el 0 }
    let s0 := mtState (both spadAll (genTo (fun g => { g with state := .running, sq := [a] }))) (.accessLeave el 1 0)
    let s : State := { s0.modElem el (fun e => { e with turn := some 0 }) with spadq := if b then [] else [(spadBank (spadBase el), [someAccess .read .spad])] }
    s.accessAt el 1 0 = some a ∧ a.held = false ∧ a.xlat = .untried ∧ s.atHead el 1 0 a = true ∧ s.streamRange el a = true
    ∧ s.granted el 0 (spadBank (s.spadAt el a.va)) = b := by decide +kernel
theorem witness_AccessesTravel_queues : (({ Pch.reset with ibStd := [someAccess .read .dram] } : Pch).ib .std = [someAccess .read .dram])
    ∧ (∀ b ∈ [true, false], let a := { someAccess (.nbq 3) .nearBank with by_ := .elem (elemFor .nbq) 5 0 1 }
       let s : State := { withElem .nbq (regSlot 0) (eqTo [a]) with focus := .event (.accessLeave (elemFor .nbq) 0 0),
                                                                     pchs := if b then [(0, { Pch.reset with cq := List.replicate 64 (.saved 0) })] else [] }
       s.accessAt (elemFor .nbq) 0 0 = some a ∧ s.atHead (elemFor .nbq) 0 0 a = true ∧ (∀ c ∈ (s.pch a.pch).ingress, c.ofElem (elemFor .nbq) = false)
       ∧ (64 ≤ s.depth 0 ↔ b = true))
    ∧ (let s : State := { inDomain (acting id id) with dom := { (inDomain (acting id id)).dom with sendSeq := [(2 * 65536, 2 ^ 48 - 1)] } }
       s.reachable 2 = true ∧ s.maySend 2 (elDie (elemFor .gset)) = false) := by decide +kernel
/-- AccessesPerformAtTheirCell: an error at the token and none; each kind, each atomic operation and width; the host's writes below, in and above the queue
control blocks. -/
theorem witness_AccessesPerformAtTheirCell :
    (({ mapped State.reset with mem := { (mapped State.reset).mem with dramErr := [0] } } : State).mem.dramErr.contains (cellAt ((someAccess .read .dram).pch, 0) / 32) = true)
    ∧ (mapped State.reset).mem.dram.wf = true ∧ (mapped State.reset).mem.dramErr.contains 0 = false
    ∧ (∀ v ∈ [(0xFFBFFFFE0, false), (0xFFC000000, true), (0xFFC7FFFE0, true), (0xFFC800000, false)],
      let a := { someAccess .write .dram with by_ := .host 0, va := v.1 }
      a.ofHost = true ∧ a.kind = .write ∧ a.bytes = 32 ∧ (someAccess .write .dram).ofHost = false ∧ (0xFFC000000 ≤ a.va ∧ a.va < 0xFFC800000 ↔ v.2 = true) ∧ a.bytes ≤ 32)
    ∧ (∀ w ∈ [8, 16, 32, 64], ∀ u ∈ [true, false], let a := { someAccess (.atomic 0 w u) .dram with bytes := w / 8, data := 0xFF, data2 := 0 }
      a.kind = .atomic 0 w u ∧ a.bytes = w / 8 ∧ a.data.toNat < 2 ^ w ∧ a.data2.toNat < 2 ^ w)
    ∧ (sext 8 0xFF = -1 ∧ sext 8 0x7F = 127 ∧ (min (sext 8 0xFF) (sext 8 0x7F) % 2 ^ 8).toNat = 0xFF) := by decide +kernel
/-- AccessesAreServedAndTokensArrive: an access in service before and at the end of its column step; a circuit before a free place and before four tokens;
a block that is right, one that is not, and one being emitted. -/
def goodBlock : List Byte := [0x42, 0x5A, 1, 7, 32, 0, 0, 0, 4, 0, 0, 0, 0xAA, 0x36, 0x91, 0x8A] ++ List.replicate 16 0
def dcxDesc : W256 := someDesc ||| 1 <<< 226
def decoding (b : List Byte) (l : List (Nat × DcxBuf)) : Elem → Elem := mtTo (fun m =>
  { m with gens := [(0, { Gen.reset with desc := dcxDesc, dv := true, state := .running })], dcx := { m.dcx with bytes := [(0, b)], bufs := l } })
theorem witness_AccessesAreServedAndTokensArrive :
    (∀ n ∈ [25, 26], let a := someAccess .read .dram
      let s : State := { withCtx .gset (regSlot 0) (fun c => { c with flights := [{ someFlight .gld emptySlot 0 .plain with due := none }] }) with now := n, pchs := [(0, { Pch.reset with cq := [.access a], serving := some 0 })], focus := .event (.accessPerform (.pch 0)) }
      (s.pch 0).serving = some 0 ∧ (s.pch 0).turnOf = some (a, []) ∧ (s.performDram a).1 = .done 0 false ∧ (s.elem (elemFor .gset)).ctx.inst = some a.inst
      ∧ (n = 25 → s.now5 < 0 + performAfter a.kind) ∧ (n = 26 → 0 + performAfter a.kind ≤ s.now5)
      ∧ a.by_ = .elem (elemFor .gset) 5 0 1 ∧ a.tgt = .dram ∧ ∃ f ∈ (s.elem (elemFor .gset)).ctx.flights, f.id = 5)
    ∧ (∀ l ∈ [[], [tokOf 1, tokOf 2, tokOf 3, tokOf 4]], ∀ n ∈ [0, 1], ∀ z ∈ [0, 1],
      let c : Circuit := { src := 0, srcPort := 0, dst := some (elemFor .gset), dstPort := 3, via := none, flying := [(0, tokOf 9)], passed := [], inst := 0, sid := 0 }
      let s : State := { withElem .gset (regSlot 0) (fun e => { e with frozen := { trap := z }, ctx := { e.ctx with ports := { e.ctx.ports with inq := [(3, l)] } } }) with
        circs := [(0, c)], focus := .event (.tokenDeliver 0), now := n }
      s.circs.find? 0 = some c ∧ s.linksStopped 0 = false ∧ (s.arrived c = true ↔ n = 1) ∧ (((s.elem (elemFor .gset)).ctx.ports.inq.getD 3 []).length < 4 ↔ l = [])
      ∧ (s.elem (elemFor .gset)).ctx.ports.land.getD 3 [] = [] ∧ s.isFrozen (elemFor .gset) = decide (z = 1)
      ∧ (l ≠ [] → z = 0 → s.canEnter (elemFor .gset) 3 = false))
    ∧ (∀ b ∈ [(goodBlock, true), (List.replicate 32 0, false)], ∀ n ∈ [3, 4],
      let s : State := { mtState (decoding b.1 []) (.dcxBlockCheck (elemFor .gset) 0) with regions := [(0, someRegion)], now := n }
      (s.gen (elemFor .gset) 0).reads = [] ∧ (s.gen (elemFor .gset) 0).state = .running ∧ (s.elem (elemFor .gset)).ctx.mt.dcx.fetched 0 = b.1 ∧ b.1 ≠ [] ∧ b.1.length = 32 * blockTokens b.1
      ∧ decodeBlock 1 b.1 = (if b.2 then .ok (List.replicate 32 0) 7 else .malformed) ∧ (s.elem (elemFor .gset)).ctx.inst = some 0
      ∧ (s.elem (elemFor .gset)).ctx.mt.dcx.bufs.length < 2 ∧ (s.now < (s.elem (elemFor .gset)).ctx.mt.dcx.decodedAt 0 ↔ b.2 = true ∧ n = 3))
    ∧ (let b : DcxBuf := ⟨[1, 2], 7, 0⟩
       let s := mtState (decoding [] [(0, b)]) (.dcxEmit (elemFor .gset) 0)
       (s.elem (elemFor .gset)).ctx.mt.dcx.bufs.find? (fun x => x.1 == 0) = some (0, b) ∧ s.mayStage (elemFor .gset) 0 = true) := by decide +kernel
/-- TranslationEvents: a walk that ends at a leaf and one that ends in a fault with an access waiting; TLBINV.DONE 0 and 1; a refresh window. -/
theorem witness_TranslationEvents :
    ((mapped State.reset).walk 0 0 0 4 = .leaf 2 0x9F ∧ State.reset.walk 0 0 0 4 = .fault 1)
    ∧ (let s := { mtState (eqTo [{ someAccess .read .dram with xlat := .walking }]) (.pageWalk 0 0) with dies := [(0, { Die.reset with walks := [⟨0, 0, 0⟩] })] }
       (s.die 0).walks[0]? = some ⟨0, 0, 0⟩ ∧ (0 : Nat) < 8 ∧ s.faultRoom 0 0 0 (s.waitingKinds 0 0 0) = true ∧ FaultKind.read ∈ s.waitingKinds 0 0 0)
    ∧ State.reset.bar.tlbDone = true ∧ ({ State.reset with bar := { Bar.reset with tlbDone := false } } : State).tlbSettled = true
    ∧ (let s : State := { State.reset with dies := [(0, { Die.reset with phase := 0, wsq := [(15, [someAccess .read .ws])] })] }
       s.wsBusy 0 0 = true ∧ s.wsBusy 0 15 = false ∧ (s.die 0).wsq.getD 15 [] ≠ [] ∧ s.wsRoom 0 = true)
    ∧ (∀ n ∈ [624, 625],
       let a := { someAccess .read .ws with by_ := .elem 5 5 0 1 }
       let b := { someAccess .read .ws with by_ := .elem 9 5 0 1 }
       let s : State := { State.reset with dies := [(0, { Die.reset with phase := 0, wsGot := n, wsLast := 7, wsq := [(14, [a]), (15, [b])] })],
                                            focus := .event (.accessPerform (.ws 0 15)) }
       s.wsNext 0 = some 15 ∧ (s.wsRoom 0 = true ↔ n = 624) ∧ (s.die 0).wsq.getD 15 [] = b :: [] ∧ s.nextAtWs 0 15 = some b ∧ s.nextAtWs 0 14 = some a
       ∧ s.wsBusy 0 14 = false ∧ 14 ∈ (s.die 0).wsq.keys) := by
  decide +kernel
theorem hasFault_replicate {d : Die} {n : Nat} {f : FaultEntry} (h : f.page ≠ 0) (e : d.faults = List.replicate n f) : d.hasFault 0 0 .read = false := by
  rw [Die.hasFault, e, List.any_eq_false]
  intro x hx
  simp [(List.mem_replicate.1 hx).2, h]
/-- TranslationEvents: a fault FIFO with no room for another entry. -/
theorem witness_TranslationEvents_full (f : FaultEntry) (h : f.page ≠ 0) : ({ mtState (eqTo [{ someAccess .read .dram with xlat := .walking }]) (.pageWalk 0 0) with
    dies := [(0, { Die.reset with faults := List.replicate 512 f })] } : State).faultRoom 0 0 0 [.read] = false := by
  have e : (({ mtState (eqTo [{ someAccess .read .dram with xlat := .walking }]) (.pageWalk 0 0) with
    dies := [(0, { Die.reset with faults := List.replicate 512 f })] } : State).die 0).faults = List.replicate 512 f := rfl
  rw [State.faultRoom, e, List.filter_cons_of_pos (by rw [hasFault_replicate h e]; rfl), List.length_replicate]
  rfl

/-! Pseudo-channels, traps, pre-emption -/

/-- Pseudo-channel 0 and the event that befalls it, at an fc. -/
def pchState (n : Nat) (p : Pch) (e : Event) : State :=
  { State.reset with now := n, pchs := [(0, p)], dies := [(0, { Die.reset with phase := 0 })], focus := .event e }
/-- RunsStartSuspendAndEnd: a run and a saved run at the head of an idle queue, within the run limit, behind an earlier one and beyond the limit; a
suspended run that owes an access and one that owes none; EBUF with a token, and an ended run whose EBUF is empty; a segment at and beyond 640 fc. -/
theorem witness_RunsStartSuspendAndEnd :
    (∀ c ∈ [CqEntry.run firstRun, .saved 0], let p : Pch := { Pch.reset with cq := [c], saved := [(0, ⟨firstRun, []⟩)] }
      let s := pchState 0 p (.runStart 0)
      (s.pch 0).cq = [c] ∧ (s.pch 0).run = none ∧ (s.pch 0).free s.now5 = true ∧ (s.pch 0).refDue = false ∧ (s.pch 0).alerts = []
      ∧ (s.pch 0).saved.length < 2 ∧ (s.pch 0).saved.find? 0 = some ⟨firstRun, []⟩ ∧ s.activeRuns (0 / 64) < s.runLimit ∧ s.waitsBefore 0 = false
      ∧ ({ s with pchs := [(0, p), (1, { Pch.reset with limit := some 0 })], now := 1 } : State).waitsBefore 0 = true)
    ∧ (∀ o ∈ [0, 1], let s := pchState 0 { Pch.reset with run := some firstRun, phase := .suspended o false } (.runResume 0)
      (s.pch 0).phase = .suspended o false ∧ (s.pch 0).run = some firstRun ∧ (s.pch 0).free s.now5 = true)
    ∧ (∀ d ∈ [none, some 0], let s : State := { withCtx .nbst emptySlot id with pchs := [(0, { Pch.reset with run := some { firstRun with ebuf := [tokOf 1] }, drained := d })], focus := .event (.ebufDrain 0) }
      s.mayDrain 0 { firstRun with ebuf := [tokOf 1] } = d.isNone
      ∧ ((s.elem (pchBn 0)).ctx.ports.inq.getD firstRun.rport.toNat []).length < 4
      ∧ (s.elem (pchBn 0)).ctx.ports.land.getD firstRun.rport.toNat [] = [])
    ∧ (∀ x ∈ [([], none, 1), ([], some 0, 0), ([tokOf 1], none, 0)], let r : NbRun := { firstRun with ended := some 7, ebuf := x.1 }
       let s := { pchState 0 { Pch.reset with run := some r, drained := x.2.1, freeAt := x.2.2 } (.runEnd 0) with regions := [(0, someRegion)] }
       (s.pch 0).run = some r ∧ s.runAside r = false ∧ (r.ebuf ≠ [] ↔ x.1 ≠ []) ∧ (s.mayDrain 0 r = false ↔ x.2.1 = some 0) ∧ (s.now5 < (s.pch 0).freeAt ↔ x.2.2 = 1))
    ∧ (let r : NbRun := { firstRun with ended := some 7 }
       let s : State := { withCtx .nbst emptySlot id with pchs := [(0, { Pch.reset with run := some r })], focus := .event (.runEnd 0) }
       (s.pch 0).run = some r ∧ r.ebuf = [] ∧ s.mayDrain 0 r = true ∧ (s.pch 0).freeAt ≤ s.now5
       ∧ ((s.elem (pchBn 0)).ctx.ports.inq.getD r.rport.toNat []).length < 4 ∧ (s.elem (pchBn 0)).ctx.ports.land.getD r.rport.toNat [] = [])
    ∧ (let r : NbRun := { firstRun with ended := some 7, ebuf := [tokOf 1] }
       let s := { pchState 0 { Pch.reset with run := some r } (.runEnd 0) with regions := [(0, { someRegion with saved := true })] }
       (s.pch 0).run = some r ∧ s.mayDrain 0 r = false ∧ s.runAside r = true ∧ (s.pch 0).freeAt ≤ s.now5)
    ∧ (∀ n ∈ [640, 641], let s := { pchState n { Pch.reset with run := some firstRun, phase := .running } (.segmentTimeout 0) with regions := [(0, someRegion)] }
       (n = 640 → firstRun.segTime s.now5 ≤ 3200) ∧ (n = 641 → 3200 < firstRun.segTime s.now5 ∧ firstRun.ended = none ∧ (s.pch 0).phase = .running
         ∧ s.region firstRun.inst = some someRegion ∧ someRegion.traps.length < 256)) := by decide +kernel
/-- RefreshAlertsAndPowerStates: every premise on either side of its boundary. -/
theorem witness_RefreshAlertsAndPowerStates :
    (let s := pchState 0 Pch.reset (.refreshDue 0)
     s.refPhase (0 / 64) = 0 % 8 * 780 ∧ (s.pch 0).pwr ≠ 2 ∧ (s.pch 0).lastDue ≠ some s.now ∧ (pchState 5460 Pch.reset (.refreshDue 7)).refPhase 0 = 7 % 8 * 780)
    ∧ (∀ w ∈ [0, 1], let p : Pch := { Pch.reset with refDue := true, pwr := w }
       (w = 0 → p.atGap 0 = true) ∧ (w = 1 → p.wakeAt = none) ∧ ({ p with freeAt := 1, pwr := 0 } : Pch).atGap 0 = false)
    ∧ (∀ w ∈ [true, false], ({ Pch.reset with refEnd := some 2800, fromPd := w } : Pch).refEnd = some 2800)
    ∧ ((pchState 560 Pch.reset (.refreshEnd 0)).now5 = 2800 ∧ (pchState 559 Pch.reset (.refreshEnd 0)).now5 < 2800)
    ∧ (let p : Pch := { Pch.reset with alerts := [16384] }
       p.alerts = 16384 :: [] ∧ p.refDue = false ∧ p.atGap 0 = true)
    ∧ ((pchState 512 Pch.reset (.powerDownEntry 0)).now = Pch.reset.idleAt + 512 ∧ (pchState 512 Pch.reset (.powerDownEntry 0)).now5 = 2560 ∧ Pch.reset.idle 2560 = true
      ∧ Pch.reset.wakeAt = none ∧ Pch.reset.pwr = 0 ∧ Pch.reset.fromPd = false ∧ Pch.reset.refDue = false ∧ (pchState 64000 Pch.reset (.selfRefreshEntry 0)).now = Pch.reset.idleAt + 64000
      ∧ Pch.reset.idle (pchState 64000 Pch.reset (.selfRefreshEntry 0)).now5 = true
      ∧ ((pchState 512 Pch.reset (.powerDownEntry 0)).stk 0).pden = true ∧ ((pchState 64000 Pch.reset (.selfRefreshEntry 0)).stk 0).sren = true
      ∧ ({ Pch.reset with wakeAt := some 12 } : Pch).wakeAt = some 12) := by decide +kernel
/-- A record of a code from a source for CE 0.0.0. -/
def someRecord (code src : Nat) : W256 := trapRecord { code, cause := 0, info := 0 } 0 0 0 src 0 0 0 0
/-- TrapRecordsAreClassified: records of the codes that are handled in their own ways, and of one that is routed, without and with a FAULT place; each mode;
a configuration slot with an owner. -/
def faultNet (v : Inst) : Inst := { v with img := { testNet with places := [0x200000002] } }
theorem witness_TrapRecordsAreClassified :
    (∀ c ∈ [(0x01, 0), (0x04, 0), (0x07, 5), (0x20, 5), (0x10, 0), (0x05, 0)], ∀ b ∈ [true, false],
      let g := fun (r : Region) => { r with badLoad := b, traps := [someRecord c.1 c.2] }
      let s := netIn (someSlot 1 .going) (.event (.trapClassify 0)) id g
      (s.region 0).map (fun r => (r.traps, r.badLoad)) = some ([someRecord c.1 c.2], b) ∧ recCode (someRecord c.1 c.2) = c.1 ∧ recSrc (someRecord c.1 c.2) = c.2
      ∧ s.cmd.mode = .normal ∧ recElem (someRecord c.1 c.2) = 0 ∧ s.regions.risesFrom none = true ∧ s.insts.risesFrom none = true)
    ∧ (0x05 ∉ [0x01, 0x04, 0x06, 0x10, 0x21])
    ∧ ((netIn (someSlot 1 .going) (.event (.trapClassify 0)) id id).faultPlaceOf 0 0 none = none ∧ (regionWith 0).sectOf 0 = some 0)
    ∧ (let s := netIn (someSlot 1 .going) (.event (.trapClassify 0)) faultNet (sectTo (fun y => { y with arms := [⟨0, 1, 0⟩] }))
       s.faultPlaceOf 0 0 none = some 0 ∧ (s.sect 0 0).map (fun y => y.arms) = some [⟨0, 1, 0⟩] ∧ (sectWith 0).elems.any (fun el => (s.elem el).run == 2) = false
       ∧ (∀ el ∈ (sectWith 0).elems, (s.elem el).traps = [] ∧ (s.elem el).saved = []) ∧ (s.inst 0).bind (fun n => n.slots.find? 0) = some (someSlot 1 .going))
    ∧ (let a := { someAccess .read .dram with xlat := .faulted }
       a ∈ ((mtState (eqTo [a]) (.trapClassify 0)).elem (elemFor .gset)).issued ∧ a.inst = 0 ∧ a.ofElem (elemFor .gset) = true ∧ a.xlat = .faulted) := by decide +kernel
/-- TrapRecordsAreClassified: the scrubber's signature, that of the words loaded and another. -/
theorem witness_TrapRecordsAreClassified_scrub :
    ∀ w ∈ [true, false],
       let s0 := { withElem .nop emptySlot id with regions := [(0, someRegion)] }
       let s := { s0 with focus := .event (.scrub 0 0 (.signature (if w then s0.signature 0 else ~~~(s0.signature 0)) false)) }
       (~~~(s.signature 0) ≠ s.signature 0) ∧ ((s.elem 0).cfg.find? 0).isSome = true ∧ s.ownerOf 0 0 = some 0 ∧ 0 + 0 * 2 ^ 32 < 2 ^ 64 ∧ s.region 0 = some someRegion ∧ someRegion.traps.length < 256 := by decide +kernel
/-- A region whose pre-emption the region `1` asks for, beside that region or alone. -/
def askedNet (a : Nat) (f : Region → Region) (alone : Bool) (e : Event) : State :=
  let s := netIn (someSlot (BitVec.ofNat 128 a) .going) (.event e) id (fun r => f { r with preempt := some 1 })
  if alone then s else { s with regions := s.regions ++ [(1, someRegion)] }
/-- PreemptionSavesAndResumes: a request whose asker is there and whose asker has gone; with and without a must-drain firing, and in an fc in which a SWAP
installs and in none. -/
theorem witness_PreemptionSavesAndResumes_accept :
    (∀ a ∈ [0, 0x0F], ((askedNet a id false (.preemptAccept 0)).region 0).map (fun r => (r.preempt, r.saved, r.accepted)) = some (some 1, false, none)
      ∧ ((askedNet a id false (.preemptAccept 0)).region 1).isSome = true ∧ ((askedNet a id false (.preemptAccept 0)).inst 0).isSome = true
      ∧ ((askedNet a id false (.preemptAccept 0)).inst 0).map ((askedNet a id false (.preemptAccept 0)).mustDrainNow 0) = some (decide (a = 0x0F)))
    ∧ (∀ n ∈ [none, some 0], let s := askedNet 0 (sectTo (fun y => { y with swapped := n })) false (.preemptAccept 0)
      (s.region 0).map (s.swapsNow) = some n.isSome)
    ∧ (askedNet 0 id true (.preemptAccept 0)).region 1 = none
    ∧ (let s : State := { askedNet 0 id true (.preemptAccept 0) with colls := [(0, { someColl .bound with paused := true })], pchs := [(0, { Pch.reset with saved := [(1, ⟨firstRun, []⟩)] })] }
       s.region 1 = none ∧ (s.colls.find? 0).map (fun w => w.inst) = some 0 ∧ (s.pch 0).saved.find? 1 = some ⟨firstRun, []⟩ ∧ firstRun.inst = 0) := by decide +kernel
/-- PreemptionSavesAndResumes: accepted, with nothing in flight and with a firing in flight. -/
theorem witness_PreemptionSavesAndResumes_save :
    ∀ f ∈ [[], [someFlight .nop emptySlot 0 .plain]],
      (let s0 := askedNet 0 (fun r => { r with accepted := some 0 }) false (.preemptAccept 0)
       let s : State := { s0 with elems := [(0, { Elem.reset with ctx := { Ctx.reset with inst := some 0, flights := f } })] }
       (s.region 0).map (fun r => (r.accepted, r.saved, s.quiet 0 r 0))) = some (some 0, false, f.isEmpty) := by decide +kernel
/-- PreemptionSavesAndResumes: a saved region whose asker has gone, with a context set aside. -/
theorem witness_PreemptionSavesAndResumes_resume :
    ((askedNet 0 (fun r => { r with saved := true }) true (.contextResume 0)).region 0).map
        (fun r => r.saved && !(askedNet 0 (fun r => { r with saved := true }) true (.contextResume 0)).lostSave 0 r && r.preempts.isNone && r.preempt == some 1 && r.later.isEmpty && decide r.elems.Nodup) = some true
    ∧ ((askedNet 0 id true (.contextResume 0)).region 1).isNone = true
    ∧ (List.find? (fun (x : Nat × Ctx) => x.2.inst == some 0) [(0, { Ctx.reset with inst := some 0 })]).isSome = true := by decide +kernel

/-! Packets, queues and launches -/

/-- A header without flags. -/
def hdr0 : PktHdr := { cmpl := false, irq := false, pre := false, dld := false, tag := 5 }
/-- A queue in hardware slot 0 of die 0, at a stage, with a packet; its table is the root table at PA 0. -/
def hwSlot (st : SlotStage) (i : Instr) : HwSlot :=
  { qcb := 0, head := 0, tail := 8, cur := 0, stage := st, pkt := (encodePacket i).getD [], rw := [0, 0, 2 ^ 58, 0, 0, 0, 2 ^ 48] ++ List.replicate 9 0, byMap := false, since := 0, mark := 0,
    miss := none, held := 0 }
/-- The strip with that queue; something is what runs. -/
def stripIn (h : HwSlot) (fo : Focus) : State :=
  let s := withStage State.reset
  { s with cmd := { s.cmd with slots := [(0, h)] }, focus := fo, bar := { s.bar with okNeg := true, phase := 5, inForce := 0x0100010001000000 } }
/-- A queue whose packet the strip dispatches. -/
def dispatching (i : Instr) : State := stripIn (hwSlot .dispatch i) (.strip 0)
/-- A condition on the word at VA 0x10000 that holds, or does not. -/
def cond (b : Bool) : WaitCond := { va := 0x10000, op := if b then .ne else .eq, value := 0 }
/-- A WAITALL or a WAITANY of two conditions, without a timeout or with one of 1 us. -/
def wait (all : Bool) (d : W32) (a b : Bool) : Instr := if all then .waitall hdr0 d [cond a, cond b] else .waitany hdr0 d [cond a, cond b]
theorem witness_StripReady (i : Instr) (h : (dispatching i).dispatchNext 0 = some 0) : (dispatching i).StripReady 0 (hwSlot .dispatch i) :=
  ⟨rfl, rfl, h⟩
/-- PacketsComplete: NOP, MARKER, TIMED and SIGNAL as the packets that are dispatched; SIGNAL's cell; the launch stage with and without a stale mirror. -/
theorem witness_PacketsComplete_dispatch :
    (dispatching (.pktNop hdr0)).dispatchNext 0 = some 0 ∧ (dispatching (.marker hdr0 7)).dispatchNext 0 = some 0
    ∧ (dispatching (.timed hdr0 3 1 true 1000 0 0x10000 0)).dispatchNext 0 = some 0 ∧ (1000 : W64) ≠ 0
    ∧ (let s := dispatching (.signal hdr0 0x10000 true 5)
       s.vaCell (s.qRoot 0) 0x10000 (.sigw true) = .ok (stdCell 0x10000) ∧ s.vaCell (s.qRoot 0) 0x10000 (.sigw false) = .ok (stdCell 0x10000)
       ∧ s.mem.dramErr.contains (cellAt (stdCell 0x10000) / 32) = false ∧ s.mem.dram.wf = true ∧ s.unoffered = false)
    ∧ (let v := { Inst.new 0 0 0 testNet with mirrors := [(0, { seen := some 0, good := true, cell := some (stdCell 0x10000), busy := false, asked := false, fault := 0 })] }
       { dispatching (.signal hdr0 0x10000 true 5) with insts := [(0, v)] }.unoffered = true) := by decide +kernel
/-- PacketsComplete: every condition, or any, or none holds, at the dependency check, at a reread and at a timeout; a FENCE with and without an earlier
instance of its queue. -/
theorem witness_PacketsComplete_wait :
    (∀ a ∈ [true, false], ∀ b ∈ [true, false], ∀ k ∈ [true, false], ∀ d ∈ [0, 1],
      (let s := stripIn (hwSlot .depend (wait k (BitVec.ofNat 32 d) a b)) (.strip 0)
       s.cmd.slots.find? 0 = some (hwSlot .depend (wait k (BitVec.ofNat 32 d) a b)) ∧ s.serves (hwSlot .depend (wait k (BitVec.ofNat 32 d) a b)) = true
       ∧ s.condsHold 0 [cond a, cond b] = .ok [a, b])
      ∧ (let s := stripIn (hwSlot .waiting (wait k (BitVec.ofNat 32 d) a b)) (.event (.waitConditionReread 0))
         decodePacket (hwSlot .waiting (wait k (BitVec.ofNat 32 d) a b)).pkt = .ok (wait k (BitVec.ofNat 32 d) a b)
         ∧ s.slotWaits 0 (hwSlot .waiting (wait k (BitVec.ofNat 32 d) a b)) = false ∧ s.condsHold 0 [cond a, cond b] = .ok [a, b]))
    ∧ ((1 : W32) ≠ 0 ∧ (hwSlot .waiting (wait true 1 true true)).since + (1 : W32).toNat * 1600 ≤ (1600 : Nat))
    ∧ (∀ st ∈ [SlotStage.depend, .waiting],
       let s := stripIn (hwSlot st (.fence hdr0)) (.strip 0)
       s.fenceDone 0 s.nextId = true ∧ s.fenceDone 0 0 = true ∧ s.serves (hwSlot st (.fence hdr0)) = true
       ∧ { s with regions := [(0, someRegion)], nextId := 1 }.fenceDone 0 1 = false ∧ someRegion.origin < 1) := by decide +kernel
/-- A net image of one place and one transition, at VA 0x20000. -/
def netAt (s : State) : State :=
  ((((((s.paWrite 0x20000 16 (0x4E49 + 2 ^ 16 + 2 ^ 32 + 2 ^ 48 + 2 ^ 64)).paWrite 0x20010 16 0).paWrite 0x20020 16 0x10002).paWrite 0x20030 16 0x1100).paWrite
    0x20040 16 (2 ^ 63 + 0x500)).paWrite 0x20050 16 0)
/-- A queue whose LAUNCH the strip dispatches, with the placement of that image, which has no sections, in the cache. -/
def placed (va : Nat) (s : State) : State :=
  { s with cmd := { s.cmd with cache := match s.fetchNet 0 va with | .ok z => [s.entryOf z [] [0] []] | .error _ => [] } }
def launching (va : W64) : State := placed 0x20000 (netAt (dispatching (.launch hdr0 va 0x100000 0 0 0)))
/-- The request of that LAUNCH. -/
def launchReq (va : Nat) : LaunchReq :=
  { qcb := 0, ring := 0, hdr := hdr0, interval := 0, image := va, root := 0x100000, via := 0, dmask := 0, ndm1 := 0, level := 0, asid := 0, origin := none }
/-- How a launch ends: the new instance, 100 for a wait, 200 and the class for an error. -/
def endOf : LaunchEnd → Nat
  | .made _ i w => if w then 50 else i
  | .wait => 100
  | .error c _ => 200 + c
  | .fault _ => 300
/-- LaunchesMakeInstances: a LAUNCH whose net is placed, one that finds every sequencer of its die held, and one of no image. -/
theorem witness_LaunchesMakeInstances :
    ((launching 0x20000).dispatchNext 0 = some 0 ∧ endOf ((launching 0x20000).tryLaunch (launchReq 0x20000)) = (launching 0x20000).nextId)
    ∧ (let s := { launching 0x20000 with insts := (List.range 8).map (fun n => (n, Inst.new n 0 0 testNet)) }
       s.dispatchNext 0 = some 0 ∧ endOf (s.tryLaunch { launchReq 0x20000 with dmask := 1 }) = 100)
    ∧ ((launching 0x30000).dispatchNext 0 = some 0 ∧ endOf ((launching 0x30000).tryLaunch (launchReq 0x30000)) = 203 ∧ (launching 0x30000).slotOf 0 = some 0) := by
  decide +kernel
/-- LaunchesMakeInstances: the launch stage before and after the pre-emption is accepted; a NETLOAD of a placed net. -/
theorem witness_LaunchesMakeInstances_stages :
    (∀ b ∈ [true, false], let s : State := { stripIn { hwSlot .launch (.launch hdr0 0x20000 0 0 0 0) with mark := 1 } (.strip 0) with
        regions := [(1, { someRegion with saved := b, preempts := if b then some 0 else none })] }
      (s.region 1).map (fun r => (r.saved, r.preempts.isSome)) = some (b, b))
    ∧ (∀ b ∈ [true, false], let s0 := netAt (dispatching (.netload hdr0 0x20000))
       let s := if b then placed 0x20000 s0 else s0
       s.dispatchNext 0 = some 0 ∧ (match s.fetchNet 0 0x20000 with
         | .ok z => (z.check (bits s.bar.inForce 16 8).toNat (s.qSys 0) false (s.stageAt 0 z)).isNone && z.sectObjs.isEmpty
            && (match s.stageWords 0 z z.sectObjs with | .ok l => l.isEmpty | .error _ => false)
            && (match s.cached z [] ((s.pickDies 0 (z.topDie + 1)).getD (List.range (z.topDie + 1))) with | some c => b && decide (c.size ≤ 2 ^ 26) | none => !b)
         | .error _ => false) = true) := by
  decide +kernel
/-- A TAIL child of a retired parent, whose image is the placed net. -/
def childOf : Child :=
  { va := 0x20000, qcb := 0, ring := 0, hdr := { hdr0 with cmpl := true }, interval := 0, root := 0, dmask := 0, ndm1 := 0, level := 0, asid := 0, origin := 0, miss := none }
/-- LaunchesMakeInstances: a child whose parent has gone and one whose parent has not; one that is placed and one that waits. -/
theorem witness_LaunchesMakeInstances_child :
    (∀ b ∈ [true, false], ∀ w ∈ [true, false],
      let n := if w then 8 else if b then 0 else 1
      let s0 := launching 0x20000
      let s := { s0 with cmd := { s0.cmd with children := [(9, childOf)] }, insts := (List.range n).map (fun k => (if k = 0 ∧ b = false then 9 else 10 + k, Inst.new k 0 0 testNet)),
                         focus := .event (.tailChildLaunch 9) }
      s.cmd.children.find? 9 = some childOf ∧ s.childMay 9 childOf = b
      ∧ (b = true → endOf (s.tryLaunch { launchReq 0x20000 with hdr := childOf.hdr, root := 0, level := s.levelOf 0, asid := s.qAsid 0, origin := some 0, dmask := if w then 1 else 0 })
          = (if w then 100 else s.nextId))) := by
  decide +kernel

/-- A queue mapped to slot 0 of die 0, or pending. -/
def kicked (e : Event) (f : Cmd → Cmd) : State := let s := stripIn (hwSlot .fetch (.pktNop hdr0)) (.event e); { s with cmd := f s.cmd }
/-- QueuesAreKickedMappedAndAged: a kick that is taken, that each of its four bars drops, and that waits; the queue of the highest level pending, enabled
and not, with a free slot 0 and 1. -/
theorem witness_QueuesAreKickedMappedAndAged :
    (let s := kicked (.kick 0 0 (9 * 2 ^ 16)) id
     let v : W64 := 9 * 2 ^ 16
     s.hostBusy 0 = false ∧ s.cmd.kicks = [] ∧ s.bar.okNeg = true ∧ s.bar.phase = 5 ∧ (bits v 0 16).toNat / 256 = 0 ∧ bits v 48 16 = 0 ∧ s.slotOf 0 = some 0
     ∧ s.qEn 0 = true ∧ 0 < (bits v 16 32 - (hwSlot .fetch (.pktNop hdr0)).tail).toNat ∧ (bits v 16 32 - (hwSlot .fetch (.pktNop hdr0)).head).toNat = 9
     ∧ (bits v 16 32 - (hwSlot .fetch (.pktNop hdr0)).tail).toNat < 2 ^ 31 ∧ (bits v 16 32 - (hwSlot .fetch (.pktNop hdr0)).head).toNat ≤ 2 ^ (bits (s.qword 0 2) 56 8).toNat
     ∧ (bits (2 ^ 48 : W64) 48 16 ≠ 0) ∧ ({ s with bar := { s.bar with okNeg := false } } : State).bar.okNeg = false)
    ∧ (let a := { someAccess .write .dram with by_ := .host 1 }
       ({ kicked (.kick 1 0 0) id with pchs := [(0, { Pch.reset with ibBar := [a] })] } : State).hostBusy 1 = true
       ∧ ({ kicked (.kick 0 0 0) id with pchs := [(0, { Pch.reset with ibBar := [a] })] } : State).hostBusy 0 = false
       ∧ (kicked (.kick 0 0 0) (fun c => { c with kicks := [(0, 0, 0)] })).cmd.kicks.any (fun k => k.1 == 0) = true)
    ∧ (let s := kicked (.queueMap 0) (fun c => { c with pendmap := [0] })
       s.cmd.mode = .normal ∧ s.nextPending = some 0 ∧ s.qEn 0 = true ∧ (s.cmd.slots.find? 0).isSome = true ∧ s.cmd.slots.find? 1 = none)
    ∧ (let s := kicked (.queueMap 0) (fun c => { c with pendmap := [1], slots := [] }); s.nextPending = some 1 ∧ s.qEn 1 = false ∧ s.cmd.slots.find? 0 = none) := by
  decide +kernel
/-- What an entry launches: the placed net. -/
def someJob : TtJob := { image := 0x20000, root := 0, qcb := 0, hdr := hdr0, ring := 0 }
/-- QueuesAreKickedMappedAndAged: a queue before and at its interval; an entry of the time-triggered table before its slot, at it in another mode, at it
while it waits or its instance runs, under either rule; an entry at whose slot its net is launched. -/
theorem witness_QueuesAreKickedMappedAndAged_time :
    (∀ n ∈ [1599999, 1600000], let h := hwSlot .dispatch (.pktNop hdr0)
      let s0 := stripIn h (.event (.ageing 0))
      let s := { s0 with cmd := { s0.cmd with ages := [(0, 0)] }, now := n }
      s.cmd.ages.find? 0 = some 0 ∧ s.slotOf 0 = some 0 ∧ s.mayAge 0 = true ∧ (s.now < 0 + s.ageInterval 0 ↔ n = 1599999))
    ∧ (∀ r ∈ [0, 1], ∀ n ∈ [0, 1], ∀ w ∈ [true, false],
      let e : TtEntry := { rule := r, period := 1000, start := 0, next := n, job := someJob, skips := 0, queued := if w then some someJob else none, inst := some 0, miss := none }
      let s := { kicked (.ttSlot 3) (fun c => { c with tt := [(3, e)] }) with insts := [(0, Inst.new 0 0 0 testNet)] }
      s.cmd.tt.find? 3 = some e ∧ (e.next ≤ s.ptpNow ↔ n = 0) ∧ s.ttMay e someJob = false ∧ s.ttRuns e = true ∧ s.cmd.errs.find? e.job.qcb = none
      ∧ ({ s with cmd := { s.cmd with mode := .frozen } } : State).cmd.mode ≠ .normal)
    ∧ (let e : TtEntry := { rule := 0, period := 1000, start := 0, next := 0, job := someJob, skips := 0, queued := none, inst := none, miss := none }
       let s0 := launching 0x20000
       let s := { s0 with cmd := { s0.cmd with tt := [(3, e)] }, focus := .event (.ttSlot 3) }
       s.ttRuns e = false ∧ s.cmd.mode = .normal ∧ e.next ≤ s.ptpNow
       ∧ endOf ((s.modCmd (fun c => { c with tt := c.tt.put 3 { e with next := e.next + e.period } })).tryLaunch
          { qcb := e.job.qcb, ring := e.job.ring, hdr := e.job.hdr, interval := 65536, image := e.job.image.toNat, root := e.job.root.toNat,
            via := s.qRoot e.job.qcb, dmask := 0, ndm1 := 0, level := s.levelOf e.job.qcb, asid := s.qAsid e.job.qcb, origin := none }) = s.nextId) := by
  decide +kernel

/-! The recovery mailbox, clock, monitors, power and boot -/

/-- The machine in a phase of its boot and a mode, while something runs. -/
def modState (ph : Nat) (m : Mode) (fo : Focus) : State :=
  { State.reset with focus := fo, bar := { State.reset.bar with phase := ph }, cmd := { State.reset.cmd with mode := m } }
/-- A mapped queue beside the mailbox, in direct mode. -/
def mbState (h : HwSlot) : State :=
  let s := stripIn h .mailbox
  { s with cmd := { s.cmd with mode := .direct } }
/-- MailboxRunsTheModule: each phase and mode that a clause asks for; arguments in and out of range; a free and a taken slot; a slot in its launch stage, one
that is not, with an empty and a non-empty ring; a stopped queue. -/
theorem witness_MailboxRunsTheModule :
    ((modState 15 .normal .mailbox).bar.phase = 15 ∧ (modState 5 .frozen .mailbox).MailboxReady ∧ (modState 5 .normal .mailbox).MailboxReady
      ∧ (modState 5 .direct .mailbox).cmd.mode = .direct)
    ∧ (let s := modState 5 .direct .mailbox
       s.slotOf 65535 = none ∧ s.cmd.slots.find? (15 * 64 + 63) = none ∧ (65535 : W64).toNat < 65536 ∧ (15 : W64).toNat < 16 ∧ (63 : W64).toNat < 64
       ∧ 65536 ≤ (65536 : W64).toNat ∧ 16 ≤ (16 : W64).toNat ∧ 64 ≤ (64 : W64).toNat)
    ∧ (∀ st ∈ [SlotStage.launch, .dispatch, .stopped],
       let s := mbState (hwSlot st (.pktNop hdr0))
       s.cmd.slots.find? ((0 : W64).toNat * 64 + (0 : W64).toNat) = some (hwSlot st (.pktNop hdr0)) ∧ s.cmd.slots.risesFrom none = true ∧ s.slotOf 0 = some 0
       ∧ (hwSlot st (.pktNop hdr0)).head ≠ (hwSlot st (.pktNop hdr0)).tail ∧ 6 < (hwSlot st (.pktNop hdr0)).rw.length)
    ∧ (24 ≤ (24 : W64).toNat ∧ (23 : W64).toNat < 24 ∧ 1 < (2 : W64).toNat ∧ (1 : W64).toNat = 1) := by
  refine ⟨⟨rfl, ⟨rfl, by decide⟩, ⟨rfl, by decide⟩, rfl⟩, ?_⟩
  decide +kernel
/-- One instance of ASID 0 and its region, which has handed out k of its records, beside the mailbox. -/
def oneRegion (k : Nat) (l : List W256) : State :=
  { modState 5 .normal .mailbox with insts := [(0, Inst.new 0 0 0 testNet)], regions := [(0, { regionWith 0 with traps := l, given := k })] }
/-- A fault FIFO with one entry, handed out or not. -/
def faultState (g : Bool) : State :=
  { modState 5 .normal .mailbox with dies := [(2, { Die.reset with faults := [{ num := 0, asid := 0, page := 1, kind := .read, cause := 0, given := g }] })] }
/-- MailboxRecoversRegions: an ASID without and with a region; without a record, with one that is the next and one that has been handed out; an empty fault
FIFO and one with an entry. -/
theorem witness_MailboxRecoversRegions :
    (oneRegion 0 []).MailboxReady ∧ (oneRegion 0 []).regionsOf 1 = [] ∧ (oneRegion 0 []).regionsOf 0 = [0] ∧ (oneRegion 0 []).insts.risesFrom none = true
    ∧ (oneRegion 0 []).regions.risesFrom none = true ∧ (∀ el ∈ (regionWith 0).elems, (((oneRegion 0 []).elem el).takeBkpts 0).1 = 0)
    ∧ [someRecord 4 0][(0 : Nat)]? = some (someRecord 4 0) ∧ [someRecord 4 0].length ≤ 1
    ∧ ((faultState false).faultList.find? (fun x => !x.2.given)).isSome = true ∧ (faultState false).dies.risesFrom none = true
    ∧ (∀ x ∈ (faultState true).faultList, x.2.given = true) ∧ (faultState true).MailboxReady := by
  refine ⟨⟨rfl, by decide⟩, ?_, ?_, ?_, ?_, ?_, ?_, ?_, ?_, ?_, ?_, ⟨rfl, by decide⟩⟩ <;> decide +kernel
/-- MailboxRunsTheModule: RESTART in another mode than the normal one, with an entry that the host has been given and one that it has not. -/
theorem witness_MailboxRunsTheModule_restart : ∀ g ∈ [true, false], ∀ m ∈ [Mode.frozen, .direct],
    let s := { faultState g with cmd := { (faultState g).cmd with mode := m } }
    s.focus = .mailbox ∧ s.bar.phase ≠ 15 ∧ s.cmd.mode ≠ .normal ∧ ((∀ x ∈ s.faultList, x.2.given = true) ↔ g = true) := by decide +kernel
/-- MailboxRecoversRegions: FAULTDONE of an entry that was handed out, and of none; the entry's word is the model's free layout (log 26). -/
theorem witness_MailboxRecoversRegions_fault (e : W64) :
    (∀ x ∈ State.reset.faultList, x.2.given = true → x.2.word 0 ≠ e)
    ∧ ∃ d f, (faultState true).faultList.find? (fun x => x.2.given && x.2.word 0 == f.word 0) = some (d, f) := by
  refine ⟨fun x h => absurd h (by simp [State.faultList, State.reset]), 2, { num := 0, asid := 0, page := 1, kind := .read, cause := 0, given := true }, ?_⟩
  simp [State.faultList, faultState, modState]
/-- ClockAndWatchdog: PTPSET given or not, an edge that is near and one that is far, one second and two without an edge; each mode; a watchdog before and
at its limit; a clock a second after its last edge, and the edge that follows reset. -/
theorem witness_ClockAndWatchdog :
    (∀ n ∈ [1600000000, 1600002000], let s : State := { State.reset with now := n, ptp := { State.reset.ptp with edge := some 0 }, focus := .event .ppsEdge }
      s.ptp.setp = false ∧ s.ptp.edge = some 0 ∧ (((s.ptp.sec + 1000000000 : Int) - s.ptpNow).natAbs ≤ 1000 ↔ n = 1600000000))
    ∧ State.reset.ptp.edge = none ∧ State.reset.ptp.setp = false ∧ (∀ b ∈ [true, false], ({ State.reset.ptp with valid := b } : Ptp).valid = b)
    ∧ (let s : State := { State.reset with now := 1600000000, ptp := { State.reset.ptp with base := 1000, slew := -1000 } }
       s.ptp.at_ + 1600000000 ≤ s.now ∧ s.now + 8 * 2 ^ 50 < 2 ^ 62 ∧ s.ptp.base < 2 ^ 62 ∧ s.ptp.slew.natAbs ≤ 1000 ∧ 1000 ≤ s.ptp.base)
    ∧ (∀ n ∈ [3199999999, 3200000000], let s : State := { State.reset with now := n, ptp := { State.reset.ptp with edge := some 0 }, focus := .event .ppsLoss }
      (s.now < 0 + 3200000000 ↔ n = 3199999999))
    ∧ (∀ n ∈ [15999999, 16000000], let s : State := { modState 5 .normal (.event .watchdog) with now := n, regions := [(0, someRegion)] }
      (s.now < s.cmd.dog + 16000000 ↔ n = 15999999) ∧ s.bar.phase = 5 ∧ s.cmd.dogFired = false ∧ s.regions.risesFrom none = true ∧ s.cmd.mode = .normal
      ∧ s.region 0 = some someRegion ∧ (∀ x ∈ s.regions, x.2.traps.length < 256))
    ∧ (modState 5 .frozen (.event (.heartbeatCheck true))).cmd.mode ≠ .normal ∧ ({ State.reset.ptp with setp := true } : Ptp).setp = true := by
  decide +kernel
/-- A state of the monitors, at an fc. -/
def monState (n : Nat) (f : Mon → Mon) (e : Event) : State :=
  { modState 5 .normal (.event e) with now := n, mon := f State.reset.mon }
/-- MonitorsAndLifetimeRecords: an MHU that is enabled and one that is not, linear and logarithmic, sampling 0, 1, a power of two, the greatest and a value
that saturates; a record of the asked age and none; an hour that has passed and one that has not. -/
theorem witness_MonitorsAndLifetimeRecords :
    (∀ b ∈ [0, 2 ^ 63, 2 ^ 63 + 2 ^ 62 + 3], let s := monState 0 (fun m => { m with mhus := [(65, { Mhu.reset with cfg := BitVec.ofNat 64 b })] }) (.mhuSample 1 1 7)
      (s.mhu (1 * 64 + 1)).cfg.getLsbD 63 = decide (b ≠ 0) ∧ (s.mhu (1 * 64 + 1)).cfg.getLsbD 62 = decide (b = 2 ^ 63 + 2 ^ 62 + 3))
    ∧ (∀ w ∈ [(0, 0), (1, 0), (2, 1), (3, 1), (2 ^ 31, 31), (2 ^ 32 - 1, 31)], w.1 = 0 ∨ (2 ^ w.2 ≤ w.1 ∧ w.1 < 2 ^ (w.2 + 1)))
    ∧ (min (2 ^ 40) (2 ^ 32 - 1) = 2 ^ 32 - 1)
    ∧ ((monState 0 (fun m => { m with fetching := true }) .ltwinReady).mon.recs.length ≤ (monState 0 (fun m => { m with fetching := true }) .ltwinReady).mon.age.toNat)
    ∧ (Mhu.reset.fresh = [] ∧ ({ Mhu.reset with fresh := [3, 7] } : Mhu).fresh = [3] ++ [7])
    ∧ (∀ n ∈ [5759999999999, 5760000000000], let s := monState n id .lifetimeRecord
      (s.mon.hour < s.now / 5760000000000 ↔ n = 5760000000000) ∧ s.bar.phase = 5 ∧ s.cmd.mode = .normal)
    ∧ ((15 : W64).getLsbD 3 = true ∧ (15 : W64).getLsbD 4 = false ∧ (3 * 64 + 3) / 64 = 3) := by
  decide +kernel
/-- MonitorsAndLifetimeRecords: the record of age 0, once an hour has written one. -/
theorem witness_MonitorsAndLifetimeRecords_record :
    (match exec .lifetimeRecord (monState 5760000000000 id .lifetimeRecord) with
      | .next t => (t.mon.recs[t.mon.age.toNat]?).isSome | _ => false) = true := by decide +kernel
/-- PowerBootAndNegotiation: before and at 100 us; hot, over the LIMIT and under it, at level 0 and 15, at the hundredth in a row over it; each phase;
the versions and others, with and without an instance. -/
theorem witness_PowerBootAndNegotiation :
    (∀ n ∈ [159999, 160000], ({ State.reset with now := n }.now < State.reset.bar.measured + 160000 ↔ n = 159999))
    ∧ (∀ ph ∈ [0, 3, 4, 5, 15], (modState ph .normal (.event (.boot true))).bar.phase = ph)
    ∧ (bits (0x0100010001000000 : W64) 16 48 = 0x010001000100#48 ∧ bits (0x0100010001010000 : W64) 16 48 ≠ 0x010001000100#48 ∧ State.reset.insts = []
      ∧ (oneRegion 0 []).insts ≠ [])
    ∧ (State.reset.bar.hot = false ∧ State.reset.bar.capEn = false ∧ State.reset.bar.overFor < 99
      ∧ ({ State.reset.bar with cap := 1500, capEn := true, level := 15, overFor := 99 } : Bar).cap.toNat < [8000].sum / 1) := by
  decide +kernel

/-! Registers and host accesses, links, the trust domain and collectives -/

/-- RegistersAndHostAccesses: a place that is no register and each register that a clause names; accesses at the ends of the BARs. -/
theorem witness_RegistersAndHostAccesses :
    (regFor 0x300 4 = none ∧ regFor 0x30 8 = none ∧ (∀ o ∈ [0x30, 0x100, 0x104, 0x108, 0x1F4], (regFor o 4).isSome = true) ∧ regFor 0xF00008 8 = some (0xF00008, 8)
      ∧ regFor 0xF00020 8 = some (0xF00020, 8) ∧ regFor 0x30 4 = some (0x30, 4) ∧ (0x30 ≠ 0x48 ∧ 0x30 ≠ 0x70 ∧ 0x30 < 0x100))
    ∧ ((2 ^ 40 - 32 + 32 ≤ 2 ^ 40 ∧ (2 ^ 40 - 32) % 32 + 32 ≤ 32) ∧ 2 ^ 40 < 2 ^ 40 - 31 + 32 ∧ 2 ^ 26 < 2 ^ 26 - 7 + 8 ∧ 2 ^ 25 ≤ 2 ^ 25
      ∧ (1 : Nat) ∉ [0, 2, 4])
    ∧ (let a : HostAccess := { req := 3, bar := 2, off := 24, width := 64, write := none }
       0 < a.width ∧ a.bar = 2 ∧ a.off + a.width ≤ 2 ^ 40 ∧ a.write = none ∧ 32 < a.off % 32 + a.width) := by decide
/-- R327: the parts of a host read of three tokens, at their places in it. -/
theorem test_host_read_across_tokens : (match exec .hostBarAccess { State.reset with focus := .event (.hostBarAccess { req := 3, bar := 2, off := 24, width := 64, write := none }) } with
  | .next t => ((t.pchs.vals.flatMap (fun q => q.ibBar)).map (fun a => (a.bytes, a.data.toNat, a.by_ == .host 3)))
  | _ => []) = [(8, 0, true), (32, 8, true), (24, 40, true)] := by decide +kernel
/-- A port in a state, with a flit that failed n times in a row. -/
def linkState (st n : Nat) (e : Event) : State :=
  { State.reset with ports := [(3, { State.reset.port 3 with state := BitVec.ofNat 2 st, tries := n, rb := [9] })], focus := .event e }
/-- FIPS 202: SHAKE256 of nothing. -/
theorem test_shake256 : leNat (shake256 []).reverse = 0x46B9DD2B0BA88D13233B3FEB743EEB243FCD52EA62B81B82B50C27646ED5762F := by decide +kernel
/-- GCM's test cases 13 and 14 (AES-256, a key and an IV of zeros): the tag of nothing; a block of zeros and its tag. -/
theorem test_gcm : let ks := keySchedule (List.replicate 32 0)
    leNat (gcmTag ks 0 [] []).reverse = 0x530F8AFBC74536B9A963B4F1C4CB738B ∧ leNat (gcmCrypt ks 0 (List.replicate 16 0)).reverse = 0xCEA7403D4D606B6E074EC5D3BAF39D18
    ∧ leNat (gcmTag ks 0 [] (gcmCrypt ks 0 (List.replicate 16 0))).reverse = 0xD0D1C8A799996BF0265B98B5D48AB919 := by decide +kernel
/-- The worked packet of 28_program_allreduce.md: its header, its IV, and its two flits, of which the tag word's first byte is 0x03. -/
theorem test_packet_header :
    let p : Packet := { seq := 2, circ := 0x142, kgen := 3, type := 0, dst := 0x13, src := 0x12, ver := 3, payload := [{ ct := .data, ft := 3, data := 9 }], word := 0 }
    packetHeader p = 0x00000000000201420301001300012346 ∧ packetIv p.seq p.circ p.src p.dst = 0x000000000002014204813000
    ∧ (sealPacket [] p).length = 128 ∧ (packetBody (wireToks p)).length = 40 ∧ (packetBody (wireToks p))[32]? = some 3 := by decide +kernel
/-- A packet of DEVID 2 on load/store circuit 2 in sequence, in a TYPE and with a word. -/
def somePacket (w : W128) : Packet :=
  { seq := 0, circ := 2, kgen := 0, type := 1, dst := 1, src := 2, ver := 3, payload := [], word := w }
/-- A module in a domain with DEVID 2, by a session whose secret is empty. -/
def withPeer : State := { inDomain (mapped State.reset) with dom := { (inDomain (mapped State.reset)).dom with pairs := [2], secrets := [(2, [])] } }
/-- A packet as DEVID 2 sends it. -/
def sentBy2 (p : Packet) : List Byte := sealPacket (withPeer.linkKey 2 p.src p.dst) p
/-- That module as bytes come in at GW 0.0.0. -/
def packetState (b : List Byte) : State := { withPeer with focus := .event (.fjoisPacketReceive (elemId .gw 0 0 0) b) }
/-- LinksPacketsAndMembership: a link that is down, up and up at its sixteenth failure, the same flit and another; every offer; a packet in sequence and
one with each of its three faults; domains of two to sixty-four members, formed and entered. -/
theorem witness_LinksPacketsAndMembership :
    (∀ n ∈ [0, 15, 16], ((linkState 2 n (.linkReplay 3 9)).port 3).state = 2 ∧ ((linkState 2 n (.linkReplay 3 9)).port 3).rb.head? = some 9
      ∧ ((linkState 2 n (.linkReplay 3 9)).port 3).tries = n ∧ ((linkState 2 n (.linkReplay 3 9)).port 3).rb.head? ≠ some 8)
    ∧ (∀ st ∈ [0, 1, 2, 3], (2 ≤ ((linkState st 0 (.linkReplay 3 9)).port 3).state.toNat ↔ 2 ≤ st))
    ∧ (({ v2 := true, v3 := true, lanes := 4 } : LinkOffer).lanes.val ≠ 0 ∧ ({ v2 := true, v3 := true, lanes := 0 } : LinkOffer).lanes.val = 0)
    ∧ (let p := somePacket (32 * 2 ^ 56 + 0x10000)
       let b := sentBy2 p
       let s := packetState b
       s.unseal b = (p, true)
       ∧ s.dom.members ≠ [] ∧ p.circ.toNat < 16 ∧ p.src.toNat * 65536 + p.circ.toNat ∉ s.dom.closed ∧ s.recvCirc (elemId .gw 0 0 0) p = none
       ∧ p.seq.toNat = s.dom.recvSeq.getD (p.src.toNat * 65536 + p.circ.toNat) 0 ∧ p.kgen.toNat = s.dom.gen % 256 ∧ p.type = 1
       ∧ bits p.word 96 32 = 0 ∧ (bits p.word 56 8).toNat = 32
       ∧ (∀ q ∈ [{ p with seq := 1 }, { p with kgen := 1 }], withPeer.unseal (sentBy2 q) = (q, true))
       ∧ (withPeer.unseal (b.set 30 (~~~ (b.getD 30 0)))).2 = false)
    ∧ (∀ n ∈ [1, 63, 64], let l := (List.range n).map (· + 2)
       (l.filter (fun d => d != 1) ≠ [] ∧ (l.filter (fun d => d != 1)).length = n) ∧ (1 : BitVec 10).toNat = 1)
    ∧ (1 : W32) ≠ 0 ∧ (let s := packetState []
       s.dom.members ≠ [] ∧ (3 : BitVec 10).toNat ∉ s.dom.members ∧ s.dom.members.length < 64 ∧ (2 : BitVec 10).toNat ≠ s.dom.self.toNat
       ∧ 2 ≤ (s.dom.members.filter (· != (3 : BitVec 10).toNat)).length ∧ State.reset.dom.members = []) := by decide +kernel
/-- LinksPacketsAndMembership: a remote read's page, where the peer's table is the one at PA 0; where it lies is free (log 24). -/
theorem witness_LinksPacketsAndMembership_page (h : Config.domainRoot 2 = 0) :
    let s := packetState (sentBy2 (somePacket (32 * 2 ^ 56 + 0x10000)))
    ∃ size e ap c off, s.walk (bits (somePacket (32 * 2 ^ 56 + 0x10000)).word 0 56).toNat 0 (Config.domainRoot (somePacket 0).src.toNat) 4 = .leaf size e
      ∧ e.getLsbD 7 = true ∧ checkLeaf .read size e (bits (somePacket (32 * 2 ^ 56 + 0x10000)).word 0 56).toNat = .cell ap c off := by
  have d : (somePacket 0).src.toNat = 2 := by decide
  rw [d, h]
  exact ⟨2, 0x9F, .std, (stdCell 0x10000).1, (stdCell 0x10000).2, by decide +kernel⟩
/-- A collective instance of a stage changed, whose COLL is in flight in firing slot 0 of instance 0, as an event befalls it. -/
def collState (f : Coll → Coll) (e : Event) : State :=
  { inDomain (acting id id) with colls := [(0, f { someColl .bound with slot := some 0 })], focus := .event e }
/-- CollectiveEvents: the instance that each clause asks for: bound and binding, with a timer that runs and one that has run out, paused under a lease that
has run out and one that has not, asked and not; ranks whose circuits match and that do not. -/
theorem witness_CollectiveEvents :
    (∀ st ∈ [CollStage.bound, .binding], ∀ t ∈ [some 0, some 5], ∀ b ∈ [true, false],
      let v : Coll := { someColl st with slot := some 0, timer := t, asked := b }
      (collState (fun _ => v) (.stepTimeout 0)).colls.find? 0 = some v ∧ v.isAborted = false ∧ (collState (fun _ => v) (.stepTimeout 0)).slot v.inst 0 = some (someSlot 0 .issued)
      ∧ v.alg ≠ 0 ∧ List.find? (fun (x : Nat × Nat) => x.2 == 2) v.ranksAt = some (1, 2))
    ∧ (∀ n ∈ [1023, 1024], let v : Coll := { someColl .bound with held := true, paused := true, lease := 1, used := n }
      v.isPaused = true ∧ v.isAborted = false ∧ (v.used < v.lease.toNat * 1024 ↔ n = 1023) ∧ (collState (fun _ => { v with slot := some 0 }) (.leaseExpire 0)).slot v.inst 0
        = some (someSlot 0 .issued))
    ∧ (∀ l ∈ [([], true), ([(true, 0, 4)], false)],
      let v : Coll := { someColl .binding with slot := some 0, timer := some 0, asked := true, alg := 0 }
      let s0 := collState (fun _ => v) (.bindTimeout 0)
      let s : State := { s0 with dom := { s0.dom with heard := [{ dev := 2, gid := 7, rank := 1, ranks := 2, circs := l.1, total := l.1.length }] } }
      s.colls.find? 0 = some v ∧ s.slot v.inst 0 = some (someSlot 0 .issued) ∧ v.alg = 0 ∧ circsMatch (s.ownAnnounce v :: s.heardOf v.gid) = l.2) := by
  decide +kernel

/-! The whole machine -/

/-- StepRunsTheDecodedInstruction: an element whose slot 0 is ready and its picker's turn; a run, a firing, a packet and a mailbox command that decode;
an fc that owes nothing. -/
theorem witness_StepRunsTheDecodedInstruction :
    (let s := withElem .add (regSlot 0) id
     let w := encodeSlot .add (regSlot 0)
     s.mayPick (elemFor .add) = true ∧ s.leader (elemFor .add) = none ∧ (s.elem (elemFor .add)).rec? = some (oneSlot w) ∧ (oneSlot w).hdr.getLsbD 96 = true
     ∧ (oneSlot w).slots.find? 0 = some w ∧ decodeElem w = .ok (Op.add.instr (regSlot 0)) ∧ decodeSlot w = .ok (.add, regSlot 0)
     ∧ s.mayIssue (elemFor .add) 0 .add (regSlot 0) = true)
    ∧ (let s := inRun id
       (s.pch 0).run.isSome = true ∧ decodeMicro ((s.pch 0).is.getD firstRun.mpc 0x44000000#32) = .ok .halt)
    ∧ ((acting id id).slot 0 0 = some (someSlot 0 .issued) ∧ decodeAction (someSlot 0 .issued).act = .ok .netNop)
    ∧ ((dispatching (.pktNop hdr0)).cmd.slots.find? 0 = some (hwSlot .dispatch (.pktNop hdr0)) ∧ decodePacket (hwSlot .dispatch (.pktNop hdr0)).pkt = .ok (.pktNop hdr0))
    ∧ decodeMailbox 0x0B (7 : W64) 1 0 = .ok (.setsys 7 1)
    ∧ State.reset.owes = none := by decide +kernel
/-- ElementWordsRoundTrip: a word that decodes and one of each kind that is refused. -/
theorem witness_ElementWordsRoundTrip :
    decodeSlot 0#128 = .ok (.nop, { emptySlot with dst := .d 0, sa := .d 0, sb := .d 0, sc := .d 0 })
    ∧ (∀ o : Op, o.code ≠ (bits (0xFF000000000#128) 36 8).toNat) ∧ bits (3#128 <<< 16) (16 + 3 * 0) 3 = 3 ∧ (1#128 <<< 80).getLsbD 83 = false
    ∧ bits (1#128 <<< 80) 80 3 ≠ 0 := by
  refine ⟨by decide, fun o => ?_, by decide, by decide, by decide⟩
  cases o <;> decide
/-- MicroActionAndPacketWordsRoundTrip: a word of each kind, and one of each that is refused. -/
theorem witness_MicroActionAndPacketWordsRoundTrip :
    encodeMicro .halt = some 0x44000000 ∧ microOk .halt = true ∧ decodeMicro 0x44000000 = .ok .halt ∧ 0x16 ≤ (bits (0x58000000 : W32) 26 6).toNat
    ∧ encodeAction .netNop = some 0 ∧ 0x18 ≤ (bits (0x18 : W128) 0 8).toNat ∧ encodePacket (.pktNop hdr0) = some [0x50000, 0, 0, 0, 0, 0, 0, 0]
    ∧ packetOk (.pktNop hdr0) = true ∧ 0x09 ≤ (bits (List.headD [(9 : W64)] 0) 0 8).toNat := by decide +kernel
/-- StepKeepsTablesSound, StepKeepsMemoryCanonical: reset meets both, and takes a step. -/
theorem witness_StepKeeps : State.reset.Sound ∧ State.reset.mem.wf = true ∧ (match step State.reset with | .next _ => true | _ => false) = true := by
  refine ⟨⟨?_, ?_, ?_, ?_, ?_, ?_⟩, ?_, ?_⟩ <;> decide +kernel
/-- IssueLeavesDramAndWeights: a store that issues. -/
theorem witness_IssueLeavesDramAndWeights : (match exec (.sts (regSlot 0)) (withElem .sts (regSlot 0) id) with | .next _ => true | _ => false) = true := by
  decide +kernel

end Sys2Proof.Tests
end

section
/-!
PROOF. What the core instruction classes share: the MOD bits that a word may set, the ways in which a value of the operands completes (lane by lane,
whole, as a mask), and what tokens a firing emits.
-/
namespace Sys2Proof.Machine

/-! ### Words that pass R78's table -/

/-- A word that passes the table keeps the MOD rules of its instruction and the rules of its class (R74, R130). -/
theorem wordRow_none {o : Op} {x : Slot} (h : wordRow o x = none) : modOk o x = true ∧ classWordOk o x = true := by
  simp only [wordRow, ite_eq_iff, reduceCtorEq, and_false, false_or, Bool.or_eq_true, Bool.not_eq_true', not_or, Bool.not_eq_false] at h
  obtain ⟨-, -, -, -, -, -, -, -, -, hmod, ⟨⟨-, hclass⟩, -⟩, -⟩ := h
  exact ⟨hmod, hclass⟩

/-- The MOD bit that selects a counter, in the classes that may name one as DST (R70). -/
def counterBit (o : Op) : Nat := if opClass o == 0 || opClass o == 2 then 0x40 else 0

/-- A word that passes the table sets no MOD bit but those that its instruction defines and the counter select (R74). -/
theorem modBit_of_wordRow {o : Op} {x : Slot} {b : Nat} (h : wordRow o x = none) (hb : b < 7) (hlt : modMask o x < 128)
    (hm : (modMask o x ||| counterBit o).testBit b = false) : x.mod.getLsbD b = false := by
  have hok := (wordRow_none h).1
  simp only [modOk, Bool.and_eq_true, beq_iff_eq] at hok
  obtain ⟨⟨hz, -⟩, -⟩ := hok
  rw [Nat.testBit_or, Bool.or_eq_false_iff] at hm
  obtain ⟨hmask, hcounter⟩ := hm
  obtain ⟨k, hk⟩ : ∃ k, k = if (opClass o == 0 || opClass o == 2) = true ∧ x.dst = .k then 0x40 else 0 := ⟨_, rfl⟩
  have hkb : k.testBit b = false := by
    rw [hk]
    split
    · next hc => simpa [counterBit, hc.1] using hcounter
    · exact Nat.zero_testBit b
  have hN : modMask o x ||| k < 2 ^ 7 := Nat.or_lt_two_pow hlt (by rw [hk]; split <;> decide)
  rw [← hk, show 0x7F - (modMask o x ||| k) = 2 ^ 7 - ((modMask o x ||| k) + 1) by omega] at hz
  have hbit := congrArg (fun n => n.testBit b) hz
  simp only [Nat.testBit_and, Nat.testBit_two_pow_sub_succ hN, Nat.testBit_or, hmask, hkb, hb] at hbit
  simpa [BitVec.getLsbD] using hbit

/-- The MOD bits of an instruction whose mask does not depend on the word. -/
theorem modWithin_of_mask {o : Op} {mask m : Nat} (hm : ∀ x, modMask o x = m) (hlt : m < 128 := by decide)
    (hs : ∀ b < 7, mask.testBit b = false → (m ||| counterBit o).testBit b = false := by decide) : ModWithin o mask := fun x b hw hb hmb =>
  modBit_of_wordRow hw hb (by rw [hm]; exact hlt) (by rw [hm]; exact hs b hb hmb)

/-- The same of instructions that share a mask. -/
theorem modWithin_of_masks {l : List Op} {mask m : Nat} (hm : ∀ o ∈ l, ∀ x, modMask o x = m) (hlt : m < 128 := by decide)
    (hs : ∀ o ∈ l, ∀ b < 7, mask.testBit b = false → (m ||| counterBit o).testBit b = false := by decide) : ∀ o ∈ l, ModWithin o mask :=
  fun o ho => modWithin_of_mask (hm o ho) hlt (hs o ho)

/-! ### Values of operands -/

/-- Lanes built from functions that agree on them are the same value. -/
theorem ofLanes_congr {w n : Nat} {f g : Nat → Nat} (h : ∀ l, l < n → f l = g l) : ofLanes w n f = ofLanes w n g := by
  unfold ofLanes
  rw [List.map_congr_left fun l hl => h l (List.mem_range.1 hl)]

/-- An instruction whose result is built lane by lane completes with those lanes and RC NZ(result) (R97). -/
theorem Gives.of_lanes {o : Op} {lat : Slot → Opnds → Nat} {ok : Slot → Opnds → Prop} {F : Slot → Opnds → Nat → Nat} (f : PureFn)
    (hb : ∀ x i, ok x i → ∀ l, l < 256 / slotW x → F x i l < 2 ^ slotW x)
    (he : ∀ x s, exec (o.instr x) s = firePure o x s f := by intros; rfl) (hd : opDst o = .result := by rfl)
    (hl : ∀ x i, ok x i → opLat o x (slotLanes o x i.fmttab) = lat x i := by intros; rfl)
    (hv : ∀ x i, ok x i → f x i = okNz (ofLanes (slotW x) (256 / slotW x) (F x i)) := by intros; rfl) : Gives o lat ok (LanesNz F) :=
  .of_pure f he hd hl fun x i hok => by
    rw [hv x i hok]
    exact lanesNz_of F x i (F x i) fun l hl => ⟨rfl, hb x i hok l hl⟩

/-- An instruction whose result is one value of 256 bits completes with it and RC NZ(result). -/
theorem Gives.of_whole {o : Op} {lat : Slot → Opnds → Nat} {ok : Slot → Opnds → Prop} {F : Slot → Opnds → W256} (f : PureFn)
    (he : ∀ x s, exec (o.instr x) s = firePure o x s f := by intros; rfl) (hd : opDst o = .result := by rfl)
    (hl : ∀ x i, ok x i → opLat o x (slotLanes o x i.fmttab) = lat x i := by intros; rfl)
    (hv : ∀ x i, ok x i → f x i = okNz (F x i) := by intros; rfl) : Gives o lat ok (WholeNz F) :=
  .of_pure f he hd hl fun x i hok => ⟨_, hv x i hok, rfl, rfl, rfl⟩

/-- Gives.of_pure for every other shape of value and condition, its routine premises by computation. -/
theorem Gives.of_val {o : Op} {lat : Slot → Opnds → Nat} {ok : Slot → Opnds → Prop} {P : Slot → Opnds → W256 → Bool → Prop}
    (f : PureFn) (hf : ∀ x i, ok x i → ∃ r, f x i = .ok r ∧ r.srng = none ∧ P x i r.val r.rc)
    (he : ∀ x s, exec (o.instr x) s = firePure o x s f := by intros; rfl) (hd : opDst o = .result := by rfl)
    (hl : ∀ x i, ok x i → opLat o x (slotLanes o x i.fmttab) = lat x i := by intros; rfl) : Gives o lat ok P :=
  .of_pure f he hd hl hf

/-! ### Tokens -/

/-- A port that a ready slot reads holds a token (R41). -/
theorem State.Ready.head_isSome {s : State} {el k : Nat} {o : Op} {x : Slot} (h : s.Ready el k o x) {n : Fin 4}
    (hn : n.val ∈ (s.elem el).ctx.portsRead o x) : ∃ t, (s.elem el).ctx.ports.head n.val = some t := by
  obtain ⟨-, -, he⟩ := h
  have hj := List.find?_eq_none.1 he n.val (List.mem_range.2 n.isLt)
  have hc : ((s.elem el).ctx.portsRead o x).contains n.val = true := List.contains_iff_mem.2 hn
  simp only [hc, Bool.true_or, Bool.and_true, Option.isNone_iff_eq_none] at hj
  exact Option.ne_none_iff_exists'.1 hj

/-- KEEP leaves the ports of an outcome. -/
@[simp] theorem keptTags_ports (o : Op) (x : Slot) (i : Opnds) (r : PureOut) : (keptTags o x i r).ports = r.ports := by
  unfold keptTags; split <;> rfl

/-- What a firing of an instruction that is a value of its operands will emit: on the ports that its outcome names, else on all that the slot writes,
with the tags that it names, else those under KEEP, else TAGO and FTO (R72). -/
theorem Fires.of_emitted {o : Op} {ok : State → Nat → Slot → Opnds → Prop} {P : State → State → Nat → Slot → Opnds → Flight → Prop}
    (f : PureFn) (he : ∀ x s, exec (o.instr x) s = firePure o x s f) (hl : ∀ x n, opLat o x n = 1)
    (hf : ∀ (s : State) (el k : Nat) (x : Slot), s.Ready el k o x → ok s el x (s.opndsOf el o x) →
      ∃ r, f x (s.opndsOf el o x) = .ok r ∧ ∀ (u : State) (g : Flight), g.ports = r.ports.getD (writePorts o x) →
        g.tags = (keptTags o x (s.opndsOf el o x) r).tags.getD (x.tago, x.fto) → P s u el x (s.opndsOf el o x) g) :
    Fires o (fun _ _ => some 1) ok P := by
  refine Fires.of_drawn (fun x => pureAct o x f) he fun s el k x hr hok => ?_
  obtain ⟨r, hv, hP⟩ := hf s el k x hr hok
  have ha : pureAct o x f s ⟨el, k, s.nextId, (s.elem el).ctx.regs.fcnt + 1⟩ (s.opndsOf el o x)
      = .ok { out := keptTags o x (s.opndsOf el o x) r, lat := some (opLat o x (slotLanes o x (s.opndsOf el o x).fmttab)),
              busy := opBusy o x (slotLanes o x (s.opndsOf el o x).fmttab) } := by simp only [pureAct, hv]
  refine ⟨_, ha, rfl, rfl, congrArg some (hl x _), fun u g _ _ _ _ _ hports htags _ => hP u g ?_ htags⟩
  rwa [keptTags_ports] at hports

end Sys2Proof.Machine
end

section
/-!
PROOF. Movement and tokens (R112-R116).
-/
namespace Sys2Proof.Machine

/-- The top bit of a lane, as a comparison (R112, PERM). -/
theorem lane_top_iff (x : Slot) (v : W256) (l : Nat) : lane (slotW x) v l / 2 ^ (slotW x - 1) = 1 ↔ 2 ^ (slotW x - 1) ≤ lane (slotW x) v l := by
  have hlt := lane_lt (slotW x) v l
  have hw : 2 ^ slotW x = 2 * 2 ^ (slotW x - 1) := (mul_pow_sub_one (slotW_pos x).ne' 2).symm
  have hp := Nat.two_pow_pos (slotW x - 1)
  rw [Nat.div_eq_iff hp]
  omega

/-- The tags that a mover's tokens carry: TAGO and FTO, or under KEEP those of the head h (R72). -/
def CarriesTags (x : Slot) (h : Option Token) (f : Flight) : Prop :=
  (slotM6 x = false → f.tags = (x.tago, x.fto)) ∧ (slotM6 x = true → ∃ t, h = some t ∧ f.tags = (t.ct, t.ft))

/-- The tags of an instruction of the movement class that names none itself (R72). -/
theorem keptTags_of_move {o : Op} {x : Slot} {i : Opnds} {r : PureOut} (hc : keepsTags o x = slotM6 x) (hr : r.tags = none) :
    (keptTags o x i r).tags = if slotM6 x then i.ta.map (fun t => (t.ct, t.ft)) else none := by
  unfold keptTags
  rw [hc, hr]
  cases slotM6 x <;> simp [hr]

/-- The head that opA names is the head of its port. -/
theorem State.opndsOf_ta {s : State} {el : Nat} {o : Op} {x : Slot} {n : Fin 4} (h : x.sa = .i n) :
    (s.opndsOf el o x).ta = (s.elem el).ctx.ports.head n.val := by
  simp [State.opndsOf, Ctx.opnds, Ctx.selHead, h, selPort]

/-- The head that opB names is the head of its port. -/
theorem State.opndsOf_tb {s : State} {el : Nat} {o : Op} {x : Slot} {n : Fin 4} (h : x.sb = .i n) :
    (s.opndsOf el o x).tb = (s.elem el).ctx.ports.head n.val := by
  simp [State.opndsOf, Ctx.opnds, Ctx.selHead, h, selPort]

/-- The port of opA is among those that an instruction with an opA reads; MERGE chooses (R116). -/
theorem Ctx.sa_mem_portsRead (c : Ctx) {o : Op} {x : Slot} {n : Fin 4} (ho : o ≠ .merge) (hr : readsA o x = true) (h : x.sa = .i n) :
    n.val ∈ c.portsRead o x := by
  simp [Ctx.portsRead, ho, usedSels, hr, h, selPort]

/-- The port that MERGE chooses is among those that it reads (R116). -/
theorem Ctx.chosen_mem_portsRead (c : Ctx) {x : Slot} {n : Fin 4}
    (h : (if control x (c.opnds .merge x).c then x.sb else x.sa) = .i n) : n.val ∈ c.portsRead .merge x := by
  have hc : (c.opnds .merge x).c = c.selValue .merge x 2 x.sc := rfl
  rw [hc] at h
  simp [Ctx.portsRead, h, selPort]

/-- The tokens that a firing of an instruction of the movement class other than STEER will emit: on all ports that its slot writes, with the tags of
the head that it takes under KEEP (R72, R116). -/
def EmitsEverywhere (o : Op) : Prop :=
  Fires o (fun _ _ => some 1) (fun _ _ x _ => slotM6 x = true → (∃ n, x.sa = .i n) ∧ (o = .merge → ∃ n, x.sb = .i n))
    (fun _ _ _ x i f => f.ports = writePorts o x ∧ CarriesTags x (if o = .merge ∧ lane (slotW x) i.c 0 ≠ 0 then i.tb else i.ta) f)

/-- An instruction that takes opA and names neither ports nor tags emits everywhere, with the tags of opA's head under KEEP (R72, R112, R113). -/
theorem emitsEverywhere_of_mover {o : Op} (f : PureFn) (ho : o ≠ .merge)
    (he : ∀ x s, exec (o.instr x) s = firePure o x s f := by intros; rfl) (hl : ∀ x n, opLat o x n = 1 := by intros; rfl)
    (hk : ∀ x, keepsTags o x = slotM6 x := by intros; rfl) (hr : ∀ x, readsA o x = true := by intros; rfl)
    (hf : ∀ x i, ∃ r, f x i = .ok r ∧ r.ports = none ∧ r.tags = none := by intros; exact ⟨_, rfl, rfl, rfl⟩) : EmitsEverywhere o := by
  refine Fires.of_emitted f he hl fun s el k x hready hok => ?_
  obtain ⟨r, hv, hp, ht⟩ := hf x (s.opndsOf el o x)
  refine ⟨r, hv, fun u g hports htags => ⟨by rw [hports, hp]; rfl, ?_⟩⟩
  rw [keptTags_of_move (hk x) ht] at htags
  rw [if_neg fun h => ho h.1]
  refine ⟨fun h6 => by simpa [h6] using htags, fun h6 => ?_⟩
  obtain ⟨⟨n, hn⟩, -⟩ := hok h6
  obtain ⟨t, hh⟩ := hready.head_isSome ((s.elem el).ctx.sa_mem_portsRead ho (hr x) hn)
  have hta : (s.opndsOf el o x).ta = some t := (State.opndsOf_ta hn).trans hh
  exact ⟨t, hta, by simpa [h6, hta] using htags⟩

/-- The head that MERGE chooses stands in the port it reads, where both of its data operands are ports (R116). -/
theorem chosen_head_of_ready {s : State} {el k : Nat} {x : Slot} (h : s.Ready el k .merge x) {n m : Fin 4} (hn : x.sa = .i n) (hm : x.sb = .i m) :
    ∃ t, (if control x (s.opndsOf el .merge x).c then (s.opndsOf el .merge x).tb else (s.opndsOf el .merge x).ta) = some t := by
  cases hc : control x (s.opndsOf el .merge x).c
  · obtain ⟨t, ht⟩ := h.head_isSome ((s.elem el).ctx.chosen_mem_portsRead (n := n) (by rw [← State.opndsOf, hc]; exact hn))
    exact ⟨t, (State.opndsOf_ta hn).trans ht⟩
  · obtain ⟨t, ht⟩ := h.head_isSome ((s.elem el).ctx.chosen_mem_portsRead (n := m) (by rw [← State.opndsOf, hc]; exact hm))
    exact ⟨t, (State.opndsOf_tb hm).trans ht⟩

/-- MERGE emits everywhere, with the tags of the head it chooses under KEEP (R72, R116). -/
theorem emitsEverywhere_merge : EmitsEverywhere .merge := by
  refine Fires.of_emitted valMerge (fun _ _ => rfl) (fun _ _ => rfl) fun s el k x hready hok => ⟨_, rfl, fun u g hports htags => ⟨hports, ?_⟩⟩
  have hchoice (i : Opnds) : (if Op.merge = .merge ∧ lane (slotW x) i.c 0 ≠ 0 then i.tb else i.ta) = if control x i.c then i.tb else i.ta := by
    simp [control]
  rw [hchoice]
  refine ⟨fun h6 => by simpa [keptTags, keepsTags, h6] using htags, fun h6 => ?_⟩
  obtain ⟨⟨n, hn⟩, hb⟩ := hok h6
  obtain ⟨m, hm⟩ := hb rfl
  obtain ⟨t, ht⟩ := chosen_head_of_ready hready hn hm
  exact ⟨t, ht, by simpa [keptTags, h6, ht] using htags⟩

/-- STEER emits on the one port that its control lane chooses, with the tags of opA's head under KEEP (R72, R115). -/
theorem steer_emits :
    Fires .steer (fun _ _ => some 1) (fun _ _ x _ => ∃ n, x.dst = .o n) (fun _ _ _ x i f => ∀ n, x.dst = .o n →
      f.ports = [if lane (slotW x) i.b 0 = 0 then n.val else (bits x.mod 4 2).toNat]
      ∧ (slotM6 x = false → f.tags = (x.tago, x.fto)) ∧ (slotM6 x = true → ∀ h, i.ta = some h → f.tags = (h.ct, h.ft))) := by
  refine Fires.of_emitted valSteer (fun _ _ => rfl) (fun _ _ => rfl) fun s el k x _ _ => ?_
  refine ⟨_, rfl, fun u g hports htags n hn => ⟨?_, fun h6 => ?_, fun h6 t ht => ?_⟩⟩
  · rw [hports]
    by_cases hc : lane (slotW x) (s.opndsOf el .steer x).b 0 = 0 <;> simp [control, hc, hn, dstPort, slotM54]
  · rw [htags, keptTags_of_move rfl rfl, h6]; rfl
  · rw [htags, keptTags_of_move rfl rfl, h6, ht]; rfl

/-- The ending of CTAG and FTAG names opA's port (R114). -/
theorem retag_fires {o : Op} (e : Slot → Opnds → Nat → Finish) (he : ∀ x s, exec (o.instr x) s = fire o x s (retagAct e x)) :
    Fires o (fun _ _ => some 1) (fun _ _ x _ => ∃ n, x.sa = .i n)
      (fun s t el x i f => Quiet s t el ∧ ∀ n, x.sa = .i n → f.fin = e x i n.val) := by
  refine Fires.of_quiet (fun x => retagAct e x) he fun s el k x _ _ => ?_
  refine ⟨_, rfl, rfl, rfl, rfl, rfl, fun u f hq _ _ _ _ _ _ hfin => ⟨hq, fun n hn => ?_⟩⟩
  rw [hfin, hn]; rfl

/-- SEED's ending carries opA[31:0] (R61, R155). -/
theorem seed_fires : Fires .seed (fun _ _ => some 1) (fun _ _ _ _ => True)
    (fun s t el _ i f => Quiet s t el ∧ f.fin = .seed (bits i.a 0 32)) :=
  Fires.of_quiet (fun _ _ _ v => .ok { fin := .seed (bits v.a 0 32) }) (fun _ _ => rfl) fun _ _ _ _ _ _ =>
    ⟨_, rfl, rfl, rfl, rfl, rfl, fun _ _ hq _ _ _ _ _ _ hfin => ⟨hq, hfin⟩⟩

/-- Every instruction of the movement class with a result, but MOVI and STEER, emits everywhere. -/
theorem emitsEverywhere_movers :
    ∀ o ∈ [Op.mov, .lane, .insl, .bcst, .perm, .rotl, .zipl, .unzl, .fwd, .tagr, .merge], EmitsEverywhere o := by
  simp only [List.forall_mem_cons, List.not_mem_nil, false_implies, implies_true, and_true]
  exact ⟨emitsEverywhere_of_mover valMov (by decide), emitsEverywhere_of_mover valLane (by decide), emitsEverywhere_of_mover valInsl (by decide),
    emitsEverywhere_of_mover valBcst (by decide), emitsEverywhere_of_mover valPerm (by decide), emitsEverywhere_of_mover valRotl (by decide),
    emitsEverywhere_of_mover valZipl (by decide), emitsEverywhere_of_mover valUnzl (by decide), emitsEverywhere_of_mover valFwd (by decide),
    emitsEverywhere_of_mover valTagr (by decide) (hf := fun _ i => by
      unfold valTagr; cases i.ta <;> exact ⟨_, rfl, rfl, rfl⟩),
    emitsEverywhere_merge⟩

/-- Settles O1: the results of the lane movers by their lanes, the endings of CTAG, FTAG and SEED, and the tokens of the movement class by what a
firing of a value of its operands emits. -/
theorem movementCompletes : Obligations.MovementCompletes := by
  unfold Obligations.MovementCompletes
  refine ⟨⟨?mov, ?movi, ?lane, ?insl, ?bcst, ?perm, ?rotl, ?zipl, ?unzl, ?moverMasks, ?moviMask, ?ziplMask, ?unzlMask, ?unsigned⟩,
    ⟨?fwd, ?tagr, ?steer, ?merge⟩, ⟨?ctag, ?ftag, ?seed⟩, ?tokens⟩
  case mov => exact .of_whole valMov
  case movi => exact .of_whole valMovi (hv := fun x _ _ => by rw [valMovi, Nat.shiftLeft_eq])
  case lane => exact .of_whole valLane
  case insl => exact .of_lanes valInsl fun _ _ _ _ _ => by split <;> exact lane_lt ..
  case bcst => exact .of_lanes valBcst fun _ _ _ _ _ => lane_lt ..
  case perm =>
    refine .of_lanes valPerm (fun _ _ _ _ _ => by split <;> [exact Nat.two_pow_pos _; exact lane_lt ..]) (hv := fun x i _ => ?_)
    exact congrArg okNz (ofLanes_congr fun l _ => if_congr (lane_top_iff x i.b l) rfl rfl)
  case rotl => exact .of_lanes valRotl fun _ _ _ _ _ => lane_lt ..
  case zipl => exact .of_lanes valZipl fun _ _ _ _ _ => lane_lt ..
  case unzl => exact .of_lanes valUnzl fun _ _ _ _ _ => by split <;> exact lane_lt ..
  case moverMasks => exact modWithin_of_masks (m := 0x43) (by simp [modMask])
  case moviMask => exact modWithin_of_mask (m := 0x1C) (fun _ => rfl)
  case ziplMask => exact modWithin_of_mask (m := 0x63) (fun _ => rfl)
  case unzlMask => exact modWithin_of_mask (m := 0x63) (fun _ => rfl)
  case unsigned => simp [operandUnsigned, modMask, Nat.testBit]
  case fwd => exact .of_val valFwd fun _ _ _ => ⟨_, rfl, rfl, rfl, rfl⟩
  case tagr =>
    refine .of_val valTagr fun x i hok => ?_
    obtain ⟨t, ht⟩ := Option.isSome_iff_exists.1 hok
    refine ⟨_, by rw [valTagr, ht]; rfl, rfl, fun h hh => ?_, rfl⟩
    obtain rfl : t = h := Option.some.inj (ht.symm.trans hh)
    exact congrArg (fun n => BitVec.ofNat 256 (n + t.ft.toNat)) (Nat.mul_comm 8 t.ct.code.toNat)
  case steer => exact .of_val valSteer fun _ _ _ => ⟨_, rfl, rfl, rfl, rfl⟩
  case merge =>
    refine .of_val valMerge fun x i _ => ⟨_, rfl, rfl, ?_, rfl⟩
    by_cases hc : lane (slotW x) i.c 0 = 0 <;> simp [control, hc]
  case ctag => exact retag_fires (fun _ v j => .retagCt j (Tag.ofCode (bits v.b 0 2))) fun _ _ => rfl
  case ftag => exact retag_fires (fun _ v j => .retagFt j (bits v.b 0 3)) fun _ _ => rfl
  case seed => exact seed_fires
  case tokens => exact ⟨emitsEverywhere_movers, steer_emits⟩

end Sys2Proof.Machine
end

section
/-!
PROOF. Integer arithmetic (R117, R119, R120): wraps of lane codes, and the tree of R65 by its levels.
-/
namespace Sys2Proof.Machine

/-- A code that lies in its lane is its own wrap. -/
theorem wrap_natCast {w n : Nat} (h : n < 2 ^ w) : wrap w n = n := by
  have hn : ((n : Int) % 2 ^ w) = (n : Nat) := Int.emod_eq_of_lt (Int.natCast_nonneg n) (by exact_mod_cast h)
  rw [wrap, hn, Int.toNat_natCast]

/-- Read as signed and wrapped, a code that lies in its lane is what it was. -/
theorem wrap_sext {w n : Nat} (h : n < 2 ^ w) : wrap w (sext w n) = n := by
  rw [sext, Nat.mod_eq_of_lt h]
  split
  · exact wrap_natCast h
  · rw [wrap, Int.sub_emod_right]
    exact wrap_natCast h

/-- A wrapped minimum of lane values is the code of the lesser (R120). -/
theorem wrap_min {w a b : Nat} {g : Nat → Int} (ha : wrap w (g a) = a) (hb : wrap w (g b) = b) :
    wrap w (min (g a) (g b)) = if g a ≤ g b then a else b := by
  rw [min_def]; split <;> assumption

/-- A wrapped maximum of lane values is the code of the greater (R120). -/
theorem wrap_max {w a b : Nat} {g : Nat → Int} (ha : wrap w (g a) = a) (hb : wrap w (g b) = b) :
    wrap w (max (g a) (g b)) = if g a ≤ g b then b else a := by
  rw [max_def]; split <;> assumption

/-! ### The tree of R65 -/

/-- A tree over n levels is n levels one after another. -/
theorem treeReduce_eq_iterate {α : Type} (f : α → α → α) (n : Nat) (l : List α) : treeReduce f n l = (pairUp f)^[n] l := by
  induction n generalizing l with
  | zero => rfl
  | succ n ih => exact ih _

/-- A level has half as many values, rounded up. -/
theorem pairUp_length {α : Type} (f : α → α → α) (l : List α) : (pairUp f l).length = (l.length + 1) / 2 := by
  induction l using pairUp.induct with
  | case1 a b t ih => simp only [pairUp, List.length_cons, ih]; omega
  | case2 t h =>
    match t, h with
    | [], _ => simp [pairUp]
    | [a], _ => simp [pairUp]
    | a :: b :: t, h => exact (h a b t rfl).elim

/-- A level's value is the combination of two neighbours. -/
theorem pairUp_getD {α : Type} (f : α → α → α) (d : α) (l : List α) (j : Nat) (h : 2 * j + 1 < l.length) :
    (pairUp f l).getD j d = f (l.getD (2 * j) d) (l.getD (2 * j + 1) d) := by
  induction l using pairUp.induct generalizing j with
  | case1 a b t ih =>
    cases j with
    | zero => rfl
    | succ j => simpa [pairUp, Nat.mul_succ] using ih j (by simp only [List.length_cons] at h; omega)
  | case2 t ht =>
    match t, ht, h with
    | a :: b :: t, ht, _ => exact (ht a b t rfl).elim

/-- Level h over 2^k values has 2^(k-h) of them. -/
theorem iterate_pairUp_length {α : Type} (f : α → α → α) {l : List α} {k h : Nat} (hl : l.length = 2 ^ k) (hk : h ≤ k) :
    ((pairUp f)^[h] l).length = 2 ^ (k - h) := by
  induction h with
  | zero => exact hl
  | succ h ih =>
    have hp : 2 ^ (k - h) = 2 * 2 ^ (k - (h + 1)) := by rw [← Nat.pow_succ']; congr 1; omega
    rw [Function.iterate_succ_apply', pairUp_length, ih (by omega), hp]
    omega

/-- One value is left as it is by all further levels. -/
theorem iterate_pairUp_singleton {α : Type} (f : α → α → α) (a : α) (m : Nat) : (pairUp f)^[m] [a] = [a] :=
  Function.iterate_fixed rfl m

/-- The levels of the tree over 2^k values: level 0 is the values, each later one combines neighbours of the level before, and level k
holds the result (R65). -/
theorem treeReduce_levels {α : Type} (f : α → α → α) (d : α) {l : List α} {k m : Nat} (hl : l.length = 2 ^ k) (hm : k ≤ m) :
    (∀ h, h < k → ∀ j, j < 2 ^ (k - (h + 1)) → ((pairUp f)^[h + 1] l).getD j d
        = f (((pairUp f)^[h] l).getD (2 * j) d) (((pairUp f)^[h] l).getD (2 * j + 1) d))
    ∧ (treeReduce f m l).headD d = ((pairUp f)^[k] l).getD 0 d := by
  constructor
  · intro h hk j hj
    rw [Function.iterate_succ_apply', pairUp_getD]
    rw [iterate_pairUp_length f hl hk.le, show k - h = k - (h + 1) + 1 by omega, Nat.pow_succ']
    omega
  · obtain ⟨a, ha⟩ := List.length_eq_one_iff.1 ((iterate_pairUp_length f hl le_rfl).trans (by rw [Nat.sub_self, Nat.pow_zero]))
    rw [treeReduce_eq_iterate, show m = m - k + k by omega, Function.iterate_add_apply, ha, iterate_pairUp_singleton]
    rfl

/-- What combining keeps and all values have, all values of the next level have. -/
theorem pairUp_keeps {α : Type} {f : α → α → α} {p : α → Prop} (hp : ∀ a b, p a → p b → p (f a b)) {l : List α}
    (hl : ∀ a ∈ l, p a) : ∀ a ∈ pairUp f l, p a := by
  induction l using pairUp.induct with
  | case1 a b t ih =>
    simp only [List.forall_mem_cons] at hl
    obtain ⟨ha, hb, ht⟩ := hl
    exact List.forall_mem_cons.2 ⟨hp a b ha hb, ih ht⟩
  | case2 t h =>
    match t, h with
    | [], _ => exact hl
    | [a], _ => exact hl
    | a :: b :: t, h => exact (h a b t rfl).elim

/-- What combining keeps and all values have, all values of every level have. -/
theorem iterate_pairUp_keeps {α : Type} {f : α → α → α} {p : α → Prop} (hp : ∀ a b, p a → p b → p (f a b)) {l : List α}
    (hl : ∀ a ∈ l, p a) (h : Nat) : ∀ a ∈ (pairUp f)^[h] l, p a := by
  induction h with
  | zero => exact hl
  | succ h ih => rw [Function.iterate_succ_apply']; exact pairUp_keeps hp ih

/-! ### IRED -/

/-- The lanes of a slot's width are a power of two, of at most five levels (R97). -/
theorem slotW_levels (x : Slot) : ∃ k, 256 / slotW x = 2 ^ k ∧ k ≤ 5 := by
  rcases slotW_cases x with h | h | h | h <;> rw [h]
  exacts [⟨5, rfl, le_rfl⟩, ⟨4, rfl, by decide⟩, ⟨3, rfl, by decide⟩, ⟨2, rfl, by decide⟩]

/-- The value of a lane code: unsigned under U, else signed (R97). -/
def codeValue (x : Slot) (n : Nat) : Int := if slotU x then (n : Int) else sext (slotW x) n

/-- The value of a code that lies in its lane wraps to the code. -/
theorem wrap_codeValue {x : Slot} {n : Nat} (h : n < 2 ^ slotW x) : wrap (slotW x) (codeValue x n) = n := by
  unfold codeValue; split <;> [exact wrap_natCast h; exact wrap_sext h]

/-- IRED's operation on codes that lie in their lanes, as R120 has it. -/
theorem iredOp_eq (x : Slot) {a b : Nat} (ha : a < 2 ^ slotW x) (hb : b < 2 ^ slotW x) :
    iredOp x a b = match (bits x.mod 4 2).toNat with
      | 0 => putInt x (codeValue x a + codeValue x b)
      | 1 => wrap (slotW x) (min (codeValue x a) (codeValue x b))
      | 2 => wrap (slotW x) (max (codeValue x a) (codeValue x b))
      | _ => a ^^^ b := by
  rw [wrap_min (wrap_codeValue ha) (wrap_codeValue hb), wrap_max (wrap_codeValue ha) (wrap_codeValue hb)]
  rfl

/-- IRED's operation keeps codes in their lanes. -/
theorem iredOp_lt (x : Slot) (a b : Nat) (ha : a < 2 ^ slotW x) (hb : b < 2 ^ slotW x) : iredOp x a b < 2 ^ slotW x := by
  rw [iredOp_eq x ha hb]
  split
  · exact putInt_lt ..
  · exact wrap_lt ..
  · exact wrap_lt ..
  · exact Nat.xor_lt_two_pow ha hb

/-- Place j of level h of IRED's tree over opA's lanes. -/
def iredLevel (x : Slot) (v : W256) (h j : Nat) : Nat :=
  ((pairUp (iredOp x))^[h] ((List.range (256 / slotW x)).map (fun l => lane (slotW x) v l))).getD j 0

/-- IRED's tree begins with opA's lanes. -/
theorem iredLevel_zero (x : Slot) (v : W256) {l : Nat} (hl : l < 256 / slotW x) : iredLevel x v 0 l = lane (slotW x) v l := by
  simp [iredLevel, List.getD, hl]

/-- Every value of IRED's tree lies in its lane. -/
theorem iredLevel_lt (x : Slot) (v : W256) (h j : Nat) : iredLevel x v h j < 2 ^ slotW x := by
  have hk := iterate_pairUp_keeps (iredOp_lt x) (l := (List.range (256 / slotW x)).map (fun l => lane (slotW x) v l))
    (List.forall_mem_map.2 fun l _ => lane_lt _ v l) h
  unfold iredLevel
  rw [List.getD_eq_getElem?_getD]
  cases he : ((pairUp (iredOp x))^[h] ((List.range (256 / slotW x)).map (fun l => lane (slotW x) v l)))[j]? with
  | none => exact Nat.two_pow_pos _
  | some a => exact hk a (List.mem_of_getElem? he)

/-- IRED's result is the last level's, and each level combines neighbours of the one before (R65, R120). -/
theorem iredLevel_tree (x : Slot) (v : W256) {k : Nat} (hn : 256 / slotW x = 2 ^ k) (hk : k ≤ 5) :
    (∀ h, h < k → ∀ j, j < 2 ^ (k - (h + 1)) → iredLevel x v (h + 1) j = iredOp x (iredLevel x v h (2 * j)) (iredLevel x v h (2 * j + 1)))
    ∧ (treeReduce (iredOp x) 5 ((List.range (256 / slotW x)).map (fun l => lane (slotW x) v l))).headD 0 = iredLevel x v k 0 :=
  treeReduce_levels (iredOp x) 0 (by simp [hn]) hk

/-- SAT is defined only with the sum (R120). -/
theorem ired_sat_of_sum {x : Slot} (h : wordRow .ired x = none) (hop : slotM54 x ≠ 0) : slotSat x = false :=
  modBit_of_wordRow h (b := 3) (by decide) (by simp [modMask, hop]) (by simp only [modMask, hop, if_false]; decide)

/-- Settles O2: every result is exact before Put; IRED by the levels of its tree. -/
theorem integerArithmeticCompletes : Obligations.IntegerArithmeticCompletes := by
  unfold Obligations.IntegerArithmeticCompletes
  refine ⟨⟨?add, ?sub, ?mul, ?mulh, ?mad, ?min, ?max, ?abs, ?neg, ?clmp, ?satMasks, ?plainMasks, ?absMask, ?negMask⟩,
    ?adds, ?subs, ?qmul, ?ired, ?iredSat⟩
  case add => exact .of_lanes valAdd fun _ _ _ _ _ => putInt_lt ..
  case sub => exact .of_lanes valSub fun _ _ _ _ _ => putInt_lt ..
  case mul => exact .of_lanes valMul fun _ _ _ _ _ => putInt_lt ..
  case mulh =>
    have hfloor (x : Slot) (v : Int) : v / 2 ^ slotW x = Int.fdiv v (2 ^ slotW x) := (Int.fdiv_eq_ediv_of_nonneg v (by positivity)).symm
    exact .of_lanes valMulh (fun _ _ _ _ _ => wrap_lt ..) (hv := fun x i _ => by simp only [hfloor]; rfl)
  case mad => exact .of_lanes valMad fun _ _ _ _ _ => putInt_lt ..
  case min => exact .of_lanes valMin (fun _ _ _ _ _ => wrap_lt ..) (hv := fun x i _ => by simp only [min_def]; rfl)
  case max => exact .of_lanes valMax (fun _ _ _ _ _ => wrap_lt ..) (hv := fun x i _ => by simp only [max_def]; rfl)
  case abs =>
    have habs (v : Int) : |v| = if v < 0 then -v else v := by split <;> [exact abs_of_neg ‹_›; exact abs_of_nonneg (not_lt.1 ‹_›)]
    exact .of_lanes valAbs (fun _ _ _ _ _ => putInt_lt ..) (hv := fun x i _ => by simp only [habs]; rfl)
  case neg => exact .of_lanes valNeg fun _ _ _ _ _ => putInt_lt ..
  case clmp => exact .of_lanes valClmp (fun _ _ _ _ _ => wrap_lt ..) (hv := fun x i _ => by simp only [min_def, max_def]; rfl)
  case satMasks => exact modWithin_of_masks (m := 0xF) (by simp [modMask])
  case plainMasks => exact modWithin_of_masks (m := 7) (by simp [modMask])
  case absMask => exact modWithin_of_mask (m := 0xB) fun _ => rfl
  case negMask => exact modWithin_of_mask (m := 0xB) fun _ => rfl
  case adds => exact .of_lanes valAdds fun _ _ _ _ _ => putInt_lt ..
  case subs => exact .of_lanes valSubs fun _ _ _ _ _ => putInt_lt ..
  case qmul => exact .of_lanes valQmul fun _ _ _ _ _ => putInt_lt ..
  case ired =>
    refine .of_val valIred fun x i _ => ⟨_, rfl, rfl, rfl, iredLevel x i.a, fun l hl => iredLevel_zero x i.a hl, ?_⟩
    obtain ⟨k, hn, hk⟩ := slotW_levels x
    obtain ⟨hstep, hres⟩ := iredLevel_tree x i.a hn hk
    rw [hn] at hres
    rw [hn, Nat.log2_two_pow]
    refine ⟨fun h hh j hj => ?_, congrArg (BitVec.ofNat 256) hres⟩
    rw [Nat.pow_div hh (by decide)] at hj
    rw [hstep h hh j hj]
    exact iredOp_eq x (iredLevel_lt ..) (iredLevel_lt ..)
  case iredSat => exact fun _ => ired_sat_of_sum

end Sys2Proof.Machine
end

section
/-!
PROOF. Logic, shifts, bit fields and packing (R121-R125): every result on codes lies in its lane, and the forms that the model
computes are those of the rules.
-/
namespace Sys2Proof.Machine

/-! ### Codes -/

/-- A code shifted left by a lane's width or more leaves nothing of it in the lane (R122). -/
theorem shl_eq (w a c : Nat) : (if w ≤ c then 0 else (a <<< c) % 2 ^ w) = a * 2 ^ c % 2 ^ w := by
  split
  · next h => exact (Nat.mod_eq_zero_of_dvd (Dvd.dvd.mul_left (Nat.pow_dvd_pow 2 h) a)).symm
  · rw [Nat.shiftLeft_eq]

/-- A code in its lane shifted right by the lane's width or more is 0 (R122). -/
theorem shr_eq {w a : Nat} (c : Nat) (ha : a < 2 ^ w) : (if w ≤ c then 0 else a >>> c) = a / 2 ^ c := by
  split
  · next h => exact (Nat.div_eq_of_lt (ha.trans_le (Nat.pow_le_pow_right (by decide) h))).symm
  · rw [Nat.shiftRight_eq_div_pow]

/-- A number of w bits lies between -2^w and 2^w. -/
theorem sext_bounds (w n : Nat) : -(2 ^ w : Int) ≤ sext w n ∧ sext w n < 2 ^ w := by
  have hlt : ((n % 2 ^ w : Nat) : Int) < 2 ^ w := by exact_mod_cast Nat.mod_lt n (Nat.two_pow_pos w)
  have h0 : (0 : Int) ≤ (n % 2 ^ w : Nat) := Int.natCast_nonneg _
  unfold sext
  dsimp only
  split <;> omega

/-- -1 in a lane is all ones. -/
theorem wrap_neg_one (w : Nat) : wrap w (-1) = 2 ^ w - 1 := by
  have hp : 1 ≤ 2 ^ w := Nat.two_pow_pos w
  have h : (-1 : Int) = ((2 ^ w - 1 : Nat) : Int) - 2 ^ w := by rw [Nat.cast_sub hp]; push_cast; ring
  rw [h, wrap, Int.sub_emod_right]
  exact wrap_natCast (Nat.sub_lt hp one_pos)

/-- An arithmetic shift by the lane's width or more leaves the sign alone (R122). -/
theorem sha_eq (w a c : Nat) : (if w ≤ c then (if sext w a < 0 then 2 ^ w - 1 else 0) else wrap w (Int.fdiv (sext w a) (2 ^ c)))
    = wrap w (sext w a / 2 ^ c) := by
  obtain ⟨hlo, hhi⟩ := sext_bounds w a
  by_cases hc : w ≤ c
  · have hp : (2 : Int) ^ w ≤ 2 ^ c := pow_le_pow_right₀ (by decide) hc
    rw [if_pos hc]
    split
    · next hneg => rw [Int.ediv_eq_neg_one_of_neg_of_le hneg (by omega), wrap_neg_one]
    · next hpos => rw [Int.ediv_eq_zero_of_lt (not_lt.1 hpos) (by omega)]; simp [wrap]
  · rw [if_neg hc, Int.fdiv_eq_ediv_of_nonneg _ (by positivity)]

/-- A rotated code lies in its lane (R122). -/
theorem rotb_lt {w a c : Nat} (ha : a < 2 ^ w) (hc : c < w) : a * 2 ^ c % 2 ^ w + a / 2 ^ (w - c) < 2 ^ w := by
  have hw : 2 ^ w = 2 ^ (w - c) * 2 ^ c := by rw [← Nat.pow_add, Nat.sub_add_cancel hc.le]
  have hhi : a / 2 ^ (w - c) < 2 ^ c := Nat.div_lt_of_lt_mul (hw ▸ ha)
  have hlo : a % 2 ^ (w - c) + 1 ≤ 2 ^ (w - c) := Nat.mod_lt _ (Nat.two_pow_pos _)
  have hmul := Nat.mul_le_mul_right (2 ^ c) hlo
  rw [hw, Nat.mul_mod_mul_right]
  rw [Nat.add_mul, Nat.one_mul] at hmul
  omega

/-- The 1 bits among the low n are the places whose bit is set. -/
theorem popCount_eq (n v : Nat) : popCount n v = ((List.range n).filter (fun b => v.testBit b)).length := by
  induction n generalizing v with
  | zero => rfl
  | succ n ih =>
    have hs : (fun b => v.testBit b) ∘ Nat.succ = fun b => (v / 2).testBit b := funext fun b => Nat.testBit_succ v b
    rw [popCount, ih, List.range_succ_eq_map, List.filter_cons, List.filter_map, hs]
    rcases Nat.mod_two_eq_zero_or_one v with h | h <;> simp [h, Nat.testBit_zero, Nat.add_comm]

/-- A field of n bits from bit p, put into a lane of w bits with what lies beside it, lies in the lane (R123). -/
theorem bfi_lt {w p n a : Nat} (b : Nat) (h : p + n ≤ w) (ha : a < 2 ^ w) :
    a % 2 ^ p + b % 2 ^ n * 2 ^ p + a / 2 ^ (p + n) * 2 ^ (p + n) < 2 ^ w := by
  have hw : 2 ^ w = 2 ^ (p + n) * 2 ^ (w - (p + n)) := by rw [← Nat.pow_add]; congr 1; omega
  have hlow : a % 2 ^ p + 1 ≤ 2 ^ p := Nat.mod_lt _ (Nat.two_pow_pos _)
  have hmid : b % 2 ^ n + 1 ≤ 2 ^ n := Nat.mod_lt _ (Nat.two_pow_pos _)
  have hhi : a / 2 ^ (p + n) + 1 ≤ 2 ^ (w - (p + n)) := Nat.div_lt_of_lt_mul (hw ▸ ha)
  have hmid' := Nat.mul_le_mul_right (2 ^ p) hmid
  have hhi' := Nat.mul_le_mul_right (2 ^ (p + n)) hhi
  rw [Nat.add_mul, Nat.one_mul] at hmid' hhi'
  have hpn : 2 ^ (p + n) = 2 ^ n * 2 ^ p := by rw [Nat.add_comm, Nat.pow_add]
  rw [Nat.mul_comm (2 ^ (w - (p + n))), ← hw] at hhi'
  omega

/-- The field of a word of BFX or BFI that passes the table lies in the lane (R123). -/
theorem field_le_width {o : Op} {x : Slot} (ho : o = .bfx ∨ o = .bfi) (h : wordRow o x = none) : immBits x 0 8 + immBits x 8 8 ≤ slotW x := by
  have hc := (wordRow_none h).2
  rcases ho with rfl | rfl <;> simp only [classWordOk, Bool.and_eq_true, decide_eq_true_eq] at hc <;> exact hc.2

/-- The lanes of half the width fill a value (R125). -/
theorem half_lanes_le (x : Slot) : slotW x / 2 * (2 * (256 / slotW x)) ≤ 256 := by
  rcases slotW_cases x with h | h | h | h <;> rw [h]

/-- The lanes of twice the width fill a value (R125). -/
theorem double_lanes_le (x : Slot) : 2 * slotW x * (256 / slotW x / 2) ≤ 256 := by
  rcases slotW_cases x with h | h | h | h <;> rw [h]

/-- Settles O4: the results on codes lie in their lanes, and the model's shifts, counts and fields are the quotients, products and remainders of
the rules. -/
theorem logicAndFieldsComplete : Obligations.LogicAndFieldsComplete := by
  unfold Obligations.LogicAndFieldsComplete
  refine ⟨⟨?and, ?or, ?xor, ?andn, ?bsel, ?shl, ?shr, ?sha, ?rotb, ?popc, ?clz, ?masks⟩, ?bfx, ?bfi, ?crc, ?pack, ?unpk⟩
  case and => exact .of_whole valAnd
  case or => exact .of_whole valOr
  case xor => exact .of_whole valXor
  case andn => exact .of_whole valAndn
  case bsel => exact .of_whole valBsel
  case shl =>
    exact .of_lanes valShl (fun _ _ _ _ _ => Nat.mod_lt _ (Nat.two_pow_pos _)) (hv := fun x i _ => by simp only [← shl_eq]; rfl)
  case shr =>
    exact .of_lanes valShr (fun x i _ l _ => (Nat.div_le_self ..).trans_lt (lane_lt ..))
      (hv := fun x i _ => congrArg okNz (ofLanes_congr fun l _ => shr_eq _ (lane_lt ..)))
  case sha => exact .of_lanes valSha (fun _ _ _ _ _ => wrap_lt ..) (hv := fun x i _ => congrArg okNz (ofLanes_congr fun l _ => sha_eq ..))
  case rotb =>
    exact .of_lanes valRotb (fun x i _ l _ => rotb_lt (lane_lt ..) (Nat.mod_lt _ (slotW_pos x)))
      (hv := fun x i _ => by simp only [← Nat.shiftLeft_eq, ← Nat.shiftRight_eq_div_pow]; rfl)
  case popc =>
    refine .of_lanes valPopc (fun x i _ l _ => ?_) (hv := fun x i _ => by simp only [← popCount_eq]; rfl)
    exact (List.length_filter_le ..).trans_lt (by rw [List.length_range]; exact Nat.lt_two_pow_self)
  case clz =>
    refine .of_lanes valClz fun x i _ l _ => ?_
    have hw : slotW x < 2 ^ slotW x := Nat.lt_two_pow_self
    split <;> omega
  case masks => exact modWithin_of_masks (m := 3) (by simp [modMask])
  case bfx =>
    refine .of_lanes valBfx (fun x i hok l _ => ?_) (hv := fun x i _ => by simp only [← Nat.shiftRight_eq_div_pow]; rfl)
    have hn : immBits x 8 8 ≤ slotW x := (Nat.le_add_left ..).trans (field_le_width (.inl rfl) hok)
    dsimp only
    split
    · exact (Nat.mod_lt _ (Nat.two_pow_pos _)).trans_le (Nat.pow_le_pow_right (by decide) hn)
    · exact wrap_lt ..
  case bfi =>
    exact .of_lanes valBfi (fun x i hok l _ => bfi_lt _ (field_le_width (.inr rfl) hok) (lane_lt ..))
      (hv := fun x i _ => by simp only [← Nat.shiftLeft_eq, ← Nat.shiftRight_eq_div_pow]; rfl)
  case crc => exact .of_whole valCrc
  case pack =>
    refine .of_val valPack fun x i _ => ⟨_, rfl, rfl, rfl, fun l hl => ?_⟩
    have hlow : l < 2 * (256 / slotW x) := by omega
    have hhigh : l + 256 / slotW x < 2 * (256 / slotW x) := by omega
    rw [lane_ofLanes _ _ _ _ (half_lanes_le x) hlow, lane_ofLanes _ _ _ _ (half_lanes_le x) hhigh, if_pos hl, if_neg (by omega), Nat.add_sub_cancel]
    exact ⟨Nat.mod_eq_of_lt (wrap_lt ..), Nat.mod_eq_of_lt (wrap_lt ..)⟩
  case unpk =>
    refine .of_val valUnpk fun x i _ => ⟨_, rfl, rfl, rfl, fun l hl => ?_⟩
    rw [lane_ofLanes _ _ _ _ (double_lanes_le x) hl, Nat.mod_eq_of_lt (wrap_lt ..)]
    rfl

end Sys2Proof.Machine
end

section
/-!
PROOF. Compares, selects and lane masks (R126-R129).
-/
namespace Sys2Proof.Machine

/-- An instruction that compares lanes completes with a mask, and RC says whether any lane is true (R126). -/
theorem Gives.of_mask {o : Op} {lat : Slot → Opnds → Nat} {ok : Slot → Opnds → Prop} {w : Slot → Opnds → Nat}
    {c : Slot → Opnds → Nat → Prop} (f : PureFn)
    (hf : ∀ x i, ok x i → ∃ b : Nat → Bool, f x i = compareLanes (w x i) b ∧ ∀ l, b l = true ↔ c x i l)
    (he : ∀ x s, exec (o.instr x) s = firePure o x s f := by intros; rfl) (hd : opDst o = .result := by rfl)
    (hl : ∀ x i, ok x i → opLat o x (slotLanes o x i.fmttab) = lat x i := by intros; rfl) : Gives o lat ok (MaskAny w c) := by
  refine .of_val f (fun x i hok => ?_) he hd hl
  obtain ⟨b, hv, hb⟩ := hf x i hok
  refine ⟨_, hv, rfl, fun l hl => ?_, ?_⟩
  · have hlt : maskLane (w x i) (b l) < 2 ^ w x i := by
      have hp := Nat.two_pow_pos (w x i)
      unfold maskLane; split <;> omega
    dsimp only
    rw [lane_ofLanes _ _ _ _ (Nat.mul_div_le ..) hl, Nat.mod_eq_of_lt hlt, ← hb, maskLane]
    exact ⟨fun h => if_pos h, fun h => if_neg h⟩
  · simp only [List.any_eq_true, List.mem_range, hb]

/-- A float compare of a floating slot compares lane by lane (R127). -/
theorem floatCompare_eq {x : Slot} {i : Opnds} (h : floatSlot x i) (f : Option Int → Bool) :
    floatCompare x i f = compareLanes (fmtAt i.fmttab (slotF x)).fam.width
      (fun l => f ((fl (fmtAt i.fmttab (slotF x)) i.a l).cmp (fl (fmtAt i.fmttab (slotF x)) i.b l))) := if_pos h

/-- A compare answers below, equal or above, if it answers (R127). -/
theorem FVal.cmp_some {a b : FVal} {c : Int} (h : a.cmp b = some c) : c = -1 ∨ c = 0 ∨ c = 1 := by
  unfold FVal.cmp at h
  split at h
  case h_1 | h_2 => cases h
  all_goals
    cases h
    split_ifs <;> decide

/-- A compare answers unless one of the values is NaN (R127). -/
theorem FVal.cmp_eq_none_iff (a b : FVal) : a.cmp b = none ↔ a.isNan = true ∨ b.isNan = true := by
  cases a <;> cases b <;> simp [FVal.cmp, FVal.isNan]

/-- At most: below or equal (R127). -/
theorem cmp_le_iff (a b : FVal) : (a.cmp b == some (-1) || a.cmp b == some 0) = true ↔ ∃ c, a.cmp b = some c ∧ c ≤ 0 := by
  rw [Bool.or_eq_true, beq_iff_eq, beq_iff_eq]
  constructor
  · rintro (h | h) <;> exact ⟨_, h, by decide⟩
  · rintro ⟨c, h, hc⟩
    rcases FVal.cmp_some h with rfl | rfl | rfl
    · exact .inl h
    · exact .inr h
    · exact absurd hc (by decide)

/-- Settles O5: integer and float compares as masks of their conditions, selects by lanes, and the lane masks by what they find among the lanes. -/
theorem comparesAndSelectsComplete : Obligations.ComparesAndSelectsComplete := by
  unfold Obligations.ComparesAndSelectsComplete
  refine ⟨⟨?eq, ?ne, ?lt, ?le, ?gt, ?ge, ?tstz, ?tstnz, ?cmpMasks, ?tstzMask, ?tstnzMask⟩, ⟨?fcmeq, ?fcmlt, ?fcmle, ?fcmun⟩,
    ?sel, ?anyl, ?alll, ?firstl, ?selMasks⟩
  case eq => exact .of_mask valCmpeq fun _ _ _ => ⟨_, rfl, fun _ => decide_eq_true_iff⟩
  case ne => exact .of_mask valCmpne fun _ _ _ => ⟨_, rfl, fun _ => decide_eq_true_iff⟩
  case lt => exact .of_mask valCmplt fun _ _ _ => ⟨_, rfl, fun _ => decide_eq_true_iff⟩
  case le => exact .of_mask valCmple fun _ _ _ => ⟨_, rfl, fun _ => decide_eq_true_iff⟩
  case gt => exact .of_mask valCmpgt fun _ _ _ => ⟨_, rfl, fun _ => decide_eq_true_iff⟩
  case ge => exact .of_mask valCmpge fun _ _ _ => ⟨_, rfl, fun _ => decide_eq_true_iff⟩
  case tstz => exact .of_mask valTstz fun _ _ _ => ⟨_, rfl, fun _ => beq_iff_eq⟩
  case tstnz => exact .of_mask valTstnz fun _ _ _ => ⟨_, rfl, fun _ => bne_iff_ne⟩
  case cmpMasks => exact modWithin_of_masks (m := 7) (by simp [modMask])
  case tstzMask => exact modWithin_of_mask (m := 3) fun _ => rfl
  case tstnzMask => exact modWithin_of_mask (m := 3) fun _ => rfl
  case fcmeq => exact .of_mask valFcmeq fun _ _ h => ⟨_, floatCompare_eq h _, fun _ => beq_iff_eq⟩
  case fcmlt => exact .of_mask valFcmlt fun _ _ h => ⟨_, floatCompare_eq h _, fun _ => beq_iff_eq⟩
  case fcmle => exact .of_mask valFcmle fun _ _ h => ⟨_, floatCompare_eq h _, fun _ => cmp_le_iff ..⟩
  case fcmun => exact .of_mask valFcmun fun _ _ h => ⟨_, floatCompare_eq h _, fun _ => beq_iff_eq.trans (FVal.cmp_eq_none_iff ..)⟩
  case sel =>
    refine .of_lanes valSel (fun _ _ _ _ _ => by split <;> exact lane_lt ..) (hv := fun x i _ => congrArg okNz (ofLanes_congr fun l _ => ?_))
    exact if_congr bne_iff_ne rfl rfl
  case anyl =>
    refine .of_val valAnyl fun x i _ => ⟨_, rfl, rfl, ?_, rfl⟩
    simp [anyLane]
  case alll =>
    refine .of_val valAlll fun x i _ => ⟨_, rfl, rfl, ?_, rfl⟩
    simp [allLanes]
  case firstl =>
    refine .of_val valFirstl fun x i _ => ?_
    have hn : 256 / slotW x < 2 ^ 256 := (Nat.div_le_self ..).trans_lt (by decide)
    unfold valFirstl
    dsimp only
    split
    · next l hl =>
      obtain ⟨hnz, hlt, hbelow⟩ := List.find?_range_eq_some.1 hl
      rw [List.mem_range] at hlt
      refine ⟨_, rfl, rfl, fun _ => ?_, nofun⟩
      rw [BitVec.toNat_ofNat, Nat.mod_eq_of_lt (hlt.trans hn)]
      exact ⟨hlt, bne_iff_ne.1 hnz, fun j hj => by simpa using hbelow j hj⟩
    · next hl =>
      refine ⟨_, rfl, rfl, nofun, fun _ => ⟨rfl, fun l hlt => ?_⟩⟩
      simpa using List.find?_eq_none.1 hl l (List.mem_range.2 hlt)
  case selMasks => exact modWithin_of_masks (m := 3) (by simp [modMask])

end Sys2Proof.Machine
end
